-- ==== Sys2Proof/Word.lean ====
section
/-! DEFINITION. The word types of the Solune SX960 and their plainest arithmetic (00_scope R3: little-endian, bits numbered from 0). -/

namespace Sys2Proof

abbrev Byte := BitVec 8
abbrev Word32 := BitVec 32
abbrev Word64 := BitVec 64
abbrev Word128 := BitVec 128

/-- A set of lanes: bit `l` stands for lane `l` (R29, R36). -/
abbrev LaneMask := BitVec 64

/-- A lane number, 0 to 63. -/
abbrev Lane := Fin 64

/-- The bytes of a number, lowest first (R3). -/
def bytesLE : Nat → Nat → List Byte
  | 0, _ => []
  | k + 1, x => BitVec.ofNat 8 x :: bytesLE k (x / 256)

/-- The number that a list of bytes holds, lowest byte first (R3). -/
def ofBytesLE : List Byte → Nat
  | [] => 0
  | b :: bs => b.toNat + 256 * ofBytesLE bs

end Sys2Proof
end

