-- ==== Sys2Proof/Config.lean ====
section
/-! DEFINITION. What one SX960 implementation or run fixes and the spec leaves open: constants with no body, so that nothing can be proved of their values (see the log entries named at each). -/

namespace Sys2Proof.Config

/-- A choice the spec leaves open, numbered by a counter of State: the base of a crew's space among the fitting ones (R53), the copy engine that takes a command (R259), the old or new translation or code bytes while an invalidation is outstanding (R361, R134), the leaf used in a broken page group (R358), and the others that log entry 5 lists. -/
opaque choice : Nat → Nat

/-- The value a cox core reads from a special that describes a crew or gang place (R145 gives it no value there). Log entry 6. -/
opaque coxSpecial : Nat → Nat

/-- The number of 256-byte units that the codec of cp.cmp stores a 4 KiB block in, less one, reduced modulo 16 by its user (R269: 1 to 16, the same for the same data). Log entry 7. -/
opaque codecUnits : List Byte → Nat

/-- Whether 0 × ∞ plus a quiet NaN counts as an invalid operation of ffma and hfma2 (IEEE 754-2019 leaves it to the implementation; R93 and R99 do not say). Log entry 8. -/
opaque fmaZeroInfNan : Bool

/-- How the body of a management answer whose layout no rule gives stands in its datagram, from its parts. Log entry 82. -/
opaque answerBytes : List Byte → List Byte

end Sys2Proof.Config
end

