-- ==== Sys2Proof/Syntax.lean ====
section
/-! DEFINITION. The syntax of the SX960: operands, operand shapes, and `Instr`, one constructor for each row of spec/opcode_table.json.
Rows that are steps of engines or of the package (and not encoded instructions) are constructors whose arguments say which engine, die, gang or datagram the step is about. -/

namespace Sys2Proof

/-! ## Operands (06 R135, R144 to R149) -/

/-- A predicate register p0 to p11. -/
abbrev PReg := Fin 12

/-- The guard of an instruction (R135): always, or a predicate. -/
inductive Guard
  | always
  | p (n : PReg)
deriving DecidableEq, Repr

/-- The specials of Table 6.8. -/
inductive Special
  | lane | gang | crew | tidX | tidY | tidZ | cixX | cixY | cixZ | ncixX | ncixY | ncixZ | ntidX | ntidY | ntidZ
  | ngang | width | core | quad | die | evslot | amask | tick | args | tileX | tileY | tileZ | accbase | acclim | zero
deriving DecidableEq, Repr

/-- A source operand code (R144). `const n` is the inline constant of code 0x3C0 + n (R146). -/
inductive Src
  | v (n : Fin 768)
  | s (n : Fin 128)
  | spec (x : Special)
  | const (n : Fin 64)
deriving DecidableEq, Repr

/-- A destination operand code (R144). -/
inductive Dst
  | v (n : Fin 768)
  | s (n : Fin 128)
deriving DecidableEq, Repr

/-- A source slot that may carry a last-read mark (R71). -/
structure RSrc where
  src : Src
  last : Bool
deriving DecidableEq, Repr

/-- The lane pattern of a source modifier (R149). The segment code is 0 to 5. -/
inductive Swizzle
  | none
  | rot (seg : Fin 6) (d : Fin 64)
  | swap (seg : Fin 6) (d : Fin 64)
  | bcast (seg : Fin 6) (d : Fin 64)
deriving DecidableEq, Repr

/-- A source slot with modifier and last-read mark (R149, R71). -/
structure MSrc where
  src : Src
  last : Bool
  swz : Swizzle
  neg : Bool
deriving DecidableEq, Repr

/-- The rounding field of Forms M and IM (R140, R95): 0 takes FPMODE.RM. -/
inductive Rnd
  | dyn | rne | rtz | rdn | rup | rna
deriving DecidableEq, Repr

/-! ## Types (R143, R150, R151) -/

inductive IntTy | i32 | n32 | i64 | n64
deriving DecidableEq, Repr
inductive SIntTy | i32 | i64
deriving DecidableEq, Repr
inductive NTy | n32 | n64
deriving DecidableEq, Repr
inductive W32Ty | i32 | n32
deriving DecidableEq, Repr
/-- Types of lgc.min and lgc.max (Table 6.12). -/
inductive W64Ty | i64 | n64
deriving DecidableEq, Repr
inductive FltTy | f32 | f64
deriving DecidableEq, Repr
inductive HTy | f16 | bf16
deriving DecidableEq, Repr
inductive FcTy | f32 | f64 | f16 | bf16
deriving DecidableEq, Repr
/-- Types 0x0 to 0xE of Table 6.6. -/
inductive NumTy
  | i32 | n32 | i64 | n64 | i16 | n16 | i8 | n8 | f32 | f64 | f16 | bf16 | e4m3 | e5m2 | e2m1
deriving DecidableEq, Repr
/-- Destination types of cvtpk (R194). -/
inductive PkTy | i16 | n16 | i8 | n8 | f16 | bf16 | e4m3 | e5m2 | e2m1
deriving DecidableEq, Repr
/-- Types of redux and scan (R201). -/
inductive RedTy | i32 | n32 | i64 | n64 | f32 | f64
deriving DecidableEq, Repr
/-- Operations of redux, scan and redg (R201, R253). -/
inductive RedOp | add | min | max | and | or | xor
deriving DecidableEq, Repr
/-- Types of the atomics (R250). -/
inductive AtomTy | i32 | n32 | i64 | n64 | f32
deriving DecidableEq, Repr
/-- Operations of the atomics (R251). -/
inductive AtomOp | add | min | max | and | or | xor | exch | cas
deriving DecidableEq, Repr
/-- Types of nmr.cmd (R270). -/
inductive NmrTy | f32 | bf16 | f16 | i32 | n32
deriving DecidableEq, Repr
inductive NmrOp | sum | min | max
deriving DecidableEq, Repr
/-- Output types of acc.epi (R295). -/
inductive EpiTy | i32 | i8 | f32 | f16 | bf16 | e4m3 | e5m2
deriving DecidableEq, Repr

/-- lea: type and shift count (R178). -/
structure LeaTy where
  ty : NTy
  k : Fin 8
deriving DecidableEq, Repr
/-- idp4: signedness of the bytes of A and of B (R179). -/
structure IdpTy where
  aSigned : Bool
  bSigned : Bool
deriving DecidableEq, Repr
structure RedSel where
  ty : RedTy
  op : RedOp
deriving DecidableEq, Repr
structure AtomSel where
  ty : AtomTy
  op : AtomOp
deriving DecidableEq, Repr
structure NmrSel where
  ty : NmrTy
  op : NmrOp
deriving DecidableEq, Repr

/-- Condition codes of icmp (Table 8.5). -/
inductive ICond | eq | ne | lt | le | gt | ge
deriving DecidableEq, Repr
/-- Condition codes of fcmp (Table 8.5). -/
inductive FCond | eq | ne | lt | le | gt | ge | ord | uno | equ | neu | ltu | leu | gtu | geu
deriving DecidableEq, Repr

/-- Operand-store spaces (R52): per-thread (.p), crew (.c), quad (.q). -/
inductive Space | thr | crew | quad
deriving DecidableEq, Repr
/-- Access sizes of loads (Table 10.2). -/
inductive LdSz | n8 | i8 | n16 | i16 | b32 | b64 | b128
deriving DecidableEq, Repr
/-- Access sizes of stores (Table 10.2). -/
inductive StSz | n8 | n16 | b32 | b64 | b128
deriving DecidableEq, Repr
/-- Barrier and atomic scopes 1 to 6 (Table 2.4). -/
inductive Scope | gang | crew | quad | die | pkg | pod
deriving DecidableEq, Repr
/-- Path classes (Table 5.6). -/
inductive PathClass | lane | copy | gather | matrix | nmr
deriving DecidableEq, Repr

/-- The control and status registers of Tables 14.1 and 16.8. -/
inductive Csr
  | fpmode | fpflags | uevec | ef (n : Fin 6) | lc (n : Fin 3) | thrsn | ctx
  | sstatus | stvec | sepc | scause | stval | sinsn0 | sinsn1 | sscratch | cctx
  | fqbase | fqcap | fqhead | fqtail | fqsem | grsel | grown
  | psel | pblk | plive | pshad | pstate | puev
  | ctxtab | lreq (d : Fin 4) | rreq (d : Fin 4) | mgva | mgctl | mgfrm | mgcmp | mgstat
deriving DecidableEq, Repr

/-! ## Operand shapes -/

/-- Form M: `T` type and sub-function, `B` and `C` the second and third source, `S` the SAT bit, `R` the RND field, `X` the XF field; an unused field is `Unit`. -/
structure AluM (T B C S R X : Type) where
  g : Guard
  ty : T
  d : Dst
  a : MSrc
  b : B
  c : C
  sat : S
  rnd : R
  xf : X
deriving DecidableEq, Repr

/-- Form B with a destination and one source. -/
structure AluB (T : Type) where
  g : Guard
  ty : T
  d : Dst
  a : RSrc
deriving DecidableEq, Repr

/-- lanf, Form IM (R181). -/
structure LanfOps where
  g : Guard
  ty : NTy
  d : Dst
  a : MSrc
  b : MSrc
  c : RSrc
  k : BitVec 8
deriving DecidableEq, Repr

structure MoviOps where
  g : Guard
  ty : IntTy
  d : Dst
  imm : Word32
deriving DecidableEq, Repr

/-- movx (R187): no marks and no modifiers. -/
structure MovxOps where
  g : Guard
  ty : NTy
  d : Dst
  a : Src
  b : Src
deriving DecidableEq, Repr

/-- Form CMP (R138): `k` names the predicate pair p(2k), p(2k+1). -/
structure CmpOps (T N : Type) where
  g : Guard
  ty : T
  k : Fin 6
  cnd : N
  a : RSrc
  b : RSrc
deriving DecidableEq, Repr

structure QuorumT where
  g : Guard
  k : Fin 6
  q : PReg
  t : Src
deriving DecidableEq, Repr

structure QuorumS where
  g : Guard
  k : Fin 6
  q : PReg
deriving DecidableEq, Repr

/-- pand, por, pxor (R197): `none` is the always-true source. -/
structure Pred2 where
  g : Guard
  d : PReg
  a : Option PReg
  b : Option PReg
deriving DecidableEq, Repr

structure Pred1 where
  g : Guard
  d : PReg
  a : Option PReg
deriving DecidableEq, Repr

/-- shfl (R198): the segment size is 2^(q+1). -/
structure ShflOps where
  g : Guard
  ty : NTy
  d : Dst
  a : RSrc
  b : RSrc
  q : Fin 6
deriving DecidableEq, Repr

structure BallotOps where
  g : Guard
  d : Dst
  q : Option PReg
deriving DecidableEq, Repr

structure BraOps where
  g : Guard
  off : BitVec 40
deriving DecidableEq, Repr

structure CallOps where
  g : Guard
  d : Dst
  off : BitVec 40
deriving DecidableEq, Repr

structure GA where
  g : Guard
  a : Src
deriving DecidableEq, Repr

structure GAB where
  g : Guard
  a : Src
  b : Src
deriving DecidableEq, Repr

structure GABC where
  g : Guard
  a : Src
  b : Src
  c : Src
deriving DecidableEq, Repr

structure GD where
  g : Guard
  d : Dst
deriving DecidableEq, Repr

structure GDA where
  g : Guard
  d : Dst
  a : Src
deriving DecidableEq, Repr

structure GDAB where
  g : Guard
  d : Dst
  a : Src
  b : Src
deriving DecidableEq, Repr

structure GDABC where
  g : Guard
  d : Dst
  a : Src
  b : Src
  c : Src
deriving DecidableEq, Repr

/-- brx and ret (R207). -/
structure BrxOps where
  g : Guard
  a : RSrc
deriving DecidableEq, Repr

structure CallxOps where
  g : Guard
  d : Dst
  a : RSrc
deriving DecidableEq, Repr

/-- lp (R213): the distance to the label in 4-byte words. -/
structure LpOps where
  g : Guard
  a : Src
  dist : BitVec 12
deriving DecidableEq, Repr

/-- chk.begin (R219, R220): the fallback distance in 4-byte words. -/
structure ChkBeginOps where
  g : Guard
  d : Dst
  off : BitVec 30
deriving DecidableEq, Repr

/-- The barrier instructions (R222). -/
structure BarOps where
  g : Guard
  scope : Scope
  a : Src
deriving DecidableEq, Repr

/-- fence (R225): `none` is scope .thread. -/
structure FenceOps where
  g : Guard
  scope : Option Scope
deriving DecidableEq, Repr

structure FenceXOps where
  g : Guard
  x : PathClass
  y : PathClass
deriving DecidableEq, Repr

structure WaitOps where
  g : Guard
  ld : BitVec 6
  st : BitVec 6
  cp : BitVec 6
  tl : BitVec 6
deriving DecidableEq, Repr

/-- evbind (R232): the handler distance in 4-byte words. -/
structure EvbindOps where
  g : Guard
  a : Src
  b : Src
  c : Src
  off : BitVec 30
deriving DecidableEq, Repr

/-- mbx.take (R241). -/
structure MbxTakeOps where
  g : Guard
  d : Dst
  a : Src
  k : PReg
deriving DecidableEq, Repr

/-- sem.try (R244). -/
structure SemTryOps where
  g : Guard
  a : Src
  b : Src
  k : PReg
deriving DecidableEq, Repr

/-- cmp.rd (R264). -/
structure CmpRdOps where
  g : Guard
  d : Dst
  a : Src
  b : Src
  k : PReg
deriving DecidableEq, Repr

/-- ldo, and ldg with `P` = Unit (R245). -/
structure LdOps (P : Type) where
  g : Guard
  sp : P
  sz : LdSz
  d : Dst
  a : RSrc
  b : RSrc
  imm : Word32
deriving DecidableEq, Repr

/-- sto, and stg with `P` = Unit (R245). -/
structure StOps (P : Type) where
  g : Guard
  sp : P
  sz : StSz
  a : RSrc
  b : RSrc
  c : RSrc
  imm : Word32
deriving DecidableEq, Repr

/-- atomo with `P` = Space, atomg with `P` = Scope (R250). -/
structure AtomOps (P : Type) where
  g : Guard
  sel : AtomSel
  sp : P
  d : Dst
  a : RSrc
  b : RSrc
  c : RSrc
deriving DecidableEq, Repr

structure RedgOps where
  g : Guard
  ty : AtomTy
  op : RedOp
  sp : Scope
  a : RSrc
  b : RSrc
deriving DecidableEq, Repr

/-- The two global-or-crew spaces of an engine command (Table 10.6). -/
inductive ESpace | glob | crew
deriving DecidableEq, Repr

/-- One word of a shape record (R141, R142): literal bits [30:0], or a marker naming a scalar register. -/
inductive ShapeWord
  | lit (w : BitVec 31)
  | sub (n : Fin 128)
deriving DecidableEq, Repr

structure Shape where
  q0 : ShapeWord
  q1 : ShapeWord
  q2 : ShapeWord
  q3 : ShapeWord
deriving DecidableEq, Repr

structure CpLinOps where
  g : Guard
  a : Src
  b : Src
  c : Src
  ssp : ESpace
  dsp : ESpace
  k : Src
deriving DecidableEq, Repr

structure CpTenOps where
  g : Guard
  a : Src
  b : Src
  c : Src
  ssp : ESpace
  dsp : ESpace
  k : Src
  shape : Shape
deriving DecidableEq, Repr

/-- cp.gat (`sp` is DSP) and cp.sct (`sp` is SSP) (R268). -/
structure CpRowOps where
  g : Guard
  a : Src
  b : Src
  c : Src
  x : Src
  sp : ESpace
  row : BitVec 16
  stride : BitVec 24
  k : Src
deriving DecidableEq, Repr

structure CpEncOps where
  g : Guard
  a : Src
  b : Src
  c : Src
  x : Src
  k : Src
deriving DecidableEq, Repr

structure CpDecOps where
  g : Guard
  a : Src
  b : Src
  c : Src
  k : Src
deriving DecidableEq, Repr

structure NmrOps where
  g : Guard
  sel : NmrSel
  a : Src
  b : Src
  c : Src
  x : Src
  acc : Bool
  row : BitVec 16
  stride : BitVec 24
  k : Src
deriving DecidableEq, Repr

structure NmrShapedOps where
  g : Guard
  sel : NmrSel
  a : Src
  b : Src
  acc : Bool
  k : Src
  shape : Shape
deriving DecidableEq, Repr

structure TcfgOps where
  g : Guard
  m : Fin 16
  a : Src
deriving DecidableEq, Repr

structure TcfgrOps where
  g : Guard
  d : Dst
  m : Fin 16
deriving DecidableEq, Repr

/-- tld and tst (R285): `part` none is the element area, some false E8M0 and some true S24 scales. -/
structure TileMoveOps where
  g : Guard
  crew : Bool
  m : Fin 16
  a : Src
  b : Src
  part : Option Bool
deriving DecidableEq, Repr

structure TzeroOps where
  g : Guard
  m : Fin 16
deriving DecidableEq, Repr

/-- mma and mmas (R290). -/
structure MmaOps where
  g : Guard
  t : Fin 64
  a : Fin 16
  b : Fin 16
  zero : Bool
  sat : Bool
deriving DecidableEq, Repr

structure AccZeroOps where
  g : Guard
  t : Fin 64
deriving DecidableEq, Repr

/-- acc.ld and acc.st (R293). -/
structure AccMoveOps where
  g : Guard
  t : Fin 64
  a : Src
  b : Src
  crew : Bool
deriving DecidableEq, Repr

structure AccRdOps where
  g : Guard
  d : Dst
  t : Fin 64
  b : Src
deriving DecidableEq, Repr

/-- acc.epi (R295): `oty` is the field OTY as encoded, which the instruction itself checks (R289 step 5); `nr` and `nc` hold rows - 1 and columns - 1. -/
structure AccEpiOps where
  g : Guard
  t : Fin 64
  a : Src
  b : Src
  c : Src
  alpha : Word32
  oty : BitVec 4
  relu : Bool
  sat : Bool
  aint : Bool
  crew : Bool
  nr : Fin 32
  nc : Fin 32
deriving DecidableEq, Repr

structure ImmOps where
  g : Guard
  imm : Word32
deriving DecidableEq, Repr

structure CsrrOps where
  g : Guard
  d : Dst
  csr : Csr
deriving DecidableEq, Repr

/-- The operands of csrw or csrx of one register (R311). -/
inductive CsrPut
  | w (g : Guard) (a : Src)
  | x (g : Guard) (d : Dst) (a : Src) (b : Src)
deriving DecidableEq, Repr

structure CsrwOps where
  g : Guard
  csr : Csr
  a : Src
deriving DecidableEq, Repr

structure CsrxOps where
  g : Guard
  csr : Csr
  d : Dst
  a : Src
  b : Src
deriving DecidableEq, Repr

/-! ## Arguments of the steps that no instruction encodes -/

/-- The allocation units of R60 (Table 3.3) that expire in one step: every vector register of a gang whose expiry tick is the present one, one thread's space, a static crew part, one dynamic block. -/
inductive AllocUnit
  | regs (gang : Nat)
  | thr (gang : Nat) (lane : Lane)
  | static (crew : Nat)
  | block (crew : Nat) (start : Nat)
deriving DecidableEq, Repr

/-- A management datagram of R404 (the OP stands in the constructor that carries it). -/
structure Datagram where
  ver : Nat
  len : Nat
  seq : Nat
  tag : List Byte
  payload : List Byte
deriving DecidableEq, Repr

/-- A pod semaphore signal from another package (R402). -/
structure PodSignal where
  name : Word32
  amount : Word32
  ctx : Nat
deriving DecidableEq, Repr

/-- A pod barrier arrival from another package (R344, R402) of its gang `who`. `exited` marks an exit that counts as an arrival. -/
structure PodArrival where
  job : Nat
  slot : Nat
  who : Nat
  exited : Bool
deriving DecidableEq, Repr

/-- A request of another package for a pod-shared page of this one (R366). -/
structure PageRequest where
  ctx : Nat
  va : Nat
  pkg : Nat
deriving DecidableEq, Repr

/-- What answers a migration started here (R366): the 4 KiB sent by the owner, or its refusal. -/
inductive PageAnswer
  | page (data : List Byte)
  | refused
deriving DecidableEq, Repr

/-- Where a soft error strikes (R369, Table 17.2). -/
inductive ErrorSite
  | reg (gang : Nat) (lane : Lane) (reg : Nat)
  | thrWord (gang : Nat) (lane : Lane) (addr : Nat)
  | crewWord (crew : Nat) (addr : Nat)
  | tileWord (crew : Nat) (tile : Fin 16) (word : Nat)
  | accValue (quad : Nat) (tile : Fin 64) (index : Nat) (shadow : Bool)
  | line (la : Nat)
  | remoteCopy (die : Fin 4) (la : Nat)
  | codeBytes (quad : Nat) (block : Nat)
  | loopBytes (gang : Nat) (va : Nat)
  | gangRecord (gang : Nat)
  | crewRecord (crew : Nat)
  | command (cmd : Nat)
  | request (req : Nat)
deriving DecidableEq, Repr

structure SoftErrorArg where
  site : ErrorSite
  corrected : Bool
deriving DecidableEq, Repr

/-- What the stroke chooses at a commit: the open chunks that its signatures report falsely (R113), and how many of the last deferred effects are left for later steps (R121). -/
structure CommitChoice where
  victims : List Nat
  later : Nat
deriving DecidableEq, Repr

/-- One instruction or one step of the part: one constructor for each row of spec/opcode_table.json, in the table's order. -/
inductive Instr
  | iadd (o : AluM IntTy MSrc Unit Bool Unit Unit)
  | isub (o : AluM IntTy MSrc Unit Bool Unit Unit)
  | iaddc (o : AluM W32Ty MSrc (Option PReg) Unit Unit (Option PReg))
  | isubb (o : AluM W32Ty MSrc (Option PReg) Unit Unit (Option PReg))
  | imul (o : AluM IntTy MSrc Unit Bool Unit Unit)
  | imulhi (o : AluM IntTy MSrc Unit Unit Unit Unit)
  | imad (o : AluM IntTy MSrc RSrc Bool Unit Unit)
  | imin (o : AluM IntTy MSrc Unit Unit Unit Unit)
  | imax (o : AluM IntTy MSrc Unit Unit Unit Unit)
  | iabs (o : AluM SIntTy Unit Unit Bool Unit Unit)
  | lea (o : AluM LeaTy MSrc Unit Unit Unit Unit)
  | idp4 (o : AluM IdpTy MSrc RSrc Bool Unit Unit)
  | mov (o : AluB NTy)
  | movi (o : MoviOps)
  | movxRd (o : MovxOps)
  | movxWr (o : MovxOps)
  | sel (o : AluM NTy MSrc PReg Unit Unit Unit)
  | and (o : AluM NTy MSrc Unit Unit Unit Unit)
  | or (o : AluM NTy MSrc Unit Unit Unit Unit)
  | xor (o : AluM NTy MSrc Unit Unit Unit Unit)
  | andn (o : AluM NTy MSrc Unit Unit Unit Unit)
  | not (o : AluB NTy)
  | lanf (o : LanfOps)
  | shl (o : AluM NTy MSrc Unit Unit Unit Unit)
  | shr (o : AluM NTy MSrc Unit Unit Unit Unit)
  | sar (o : AluM SIntTy MSrc Unit Unit Unit Unit)
  | fshL (o : AluM Unit MSrc RSrc Unit Unit Unit)
  | fshR (o : AluM Unit MSrc RSrc Unit Unit Unit)
  | popc (o : AluB NTy)
  | clz (o : AluB NTy)
  | ctz (o : AluB NTy)
  | brev (o : AluB NTy)
  | bfe (o : AluM IntTy MSrc Unit Unit Unit Unit)
  | bfi (o : AluM NTy MSrc RSrc Unit Unit Unit)
  | bpick (o : AluM Unit MSrc RSrc Unit Unit Unit)
  | icmp (o : CmpOps IntTy ICond)
  | fcmp (o : CmpOps FcTy FCond)
  | fadd (o : AluM FltTy MSrc Unit Bool Rnd Unit)
  | fsub (o : AluM FltTy MSrc Unit Bool Rnd Unit)
  | fmul (o : AluM FltTy MSrc Unit Bool Rnd Unit)
  | ffma (o : AluM FltTy MSrc RSrc Bool Rnd Unit)
  | fmin (o : AluM FltTy MSrc Unit Unit Unit Unit)
  | fmax (o : AluM FltTy MSrc Unit Unit Unit Unit)
  | fabs (o : AluB FltTy)
  | frnd (o : AluM FltTy Unit Unit Unit Rnd Unit)
  | fclass (o : AluB FltTy)
  | fscale (o : AluM FltTy MSrc Unit Bool Rnd Unit)
  | hadd2 (o : AluM HTy MSrc Unit Bool Rnd Bool)
  | hmul2 (o : AluM HTy MSrc Unit Bool Rnd Bool)
  | hfma2 (o : AluM HTy MSrc RSrc Bool Rnd Bool)
  | hmin2 (o : AluM HTy MSrc Unit Unit Unit Bool)
  | hmax2 (o : AluM HTy MSrc Unit Unit Unit Bool)
  | cvt (o : AluM NumTy Unit Unit Bool Rnd NumTy)
  | cvtpk (o : AluM PkTy MSrc RSrc Bool Rnd Unit)
  | cvtscToe8 (o : AluM Unit Unit Unit Unit Rnd Unit)
  | cvtscTos24 (o : AluM Unit Unit Unit Unit Rnd Unit)
  | cvtscFrome8 (o : AluM Unit Unit Unit Unit Unit Unit)
  | cvtscFroms24 (o : AluM Unit Unit Unit Unit Unit Unit)
  | frcp (o : AluM Unit Unit Unit Bool Unit Unit)
  | frsq (o : AluM Unit Unit Unit Bool Unit Unit)
  | fsqrt (o : AluM FltTy Unit Unit Bool Rnd Unit)
  | fexp2 (o : AluM Unit Unit Unit Bool Unit Unit)
  | flog2 (o : AluM Unit Unit Unit Bool Unit Unit)
  | fsin (o : AluM Unit Unit Unit Bool Unit Unit)
  | fcos (o : AluM Unit Unit Unit Bool Unit Unit)
  | ftanh (o : AluM Unit Unit Unit Bool Unit Unit)
  | queuedResultWrite (gang id : Nat)
  | pand (o : Pred2)
  | por (o : Pred2)
  | pxor (o : Pred2)
  | pnot (o : Pred1)
  | pmov (o : Pred1)
  | shflIdx (o : ShflOps)
  | shflUp (o : ShflOps)
  | shflDown (o : ShflOps)
  | shflXor (o : ShflOps)
  | quorumGe (o : QuorumT)
  | quorumLt (o : QuorumT)
  | quorumSame (o : QuorumS)
  | ballot (o : BallotOps)
  | redux (o : AluM RedSel Unit Unit Unit Rnd Unit)
  | scan (o : AluM RedSel Unit Unit Unit Rnd Bool)
  | lgcDiv (o : AluM W32Ty MSrc Unit Unit Unit Unit)
  | lgcRem (o : AluM W32Ty MSrc Unit Unit Unit Unit)
  | lgcRcp (o : AluM Unit Unit Unit Unit Unit Unit)
  | lgcRsq (o : AluM Unit Unit Unit Unit Unit Unit)
  | lgcSin (o : AluM Unit Unit Unit Unit Unit Unit)
  | lgcCos (o : AluM Unit Unit Unit Unit Unit Unit)
  | lgcEx2 (o : AluM Unit Unit Unit Unit Unit Unit)
  | lgcLg2 (o : AluM Unit Unit Unit Unit Unit Unit)
  | lgcMin (o : AluM W64Ty MSrc Unit Unit Unit Unit)
  | lgcMax (o : AluM W64Ty MSrc Unit Unit Unit Unit)
  | legacyRequestService (die : Fin 4)
  | bra (o : BraOps)
  | call (o : CallOps)
  | brx (o : BrxOps)
  | callx (o : CallxOps)
  | ret (o : BrxOps)
  | exit (g : Guard)
  | nop (g : Guard)
  | nopL (g : Guard)
  | lp (o : LpOps)
  | lpbrk (g : Guard)
  | join (o : GA)
  | chkBegin (o : ChkBeginOps)
  | chkEnd (g : Guard)
  | chkAbort (o : GA)
  | chkCut (g : Guard)
  | barArrive (o : BarOps)
  | barWait (o : BarOps)
  | barSync (o : BarOps)
  | fence (o : FenceOps)
  | fenceX (o : FenceXOps)
  | wait (o : WaitOps)
  | stallRelease (gang : Nat) (lead : Lane)
  | evbind (o : EvbindOps)
  | evunbind (o : GA)
  | evmask (o : GDA)
  | evpoll (o : GDA)
  | waitany (o : GDA)
  | eventDelivery (gang : Nat)
  | timerExpiry (gang : Nat) (slot : Fin 16)
  | mbxPost (o : GAB)
  | mbxTake (o : MbxTakeOps)
  | semSig (o : GAB)
  | semTry (o : SemTryOps)
  | semWait (o : GAB)
  | ldo (o : LdOps Space)
  | sto (o : StOps Space)
  | ldg (o : LdOps Unit)
  | stg (o : StOps Unit)
  | loadDataArrival (gang id : Nat)
  | atomo (o : AtomOps Space)
  | atomg (o : AtomOps Scope)
  | redg (o : RedgOps)
  | oalloc (o : GDAB)
  | ofree (o : GA)
  | orenew (o : GA)
  | oqueryBase (o : GD)
  | oqueryFmask (o : GD)
  | oqueryCode (o : GDA)
  | oqueryExpiry (o : GDA)
  | cpLin (o : CpLinOps)
  | cpTen (o : CpTenOps)
  | cpGat (o : CpRowOps)
  | cpSct (o : CpRowOps)
  | cpCmpEnc (o : CpEncOps)
  | cpCmpDec (o : CpDecOps)
  | nmrCmd (o : NmrOps)
  | nmrCmdShaped (o : NmrShapedOps)
  | nmrFlush (o : GA)
  | enginePiece (id choice : Nat)
  | commandCompletion (cmd : Nat)
  | cmpRd (o : CmpRdOps)
  | cmpSet (o : GAB)
  | tskEnq (o : GAB)
  | launch (o : GA)
  | joinBlockDecrement (id : Nat)
  | tcfg (o : TcfgOps)
  | tcfgr (o : TcfgrOps)
  | tld (o : TileMoveOps)
  | tst (o : TileMoveOps)
  | tzero (o : TzeroOps)
  | mma (o : MmaOps)
  | mmasE8 (o : MmaOps)
  | mmasS24 (o : MmaOps)
  | accZero (o : AccZeroOps)
  | accLd (o : AccMoveOps)
  | accSt (o : AccMoveOps)
  | accRd (o : AccRdOps)
  | accEpi (o : AccEpiOps)
  | accwin (o : GAB)
  | matrixGrant (quad : Nat) (dataPort : Bool)
  | matrixRequestComplete (req : Nat)
  | epilogueCaptureWrite (req : Nat)
  | trap (o : ImmOps)
  | sysc (o : ImmOps)
  | escape (w0 : Word64)
  | eret (g : Guard)
  | csrr (o : CsrrOps)
  | csrw (o : CsrwOps)
  | csrx (o : CsrxOps)
  | fpmodeWrite (o : CsrPut)
  | uevecWrite (o : CsrPut)
  | fqbaseWrite (o : CsrPut)
  | fqcapWrite (o : CsrPut)
  | fqheadWrite (o : CsrPut)
  | grselWrite (o : CsrPut)
  | grownWrite (o : CsrPut)
  | pblkWrite (o : CsrPut)
  | pliveWrite (o : CsrPut)
  | pshadWrite (o : CsrPut)
  | puevWrite (o : CsrPut)
  | ctxtabWrite (o : CsrPut)
  | migrationGo (o : CsrPut)
  | migrationOwnerRelease (r : PageRequest)
  | migrationReceive (a : PageAnswer)
  | migrationTimeout
  | tlbinv (o : GABC)
  | tlbsync (g : Guard)
  | icinv (o : GAB)
  | pswap (o : GDA)
  | haltStop (o : GDAB)
  | haltRun (o : GDAB)
  | engineStopAck (part : Fin 32)
  | accspill (o : GABC)
  | accfill (o : GAB)
  | fltres (o : GDABC)
  | chunkCommit (gang : Nat) (choice : CommitChoice)
  | strokeTokenGrant
  | issueCycle (core : Nat)
  | retentionTick
  | allocationExpiry (u : AllocUnit)
  | operandStoreRefresh (die : Fin 4)
  | hbmRefresh (stack : Fin 8) (bank : Nat)
  | pageWaitRetry (id : Nat)
  | faultRecordEntry
  | taskQueueAdmission (q : Fin 64)
  | crewPlacement (item quad : Nat)
  | quadSteal (item quad : Nat)
  | crewRelease (crew : Nat)
  | podSignalReceive (x : PodSignal)
  | podBarrierArrivalReceive (x : PodArrival)
  | supplySag (die : Fin 4)
  | sagRecovery (die : Fin 4)
  | temperatureChange (die : Fin 4) (celsius : Nat)
  | packagePowerLimit (watts : Nat)
  | thermalTrip (die : Fin 4)
  | powerOnReset
  | warmReset
  | counterStoreWrite
  | ident (x : Datagram)
  | portcfg (x : Datagram)
  | portstat (x : Datagram)
  | counters (x : Datagram)
  | devinfo (x : Datagram)
  | recover (x : Datagram)
  | reset (x : Datagram)
  | dbgread (x : Datagram)
  | powerLoss
  | softError (x : SoftErrorArg)
  | scaleOutLinkChange (port : Fin 12) (up : Bool)
  | tlbInvalidationDone (id : Nat)
  | mgmtOtherOp (op : Nat) (x : Datagram)
deriving DecidableEq, Repr

end Sys2Proof
end

