-- ==== Sys2Proof/WellFormed.lean ====
section
/-! DEFINITION. Which syntactic instructions an encoding stands for: the field rules of 06 R136 to R149 and R71 that the types of Syntax.lean do not already hold, checked with no state (step 7 of R154).
Steps that no word encodes are not well-formed instructions. -/

namespace Sys2Proof

def Src.isV : Src → Bool
  | .v _ => true
  | _ => false

/-- A last-read mark needs a vector register (R71). -/
def RSrc.wf (x : RSrc) : Bool := !x.last || x.src.isV

/-- Distance below the segment size (R149). -/
def Swizzle.wf : Swizzle → Bool
  | .none => true
  | .rot seg d | .swap seg d | .bcast seg d => d.val < 2 ^ (seg.val + 1)

/-- Only a vector register takes a lane pattern (R149). -/
def MSrc.wf (x : MSrc) : Bool :=
  (!x.last || x.src.isV) && (x.swz == .none || x.src.isV) && x.swz.wf

def AluM.wf1 {T B C S R X : Type} (o : AluM T B C S R X) : Bool := o.a.wf
def AluM.wf2 {T C S R X : Type} (o : AluM T MSrc C S R X) : Bool := o.a.wf && o.b.wf
def AluM.wf3 {T S R X : Type} (o : AluM T MSrc RSrc S R X) : Bool := o.a.wf && o.b.wf && o.c.wf

/-- The encoding of an unused source slot. -/
def RSrc.unused : RSrc := ⟨.v 0, false⟩

def NumTy.isInt : NumTy → Bool
  | .i32 | .n32 | .i64 | .n64 | .i16 | .n16 | .i8 | .n8 => true
  | _ => false

def PkTy.is16 : PkTy → Bool
  | .i16 | .n16 | .f16 | .bf16 => true
  | _ => false

def RedTy.isFlt : RedTy → Bool
  | .f32 | .f64 => true
  | _ => false

def RedOp.isBitwise : RedOp → Bool
  | .and | .or | .xor => true
  | _ => false

/-- redux and scan (R201): bitwise operations on integers only; RND on floating-point addition only. -/
def redWf {X : Type} (o : AluM RedSel Unit Unit Unit Rnd X) : Bool :=
  o.a.wf && !(o.ty.ty.isFlt && o.ty.op.isBitwise) && (o.rnd == .dyn || (o.ty.ty.isFlt && o.ty.op == .add))

/-- Operations of R251 by type; C is used by .cas only. -/
def atomWf {P : Type} (o : AtomOps P) : Bool :=
  o.a.wf && o.b.wf && o.c.wf && (o.sel.op == .cas || o.c == RSrc.unused) &&
    (o.sel.ty != .f32 || o.sel.op == .add || o.sel.op == .exch || o.sel.op == .cas)

/-- Registers whose writes are rows of their own in the opcode table. -/
def Csr.ownRow : Csr → Bool
  | .fpmode | .uevec | .fqbase | .fqcap | .fqhead | .grsel | .grown | .pblk | .plive | .pshad | .puev | .ctxtab | .mgctl => true
  | _ => false

def barWf (o : BarOps) : Bool := o.scope != .gang || o.a == .v 0

def tileMoveWf (o : TileMoveOps) : Bool := o.part == none || o.b == .v 0

/-- Whether some word of the instruction map encodes `i`. -/
def Instr.wf : Instr → Bool
  | .iadd o | .isub o | .imul o => o.wf2
  | .iaddc o | .isubb o => o.wf2
  | .imulhi o | .imin o | .imax o => o.wf2
  | .imad o => o.wf3
  | .iabs o => o.wf1
  | .lea o => o.wf2
  | .idp4 o => o.wf3
  | .mov o | .not o | .popc o | .clz o | .ctz o | .brev o => o.a.wf
  | .movi _ => true
  | .movxRd _ | .movxWr _ => true
  | .sel o => o.wf2 && !o.a.neg && !o.b.neg
  | .and o | .or o | .xor o | .andn o | .shl o | .shr o => o.wf2
  | .lanf o => o.a.wf && o.b.wf && o.c.wf
  | .sar o => o.wf2
  | .fshL o | .fshR o | .bpick o => o.wf3
  | .bfe o => o.wf2
  | .bfi o => o.wf3
  | .icmp o => o.a.wf && o.b.wf
  | .fcmp o => o.a.wf && o.b.wf
  | .fadd o | .fsub o | .fmul o | .fscale o => o.wf2
  | .ffma o => o.wf3
  | .fmin o | .fmax o => o.wf2
  | .fabs o | .fclass o => o.a.wf
  | .frnd o => o.wf1
  | .hadd2 o | .hmul2 o => o.wf2
  | .hfma2 o => o.wf3
  | .hmin2 o | .hmax2 o => o.wf2
  | .cvt o => o.wf1 && (o.rnd == .dyn || !(o.ty.isInt && o.xf.isInt))
  | .cvtpk o => o.wf3 && (!o.ty.is16 || o.c == RSrc.unused)
  | .cvtscToe8 o | .cvtscTos24 o => o.wf1
  | .cvtscFrome8 o | .cvtscFroms24 o => o.wf1
  | .frcp o | .frsq o | .fexp2 o | .flog2 o | .fsin o | .fcos o | .ftanh o => o.wf1
  | .fsqrt o => o.wf1
  | .pand _ | .por _ | .pxor _ | .pnot _ | .pmov _ => true
  | .shflIdx o | .shflUp o | .shflDown o | .shflXor o => o.a.wf && o.b.wf
  | .quorumGe _ | .quorumLt _ | .quorumSame _ | .ballot _ => true
  | .redux o => redWf o
  | .scan o => redWf o
  | .lgcDiv o | .lgcRem o => o.wf2
  | .lgcRcp o | .lgcRsq o | .lgcSin o | .lgcCos o | .lgcEx2 o | .lgcLg2 o => o.wf1
  | .lgcMin o | .lgcMax o => o.wf2
  | .bra _ | .call _ => true
  | .brx o | .ret o => o.a.wf
  | .callx o => o.a.wf
  | .exit _ | .nop _ | .nopL _ | .lpbrk _ | .join _ | .chkBegin _ | .chkEnd _ | .chkAbort _ | .chkCut _ => true
  | .lp o => 3 < o.dist.toNat
  | .barArrive o | .barWait o | .barSync o => barWf o
  | .fence _ | .fenceX _ | .wait _ => true
  | .evbind _ | .evunbind _ | .evmask _ | .evpoll _ | .waitany _ => true
  | .mbxPost _ | .mbxTake _ | .semSig _ | .semTry _ | .semWait _ => true
  | .ldo o => o.a.wf && o.b.wf
  | .ldg o => o.a.wf && o.b.wf
  | .sto o => o.a.wf && o.b.wf && o.c.wf
  | .stg o => o.a.wf && o.b.wf && o.c.wf
  | .atomo o => atomWf o
  | .atomg o => atomWf o
  | .redg o => o.a.wf && o.b.wf && (o.ty != .f32 || !o.op.isBitwise)
  | .oalloc _ | .ofree _ | .orenew _ | .oqueryBase _ | .oqueryFmask _ | .oqueryCode _ | .oqueryExpiry _ => true
  | .cpLin _ | .cpTen _ | .cpCmpEnc _ | .cpCmpDec _ | .nmrCmdShaped _ | .nmrFlush _ => true
  | .cpGat o | .cpSct o => o.row != 0
  | .nmrCmd o => o.row != 0
  | .cmpRd _ | .cmpSet _ | .tskEnq _ | .launch _ => true
  | .tcfg _ | .tcfgr _ | .tzero _ => true
  | .tld o | .tst o => tileMoveWf o
  | .mma _ | .mmasE8 _ | .mmasS24 _ => true
  | .accZero _ | .accLd _ | .accSt _ | .accRd _ | .accEpi _ | .accwin _ => true
  | .trap _ | .sysc _ | .eret _ | .csrr _ => true
  | .escape w0 => 0xF0 ≤ w0.toNat / 4 % 256
  | .csrw o => !o.csr.ownRow
  | .csrx o => !o.csr.ownRow
  | .fpmodeWrite _ | .uevecWrite _ | .fqbaseWrite _ | .fqcapWrite _ | .fqheadWrite _ | .grselWrite _ | .grownWrite _
  | .pblkWrite _ | .pliveWrite _ | .pshadWrite _ | .puevWrite _ | .ctxtabWrite _ | .migrationGo _ => true
  | .tlbinv _ | .tlbsync _ | .icinv _ | .pswap _ | .accspill _ | .accfill _ | .fltres _ => true
  | .haltStop o => o.b != .const 1
  | .haltRun o => o.b == .const 1
  | .queuedResultWrite .. | .legacyRequestService .. | .stallRelease .. | .eventDelivery .. | .timerExpiry .. => false
  | .loadDataArrival .. | .enginePiece .. | .commandCompletion .. | .joinBlockDecrement .. => false
  | .matrixGrant .. | .matrixRequestComplete .. | .epilogueCaptureWrite .. => false
  | .migrationOwnerRelease .. | .migrationReceive .. | .migrationTimeout => false
  | .engineStopAck .. | .chunkCommit .. | .strokeTokenGrant | .issueCycle .. | .retentionTick | .allocationExpiry .. => false
  | .operandStoreRefresh .. | .hbmRefresh .. | .pageWaitRetry .. | .faultRecordEntry | .taskQueueAdmission .. => false
  | .crewPlacement .. | .quadSteal .. | .crewRelease .. | .podSignalReceive .. | .podBarrierArrivalReceive .. => false
  | .supplySag .. | .sagRecovery .. | .temperatureChange .. | .packagePowerLimit .. | .thermalTrip .. => false
  | .powerOnReset | .warmReset | .counterStoreWrite => false
  | .ident .. | .portcfg .. | .portstat .. | .counters .. | .devinfo .. | .recover .. | .reset .. | .dbgread .. => false
  | .powerLoss | .softError .. | .scaleOutLinkChange .. | .tlbInvalidationDone .. | .mgmtOtherOp .. => false

end Sys2Proof
end

