-- ==== Sys2Proof/Decode.lean ====
section
/-! DEFINITION. Decoding and encoding (06_instruction_encoding): word 0, the extension forms, operand codes, the opcode map and the static checks of R154. Field values are natural numbers; a codec's `dec` refuses every value the spec reserves. -/

namespace Sys2Proof

/-! ## Forms and raw words (R131, Table 6.3, Table 6.4) -/

inductive Form | b | br | cmp | i | m | im | t | tr
deriving DecidableEq, Repr

/-- Length in bytes (Table 6.1, R133). -/
def Form.bytes : Form → Nat
  | .b | .br | .cmp => 8
  | .i | .m => 12
  | .im | .t => 16
  | .tr => 32

/-- The LEN field (Table 6.1). -/
def Form.lenField : Form → Nat
  | .b | .br | .cmp => 1
  | .i | .m => 2
  | .im | .t | .tr => 3

/-- Table 6.11: the form of each assigned OPC. -/
def formOf (opc : Nat) : Option Form :=
  if opc < 0x0C then some .m
  else if opc = 0x0C then some .b
  else if opc = 0x0D then some .i
  else if opc < 0x13 then some .m
  else if opc = 0x13 then some .b
  else if opc = 0x14 then some .m
  else if opc = 0x15 then some .im
  else if opc < 0x1A then some .m
  else if opc < 0x1E then some .b
  else if opc < 0x26 then some .m
  else if opc = 0x26 then some .b
  else if opc = 0x27 then some .m
  else if opc = 0x28 then some .b
  else if opc = 0x29 then some .m
  else if opc = 0x2A then some .cmp
  else if opc < 0x30 then none
  else if opc < 0x35 then some .m
  else if opc < 0x38 then none
  else if opc < 0x3B then some .m
  else if opc < 0x40 then none
  else if opc = 0x40 then some .m
  else if opc = 0x41 then some .cmp
  else if opc = 0x42 then some .b
  else if opc = 0x43 then some .m
  else if opc = 0x44 then some .cmp
  else if opc = 0x45 then some .b
  else if opc < 0x4A then some .m
  else if opc < 0x50 then none
  else if opc < 0x52 then some .br
  else if opc < 0x57 then some .b
  else if opc = 0x57 then some .i
  else if opc < 0x5A then some .b
  else if opc = 0x5A then some .i
  else if opc < 0x60 then none
  else if opc = 0x60 then some .i
  else if opc < 0x67 then some .b
  else if opc < 0x69 then some .i
  else if opc < 0x70 then some .b
  else if opc < 0x72 then some .i
  else if opc = 0x72 then some .m
  else if opc < 0x77 then some .b
  else if opc < 0x80 then none
  else if opc < 0x82 then some .i
  else if opc < 0x84 then some .m
  else if opc < 0x90 then none
  else if opc = 0x90 then some .t
  else if opc = 0x91 then some .tr
  else if opc < 0x96 then some .t
  else if opc = 0x96 then some .tr
  else if opc < 0x9A then some .b
  else if opc < 0xA0 then none
  else if opc < 0xA2 then some .b
  else if opc < 0xA4 then some .i
  else if opc = 0xA4 then some .b
  else if opc < 0xA7 then some .m
  else if opc = 0xA7 then some .b
  else if opc < 0xAA then some .i
  else if opc = 0xAA then some .b
  else if opc = 0xAB then some .t
  else if opc = 0xAC then some .b
  else if opc < 0xB0 then none
  else if opc < 0xB2 then some .b
  else if opc < 0xE0 then none
  else if opc < 0xE2 then some .i
  else if opc = 0xE2 then some .b
  else if opc < 0xE6 then some .i
  else if opc < 0xEE then some .b
  else none

/-- The fields of word 0 and the words after it. -/
structure Raw where
  len : Nat
  opc : Nat
  g : Nat
  d : Nat
  a : Nat
  b : Nat
  c : Nat
  lr : Nat
  fn : Nat
  e0 : Nat
  e1 : Nat
  q0 : Nat
  q1 : Nat
  q2 : Nat
  q3 : Nat
deriving DecidableEq, Repr

/-- Lay digits of the given widths one above the other, the first lowest. -/
def packDigits : List (Nat × Nat) → Nat
  | [] => 0
  | (w, x) :: r => x % 2 ^ w + 2 ^ w * packDigits r

/-- Digit number `k` of width `w` at bit `lo`. -/
def bitsAt (x lo w : Nat) : Nat := x / 2 ^ lo % 2 ^ w

/-- Word 0 of Table 6.3. -/
def Raw.word0 (r : Raw) : Nat :=
  packDigits [(2, r.len), (8, r.opc), (4, r.g), (10, r.d), (10, r.a), (10, r.b), (10, r.c), (3, r.lr), (7, r.fn)]

/-- Split word 0 and the words after it. -/
def Raw.ofWords (w0 e0 e1 q0 q1 q2 q3 : Nat) : Raw :=
  { len := bitsAt w0 0 2, opc := bitsAt w0 2 8, g := bitsAt w0 10 4, d := bitsAt w0 14 10, a := bitsAt w0 24 10,
    b := bitsAt w0 34 10, c := bitsAt w0 44 10, lr := bitsAt w0 54 3, fn := bitsAt w0 57 7,
    e0 := e0, e1 := e1, q0 := q0, q1 := q1, q2 := q2, q3 := q3 }

/-! ## Codecs -/

/-- A field: the number an operand is written as, and what a number stands for. -/
structure Fld (α : Type) where
  enc : α → Nat
  dec : Nat → Option α

/-- A field that must be zero. -/
def fZero : Fld Unit := ⟨fun _ => 0, fun n => if n = 0 then some () else none⟩

def fFin (k : Nat) : Fld (Fin k) := ⟨fun x => x.val, fun n => if h : n < k then some ⟨n, h⟩ else none⟩

def fBits (w : Nat) : Fld (BitVec w) :=
  ⟨fun x => x.toNat, fun n => if n < 2 ^ w then some (BitVec.ofNat w n) else none⟩

def fBool : Fld Bool :=
  ⟨fun b => b.toNat, fun n => if n = 0 then some false else if n = 1 then some true else none⟩

def tabDec {α : Type} : List (Nat × α) → Nat → Option α
  | [], _ => none
  | (k, a) :: r, n => if n = k then some a else tabDec r n

def tabEnc {α : Type} [DecidableEq α] : List (Nat × α) → α → Nat
  | [], _ => 0
  | (k, a) :: r, x => if x = a then k else tabEnc r x

/-- A field given by a table of codes. -/
def fTab {α : Type} [DecidableEq α] (t : List (Nat × α)) : Fld α := ⟨tabEnc t, tabDec t⟩

def fGuard : Fld Guard :=
  ⟨fun g => match g with | .always => 15 | .p n => n.val,
   fun n => if n = 15 then some .always else if h : n < 12 then some (.p ⟨n, h⟩) else none⟩

/-- A predicate, or 15 for none (always true). -/
def fOptP : Fld (Option PReg) :=
  ⟨fun g => match g with | none => 15 | some n => n.val,
   fun n => if n = 15 then some none else if h : n < 12 then some (some ⟨n, h⟩) else none⟩

def specialTab : List (Nat × Special) :=
  [(0x380, .lane), (0x381, .gang), (0x382, .crew), (0x383, .tidX), (0x384, .tidY), (0x385, .tidZ), (0x386, .cixX),
   (0x387, .cixY), (0x388, .cixZ), (0x389, .ncixX), (0x38A, .ncixY), (0x38B, .ncixZ), (0x38C, .ntidX), (0x38D, .ntidY),
   (0x38E, .ntidZ), (0x38F, .ngang), (0x390, .width), (0x391, .core), (0x392, .quad), (0x393, .die), (0x394, .evslot),
   (0x395, .amask), (0x396, .tick), (0x397, .args), (0x398, .tileX), (0x399, .tileY), (0x39A, .tileZ), (0x39B, .accbase),
   (0x39C, .acclim), (0x39D, .zero)]

/-- Table 6.7. -/
def fSrc : Fld Src :=
  ⟨fun x => match x with | .v n => n.val | .s n => 0x300 + n.val | .spec x => tabEnc specialTab x | .const n => 0x3C0 + n.val,
   fun n =>
     if h : n < 0x300 then some (.v ⟨n, h⟩)
     else if n < 0x380 then some (.s (Fin.ofNat 128 (n - 0x300)))
     else if n < 0x3C0 then (tabDec specialTab n).map .spec
     else if n < 0x400 then some (.const (Fin.ofNat 64 (n - 0x3C0)))
     else none⟩

/-- Table 6.7, destinations. -/
def fDst : Fld Dst :=
  ⟨fun x => match x with | .v n => n.val | .s n => 0x300 + n.val,
   fun n =>
     if h : n < 0x300 then some (.v ⟨n, h⟩)
     else if n < 0x380 then some (.s (Fin.ofNat 128 (n - 0x300)))
     else none⟩

def fRnd : Fld Rnd := fTab [(0, .dyn), (1, .rne), (2, .rtz), (3, .rdn), (4, .rup), (5, .rna)]

/-- MODA and MODB (R149): class [11:10], segment [9:7], distance [6:1], NEG [0]. -/
def fMod : Fld (Swizzle × Bool) :=
  ⟨fun x =>
     match x.1 with
     | .none => x.2.toNat
     | .rot s d => 1024 + 128 * s.val + 2 * d.val + x.2.toNat
     | .swap s d => 2048 + 128 * s.val + 2 * d.val + x.2.toNat
     | .bcast s d => 3072 + 128 * s.val + 2 * d.val + x.2.toNat,
   fun n =>
     let neg := decide (n % 2 = 1)
     let d : Fin 64 := Fin.ofNat 64 (n / 2)
     if n < 1024 then (if n / 2 = 0 then some (.none, neg) else none)
     else if h : n / 128 % 8 < 6 then
       let seg : Fin 6 := ⟨n / 128 % 8, h⟩
       if d.val < 2 ^ (seg.val + 1) then
         if n < 2048 then some (.rot seg d, neg)
         else if n < 3072 then some (.swap seg d, neg)
         else if n < 4096 then some (.bcast seg d, neg)
         else none
       else none
     else none⟩

/-- A source slot: its 10-bit code, its LR bit and its modifier. -/
structure Slot (α : Type) where
  enc : α → Nat × Nat × Nat
  dec : Nat → Nat → Nat → Option α

/-- A slot with mark and modifier. -/
def sM : Slot MSrc :=
  ⟨fun x => (fSrc.enc x.src, x.last.toNat, fMod.enc (x.swz, x.neg)),
   fun n l m =>
     match fSrc.dec n, fBool.dec l, fMod.dec m with
     | some src, some last, some (swz, neg) =>
       if (!last || src.isV) && (swz == .none || src.isV) then some ⟨src, last, swz, neg⟩ else none
     | _, _, _ => none⟩

/-- A slot with mark and no modifier. -/
def sR : Slot RSrc :=
  ⟨fun x => (fSrc.enc x.src, x.last.toNat, 0),
   fun n l m =>
     match fSrc.dec n, fBool.dec l with
     | some src, some last => if m = 0 && (!last || src.isV) then some ⟨src, last⟩ else none
     | _, _ => none⟩

/-- A slot that takes neither mark nor modifier and holds an item coded by `f`. -/
def sF {α : Type} (f : Fld α) : Slot α :=
  ⟨fun x => (f.enc x, 0, 0), fun n l m => if l = 0 && m = 0 then f.dec n else none⟩

/-- A uniform slot (R205): which codes it may hold is a check of step 8. -/
def sU : Slot Src := sF fSrc
/-- A reserved slot. -/
def sN : Slot Unit := sF fZero

/-- The general contents of an instruction word with its modifier word. -/
structure Gen (T D A B C S R X : Type) where
  g : Guard
  ty : T
  d : D
  a : A
  b : B
  c : C
  sat : S
  rnd : R
  xf : X
deriving DecidableEq, Repr

/-- Which codec each field of an instruction has. -/
structure Lay (T D A B C S R X : Type) where
  fn : Fld T
  d : Fld D
  a : Slot A
  b : Slot B
  c : Slot C
  sat : Fld S
  rnd : Fld R
  xf : Fld X

/-- Decode word 0 with the modifier word `m` (zero for the forms that have none). -/
def Lay.dec {T D A B C S R X : Type} (l : Lay T D A B C S R X) (r : Raw) (m : Nat) : Option (Gen T D A B C S R X) :=
  match fGuard.dec r.g, l.fn.dec r.fn, l.d.dec r.d,
      l.a.dec r.a (bitsAt r.lr 0 1) (bitsAt m 0 12), l.b.dec r.b (bitsAt r.lr 1 1) (bitsAt m 12 12),
      l.c.dec r.c (bitsAt r.lr 2 1) 0, l.sat.dec (bitsAt m 27 1), l.rnd.dec (bitsAt m 24 3), l.xf.dec (bitsAt m 28 4) with
  | some g, some ty, some d, some a, some b, some c, some sat, some rnd, some xf => some ⟨g, ty, d, a, b, c, sat, rnd, xf⟩
  | _, _, _, _, _, _, _, _, _ => none

/-- The raw word with OPC `opc` and form `f`; the modifier word goes to `e0` for Form M and to `e1` for Form IM. -/
def Lay.enc {T D A B C S R X : Type} (l : Lay T D A B C S R X) (f : Form) (opc : Nat) (x : Gen T D A B C S R X) : Raw :=
  let a := l.a.enc x.a
  let b := l.b.enc x.b
  let c := l.c.enc x.c
  let m := packDigits [(12, a.2.2), (12, b.2.2), (3, l.rnd.enc x.rnd), (1, l.sat.enc x.sat), (4, l.xf.enc x.xf)]
  { len := f.lenField, opc := opc, g := fGuard.enc x.g, d := l.d.enc x.d, a := a.1, b := b.1, c := c.1,
    lr := a.2.1 + 2 * b.2.1 + 4 * c.2.1, fn := l.fn.enc x.ty,
    e0 := if f = .m then m else 0, e1 := if f = .im then m else 0, q0 := 0, q1 := 0, q2 := 0, q3 := 0 }

/-! ## FN codes (R143, R150) -/

/-- FN of a TS layout with SUB 0: TY × 8. -/
def fTy {α : Type} [DecidableEq α] (t : List (Nat × α)) : Fld α := fTab (t.map (fun p => (8 * p.1, p.2)))

def fInt : Fld IntTy := fTy [(0, .i32), (1, .n32), (2, .i64), (3, .n64)]
def fSInt : Fld SIntTy := fTy [(0, .i32), (2, .i64)]
def fN : Fld NTy := fTy [(1, .n32), (3, .n64)]
def fW32 : Fld W32Ty := fTy [(0, .i32), (1, .n32)]
def fFlt : Fld FltTy := fTy [(8, .f32), (9, .f64)]
def fH : Fld HTy := fTy [(10, .f16), (11, .bf16)]
def fFc : Fld FcTy := fTy [(8, .f32), (9, .f64), (10, .f16), (11, .bf16)]
def numTyTab : List (Nat × NumTy) :=
  [(0, .i32), (1, .n32), (2, .i64), (3, .n64), (4, .i16), (5, .n16), (6, .i8), (7, .n8), (8, .f32), (9, .f64),
   (10, .f16), (11, .bf16), (12, .e4m3), (13, .e5m2), (14, .e2m1)]
def fNum : Fld NumTy := fTy numTyTab
def fPk : Fld PkTy :=
  fTy [(4, .i16), (5, .n16), (6, .i8), (7, .n8), (10, .f16), (11, .bf16), (12, .e4m3), (13, .e5m2), (14, .e2m1)]
def fLea : Fld LeaTy :=
  ⟨fun x => fN.enc x.ty + x.k.val, fun n => (fN.dec (8 * (n / 8))).map (fun t => ⟨t, Fin.ofNat 8 n⟩)⟩
def fIdp : Fld IdpTy :=
  fTab [(0, ⟨false, false⟩), (1, ⟨true, false⟩), (2, ⟨false, true⟩), (3, ⟨true, true⟩)]
/-- One fixed FN value. -/
def fOnly (k : Nat) : Fld Unit := fTab [(k, ())]
def redTyTab : List (Nat × RedTy) := [(0, .i32), (1, .n32), (2, .i64), (3, .n64), (8, .f32), (9, .f64)]
def redOpTab : List (Nat × RedOp) := [(0, .add), (1, .min), (2, .max), (3, .and), (4, .or), (5, .xor)]
def fRed : Fld RedSel :=
  ⟨fun x => 8 * tabEnc redTyTab x.ty + tabEnc redOpTab x.op,
   fun n => match tabDec redTyTab (n / 8), tabDec redOpTab (n % 8) with
     | some t, some o => if t.isFlt && o.isBitwise then none else some ⟨t, o⟩
     | _, _ => none⟩
def atomTyTab : List (Nat × AtomTy) := [(0, .i32), (1, .n32), (2, .i64), (3, .n64), (8, .f32)]
def atomOpTab : List (Nat × AtomOp) :=
  [(0, .add), (1, .min), (2, .max), (3, .and), (4, .or), (5, .xor), (6, .exch), (7, .cas)]
def fAtom : Fld AtomSel :=
  ⟨fun x => 8 * tabEnc atomTyTab x.ty + tabEnc atomOpTab x.op,
   fun n => match tabDec atomTyTab (n / 8), tabDec atomOpTab (n % 8) with
     | some t, some o => if t == .f32 && !(o == .add || o == .exch || o == .cas) then none else some ⟨t, o⟩
     | _, _ => none⟩
def fRedg : Fld (AtomTy × RedOp) :=
  ⟨fun x => 8 * tabEnc atomTyTab x.1 + tabEnc redOpTab x.2,
   fun n => match tabDec atomTyTab (n / 8), tabDec redOpTab (n % 8) with
     | some t, some o => if t == .f32 && o.isBitwise then none else some (t, o)
     | _, _ => none⟩
def nmrTyTab : List (Nat × NmrTy) := [(8, .f32), (11, .bf16), (10, .f16), (0, .i32), (1, .n32)]
def nmrOpTab : List (Nat × NmrOp) := [(0, .sum), (1, .min), (2, .max)]
def fNmr : Fld NmrSel :=
  ⟨fun x => 8 * tabEnc nmrTyTab x.ty + tabEnc nmrOpTab x.op,
   fun n => match tabDec nmrTyTab (n / 8), tabDec nmrOpTab (n % 8) with
     | some t, some o => some ⟨t, o⟩
     | _, _ => none⟩
def spaceTab : List (Nat × Space) := [(0, .thr), (1, .crew), (2, .quad)]
def fSpace : Fld Space := fTab spaceTab
def ldSzTab : List (Nat × LdSz) := [(0, .n8), (1, .i8), (2, .n16), (3, .i16), (4, .b32), (5, .b64), (6, .b128)]
def stSzTab : List (Nat × StSz) := [(0, .n8), (2, .n16), (4, .b32), (5, .b64), (6, .b128)]
/-- FN of an MS layout (R150). -/
def fMS {P Z : Type} (p : Fld P) (z : Fld Z) : Fld (P × Z) :=
  ⟨fun x => 8 * p.enc x.1 + z.enc x.2,
   fun n => match p.dec (n / 8), z.dec (n % 8) with | some a, some b => some (a, b) | _, _ => none⟩
def scopeTab : List (Nat × Scope) := [(1, .gang), (2, .crew), (3, .quad), (4, .die), (5, .pkg), (6, .pod)]
def fScope : Fld Scope := fTab scopeTab
def fOptScope : Fld (Option Scope) := fTab ((0, none) :: scopeTab.map (fun p => (p.1, some p.2)))
/-- FN of the barriers: FN[4:3] `op`, FN[2:0] scope. -/
def fBar (op : Nat) : Fld Scope := fTab (scopeTab.map (fun p => (8 * op + p.1, p.2)))
def pathTab : List (Nat × PathClass) := [(0, .lane), (1, .copy), (2, .gather), (3, .matrix), (4, .nmr)]
def fPaths : Fld (PathClass × PathClass) :=
  ⟨fun x => tabEnc pathTab x.1 + 8 * tabEnc pathTab x.2,
   fun n => match tabDec pathTab (n % 8), tabDec pathTab (n / 8) with | some x, some y => some (x, y) | _, _ => none⟩
def fICond : Fld ICond := fTab [(0, .eq), (1, .ne), (2, .lt), (3, .le), (4, .gt), (5, .ge)]
def fFCond : Fld FCond :=
  fTab [(0, .eq), (1, .ne), (2, .lt), (3, .le), (4, .gt), (5, .ge), (6, .ord), (7, .uno), (8, .equ), (9, .neu),
    (10, .ltu), (11, .leu), (12, .gtu), (13, .geu)]
/-- The D field of Form CMP (R138): k in bits [2:0], CND in bits [6:3]. -/
def fCmpD {N : Type} (c : Fld N) : Fld (Fin 6 × N) :=
  ⟨fun x => x.1.val + 8 * c.enc x.2,
   fun n => match (fFin 6).dec (n % 8), c.dec (n / 8) with | some k, some q => some (k, q) | _, _ => none⟩
def fEpi : Fld EpiTy := fTab [(0, .i32), (6, .i8), (8, .f32), (10, .f16), (11, .bf16), (12, .e4m3), (13, .e5m2)]
def fESpace : Fld ESpace := fTab [(0, .glob), (1, .crew)]

def csrTab : List (Nat × Csr) :=
  [(0x001, .fpmode), (0x002, .fpflags), (0x008, .uevec), (0x010, .ef 0), (0x011, .ef 1), (0x012, .ef 2), (0x013, .ef 3),
   (0x014, .ef 4), (0x015, .ef 5), (0x020, .lc 0), (0x021, .lc 1), (0x022, .lc 2), (0x030, .thrsn), (0x040, .ctx),
   (0x800, .sstatus), (0x801, .stvec), (0x802, .sepc), (0x803, .scause), (0x804, .stval), (0x805, .sinsn0),
   (0x806, .sinsn1), (0x807, .sscratch), (0x808, .cctx), (0x810, .fqbase), (0x811, .fqcap), (0x812, .fqhead),
   (0x813, .fqtail), (0x814, .fqsem), (0x820, .grsel), (0x821, .grown), (0x830, .psel), (0x831, .pblk), (0x832, .plive),
   (0x833, .pshad), (0x834, .pstate), (0x835, .puev), (0x840, .ctxtab), (0x848, .lreq 0), (0x849, .lreq 1),
   (0x84A, .lreq 2), (0x84B, .lreq 3), (0x84C, .rreq 0), (0x84D, .rreq 1), (0x84E, .rreq 2), (0x84F, .rreq 3),
   (0x850, .mgva), (0x851, .mgctl), (0x852, .mgfrm), (0x853, .mgcmp), (0x854, .mgstat)]
def fCsr : Fld Csr := fTab csrTab

/-- A record word (R141, R142). -/
def fShapeWord : Fld ShapeWord :=
  ⟨fun x => match x with | .lit w => w.toNat | .sub n => 2 ^ 31 + 0x300 + n.val,
   fun n =>
     if n < 2 ^ 31 then some (.lit (BitVec.ofNat 31 n))
     else if 0x300 ≤ n - 2 ^ 31 ∧ n - 2 ^ 31 < 0x380 then some (.sub (Fin.ofNat 128 (n - 2 ^ 31 - 0x300)))
     else none⟩

def decShape (r : Raw) : Option Shape :=
  match fShapeWord.dec r.q0, fShapeWord.dec r.q1, fShapeWord.dec r.q2, fShapeWord.dec r.q3 with
  | some a, some b, some c, some d => some ⟨a, b, c, d⟩
  | _, _, _, _ => none

def encShape (s : Shape) (r : Raw) : Raw :=
  { r with q0 := fShapeWord.enc s.q0, q1 := fShapeWord.enc s.q1, q2 := fShapeWord.enc s.q2, q3 := fShapeWord.enc s.q3 }

/-! ## Layouts of the operand shapes -/

def lAlu {T B C S R X : Type} (fn : Fld T) (b : Slot B) (c : Slot C) (s : Fld S) (r : Fld R) (x : Fld X) :
    Lay T Dst MSrc B C S R X := ⟨fn, fDst, sM, b, c, s, r, x⟩

def AluM.gen {T B C S R X : Type} (o : AluM T B C S R X) : Gen T Dst MSrc B C S R X :=
  ⟨o.g, o.ty, o.d, o.a, o.b, o.c, o.sat, o.rnd, o.xf⟩
def Gen.alu {T B C S R X : Type} (x : Gen T Dst MSrc B C S R X) : AluM T B C S R X :=
  ⟨x.g, x.ty, x.d, x.a, x.b, x.c, x.sat, x.rnd, x.xf⟩

/-- A layout with no modifier word. -/
def lW {T D A B C : Type} (fn : Fld T) (d : Fld D) (a : Slot A) (b : Slot B) (c : Slot C) :
    Lay T D A B C Unit Unit Unit := ⟨fn, d, a, b, c, fZero, fZero, fZero⟩

/-- A general value with no modifier word. -/
def gW {T D A B C : Type} (g : Guard) (ty : T) (d : D) (a : A) (b : B) (c : C) : Gen T D A B C Unit Unit Unit :=
  ⟨g, ty, d, a, b, c, (), (), ()⟩

def lIntS := lAlu fInt sM sN fBool fZero fZero
def lInt := lAlu fInt sM sN fZero fZero fZero
def lIntSC := lAlu fInt sM sR fBool fZero fZero
def lCarry := lAlu fW32 sM (sF fOptP) fZero fZero fOptP
def lN := lAlu fN sM sN fZero fZero fZero
def lOnlyC (k : Nat) := lAlu (fOnly k) sM sR fZero fZero fZero
def lFltR := lAlu fFlt sM sN fBool fRnd fZero
def lFlt := lAlu fFlt sM sN fZero fZero fZero
def lHR := lAlu fH sM sN fBool fRnd fBool
def lH := lAlu fH sM sN fZero fZero fBool
def lSfu (sub : Nat) := lAlu (fOnly (64 + sub)) sN sN fBool fZero fZero
def lScR (sub : Nat) := lAlu (fOnly (64 + sub)) sN sN fZero fRnd fZero
def lSc (sub : Nat) := lAlu (fOnly (64 + sub)) sN sN fZero fZero fZero
def lLgc1 (s : Nat) := lAlu (fOnly s) sN sN fZero fZero fZero
def lLgcW {T : Type} [DecidableEq T] (t : List (Nat × T)) := lAlu (fTab t) sM sN fZero fZero fZero
def lUn {T : Type} (fn : Fld T) := lW fn fDst sR sN sN
def AluB.gen {T : Type} (o : AluB T) : Gen T Dst RSrc Unit Unit Unit Unit Unit := gW o.g o.ty o.d o.a () ()
def lMovx (k : Nat) : Lay NTy Dst Src Src Unit Unit Unit Unit := ⟨fN, fDst, sU, sU, sN, fZero, fZero, fOnly k⟩
def lLanf : Lay NTy Dst MSrc MSrc RSrc Unit Unit Unit := ⟨fN, fDst, sM, sM, sR, fZero, fZero, fZero⟩
def lCmp {T N : Type} (fn : Fld T) (c : Fld N) := lW fn (fCmpD c) sR sR sN
def lQuoT (s : Nat) := lW (fOnly s) (fCmpD (fFin 12)) sU sN sN
def lQuoS := lW (fOnly 2) (fCmpD (fFin 12)) sN sN sN
def lPred2 (s : Nat) := lW (fOnly s) (fFin 12) (sF fOptP) (sF fOptP) sN
def lPred1 (s : Nat) := lW (fOnly s) (fFin 12) (sF fOptP) sN sN
def lShfl (sub : Nat) := lW (fTab [(8 + sub, NTy.n32), (24 + sub, NTy.n64)]) fDst sR sR
  (sF (fTab [(0x3C1, (0 : Fin 6)), (0x3C2, 1), (0x3C3, 2), (0x3C4, 3), (0x3C5, 4), (0x3C6, 5)]))
def lBallot := lW fZero fDst (sF fOptP) sN sN
def lG := lW fZero fZero sN sN sN
def lGA := lW fZero fZero sU sN sN
def lGAB (s : Nat) := lW (fOnly s) fZero sU sU sN
def lGABC := lW fZero fZero sU sU sU
def lGD (s : Nat) := lW (fOnly s) fDst sN sN sN
def lGDA (s : Nat) := lW (fOnly s) fDst sU sN sN
def lGDAB := lW fZero fDst sU sU sN
def lGDABC := lW fZero fDst sU sU sU
def lBrx := lW fZero fZero sR sN sN
def lCallx := lW fZero fDst sR sN sN
def lBar (op : Nat) := lW (fBar op) fZero sU sN sN
def lLd {P : Type} (p : Fld P) := lW (fMS p (fTab ldSzTab)) fDst sR sR sN
def lSt {P : Type} (p : Fld P) := lW (fMS p (fTab stSzTab)) fZero sR sR sR
def lAtom {P : Type} (p : Fld P) : Lay AtomSel Dst RSrc RSrc RSrc Unit Unit P :=
  ⟨fAtom, fDst, sR, sR, sR, fZero, fZero, p⟩
def lRedg : Lay (AtomTy × RedOp) Unit RSrc RSrc Unit Unit Unit Scope :=
  ⟨fRedg, fZero, sR, sR, sN, fZero, fZero, fScope⟩
def lEng {T : Type} (fn : Fld T) := lW fn fZero sU sU sU
def lEng2 {T : Type} (fn : Fld T) := lW fn fZero sU sU sN
def lTcfg := lW fZero (fFin 16) sU sN sN
def lTcfgr := lW fZero fDst (sF (fFin 16)) sN sN
def lTile := lW fBool (fFin 16) sU sU sN
def lTzero := lW fZero (fFin 16) sN sN sN
def lMma (s : Nat) : Lay Unit (Fin 64) (Fin 16) (Fin 16) Unit Bool Unit Bool :=
  ⟨fOnly s, fFin 64, sF (fFin 16), sF (fFin 16), sN, fBool, fZero, fBool⟩
def lAccZ := lW fZero (fFin 64) sN sN sN
def lAccM := lW fZero (fFin 64) sU sU sN
def lAccRd := lW fZero fDst (sF (fFin 64)) sU sN
def lEpi := lW fZero (fFin 64) sU sU sU
def lKA := lW fZero fDst sU sN (sF (fFin 12))
def lKDAB := lW fZero fDst sU sU (sF (fFin 12))
def lKAB := lW (fOnly 1) fZero sU sU (sF (fFin 12))

/-! ## Engine fields (Table 10.6) -/

/-- The engine fields of a copy or reduce command. -/
structure EngF where
  k : Src
  x : Nat
  sp : Nat
  row : Nat
  stride : Nat
deriving DecidableEq, Repr

def decEng (r : Raw) : Option EngF :=
  (fSrc.dec (bitsAt r.e0 0 10)).map (fun k =>
    ⟨k, bitsAt r.e0 10 10, bitsAt r.e0 20 4, bitsAt (r.e0 + 2 ^ 32 * r.e1) 24 16, bitsAt r.e1 8 24⟩)

/-- Bits [83:64]: K and X; [87:84]: spaces or FL; [103:88]: ROW; [127:104]: STRIDE. -/
def encEng (k x sp row stride : Nat) (r : Raw) : Raw :=
  { r with
    e0 := packDigits [(10, k), (10, x), (4, sp), (8, row)]
    e1 := packDigits [(8, row / 256), (24, stride)] }

/-! ## Instructions to raw words -/

def imm (x : Nat) (r : Raw) : Raw := { r with e0 := x }

def csrPut (num : Nat) : CsrPut → Raw
  | .w g a => imm num (lGA.enc .i 0xE4 (gW g () () a () ()))
  | .x g d a b => imm num (lGDAB.enc .i 0xE5 (gW g () d a b ()))

/-- Form BR (R137): OFF in bits [63:24]. -/
def encBr (opc g d : Nat) (off : Nat) : Raw :=
  { len := 1, opc := opc, g := g, d := d, a := bitsAt off 0 10, b := bitsAt off 10 10, c := bitsAt off 20 10,
    lr := bitsAt off 30 3, fn := bitsAt off 33 7, e0 := 0, e1 := 0, q0 := 0, q1 := 0, q2 := 0, q3 := 0 }

def decBrOff (r : Raw) : BitVec 40 := BitVec.ofNat 40 (packDigits [(10, r.a), (10, r.b), (10, r.c), (3, r.lr), (7, r.fn)])

def zeroRaw : Raw := ⟨0, 0, 0, 0, 0, 0, 0, 0, 0, 0, 0, 0, 0, 0, 0⟩

def encTileE (part : Option Bool) : Nat :=
  match part with
  | none => 0
  | some s => 1 + 2 * s.toNat

def encEpiE (o : AccEpiOps) : Nat :=
  packDigits [(14, 0), (5, o.nc.val), (5, o.nr.val), (1, o.crew.toNat), (1, o.aint.toNat), (1, o.sat.toNat), (1, o.relu.toNat),
    (4, o.oty.toNat)]

/-- The words of an instruction (steps that no word encodes give the all-zero word). -/
def toRaw : Instr → Raw
  | .iadd o => lIntS.enc .m 0x00 o.gen
  | .isub o => lIntS.enc .m 0x01 o.gen
  | .iaddc o => lCarry.enc .m 0x02 o.gen
  | .isubb o => lCarry.enc .m 0x03 o.gen
  | .imul o => lIntS.enc .m 0x04 o.gen
  | .imulhi o => lInt.enc .m 0x05 o.gen
  | .imad o => lIntSC.enc .m 0x06 o.gen
  | .imin o => lInt.enc .m 0x07 o.gen
  | .imax o => lInt.enc .m 0x08 o.gen
  | .iabs o => (lAlu fSInt sN sN fBool fZero fZero).enc .m 0x09 o.gen
  | .lea o => (lAlu fLea sM sN fZero fZero fZero).enc .m 0x0A o.gen
  | .idp4 o => (lAlu fIdp sM sR fBool fZero fZero).enc .m 0x0B o.gen
  | .mov o => (lUn fN).enc .b 0x0C o.gen
  | .movi o => imm o.imm.toNat ((lW fInt fDst sN sN sN).enc .i 0x0D (gW o.g o.ty o.d () () ()))
  | .movxRd o => (lMovx 0).enc .m 0x0E ⟨o.g, o.ty, o.d, o.a, o.b, (), (), (), ()⟩
  | .movxWr o => (lMovx 1).enc .m 0x0E ⟨o.g, o.ty, o.d, o.a, o.b, (), (), (), ()⟩
  | .sel o => (lAlu fN sM (sF (fFin 12)) fZero fZero fZero).enc .m 0x0F o.gen
  | .and o => lN.enc .m 0x10 o.gen
  | .or o => lN.enc .m 0x11 o.gen
  | .xor o => lN.enc .m 0x12 o.gen
  | .andn o => lN.enc .m 0x14 o.gen
  | .not o => (lUn fN).enc .b 0x13 o.gen
  | .lanf o => imm o.k.toNat (lLanf.enc .im 0x15 (gW o.g o.ty o.d o.a o.b o.c))
  | .shl o => lN.enc .m 0x16 o.gen
  | .shr o => lN.enc .m 0x17 o.gen
  | .sar o => (lAlu fSInt sM sN fZero fZero fZero).enc .m 0x18 o.gen
  | .fshL o => (lOnlyC 8).enc .m 0x19 o.gen
  | .fshR o => (lOnlyC 9).enc .m 0x19 o.gen
  | .popc o => (lUn fN).enc .b 0x1A o.gen
  | .clz o => (lUn fN).enc .b 0x1B o.gen
  | .ctz o => (lUn fN).enc .b 0x1C o.gen
  | .brev o => (lUn fN).enc .b 0x1D o.gen
  | .bfe o => lInt.enc .m 0x1E o.gen
  | .bfi o => (lAlu fN sM sR fZero fZero fZero).enc .m 0x1F o.gen
  | .bpick o => (lOnlyC 8).enc .m 0x48 o.gen
  | .icmp o => (lCmp fInt fICond).enc .cmp 0x41 (gW o.g o.ty (o.k, o.cnd) o.a o.b ())
  | .fcmp o => (lCmp fFc fFCond).enc .cmp 0x2A (gW o.g o.ty (o.k, o.cnd) o.a o.b ())
  | .fadd o => lFltR.enc .m 0x20 o.gen
  | .fsub o => lFltR.enc .m 0x21 o.gen
  | .fmul o => lFltR.enc .m 0x22 o.gen
  | .ffma o => (lAlu fFlt sM sR fBool fRnd fZero).enc .m 0x23 o.gen
  | .fmin o => lFlt.enc .m 0x24 o.gen
  | .fmax o => lFlt.enc .m 0x25 o.gen
  | .fabs o => (lUn fFlt).enc .b 0x26 o.gen
  | .frnd o => (lAlu fFlt sN sN fZero fRnd fZero).enc .m 0x27 o.gen
  | .fclass o => (lUn fFlt).enc .b 0x28 o.gen
  | .fscale o => lFltR.enc .m 0x29 o.gen
  | .hadd2 o => lHR.enc .m 0x30 o.gen
  | .hmul2 o => lHR.enc .m 0x31 o.gen
  | .hfma2 o => (lAlu fH sM sR fBool fRnd fBool).enc .m 0x32 o.gen
  | .hmin2 o => lH.enc .m 0x33 o.gen
  | .hmax2 o => lH.enc .m 0x34 o.gen
  | .cvt o => (lAlu fNum sN sN fBool fRnd (fTab numTyTab)).enc .m 0x38 o.gen
  | .cvtpk o => (lAlu fPk sM sR fBool fRnd (fOnly 8)).enc .m 0x39 o.gen
  | .cvtscToe8 o => (lScR 0).enc .m 0x3A o.gen
  | .cvtscTos24 o => (lScR 1).enc .m 0x3A o.gen
  | .cvtscFrome8 o => (lSc 2).enc .m 0x3A o.gen
  | .cvtscFroms24 o => (lSc 3).enc .m 0x3A o.gen
  | .frcp o => (lSfu 0).enc .m 0x40 o.gen
  | .frsq o => (lSfu 1).enc .m 0x40 o.gen
  | .fsqrt o => (lAlu (fTab [(66, FltTy.f32), (74, .f64)]) sN sN fBool fRnd fZero).enc .m 0x40 o.gen
  | .fexp2 o => (lSfu 3).enc .m 0x40 o.gen
  | .flog2 o => (lSfu 4).enc .m 0x40 o.gen
  | .fsin o => (lSfu 5).enc .m 0x40 o.gen
  | .fcos o => (lSfu 6).enc .m 0x40 o.gen
  | .ftanh o => (lSfu 7).enc .m 0x40 o.gen
  | .pand o => (lPred2 0).enc .b 0x42 (gW o.g () o.d o.a o.b ())
  | .por o => (lPred2 1).enc .b 0x42 (gW o.g () o.d o.a o.b ())
  | .pxor o => (lPred2 2).enc .b 0x42 (gW o.g () o.d o.a o.b ())
  | .pnot o => (lPred1 3).enc .b 0x42 (gW o.g () o.d o.a () ())
  | .pmov o => (lPred1 4).enc .b 0x42 (gW o.g () o.d o.a () ())
  | .shflIdx o => (lShfl 0).enc .m 0x43 (gW o.g o.ty o.d o.a o.b o.q)
  | .shflUp o => (lShfl 1).enc .m 0x43 (gW o.g o.ty o.d o.a o.b o.q)
  | .shflDown o => (lShfl 2).enc .m 0x43 (gW o.g o.ty o.d o.a o.b o.q)
  | .shflXor o => (lShfl 3).enc .m 0x43 (gW o.g o.ty o.d o.a o.b o.q)
  | .quorumGe o => (lQuoT 0).enc .cmp 0x44 (gW o.g () (o.k, o.q) o.t () ())
  | .quorumLt o => (lQuoT 1).enc .cmp 0x44 (gW o.g () (o.k, o.q) o.t () ())
  | .quorumSame o => lQuoS.enc .cmp 0x44 (gW o.g () (o.k, o.q) () () ())
  | .ballot o => lBallot.enc .b 0x45 (gW o.g () o.d o.q () ())
  | .redux o => (lAlu fRed sN sN fZero fRnd fZero).enc .m 0x46 o.gen
  | .scan o => (lAlu fRed sN sN fZero fRnd fBool).enc .m 0x47 o.gen
  | .lgcDiv o => (lLgcW [(0, W32Ty.i32), (1, .n32)]).enc .m 0x49 o.gen
  | .lgcRem o => (lLgcW [(2, W32Ty.i32), (3, .n32)]).enc .m 0x49 o.gen
  | .lgcRcp o => (lLgc1 0x08).enc .m 0x49 o.gen
  | .lgcRsq o => (lLgc1 0x09).enc .m 0x49 o.gen
  | .lgcSin o => (lLgc1 0x0A).enc .m 0x49 o.gen
  | .lgcCos o => (lLgc1 0x0B).enc .m 0x49 o.gen
  | .lgcEx2 o => (lLgc1 0x0C).enc .m 0x49 o.gen
  | .lgcLg2 o => (lLgc1 0x0D).enc .m 0x49 o.gen
  | .lgcMin o => (lLgcW [(0x10, W64Ty.i64), (0x12, .n64)]).enc .m 0x49 o.gen
  | .lgcMax o => (lLgcW [(0x11, W64Ty.i64), (0x13, .n64)]).enc .m 0x49 o.gen
  | .bra o => encBr 0x50 (fGuard.enc o.g) 0 o.off.toNat
  | .call o => encBr 0x51 (fGuard.enc o.g) (fDst.enc o.d) o.off.toNat
  | .brx o => lBrx.enc .b 0x52 (gW o.g () () o.a () ())
  | .callx o => lCallx.enc .b 0x53 (gW o.g () o.d o.a () ())
  | .ret o => lBrx.enc .b 0x54 (gW o.g () () o.a () ())
  | .exit g => lG.enc .b 0x55 (gW g () () () () ())
  | .nop g => lG.enc .b 0x56 (gW g () () () () ())
  | .lp o => imm (4 * o.dist.toNat) (lGA.enc .i 0x57 (gW o.g () () o.a () ()))
  | .lpbrk g => lG.enc .b 0x58 (gW g () () () () ())
  | .join o => lGA.enc .b 0x59 (gW o.g () () o.a () ())
  | .nopL g => lG.enc .i 0x5A (gW g () () () () ())
  | .chkBegin o => imm (4 * o.off.toNat) ((lGD 0).enc .i 0x60 (gW o.g () o.d () () ()))
  | .chkEnd g => lG.enc .b 0x61 (gW g () () () () ())
  | .chkAbort o => lGA.enc .b 0x62 (gW o.g () () o.a () ())
  | .chkCut g => lG.enc .b 0x63 (gW g () () () () ())
  | .barArrive o => (lBar 0).enc .b 0x64 (gW o.g o.scope () o.a () ())
  | .barWait o => (lBar 1).enc .b 0x64 (gW o.g o.scope () o.a () ())
  | .barSync o => (lBar 2).enc .b 0x64 (gW o.g o.scope () o.a () ())
  | .fence o => (lW fOptScope fZero sN sN sN).enc .b 0x65 (gW o.g o.scope () () () ())
  | .fenceX o => (lW fPaths fZero sN sN sN).enc .b 0x66 (gW o.g (o.x, o.y) () () () ())
  | .wait o => imm (packDigits [(6, o.ld.toNat), (6, o.st.toNat), (6, o.cp.toNat), (6, o.tl.toNat)])
      (lG.enc .i 0x67 (gW o.g () () () () ()))
  | .evbind o => imm (4 * o.off.toNat) (lGABC.enc .i 0x68 (gW o.g () () o.a o.b o.c))
  | .evunbind o => lGA.enc .b 0x69 (gW o.g () () o.a () ())
  | .evmask o => (lGDA 0).enc .b 0x6A (gW o.g () o.d o.a () ())
  | .evpoll o => (lGDA 0).enc .b 0x6B (gW o.g () o.d o.a () ())
  | .waitany o => (lGDA 0).enc .b 0x6C (gW o.g () o.d o.a () ())
  | .mbxPost o => (lGAB 0).enc .b 0x6D (gW o.g () () o.a o.b ())
  | .mbxTake o => lKA.enc .b 0x6E (gW o.g () o.d o.a () o.k)
  | .semSig o => (lGAB 0).enc .b 0x6F (gW o.g () () o.a o.b ())
  | .semTry o => lKAB.enc .b 0x6F (gW o.g () () o.a o.b o.k)
  | .semWait o => (lGAB 2).enc .b 0x6F (gW o.g () () o.a o.b ())
  | .ldo o => imm o.imm.toNat ((lLd fSpace).enc .i 0x70 (gW o.g (o.sp, o.sz) o.d o.a o.b ()))
  | .sto o => imm o.imm.toNat ((lSt fSpace).enc .i 0x71 (gW o.g (o.sp, o.sz) () o.a o.b o.c))
  | .atomo o => (lAtom fSpace).enc .m 0x72 ⟨o.g, o.sel, o.d, o.a, o.b, o.c, (), (), o.sp⟩
  | .oalloc o => lGDAB.enc .b 0x73 (gW o.g () o.d o.a o.b ())
  | .ofree o => lGA.enc .b 0x74 (gW o.g () () o.a () ())
  | .orenew o => lGA.enc .b 0x75 (gW o.g () () o.a () ())
  | .oqueryBase o => (lGD 0).enc .b 0x76 (gW o.g () o.d () () ())
  | .oqueryFmask o => (lGD 1).enc .b 0x76 (gW o.g () o.d () () ())
  | .oqueryCode o => (lGDA 2).enc .b 0x76 (gW o.g () o.d o.a () ())
  | .oqueryExpiry o => (lGDA 3).enc .b 0x76 (gW o.g () o.d o.a () ())
  | .ldg o => imm o.imm.toNat ((lLd fZero).enc .i 0x80 (gW o.g (o.sp, o.sz) o.d o.a o.b ()))
  | .stg o => imm o.imm.toNat ((lSt fZero).enc .i 0x81 (gW o.g (o.sp, o.sz) () o.a o.b o.c))
  | .atomg o => (lAtom fScope).enc .m 0x82 ⟨o.g, o.sel, o.d, o.a, o.b, o.c, (), (), o.sp⟩
  | .redg o => lRedg.enc .m 0x83 ⟨o.g, (o.ty, o.op), (), o.a, o.b, (), (), (), o.sp⟩
  | .cpLin o => encEng (fSrc.enc o.k) 0 (fESpace.enc o.dsp + 4 * fESpace.enc o.ssp) 0 0
      ((lEng fZero).enc .t 0x90 (gW o.g () () o.a o.b o.c))
  | .cpTen o => encShape o.shape (encEng (fSrc.enc o.k) 0 (fESpace.enc o.dsp + 4 * fESpace.enc o.ssp) 0 0
      ((lEng fZero).enc .tr 0x91 (gW o.g () () o.a o.b o.c)))
  | .cpGat o => encEng (fSrc.enc o.k) (fSrc.enc o.x) (fESpace.enc o.sp) o.row.toNat o.stride.toNat
      ((lEng fZero).enc .t 0x92 (gW o.g () () o.a o.b o.c))
  | .cpSct o => encEng (fSrc.enc o.k) (fSrc.enc o.x) (4 * fESpace.enc o.sp) o.row.toNat o.stride.toNat
      ((lEng fZero).enc .t 0x93 (gW o.g () () o.a o.b o.c))
  | .cpCmpEnc o => encEng (fSrc.enc o.k) (fSrc.enc o.x) 0 0 0 ((lEng (fOnly 0)).enc .t 0x94 (gW o.g () () o.a o.b o.c))
  | .cpCmpDec o => encEng (fSrc.enc o.k) 0x39D 0 0 0 ((lEng (fOnly 1)).enc .t 0x94 (gW o.g () () o.a o.b o.c))
  | .nmrCmd o => encEng (fSrc.enc o.k) (fSrc.enc o.x) o.acc.toNat o.row.toNat o.stride.toNat
      ((lEng fNmr).enc .t 0x95 (gW o.g o.sel () o.a o.b o.c))
  | .nmrCmdShaped o => encShape o.shape (encEng (fSrc.enc o.k) 0 o.acc.toNat 0 0
      ((lEng2 fNmr).enc .tr 0x96 (gW o.g o.sel () o.a o.b ())))
  | .nmrFlush o => lGA.enc .b 0x97 (gW o.g () () o.a () ())
  | .cmpRd o => lKDAB.enc .b 0x98 (gW o.g () o.d o.a o.b o.k)
  | .cmpSet o => (lGAB 0).enc .b 0x99 (gW o.g () () o.a o.b ())
  | .tcfg o => lTcfg.enc .b 0xA0 (gW o.g () o.m o.a () ())
  | .tcfgr o => lTcfgr.enc .b 0xA1 (gW o.g () o.d o.m () ())
  | .tld o => imm (encTileE o.part) (lTile.enc .i 0xA2 (gW o.g o.crew o.m o.a o.b ()))
  | .tst o => imm (encTileE o.part) (lTile.enc .i 0xA3 (gW o.g o.crew o.m o.a o.b ()))
  | .tzero o => lTzero.enc .b 0xA4 (gW o.g () o.m () () ())
  | .mma o => (lMma 0).enc .m 0xA5 ⟨o.g, (), o.t, o.a, o.b, (), o.sat, (), o.zero⟩
  | .mmasE8 o => (lMma 0).enc .m 0xA6 ⟨o.g, (), o.t, o.a, o.b, (), o.sat, (), o.zero⟩
  | .mmasS24 o => (lMma 1).enc .m 0xA6 ⟨o.g, (), o.t, o.a, o.b, (), o.sat, (), o.zero⟩
  | .accZero o => lAccZ.enc .b 0xA7 (gW o.g () o.t () () ())
  | .accLd o => imm o.crew.toNat (lAccM.enc .i 0xA8 (gW o.g () o.t o.a o.b ()))
  | .accSt o => imm o.crew.toNat (lAccM.enc .i 0xA9 (gW o.g () o.t o.a o.b ()))
  | .accRd o => lAccRd.enc .b 0xAA (gW o.g () o.d o.t o.b ())
  | .accEpi o => { lEpi.enc .t 0xAB (gW o.g () o.t o.a o.b o.c) with e0 := encEpiE o, e1 := o.alpha.toNat }
  | .accwin o => (lGAB 0).enc .b 0xAC (gW o.g () () o.a o.b ())
  | .tskEnq o => (lGAB 0).enc .b 0xB0 (gW o.g () () o.a o.b ())
  | .launch o => lGA.enc .b 0xB1 (gW o.g () () o.a () ())
  | .trap o => imm o.imm.toNat (lG.enc .i 0xE0 (gW o.g () () () () ()))
  | .sysc o => imm o.imm.toNat (lG.enc .i 0xE1 (gW o.g () () () () ()))
  | .eret g => lG.enc .b 0xE2 (gW g () () () () ())
  | .csrr o => imm (fCsr.enc o.csr) ((lGD 0).enc .i 0xE3 (gW o.g () o.d () () ()))
  | .csrw o => csrPut (fCsr.enc o.csr) (.w o.g o.a)
  | .csrx o => csrPut (fCsr.enc o.csr) (.x o.g o.d o.a o.b)
  | .fpmodeWrite o => csrPut 0x001 o
  | .uevecWrite o => csrPut 0x008 o
  | .fqbaseWrite o => csrPut 0x810 o
  | .fqcapWrite o => csrPut 0x811 o
  | .fqheadWrite o => csrPut 0x812 o
  | .grselWrite o => csrPut 0x820 o
  | .grownWrite o => csrPut 0x821 o
  | .pblkWrite o => csrPut 0x831 o
  | .pliveWrite o => csrPut 0x832 o
  | .pshadWrite o => csrPut 0x833 o
  | .puevWrite o => csrPut 0x835 o
  | .ctxtabWrite o => csrPut 0x840 o
  | .migrationGo o => csrPut 0x851 o
  | .tlbinv o => lGABC.enc .b 0xE6 (gW o.g () () o.a o.b o.c)
  | .tlbsync g => lG.enc .b 0xE7 (gW g () () () () ())
  | .icinv o => (lGAB 0).enc .b 0xE8 (gW o.g () () o.a o.b ())
  | .pswap o => (lGDA 0).enc .b 0xE9 (gW o.g () o.d o.a () ())
  | .haltStop o => lGDAB.enc .b 0xEA (gW o.g () o.d o.a o.b ())
  | .haltRun o => lGDAB.enc .b 0xEA (gW o.g () o.d o.a o.b ())
  | .accspill o => lGABC.enc .b 0xEB (gW o.g () () o.a o.b o.c)
  | .accfill o => (lGAB 0).enc .b 0xEC (gW o.g () () o.a o.b ())
  | .fltres o => lGDABC.enc .b 0xED (gW o.g () o.d o.a o.b o.c)
  | .escape w0 => Raw.ofWords w0.toNat 0 0 0 0 0 0
  | _ => zeroRaw

/-! ## Raw words to instructions -/

def decA {T B C S R X : Type} (l : Lay T Dst MSrc B C S R X) (r : Raw) (k : AluM T B C S R X → Instr) : Option Instr :=
  (l.dec r r.e0).map (fun x => k x.alu)

def decU {T : Type} (fn : Fld T) (r : Raw) (k : AluB T → Instr) : Option Instr :=
  ((lUn fn).dec r 0).map (fun x => k ⟨x.g, x.ty, x.d, x.a⟩)

def decG (r : Raw) (k : Guard → Instr) : Option Instr := (lG.dec r 0).map (fun x => k x.g)
def decGA (r : Raw) (k : GA → Instr) : Option Instr := (lGA.dec r 0).map (fun x => k ⟨x.g, x.a⟩)
def decGAB (s : Nat) (r : Raw) (k : GAB → Instr) : Option Instr := ((lGAB s).dec r 0).map (fun x => k ⟨x.g, x.a, x.b⟩)
def decGABC (r : Raw) (k : GABC → Instr) : Option Instr := (lGABC.dec r 0).map (fun x => k ⟨x.g, x.a, x.b, x.c⟩)
def decGDA (s : Nat) (r : Raw) (k : GDA → Instr) : Option Instr := ((lGDA s).dec r 0).map (fun x => k ⟨x.g, x.d, x.a⟩)
def decGDAB (r : Raw) (k : GDAB → Instr) : Option Instr := (lGDAB.dec r 0).map (fun x => k ⟨x.g, x.d, x.a, x.b⟩)
def decP2 (s : Nat) (r : Raw) (k : Pred2 → Instr) : Option Instr := ((lPred2 s).dec r 0).map (fun x => k ⟨x.g, x.d, x.a, x.b⟩)
def decP1 (s : Nat) (r : Raw) (k : Pred1 → Instr) : Option Instr := ((lPred1 s).dec r 0).map (fun x => k ⟨x.g, x.d, x.a⟩)
def decShf (s : Nat) (r : Raw) (k : ShflOps → Instr) : Option Instr :=
  if r.e0 = 0 then ((lShfl s).dec r 0).map (fun x => k ⟨x.g, x.ty, x.d, x.a, x.b, x.c⟩) else none
def decBar (op : Nat) (r : Raw) (k : BarOps → Instr) : Option Instr :=
  ((lBar op).dec r 0).bind (fun x => if barWf ⟨x.g, x.ty, x.a⟩ then some (k ⟨x.g, x.ty, x.a⟩) else none)
def decQT (s : Nat) (r : Raw) (k : QuorumT → Instr) : Option Instr :=
  ((lQuoT s).dec r 0).map (fun x => k ⟨x.g, x.d.1, x.d.2, x.a⟩)
def decMovx (s : Nat) (r : Raw) (k : MovxOps → Instr) : Option Instr :=
  ((lMovx s).dec r r.e0).map (fun x => k ⟨x.g, x.ty, x.d, x.a, x.b⟩)

/-- The first alternative that decodes. -/
def firstOf : List (Option Instr) → Option Instr
  | [] => none
  | some i :: _ => some i
  | none :: r => firstOf r

/-- An immediate that is a multiple of 4 below 2^w, in words. -/
def decWords (w : Nat) (x : Nat) : Option (BitVec (w - 2)) :=
  if x < 2 ^ w ∧ x % 4 = 0 then some (BitVec.ofNat (w - 2) (x / 4)) else none

def guardI (c : Bool) (i : Option Instr) : Option Instr := if c then i else none

def decImm (r : Raw) (k : ImmOps → Instr) : Option Instr :=
  (lG.dec r 0).map (fun x => k ⟨x.g, BitVec.ofNat 32 r.e0⟩)

/-- csrw and csrx of a register that has a row of its own. -/
def csrPutInstr (c : Csr) (p : CsrPut) : Instr :=
  match c, p with
  | .fpmode, p => .fpmodeWrite p
  | .uevec, p => .uevecWrite p
  | .fqbase, p => .fqbaseWrite p
  | .fqcap, p => .fqcapWrite p
  | .fqhead, p => .fqheadWrite p
  | .grsel, p => .grselWrite p
  | .grown, p => .grownWrite p
  | .pblk, p => .pblkWrite p
  | .plive, p => .pliveWrite p
  | .pshad, p => .pshadWrite p
  | .puev, p => .puevWrite p
  | .ctxtab, p => .ctxtabWrite p
  | .mgctl, p => .migrationGo p
  | c, .w g a => .csrw ⟨g, c, a⟩
  | c, .x g d a b => .csrx ⟨g, c, d, a, b⟩

def decTile (r : Raw) (k : TileMoveOps → Instr) : Option Instr :=
  (lTile.dec r 0).bind (fun x =>
    (tabDec [(0, none), (1, some false), (3, some true)] r.e0).bind (fun part =>
      if tileMoveWf ⟨x.g, x.ty, x.d, x.a, x.b, part⟩ then some (k ⟨x.g, x.ty, x.d, x.a, x.b, part⟩) else none))

def decLd {P : Type} (p : Fld P) (r : Raw) (k : LdOps P → Instr) : Option Instr :=
  ((lLd p).dec r 0).map (fun x => k ⟨x.g, x.ty.1, x.ty.2, x.d, x.a, x.b, BitVec.ofNat 32 r.e0⟩)
def decSt {P : Type} (p : Fld P) (r : Raw) (k : StOps P → Instr) : Option Instr :=
  ((lSt p).dec r 0).map (fun x => k ⟨x.g, x.ty.1, x.ty.2, x.a, x.b, x.c, BitVec.ofNat 32 r.e0⟩)
def decAtom {P : Type} (p : Fld P) (r : Raw) (k : AtomOps P → Instr) : Option Instr :=
  ((lAtom p).dec r r.e0).bind (fun x =>
    let o : AtomOps P := ⟨x.g, x.ty, x.xf, x.d, x.a, x.b, x.c⟩
    if atomWf o then some (k o) else none)

/-- X of an engine command, as an operand code. -/
def EngF.xs (e : EngF) : Option Src := fSrc.dec e.x
/-- DSP in bits [1:0] and SSP in bits [3:2] of the space field. -/
def EngF.dsp (e : EngF) : Option ESpace := fESpace.dec (e.sp % 4)
def EngF.ssp (e : EngF) : Option ESpace := fESpace.dec (e.sp / 4)
def EngF.plain (e : EngF) : Bool := e.row == 0 && e.stride == 0

def decCpLin (r : Raw) : Option Instr :=
  match (lEng fZero).dec r 0, decEng r with
  | some x, some e =>
    match e.ssp, e.dsp with
    | some ss, some ds => guardI (e.x == 0 && e.plain) (some (.cpLin ⟨x.g, x.a, x.b, x.c, ss, ds, e.k⟩))
    | _, _ => none
  | _, _ => none

def decCpTen (r : Raw) : Option Instr :=
  match (lEng fZero).dec r 0, decEng r, decShape r with
  | some x, some e, some sh =>
    match e.ssp, e.dsp with
    | some ss, some ds => guardI (e.x == 0 && e.plain) (some (.cpTen ⟨x.g, x.a, x.b, x.c, ss, ds, e.k, sh⟩))
    | _, _ => none
  | _, _, _ => none

def decCpRow (dst : Bool) (r : Raw) (k : CpRowOps → Instr) : Option Instr :=
  match (lEng fZero).dec r 0, decEng r with
  | some x, some e =>
    match e.xs, e.ssp, e.dsp with
    | some xs, some ss, some ds =>
      guardI (e.row != 0 && (if dst then ss == .glob else ds == .glob))
        (some (k ⟨x.g, x.a, x.b, x.c, xs, if dst then ds else ss, BitVec.ofNat 16 e.row, BitVec.ofNat 24 e.stride, e.k⟩))
    | _, _, _ => none
  | _, _ => none

def decCpCmp (r : Raw) : Option Instr :=
  match (lEng fBool).dec r 0, decEng r with
  | some x, some e =>
    if e.sp == 0 && e.plain then
      if x.ty then guardI (e.x == 0x39D) (some (.cpCmpDec ⟨x.g, x.a, x.b, x.c, e.k⟩))
      else e.xs.map (fun xs => .cpCmpEnc ⟨x.g, x.a, x.b, x.c, xs, e.k⟩)
    else none
  | _, _ => none

def decNmr (r : Raw) : Option Instr :=
  match (lEng fNmr).dec r 0, decEng r with
  | some x, some e =>
    match e.xs, fBool.dec e.sp with
    | some xs, some acc =>
      guardI (e.row != 0)
        (some (.nmrCmd ⟨x.g, x.ty, x.a, x.b, x.c, xs, acc, BitVec.ofNat 16 e.row, BitVec.ofNat 24 e.stride, e.k⟩))
    | _, _ => none
  | _, _ => none

def decNmrShaped (r : Raw) : Option Instr :=
  match (lEng2 fNmr).dec r 0, decEng r, decShape r with
  | some x, some e, some sh =>
    match fBool.dec e.sp with
    | some acc => guardI (e.x == 0 && e.plain) (some (.nmrCmdShaped ⟨x.g, x.ty, x.a, x.b, acc, e.k, sh⟩))
    | none => none
  | _, _, _ => none

def decMma (s : Nat) (r : Raw) (k : MmaOps → Instr) : Option Instr :=
  ((lMma s).dec r r.e0).map (fun x => k ⟨x.g, x.d, x.a, x.b, x.xf, x.sat⟩)

def decEpi (r : Raw) : Option Instr :=
  match lEpi.dec r 0 with
  | some x =>
    let o : AccEpiOps := ⟨x.g, x.d, x.a, x.b, x.c, BitVec.ofNat 32 r.e1, BitVec.ofNat 4 (bitsAt r.e0 28 4), bitsAt r.e0 27 1 == 1, bitsAt r.e0 26 1 == 1,
      bitsAt r.e0 25 1 == 1, bitsAt r.e0 24 1 == 1, Fin.ofNat 32 (bitsAt r.e0 19 5), Fin.ofNat 32 (bitsAt r.e0 14 5)⟩
    guardI (bitsAt r.e0 0 14 == 0) (some (.accEpi o))
  | none => none

def decAccM (r : Raw) (k : AccMoveOps → Instr) : Option Instr :=
  match lAccM.dec r 0, fBool.dec r.e0 with
  | some x, some c => some (k ⟨x.g, x.d, x.a, x.b, c⟩)
  | _, _ => none

/-- redux and scan: RND only on floating-point addition (R201). -/
def decRed {X : Type} (x : Fld X) (r : Raw) (k : AluM RedSel Unit Unit Unit Rnd X → Instr) : Option Instr :=
  ((lAlu fRed sN sN fZero fRnd x).dec r r.e0).bind (fun g => if redWf g.alu then some (k g.alu) else none)

/-- Table 6.11: the instruction of a raw word whose LEN agrees with its OPC. The bound of lp's distance (R213) is a check of a field of the encoding like any other here, so it comes before the guard and the register checks: the model's choice (log entry 85), since R213 does not say at which step of R154 it stands. -/
def ofRaw (r : Raw) : Option Instr :=
  match r.opc with
  | 0x00 => decA lIntS r .iadd
  | 0x01 => decA lIntS r .isub
  | 0x02 => decA lCarry r .iaddc
  | 0x03 => decA lCarry r .isubb
  | 0x04 => decA lIntS r .imul
  | 0x05 => decA lInt r .imulhi
  | 0x06 => decA lIntSC r .imad
  | 0x07 => decA lInt r .imin
  | 0x08 => decA lInt r .imax
  | 0x09 => decA (lAlu fSInt sN sN fBool fZero fZero) r .iabs
  | 0x0A => decA (lAlu fLea sM sN fZero fZero fZero) r .lea
  | 0x0B => decA (lAlu fIdp sM sR fBool fZero fZero) r .idp4
  | 0x0C => decU fN r .mov
  | 0x0D => ((lW fInt fDst sN sN sN).dec r 0).map (fun x => .movi ⟨x.g, x.ty, x.d, BitVec.ofNat 32 r.e0⟩)
  | 0x0E => firstOf [decMovx 0 r .movxRd, decMovx 1 r .movxWr]
  | 0x0F => ((lAlu fN sM (sF (fFin 12)) fZero fZero fZero).dec r r.e0).bind (fun x =>
      if x.a.neg || x.b.neg then none else some (.sel x.alu))
  | 0x10 => decA lN r .and
  | 0x11 => decA lN r .or
  | 0x12 => decA lN r .xor
  | 0x13 => decU fN r .not
  | 0x14 => decA lN r .andn
  | 0x15 => (lLanf.dec r r.e1).bind (fun x =>
      if r.e0 < 256 then some (.lanf ⟨x.g, x.ty, x.d, x.a, x.b, x.c, BitVec.ofNat 8 r.e0⟩) else none)
  | 0x16 => decA lN r .shl
  | 0x17 => decA lN r .shr
  | 0x18 => decA (lAlu fSInt sM sN fZero fZero fZero) r .sar
  | 0x19 => firstOf [decA (lOnlyC 8) r .fshL, decA (lOnlyC 9) r .fshR]
  | 0x1A => decU fN r .popc
  | 0x1B => decU fN r .clz
  | 0x1C => decU fN r .ctz
  | 0x1D => decU fN r .brev
  | 0x1E => decA lInt r .bfe
  | 0x1F => decA (lAlu fN sM sR fZero fZero fZero) r .bfi
  | 0x20 => decA lFltR r .fadd
  | 0x21 => decA lFltR r .fsub
  | 0x22 => decA lFltR r .fmul
  | 0x23 => decA (lAlu fFlt sM sR fBool fRnd fZero) r .ffma
  | 0x24 => decA lFlt r .fmin
  | 0x25 => decA lFlt r .fmax
  | 0x26 => decU fFlt r .fabs
  | 0x27 => decA (lAlu fFlt sN sN fZero fRnd fZero) r .frnd
  | 0x28 => decU fFlt r .fclass
  | 0x29 => decA lFltR r .fscale
  | 0x2A => ((lCmp fFc fFCond).dec r 0).map (fun x => .fcmp ⟨x.g, x.ty, x.d.1, x.d.2, x.a, x.b⟩)
  | 0x30 => decA lHR r .hadd2
  | 0x31 => decA lHR r .hmul2
  | 0x32 => decA (lAlu fH sM sR fBool fRnd fBool) r .hfma2
  | 0x33 => decA lH r .hmin2
  | 0x34 => decA lH r .hmax2
  | 0x38 => ((lAlu fNum sN sN fBool fRnd (fTab numTyTab)).dec r r.e0).bind (fun x =>
      if x.rnd == .dyn || !(x.ty.isInt && x.xf.isInt) then some (.cvt x.alu) else none)
  | 0x39 => ((lAlu fPk sM sR fBool fRnd (fOnly 8)).dec r r.e0).bind (fun x =>
      if !x.ty.is16 || x.c == RSrc.unused then some (.cvtpk x.alu) else none)
  | 0x3A => firstOf [decA (lScR 0) r .cvtscToe8, decA (lScR 1) r .cvtscTos24, decA (lSc 2) r .cvtscFrome8,
      decA (lSc 3) r .cvtscFroms24]
  | 0x40 => firstOf [decA (lSfu 0) r .frcp, decA (lSfu 1) r .frsq,
      decA (lAlu (fTab [(66, FltTy.f32), (74, .f64)]) sN sN fBool fRnd fZero) r .fsqrt, decA (lSfu 3) r .fexp2,
      decA (lSfu 4) r .flog2, decA (lSfu 5) r .fsin, decA (lSfu 6) r .fcos, decA (lSfu 7) r .ftanh]
  | 0x41 => ((lCmp fInt fICond).dec r 0).map (fun x => .icmp ⟨x.g, x.ty, x.d.1, x.d.2, x.a, x.b⟩)
  | 0x42 => firstOf [decP2 0 r .pand, decP2 1 r .por, decP2 2 r .pxor, decP1 3 r .pnot, decP1 4 r .pmov]
  | 0x43 => firstOf [decShf 0 r .shflIdx, decShf 1 r .shflUp, decShf 2 r .shflDown, decShf 3 r .shflXor]
  | 0x44 => firstOf [decQT 0 r .quorumGe, decQT 1 r .quorumLt,
      (lQuoS.dec r 0).map (fun x => .quorumSame ⟨x.g, x.d.1, x.d.2⟩)]
  | 0x45 => (lBallot.dec r 0).map (fun x => .ballot ⟨x.g, x.d, x.a⟩)
  | 0x46 => decRed fZero r .redux
  | 0x47 => decRed fBool r .scan
  | 0x48 => decA (lOnlyC 8) r .bpick
  | 0x49 => firstOf [decA (lLgcW [(0, W32Ty.i32), (1, .n32)]) r .lgcDiv, decA (lLgcW [(2, W32Ty.i32), (3, .n32)]) r .lgcRem,
      decA (lLgc1 0x08) r .lgcRcp, decA (lLgc1 0x09) r .lgcRsq, decA (lLgc1 0x0A) r .lgcSin, decA (lLgc1 0x0B) r .lgcCos,
      decA (lLgc1 0x0C) r .lgcEx2, decA (lLgc1 0x0D) r .lgcLg2, decA (lLgcW [(0x10, W64Ty.i64), (0x12, .n64)]) r .lgcMin,
      decA (lLgcW [(0x11, W64Ty.i64), (0x13, .n64)]) r .lgcMax]
  | 0x50 => match fGuard.dec r.g with
      | some g => if r.d = 0 then some (.bra ⟨g, decBrOff r⟩) else none
      | none => none
  | 0x51 => match fGuard.dec r.g, fDst.dec r.d with
      | some g, some d => some (.call ⟨g, d, decBrOff r⟩)
      | _, _ => none
  | 0x52 => (lBrx.dec r 0).map (fun x => .brx ⟨x.g, x.a⟩)
  | 0x53 => (lCallx.dec r 0).map (fun x => .callx ⟨x.g, x.d, x.a⟩)
  | 0x54 => (lBrx.dec r 0).map (fun x => .ret ⟨x.g, x.a⟩)
  | 0x55 => decG r .exit
  | 0x56 => decG r .nop
  | 0x57 => match lGA.dec r 0, decWords 14 r.e0 with
      | some x, some d => if 3 < d.toNat then some (.lp ⟨x.g, x.a, d⟩) else none
      | _, _ => none
  | 0x58 => decG r .lpbrk
  | 0x59 => decGA r .join
  | 0x5A => if r.e0 = 0 then decG r .nopL else none
  | 0x60 => match (lGD 0).dec r 0, decWords 32 r.e0 with
      | some x, some o => some (.chkBegin ⟨x.g, x.d, o⟩)
      | _, _ => none
  | 0x61 => decG r .chkEnd
  | 0x62 => decGA r .chkAbort
  | 0x63 => decG r .chkCut
  | 0x64 => firstOf [decBar 0 r .barArrive, decBar 1 r .barWait, decBar 2 r .barSync]
  | 0x65 => ((lW fOptScope fZero sN sN sN).dec r 0).map (fun x => .fence ⟨x.g, x.ty⟩)
  | 0x66 => ((lW fPaths fZero sN sN sN).dec r 0).map (fun x => .fenceX ⟨x.g, x.ty.1, x.ty.2⟩)
  | 0x67 => (lG.dec r 0).bind (fun x =>
      if r.e0 < 2 ^ 24 then
        some (.wait ⟨x.g, BitVec.ofNat 6 r.e0, BitVec.ofNat 6 (r.e0 / 2 ^ 6), BitVec.ofNat 6 (r.e0 / 2 ^ 12), BitVec.ofNat 6 (r.e0 / 2 ^ 18)⟩)
      else none)
  | 0x68 => match lGABC.dec r 0, decWords 32 r.e0 with
      | some x, some o => some (.evbind ⟨x.g, x.a, x.b, x.c, o⟩)
      | _, _ => none
  | 0x69 => decGA r .evunbind
  | 0x6A => decGDA 0 r .evmask
  | 0x6B => decGDA 0 r .evpoll
  | 0x6C => decGDA 0 r .waitany
  | 0x6D => decGAB 0 r .mbxPost
  | 0x6E => (lKA.dec r 0).map (fun x => .mbxTake ⟨x.g, x.d, x.a, x.c⟩)
  | 0x6F => firstOf [decGAB 0 r .semSig, (lKAB.dec r 0).map (fun x => .semTry ⟨x.g, x.a, x.b, x.c⟩), decGAB 2 r .semWait]
  | 0x70 => decLd fSpace r .ldo
  | 0x71 => decSt fSpace r .sto
  | 0x72 => decAtom fSpace r .atomo
  | 0x73 => decGDAB r .oalloc
  | 0x74 => decGA r .ofree
  | 0x75 => decGA r .orenew
  | 0x76 => firstOf [((lGD 0).dec r 0).map (fun x => .oqueryBase ⟨x.g, x.d⟩),
      ((lGD 1).dec r 0).map (fun x => .oqueryFmask ⟨x.g, x.d⟩), decGDA 2 r .oqueryCode, decGDA 3 r .oqueryExpiry]
  | 0x80 => decLd fZero r .ldg
  | 0x81 => decSt fZero r .stg
  | 0x82 => decAtom fScope r .atomg
  | 0x83 => (lRedg.dec r r.e0).map (fun x => .redg ⟨x.g, x.ty.1, x.ty.2, x.xf, x.a, x.b⟩)
  | 0x90 => decCpLin r
  | 0x91 => decCpTen r
  | 0x92 => decCpRow true r .cpGat
  | 0x93 => decCpRow false r .cpSct
  | 0x94 => decCpCmp r
  | 0x95 => decNmr r
  | 0x96 => decNmrShaped r
  | 0x97 => decGA r .nmrFlush
  | 0x98 => (lKDAB.dec r 0).map (fun x => .cmpRd ⟨x.g, x.d, x.a, x.b, x.c⟩)
  | 0x99 => decGAB 0 r .cmpSet
  | 0xA0 => (lTcfg.dec r 0).map (fun x => .tcfg ⟨x.g, x.d, x.a⟩)
  | 0xA1 => (lTcfgr.dec r 0).map (fun x => .tcfgr ⟨x.g, x.d, x.a⟩)
  | 0xA2 => decTile r .tld
  | 0xA3 => decTile r .tst
  | 0xA4 => (lTzero.dec r 0).map (fun x => .tzero ⟨x.g, x.d⟩)
  | 0xA5 => decMma 0 r .mma
  | 0xA6 => firstOf [decMma 0 r .mmasE8, decMma 1 r .mmasS24]
  | 0xA7 => (lAccZ.dec r 0).map (fun x => .accZero ⟨x.g, x.d⟩)
  | 0xA8 => decAccM r .accLd
  | 0xA9 => decAccM r .accSt
  | 0xAA => (lAccRd.dec r 0).map (fun x => .accRd ⟨x.g, x.d, x.a, x.b⟩)
  | 0xAB => decEpi r
  | 0xAC => decGAB 0 r .accwin
  | 0xB0 => decGAB 0 r .tskEnq
  | 0xB1 => decGA r .launch
  | 0xE0 => decImm r .trap
  | 0xE1 => decImm r .sysc
  | 0xE2 => decG r .eret
  | 0xE3 => match (lGD 0).dec r 0, fCsr.dec r.e0 with
      | some x, some c => some (.csrr ⟨x.g, x.d, c⟩)
      | _, _ => none
  | 0xE4 => match lGA.dec r 0, fCsr.dec r.e0 with
      | some x, some c => some (csrPutInstr c (.w x.g x.a))
      | _, _ => none
  | 0xE5 => match lGDAB.dec r 0, fCsr.dec r.e0 with
      | some x, some c => some (csrPutInstr c (.x x.g x.d x.a x.b))
      | _, _ => none
  | 0xE6 => decGABC r .tlbinv
  | 0xE7 => decG r .tlbsync
  | 0xE8 => decGAB 0 r .icinv
  | 0xE9 => decGDA 0 r .pswap
  | 0xEA => decGDAB r (fun o => if o.b = .const 1 then .haltRun o else .haltStop o)
  | 0xEB => decGABC r .accspill
  | 0xEC => decGAB 0 r .accfill
  | 0xED => (lGDABC.dec r 0).map (fun x => .fltres ⟨x.g, x.d, x.a, x.b, x.c⟩)
  | _ => none

/-! ## Bytes -/

/-- Why bytes are not an instruction of the map, by the step of R154 that decides. -/
inductive DecodeError
  | tooShort
  | lenZero
  | unassigned
  | lenMismatch
  | field
deriving DecidableEq, Repr

/-- The 32-bit word at byte offset `4 * k` of the bytes (zero beyond their end). -/
def wordAt (bs : List Byte) (k : Nat) : Nat := ofBytesLE ((bs.drop (4 * k)).take 4)

def word0At (bs : List Byte) : Nat := ofBytesLE (bs.take 8)

/-- The raw words of the bytes of an instruction of form `f`. -/
def rawOf (f : Form) (bs : List Byte) : Raw :=
  let w (k : Nat) (n : Nat) : Nat := if n ≤ f.bytes then wordAt bs k else 0
  Raw.ofWords (word0At bs) (w 2 12) (w 3 16) (w 4 32) (w 5 32) (w 6 32) (w 7 32)

/-- The instruction that bytes begin with, and its length (steps 1, 2, 4, 5 and 7 of R154 without any state; an escape takes its length from LEN, R320). -/
def decode (bs : List Byte) : Except DecodeError (Instr × Nat) :=
  let w0 := word0At bs
  let opc := bitsAt w0 2 8
  let len := bitsAt w0 0 2
  if bs.length < 4 then .error .tooShort
  else if 0xF0 ≤ opc then .ok (.escape (BitVec.ofNat 64 w0), if len = 0 then 4 else 4 + 4 * len)
  else if len = 0 then .error .lenZero
  else match formOf opc with
    | none => .error .unassigned
    | some f =>
      if len ≠ f.lenField then .error .lenMismatch
      else if bs.length < f.bytes then .error .tooShort
      else match ofRaw (rawOf f bs) with
        | none => .error .field
        | some i => .ok (i, f.bytes)

/-- The bytes of an instruction (R131, R3); a step that no word encodes has none. -/
def encode (i : Instr) : List Byte :=
  match i with
  | .escape w0 => bytesLE 8 w0.toNat
  | _ =>
    let r := toRaw i
    match formOf r.opc with
    | none => []
    | some f =>
      if r.len = 0 then []
      else ((bytesLE 8 r.word0) ++ (bytesLE 4 r.e0) ++ (bytesLE 4 r.e1) ++ (bytesLE 4 r.q0) ++ (bytesLE 4 r.q1) ++
        (bytesLE 4 r.q2) ++ (bytesLE 4 r.q3)).take f.bytes

/-- The length of an instruction in bytes (R133, R320). -/
def Instr.size (i : Instr) : Nat :=
  match i with
  | .escape w0 => if bitsAt w0.toNat 0 2 = 0 then 4 else 4 + 4 * bitsAt w0.toNat 0 2
  | _ => match formOf (toRaw i).opc with
    | some f => f.bytes
    | none => 0

/-- The decoder on an instruction's bits, bit 0 lowest; the bits above `nbits` are zero. -/
def decodeTableWord (nbits w : Nat) : Option Instr :=
  match decode (bytesLE 32 (w % 2 ^ nbits)) with
  | .ok (i, _) => some i
  | .error _ => none

end Sys2Proof
end

