-- ==== Sys2Proof/Machine/State.lean ====
section
/-! DEFINITION. The state of an SX960 package: every register, memory, queue and status the spec gives it (INVENTORY.md, State), as plain data; why a step stops; and the machine after reset. -/

namespace Sys2Proof.Machine

/-- A finite map: keys strictly rise, and no entry holds the value that an unlisted key has. -/
abbrev Sparse (α : Type) := List (Nat × α)

/-! ## Operand-store values (R64) -/

inductive VSt | live | poison | expired
deriving DecidableEq, Repr

/-- A 32-bit operand-store value and its state. -/
structure Cell where
  data : Word32
  st : VSt
deriving DecidableEq, Repr

/-- A vector register of one lane: value, state and expiry tick (used when the retention code is not HELD). -/
structure RegCell where
  data : Word32
  st : VSt
  exp : Nat
deriving DecidableEq, Repr

/-- A run of operand-store bytes with one retention code (R54, R60): the words not listed in `cells` all stand as `fill`. Word numbers count from the start of the space. -/
structure Alloc where
  start : Nat
  size : Nat
  code : Nat
  exp : Nat
  fill : Cell
  cells : Sparse Cell
deriving DecidableEq, Repr

/-- A freed block that engine commands and matrix requests released before the free still use (R256). -/
structure Freed where
  block : Alloc
  users : List Nat
deriving DecidableEq, Repr

/-! ## Lines and access sets (R108, R254, R281) -/

/-- A line for the conflict test: a global line by LA / 64, an operand-store line by crew and offset / 64, a crew's allocation map, a crew's configuration line. -/
inductive Line
  | glob (n : Nat)
  | store (crew : Nat) (n : Nat)
  | map (crew : Nat)
  | cfg (crew : Nat)
deriving DecidableEq, Repr

/-! ## Objects that gangs wait on -/

/-- A barrier slot of one scope instance (R223): `inst` is the crew, quad, die or 0. -/
structure BarKey where
  scope : Scope
  item : Nat
  inst : Nat
  slot : Nat
deriving DecidableEq, Repr

structure BarSlot where
  need : Nat
  count : Nat
  phase : Word32
  arrived : List Nat
  gone : List Nat
deriving DecidableEq, Repr

/-- An event source (R231). -/
inductive EvSrc
  | bar (k : BarKey)
  | comp (ctx : Nat) (sup : Bool) (va : Nat) (la : Nat) (thr : Nat)
  | mbx (m : Nat)
  | sem (n : Nat) (thr : Nat)
  | timer (t : Nat)
deriving DecidableEq, Repr

structure Binding where
  src : EvSrc
  one : Bool
  handler : Word64
deriving DecidableEq, Repr

/-! ## Gangs -/

/-- A trap cause of Table 0.2. -/
abbrev Cause := Nat

/-- What a group held with the whole gang by UNCORRECTABLE goes back to when it resumes (R313). -/
inductive Back
  | issue
  | join (mask : LaneMask) (order : Nat)
  | loopEnd (order : Nat)
  | coll (order : Nat)
  | bar (k : BarKey)
  | fence (x : PathClass) (upTo : Nat)
deriving DecidableEq, Repr

/-- A held group (R313): cause, the SEQ of its token, its record, what SKIP adds to the PC (R320), whether it is the group that trapped, and what it was doing. -/
structure Held where
  cause : Cause
  seq : Nat
  skip : Nat
  main : Bool
  back : Back
  record : List Byte
deriving DecidableEq, Repr

/-- Why a group does not issue although nothing parks it (R347). A fence waits for the commands and requests named below `upTo`. -/
inductive Stall
  | mbx (m : Nat)
  | queue (q : Nat)
  | counters (ld st cp tl : Nat)
  | fence (x : PathClass) (upTo : Nat)
  | table (quad : Nat)
  | credit
  | funit (cv : Bool)
  | interlock
  | accRd (tile : Nat)
  | tile (quad tile : Nat)
  | inv
  | halted (part : Nat) (run : Bool)
  | swap (part : Nat) (d : Fin 128)
deriving DecidableEq, Repr

/-- What a sub-gang waits for. `join` keeps the mask read at arrival (R36); `coll` waits for lanes parked from it (R34); the orders number the arrivals at joins, loop ends and collectives (R38, R214). -/
inductive Wait
  | ready
  | join (mask : LaneMask) (order : Nat)
  | loopEnd (order : Nat)
  | coll (order : Nat)
  | held (h : Held)
  | bar (k : BarKey)
  | events (mask : Nat) (d : Fin 128)
  | sem (n : Nat) (thr : Nat)
  | stall (w : Stall)
deriving DecidableEq, Repr

/-- A sub-gang (R31): its lanes, PC, wait and its WAIT count (R347). -/
structure SubGang where
  lanes : LaneMask
  pc : Word64
  wait : Wait
  waited : Nat
deriving DecidableEq, Repr

/-- A fault family (R34): the lanes of the remainder, and the lanes parked from it that have not fused with it again. -/
structure Family where
  rem : LaneMask
  out : LaneMask
deriving DecidableEq, Repr

/-- One loop level of Table 9.2. -/
structure LoopLevel where
  lc : Word32
  start : Word64
  stop : Word64
  lmask : LaneMask
  xmask : LaneMask
deriving DecidableEq, Repr

inductive PendKind | load | special | convert | legacy
deriving DecidableEq, Repr

/-- One lane's part of a result in flight. -/
structure PendLane where
  lane : Lane
  words : List Cell
deriving DecidableEq, Repr

/-- A result in flight (R175, R246): to the vector registers from `reg` on, or to scalar registers. -/
structure Pend where
  id : Nat
  kind : PendKind
  reg : Nat
  lanes : List PendLane
  scalars : List (Nat × Word64)
deriving DecidableEq, Repr

/-- One lane's part of the per-thread space (R52). -/
structure LaneSpace where
  lane : Nat
  exp : Nat
  fill : Cell
  cells : Sparse Cell
deriving DecidableEq, Repr

/-- What a squash restores (R114): everything of a gang but its place and its standing with the stroke. Vector registers are keyed by 64 × register + lane. -/
structure GangCore where
  subs : List SubGang
  fams : List Family
  exited : LaneMask
  quarantined : LaneMask
  regFill : RegCell
  regs : Sparse RegCell
  sregs : Sparse Word64
  preds : List LaneMask
  fpmode : Word32
  fpflags : Word32
  ld : Nat
  st : Nat
  cp : Nat
  tl : Nat
  loops : List LoopLevel
  ldepth : Nat
  binds : List (Option Binding)
  evpend : BitVec 16
  even : BitVec 16
  rearm : BitVec 16
  evslot : Word32
  fmask : LaneMask
  ef : List Word64
  uevec : Word64
  spaces : List LaneSpace
  pend : List Pend
deriving DecidableEq, Repr

/-! ## Work and descriptors -/

/-- The fields of a launch descriptor (Table 15.1). -/
structure Desc where
  entry : Nat
  args : Nat
  cx : Nat
  cy : Nat
  cz : Nat
  tx : Nat
  ty : Nat
  tz : Nat
  gw : Nat
  ng : Nat
  nv : Nat
  np : Nat
  nc : Nat
  ns : Nat
  nk : Nat
  na : Nat
  ne : Nat
  nm : Nat
  ret0 : Nat
  ret1 : Nat
  bcrew : Nat
  bquad : Nat
  bdie : Nat
  bpkg : Nat
  bpod : Nat
  mode : Nat
  power : Nat
  tq : Nat
  podjob : Nat
  podgangs : Nat
deriving DecidableEq, Repr

/-- A 64-byte task record (R274), with its address and whether a cox core at S entered it (R338). -/
structure TaskRec where
  addr : Nat
  desc : Nat
  args : Nat
  tx : Nat
  ty : Nat
  tz : Nat
  succ : Nat
  sup : Bool
deriving DecidableEq, Repr

/-- A queue entry (R336). -/
inductive QEntry
  | task (r : TaskRec)
  | launch (d : Desc) (addr : Nat) (ctx : Nat) (tested : Bool)
deriving DecidableEq, Repr

/-- How far a queue's head has come (R337). -/
inductive QHead
  | idle
  | inFifo
  | refused
  | served
  | page (va : Nat)
  | placing (item : Nat)
deriving DecidableEq, Repr

structure Queue where
  entries : List QEntry
  en : Bool
  sem : Nat
  thr : Nat
  head : QHead
deriving DecidableEq, Repr

/-- A part of a work item's range, held by a quad. -/
structure QRange where
  quad : Nat
  lo : Nat
  hi : Nat
deriving DecidableEq, Repr

/-- A work item (R340). `split` lists the quads over which its crews were split, once they have been. -/
structure Item where
  id : Nat
  ctx : Nat
  desc : Desc
  task : Option TaskRec
  queue : Option Nat
  addr : Nat
  tested : Bool
  split : Option (List Nat)
  ranges : List QRange
  placed : Nat
  released : Nat
  bars : List (BarKey × BarSlot)
deriving DecidableEq, Repr

/-! ## Translations -/

/-- A cached leaf translation (R361): the first 4 KiB page of the leaf's range, the leaf, its level, the frame byte that this page starts at, the positions of its page group whose entries were valid leaves, with those entries, and the entry that the page's own address indexes, on which its permissions and ownership are judged (R358). -/
structure TlbEnt where
  ctx : Nat
  vpage : Nat
  leaf : Nat
  level : Nat
  frame : Nat
  peers : List (Nat × Nat)
  own : Nat
deriving DecidableEq, Repr

/-! ## Engine commands (R259 to R273) -/

/-- One lane's reduction on a MEMSIDE page (R253), with the translation that led there. -/
structure RedgOp where
  la : Nat
  ty : AtomTy
  op : RedOp
  b : Word64
  ent : TlbEnt
deriving DecidableEq, Repr

/-- What a command does. `redg` is a MEMSIDE redg that its base dies have yet to perform (R394). -/
inductive CmdKind
  | lin (a b n : Nat) (ss ds : ESpace)
  | ten (a b n : Nat) (ss ds : ESpace) (q0 q1 q2 q3 : Nat)
  | gat (a b idx n : Nat) (ds : ESpace) (row stride : Nat)
  | sct (a b idx n : Nat) (ss : ESpace) (row stride : Nat)
  | enc (a b n : Nat) (x : Option Nat)
  | dec (a b n : Nat)
  | nmr (sel : NmrSel) (a b idx n : Nat) (acc : Bool) (row stride : Nat)
  | nmrShaped (sel : NmrSel) (a b : Nat) (acc : Bool) (q0 q1 q2 q3 : Nat)
  | flush
  | redg (ops : List RedgOp)
deriving DecidableEq, Repr

/-- A written deep block (R396): the name of its extent, its units, its 4 KiB, and which of its lines came from poisoned ones (log entry 14). -/
structure DeepBlock where
  ext : Nat
  units : Nat
  bytes : List Byte
  pois : List Nat
deriving DecidableEq, Repr

/-- What a codec command has in hand for a block (R397): the extent that it reads (0 of an unwritten block); units allocated by step 1; after step 3, the units to be recorded with the parts of the record still to come, and the extent still to be freed by step 4. -/
inductive DeepWork
  | reading (ext : Nat)
  | allocated (units : Nat)
  | stored (units : Nat) (parts : List Nat) (old : Option Nat)
deriving DecidableEq, Repr

/-- An extent that its block's directory entry names no more (R397 step 4): its name, its units, and whether it is freed when no one reads it. -/
structure OldExtent where
  ext : Nat
  units : Nat
  asked : Bool
deriving DecidableEq, Repr

/-- Progress of a command. `pos`: blocks, rows or output lines below it are finished; `sub` is 1 once a reduction's output has been checked or a redg has begun; `done`: units (output lines) from there on that are written; `held`: units read and not yet written; `list`: index-list entries read; `deep`: blocks of a codec command in hand. -/
structure Progress where
  checked : Bool
  pos : Nat
  sub : Nat
  done : List Nat
  held : List (Nat × List (Byte × VSt))
  list : Sparse (List (Byte × VSt))
  deep : List (Nat × DeepWork)
deriving DecidableEq, Repr

/-- A command that no engine has looked at. -/
def Progress.start : Progress := ⟨false, 0, 0, [], [], [], []⟩

structure Cmd where
  id : Nat
  gang : Nat
  crew : Option Nat
  ctx : Nat
  sup : Bool
  die : Nat
  engine : Nat
  kind : CmdKind
  obj : Option Nat
  insn : List Byte
  prog : Progress
  waitVa : Option Nat
  failed : Option (Cause × Nat)
  finished : Bool
  corrupt : Bool
deriving DecidableEq, Repr

/-! ## Matrix requests (R282 to R297) -/

/-- A matrix item (R283): an element or scale area of a tile register of a crew, or an accumulator tile of a quad. -/
inductive MItem
  | elem (crew : Nat) (m : Nat)
  | scale (crew : Nat) (m : Nat)
  | acc (quad : Nat) (t : Nat)
deriving DecidableEq, Repr

inductive ReqKind
  | ld (m : Nat) (cfg : Nat) (crewSp : Bool) (a b : Nat) (part : Option Bool)
  | st (m : Nat) (cfg : Nat) (crewSp : Bool) (a b : Nat) (part : Option Bool)
  | tzero (m : Nat)
  | mma (t : Nat) (ma mb : Nat) (ca cb : Nat) (zero sat : Bool) (scales : Option Bool)
  | accZero (t : Nat)
  | accLd (t : Nat) (crewSp : Bool) (a b : Nat)
  | accSt (t : Nat) (crewSp : Bool) (a b : Nat)
  | epi (t : Nat) (o : AccEpiOps) (a b : Nat) (bias : Option Nat) (w0 eng : Nat)
  | rd (t : Nat) (pc : Nat)
deriving DecidableEq, Repr

/-- Where a request stands: in the table, granted, waiting on a page (R374), an epilogue translated or captured (R297), a pending epilogue taken into a spill area (R329), finished. -/
inductive ReqSt
  | queued
  | granted
  | pageWait (va : Nat)
  | translated
  | captured
  | spilled
  | finished
deriving DecidableEq, Repr

/-- A matrix request: `done` the pieces performed, `bias` the bias values by column that an epilogue has read, `data` what it has captured, `pages` its translated output pages (virtual page, location). The kind `rd` holds the place of a stalled acc.rd in the order of R283 and is no table entry. -/
structure Req where
  id : Nat
  gang : Nat
  crew : Nat
  ctx : Nat
  quad : Nat
  prio : Nat
  kind : ReqKind
  st : ReqSt
  done : List Nat
  bias : Sparse Cell
  data : List Cell
  pages : List (Nat × Nat)
  passed : Nat
  insn : List Byte
  corrupt : Bool
deriving DecidableEq, Repr

/-! ## Deferred effects and chunks (R107 to R121) -/

inductive Deferred
  | cmd (c : Cmd)
  | req (r : Req)
  | redg (c : Cmd)
  | cmpSet (ctx : Nat) (va la : Nat) (value : Word64)
  | post (m : Nat) (x : Word64)
  | signal (name : Nat) (amount : Nat)
  | arrive (k : BarKey)
  | launch (d : Desc) (addr : Nat) (ctx : Nat) (tested : Bool)
  | task (q : Nat) (r : TaskRec)
deriving DecidableEq, Repr

/-- A held change of the allocation map or of the configuration line (R255 to R257, R281); a free names the commands and requests of its own chunk that go before it. -/
inductive HeldOp
  | alloc (start size code : Nat)
  | free (start : Nat) (own : List Nat)
  | renew (byte : Nat)
  | put (bytes : Sparse Byte)
  | tcfg (m : Nat) (v : Nat)
  | window (base lim : Nat)
deriving DecidableEq, Repr

structure Expl where
  pc : Word64
  fallback : Word64
  status : Fin 128
  members : LaneMask
  before : GangCore
  block : List Byte
deriving DecidableEq, Repr

structure Chunk where
  snap : GangCore
  expl : Option Expl
  count : Nat
  stores : Nat
  rset : List Line
  wset : List Line
  qset : List Line
  gst : Sparse Byte
  cst : Sparse Byte
  tst : Sparse Byte
  ops : List HeldOp
  defer : List Deferred
  pages : List (TlbEnt × Line)
  rebound : BitVec 16
  polled : BitVec 16
  closed : Bool
deriving DecidableEq, Repr

inductive TokenSt | none | wanted | granted | lost
deriving DecidableEq, Repr

/-- A gang's fixed record (R77): sound; struck by an uncorrectable error in the live image; struck in a saved image. -/
inductive RecErr | sound | live | saved
deriving DecidableEq, Repr

/-- A loop body that the loop buffer holds (R217): the loop's level, START and END. -/
structure LoopBody where
  level : Nat
  start : Word64
  stop : Word64
deriving DecidableEq, Repr

/-- A fetch block in the loop buffer (R217): the body it belongs to, its virtual and location address, its bytes, and whether an icinv has discarded it, which takes effect at the gang's next chunk end. -/
structure LoopBlock where
  body : LoopBody
  va : Nat
  la : Nat
  bytes : List Byte
  stale : Bool
deriving DecidableEq, Repr

/-- A gang, or a cox core (numbers 0 to 23), which counts as a gang of one thread (R107). `releases` are the deferred effects of its last committed chunk that are still to be released (R121, log entry 95); `lbody` are the loop bodies that the loop buffer `lbuf` holds, the outermost first. -/
structure Gang where
  id : Nat
  crew : Option Nat
  num : Nat
  place : Nat
  half : Nat
  core : GangCore
  chunk : Option Chunk
  squashes : Nat
  token : TokenSt
  seq : Nat
  bpend : List (BarKey × Word32)
  record : RecErr
  releases : List Deferred
  lbody : List LoopBody
  lbuf : List LoopBlock
deriving DecidableEq, Repr

/-- A tile register (R278): element bytes, scale bytes, and the poisoned words of each. -/
structure TileReg where
  elems : Sparse Byte
  scales : Sparse Byte
  epois : List Nat
  spois : List Nat
deriving DecidableEq, Repr

structure Crew where
  id : Nat
  item : Nat
  ctx : Nat
  coreIx : Nat
  live : Bool
  place : Nat
  num : Nat
  desc : Desc
  args : Nat
  tile : Nat × Nat × Nat
  succ : Nat
  base : Nat
  power : Nat
  gangs : List Nat
  allocs : List Alloc
  freed : List Freed
  tiles : Sparse TileReg
  tcfg : Sparse Nat
  accbase : Nat
  acclim : Nat
  rb : Nat
  sems : List Nat
  bars : List BarSlot
  exitRecords : Bool
deriving DecidableEq, Repr

/-! ## Package objects -/

inductive SemWaiter
  | group (gang : Nat) (lead : Lane)
  | queue (q : Nat)
deriving DecidableEq, Repr

structure Sem where
  value : Nat
  fifo : List (SemWaiter × Nat)
deriving DecidableEq, Repr

structure AccTile where
  vals : Sparse Word32
  pois : List Nat
  owner : Nat
  pending : Bool
deriving DecidableEq, Repr

inductive PartSt | running | stopping | halted | swapping
deriving DecidableEq, Repr

structure Partition where
  blk : Word32
  live : Nat
  shad : Nat
  st : PartSt
  puev : Word64
  puevShad : Word64
deriving DecidableEq, Repr

/-- GROWN of one resource (Table 14.8). -/
structure Grant where
  pod : Bool
  v : Bool
  owner : Nat
deriving DecidableEq, Repr

/-- The supervisor registers of a cox core (R309, R316). -/
structure Cox where
  sstatus : Word64
  stvec : Word64
  sepc : Word64
  scause : Word64
  stval : Word64
  sinsn0 : Word64
  sinsn1 : Word64
  sscratch : Word64
  cctx : Word64
  started : Bool
  stopped : Bool
deriving DecidableEq, Repr

/-- A cached pointer of a walk (R361): for the addresses of a context that agree with `prefx` above `depth` tables, the table that a context-table, region-array or pointer entry led to, from the context table at `base` (R364). -/
structure PtrEnt where
  base : Nat
  ctx : Nat
  depth : Nat
  prefx : Nat
  table : Nat
deriving DecidableEq, Repr

/-- A posted invalidation (R322): `span` none is the whole context. -/
structure Inval where
  id : Nat
  core : Option Nat
  ctx : Nat
  lo : Nat
  size : Option Nat
deriving DecidableEq, Repr

/-- A cached fetch block (R134), with the context and address it was fetched at: quad 256 is the cox cores' own. -/
structure CodeBlock where
  quad : Nat
  ctx : Nat
  va : Nat
  la : Nat
  bytes : List Byte
  stale : List Nat
deriving DecidableEq, Repr

/-- The fault queue (R309, R371, R372). A waiting record carries 1 + the crew whose release waits for it, or 0. -/
structure FaultQueue where
  base : Word64
  cap : Word64
  head : Word64
  tail : Word64
  sem : Word64
  configured : Bool
  waiting : List (Nat × List Byte)
deriving DecidableEq, Repr

/-- How far a migration has come: the owner is asked, its page is at hand, or it has ended with or without a cause and its completion object is still to be written, for whose page it may already wait. -/
inductive MigSt
  | asked
  | got (data : List Byte)
  | ended (failed : Option Cause) (waiting : Bool)
deriving DecidableEq, Repr

/-- A migration started here (R366): `entry` is the location address of the leaf that step 1 met. -/
structure Migration where
  va : Nat
  frm : Nat
  cmp : Nat
  ctx : Nat
  pkg : Nat
  entry : Nat
  st : MigSt
deriving DecidableEq, Repr

/-- A request for a page of this package (R366). `frame` is the frame and location given up, once step 3 is done; engine pieces through the old entry may still run (step 4). -/
structure GivingUp where
  req : PageRequest
  frame : Option (Nat × Nat)
deriving DecidableEq, Repr

/-- The PMC's figures of a die (R346, R415, R416): `tsteps` and `psteps` are the steps of 25 MHz by which temperature and the package power limit hold the clock down; `dirty` marks a record of Table 20.5 still to be written. -/
structure DiePower where
  clk : Nat
  refr : Nat
  qlim : Nat
  dlim : Nat
  wcrew : Nat
  sag : Bool
  tsteps : Nat
  psteps : Nat
  temp : Nat
  dirty : Bool
deriving DecidableEq, Repr

/-- Fuses and what the sequencer meets on this part (R405, R408, R413, R414): each die's worst retention at 105 °C in µs, and the steps of Table 20.1 that fail (4: a flash whose read-back fails). -/
structure Fuses where
  qpres : List Word64
  dclk : List Nat
  retention : List Nat
  bridge : Nat
  ceng : List Nat
  broken : List Nat
  order : List Byte
  keyHash : List Byte
  mgmtKey : List Byte
deriving DecidableEq, Repr

inductive BootPhase | off | booting | running | recovery | updating
deriving DecidableEq, Repr

/-- The body of a management answer beyond its status (R406). -/
inductive MgmtBody
  | none
  | ident (order : List Byte) (pkg : Nat) (fwver : Nat) (mode : BootPhase) (epoch : Nat)
  | ports (pkg : Nat) (addrs : List (List Byte))
  | stats (up : List Bool) (fec : List (Nat × Nat)) (discarded : List Nat)
  | counts (c : List (Nat × Nat))
  | info (b : List Byte)
  | words (w : List Word32) (st : List Nat)
deriving DecidableEq, Repr

/-- An answer (R404): the header of Table 19.3, the status word and the body. -/
structure Answer where
  ver : Nat
  op : Nat
  len : Nat
  seq : Nat
  tag : List Byte
  status : Nat
  body : MgmtBody
deriving DecidableEq, Repr

/-- What leaves over the pod transport (R402). -/
inductive PodOut
  | signal (pkg : Nat) (name : Nat) (amount : Nat) (ctx : Nat)
  | arrival (job : Nat) (slot : Nat) (who : Nat) (exited : Bool)
  | pageAsk (pkg : Nat) (ctx va : Nat)
  | page (pkg : Nat) (ctx va : Nat) (data : List Byte)
  | pageRefused (pkg : Nat) (ctx va : Nat)
deriving DecidableEq, Repr

/-- A join-block decrement or successor that the hub still has to perform (R276, R336). -/
inductive HubJob
  | decrement (block : Nat) (ctx : Nat) (waiting : Bool)
  | enqueue (q : Nat) (r : TaskRec)
deriving DecidableEq, Repr

/-- An issuing group: a gang and the lowest lane of the sub-gang. -/
structure GroupRef where
  gang : Nat
  lead : Lane
deriving DecidableEq, Repr

/-- The package. Fields marked (model) are the model's own (log entries 1 and 5). -/
structure State where
  -- scheduling of the model
  due : List Instr                -- (model) steps that follow at once from what has happened
  issue : List GroupRef           -- (model) groups chosen to issue
  agenda : List Instr             -- (model) steps of outside agents and scheduling choices to come
  cur : Option GroupRef           -- (model) the group that is issuing
  curBlk : List Byte              -- (model) the fetch block it issues from (R134)
  freeCtr : Nat                   -- (model) how many open choices have been taken
  nextId : Nat                    -- (model) names of gangs, crews, items, commands, requests
  -- memory
  mem : List Host.Cell
  poisoned : List Nat
  deep : Sparse DeepBlock
  unitsUsed : Nat
  oldExtents : List OldExtent
  tick : Nat
  -- gangs, crews, work
  gangs : List Gang
  halves : Sparse Nat
  crews : List Crew
  items : List Item
  queues : List Queue
  hub : List HubJob
  -- synchronisation
  mboxes : Sparse (List Word64)
  sems : Sparse Sem
  tokenHolder : Option Nat
  tokenReqs : List Nat
  -- engines
  cmds : List Cmd
  reqs : List Req
  legacy : List (Nat × Nat × Nat × Nat)
  accLive : Sparse AccTile
  accShad : Sparse AccTile
  -- supervisor state
  cox : List Cox
  parts : List Partition
  psel : Word64
  grsel : Word64
  grants : Sparse Grant
  fq : FaultQueue
  ctxtab : Word64
  lreq : List Word64
  rreq : List Word64
  mgva : Word64
  mgctl : Word64
  mgfrm : Word64
  mgcmp : Word64
  migration : Option Migration
  givingUp : List GivingUp
  tlb : List TlbEnt
  ptrs : List PtrEnt
  invals : List Inval
  code : List CodeBlock
  -- package management
  phase : BootPhase
  fuses : Fuses
  dies : List DiePower
  powerLimited : Bool
  flash : List Byte
  updateImage : List Byte
  updfail : Bool
  fwver : Nat
  epoch : Nat
  lastSeq : Nat
  pkg : Word32
  portAddrs : List (List Byte)
  portUp : List Bool
  discarded : List Nat
  podOut : List PodOut
  podIn : List PodArrival
  answers : List Answer
  doubleTraps : List Nat
  counts : Sparse Nat
  countsNv : Sparse Nat
deriving DecidableEq, Repr

/-- Why the machine stops. -/
inductive Fault
  /-- Raised by an instruction's meaning when no group is issuing (`cur` names none): exec was asked to run an instruction that no gang reached. No step does this; stopping there is safe. -/
  | noIssuingGroup
deriving DecidableEq, Repr

/-- Why an instruction has no meaning. -/
inductive Refusal
  /-- Raised by Dispatch for an instruction that the model gives no meaning yet. Stopping there is safe. -/
  | notModelled (mnemonic : String)
deriving DecidableEq, Repr

/-! ## Reset -/

def LoopLevel.zero : LoopLevel := ⟨0, 0, 0, 0, 0⟩

/-- A gang's state at placement, with every register at its Reset value (04 Table 4.2 FPMODE 1, Table 9.7, R310) or at the value of log entry 2. -/
def GangCore.start (subs : List SubGang) (regFill : RegCell) (uevec : Word64) (spaces : List LaneSpace) : GangCore :=
  { subs := subs, fams := [], exited := 0, quarantined := 0, regFill := regFill, regs := [], sregs := [], preds := List.replicate 12 0,
    fpmode := 1, fpflags := 0, ld := 0, st := 0, cp := 0, tl := 0, loops := List.replicate 3 LoopLevel.zero, ldepth := 0,
    binds := List.replicate 16 none, evpend := 0, even := 0xFFFF, rearm := 0, evslot := 0xFFFFFFFF, fmask := 0,
    ef := List.replicate 6 0, uevec := uevec, spaces := spaces, pend := [] }

/-- A cox core that has not started (R408): lane 0 alone, PC 0 (log entry 3). -/
def Gang.coxReset (k : Nat) : Gang :=
  { id := k, crew := none, num := 0, place := k, half := 0,
    core := GangCore.start [⟨1, 0, .ready, 0⟩] ⟨0, .live, 0⟩ 0 [],
    chunk := none, squashes := 0, token := .none, seq := 0, bpend := [], record := .sound, releases := [], lbody := [], lbuf := [] }

/-- Tables 14.5, 14.6 and 14.18. -/
def Cox.reset : Cox :=
  { sstatus := 5, stvec := 0, sepc := 0, scause := 0, stval := 0, sinsn0 := 0, sinsn1 := 0, sscratch := 0, cctx := 0,
    started := false, stopped := false }

/-- Table 14.9 and Table 14.18. -/
def Partition.reset : Partition := ⟨0, 0, 0, .halted, 0, 0⟩

def FaultQueue.reset : FaultQueue := ⟨0, 5, 0, 0, 0, false, []⟩

def Queue.reset : Queue := ⟨[], false, 0, 0, .idle⟩

/-- R346 at reset; the temperature is log entry 2's. -/
def DiePower.reset : DiePower := ⟨850, 1000, 12000, 640000, 4000, false, 0, 0, 40, false⟩

/-- A full part with zero keys (log entry 4). -/
def Fuses.full : Fuses :=
  { qpres := List.replicate 4 (BitVec.allOnes 64), dclk := List.replicate 4 850, retention := List.replicate 4 2000,
    bridge := 0, ceng := List.replicate 4 24, broken := [], order := List.replicate 16 0,
    keyHash := List.replicate 48 0, mgmtKey := List.replicate 48 0 }

/-- The machine right after power-on reset, before the boot sequencer has run (R407, R310). -/
def State.reset : State :=
  { due := [], issue := [], agenda := [], cur := none, curBlk := [], freeCtr := 0, nextId := 64,
    mem := [], poisoned := [], deep := [], unitsUsed := 0, oldExtents := [], tick := 0,
    gangs := (List.range 24).map Gang.coxReset, halves := [], crews := [], items := [], queues := List.replicate 64 Queue.reset, hub := [],
    mboxes := [], sems := [], tokenHolder := none, tokenReqs := [],
    cmds := [], reqs := [], legacy := [], accLive := [], accShad := [],
    cox := List.replicate 24 Cox.reset, parts := List.replicate 32 Partition.reset, psel := 0, grsel := 0, grants := [],
    fq := FaultQueue.reset, ctxtab := 0, lreq := List.replicate 4 0, rreq := List.replicate 4 0,
    mgva := 0, mgctl := 0, mgfrm := 0, mgcmp := 0, migration := none, givingUp := [], tlb := [], ptrs := [], invals := [], code := [],
    phase := .booting, fuses := Fuses.full, dies := List.replicate 4 DiePower.reset, powerLimited := false,
    flash := [], updateImage := [], updfail := false, fwver := 0, epoch := 0, lastSeq := 0, pkg := 0xFFFFFFFF,
    portAddrs := List.replicate 12 (List.replicate 16 0), portUp := List.replicate 12 false, discarded := List.replicate 12 0, podOut := [], podIn := [],
    answers := [], doubleTraps := [], counts := [], countsNv := [] }

/-! ## Named updates -/

def State.setDue (s : State) (x : List Instr) : State := { s with due := x }
def State.setIssue (s : State) (x : List GroupRef) : State := { s with issue := x }
def State.setAgenda (s : State) (x : List Instr) : State := { s with agenda := x }
def State.setCur (s : State) (x : Option GroupRef) (b : List Byte) : State := { s with cur := x, curBlk := b }
def State.setMem (s : State) (x : List Host.Cell) : State := { s with mem := x }
def State.setGangs (s : State) (x : List Gang) : State := { s with gangs := x }

end Sys2Proof.Machine
end

