-- ==== Sys2Proof/Machine/Bits.lean ====
section
/-! DEFINITION. Finite maps in canonical form, lane sets, sign extension and the other small helpers of the meanings. -/

namespace Sys2Proof.Machine

/-! ## Finite maps -/

/-- The value at `k`; `d` where no entry stands. -/
def spGet {α : Type} (d : α) : List (Nat × α) → Nat → α
  | [], _ => d
  | (j, v) :: r, k => if k = j then v else spGet d r k

/-- Set `k` to `v` whatever `v` is (maps in which an entry means "written"). -/
def spSet {α : Type} (k : Nat) (v : α) : List (Nat × α) → List (Nat × α)
  | [] => [(k, v)]
  | (j, w) :: r => if k < j then (k, v) :: (j, w) :: r else if k = j then (k, v) :: r else (j, w) :: spSet k v r

/-- Forget `k`. -/
def spDrop {α : Type} (k : Nat) (m : List (Nat × α)) : List (Nat × α) := m.filter (fun p => p.1 != k)

/-- Set `k` to `v`, keeping keys rising and no entry equal to `d`. -/
def spPut {α : Type} [DecidableEq α] (d : α) (k : Nat) (v : α) (m : List (Nat × α)) : List (Nat × α) :=
  if v = d then spDrop k m else spSet k v m

def spFind {α : Type} : List (Nat × α) → Nat → Option α
  | [], _ => none
  | (j, v) :: r, k => if k = j then some v else spFind r k

/-- Keys rise strictly from `lo` and no entry equals `d`. -/
def spWfFrom {α : Type} [DecidableEq α] (d : α) : Nat → List (Nat × α) → Bool
  | _, [] => true
  | lo, (j, v) :: r => decide (lo ≤ j) && decide (v ≠ d) && spWfFrom d (j + 1) r

/-- The canonical form of a finite map. -/
def spWf {α : Type} [DecidableEq α] (d : α) (m : List (Nat × α)) : Bool := spWfFrom d 0 m

/-- A set of numbers, rising. -/
def setAdd (k : Nat) : List Nat → List Nat
  | [] => [k]
  | j :: r => if k < j then k :: j :: r else if k = j then j :: r else j :: setAdd k r

/-- Replace element `k` of a list. -/
def setAt {α : Type} (k : Nat) (v : α) : List α → List α
  | [] => []
  | x :: r => match k with
    | 0 => v :: r
    | k + 1 => x :: setAt k v r

def addNew {α : Type} [DecidableEq α] (x : α) (l : List α) : List α := if x ∈ l then l else l ++ [x]

/-- The sum of a quantity over a list. -/
def sumOf {α : Type} (f : α → Nat) (l : List α) : Nat := (l.map f).foldl (· + ·) 0

/-- Map the elements that satisfy `p`. -/
def mapIf {α : Type} (p : α → Bool) (f : α → α) (l : List α) : List α := l.map (fun x => if p x then f x else x)

/-! ## Lanes -/

/-- The lanes of a set, lowest first. -/
def lanesOf (m : LaneMask) : List Nat := (List.range 64).filter (fun l => m.getLsbD l)

def laneBit (l : Nat) : LaneMask := BitVec.ofNat 64 (2 ^ l)

def maskOf (l : List Nat) : LaneMask := l.foldl (fun m x => m ||| laneBit x) 0

def lowestLane (m : LaneMask) : Nat := (lanesOf m).headD 0

def toLane (l : Nat) : Lane := Fin.ofNat 64 l

def countLanes (m : LaneMask) : Nat := (lanesOf m).length

/-- The lanes 0 to `w` - 1. -/
def allLanes (w : Nat) : LaneMask := BitVec.ofNat 64 (2 ^ w - 1)

/-! ## Words -/

/-- A sum of a base, an offset read as i32 and a displacement, modulo 2^w (R245). -/
def effAddr (w : Nat) (a : Nat) (b imm : Word32) : Nat :=
  (((a : Int) + b.toInt + imm.toInt) % (2 ^ w : Int)).toNat

/-- Bits [63:57] are a sign copy of bit 56 (R25, R83). -/
def canonical (va : Nat) : Bool := let h := va / 2 ^ 56 % 2 ^ 8; h == 0 || h == 255

def ceilDiv (a b : Nat) : Nat := (a + b - 1) / b

/-- `n` numbers from `lo` on. -/
def rangeFrom (lo n : Nat) : List Nat := (List.range n).map (· + lo)

/-- Cut a list into runs of `n`. `fuel` bounds the number of runs. -/
def runs {α : Type} (n : Nat) : Nat → List α → List (List α)
  | 0, _ => []
  | fuel + 1, l => if l.isEmpty then [] else l.take n :: runs n fuel (l.drop n)

end Sys2Proof.Machine
end

