-- ==== Sys2Proof/Machine/Ops.lean ====
section
/-! DEFINITION. Reading and writing the named parts of the state: gangs, crews, partitions, contexts, memory bytes, objects; records; free values. -/

namespace Sys2Proof.Machine

/-! ## Finding and replacing -/

def State.gang? (s : State) (g : Nat) : Option Gang := s.gangs.find? (fun x => x.id == g)
def State.putGang (s : State) (g : Gang) : State := { s with gangs := mapIf (fun x => x.id == g.id) (fun _ => g) s.gangs }
def State.crew? (s : State) (c : Nat) : Option Crew := s.crews.find? (fun x => x.id == c)
def State.putCrew (s : State) (c : Crew) : State := { s with crews := mapIf (fun x => x.id == c.id) (fun _ => c) s.crews }
def State.item? (s : State) (i : Nat) : Option Item := s.items.find? (fun x => x.id == i)
def State.putItem (s : State) (i : Item) : State := { s with items := mapIf (fun x => x.id == i.id) (fun _ => i) s.items }
def State.cmd? (s : State) (c : Nat) : Option Cmd := s.cmds.find? (fun x => x.id == c)
def State.putCmd (s : State) (c : Cmd) : State := { s with cmds := mapIf (fun x => x.id == c.id) (fun _ => c) s.cmds }
def State.req? (s : State) (r : Nat) : Option Req := s.reqs.find? (fun x => x.id == r)
def State.putReq (s : State) (r : Req) : State := { s with reqs := mapIf (fun x => x.id == r.id) (fun _ => r) s.reqs }

/-- Change the core state of a gang. -/
def Gang.mapCore (g : Gang) (f : GangCore → GangCore) : Gang := { g with core := f g.core }
/-- Change a gang's core state and the state its open chunk would be rolled back to (a change that no squash undoes). -/
def Gang.mapBoth (g : Gang) (f : GangCore → GangCore) : Gang :=
  { g with core := f g.core,
           chunk := g.chunk.map (fun c => { c with snap := f c.snap, expl := c.expl.map (fun e => { e with before := f e.before }) }) }

def State.mapGang (s : State) (g : Nat) (f : Gang → Gang) : State := { s with gangs := mapIf (fun x => x.id == g) f s.gangs }
def State.mapCrew (s : State) (c : Nat) (f : Crew → Crew) : State := { s with crews := mapIf (fun x => x.id == c) f s.crews }

/-- The next open choice among `n` alternatives (log entry 5). -/
def State.choose (s : State) (n : Nat) : Nat × State :=
  if n ≤ 1 then (0, s) else (Config.choice s.freeCtr % n, { s with freeCtr := s.freeCtr + 1 })

/-- Add a step that follows at once. -/
def State.addDue (s : State) (i : Instr) : State := { s with due := s.due ++ [i] }

/-! ## Who and where -/

def Gang.isCox (g : Gang) : Bool := g.crew.isNone
/-- The gang stands between chunks, with nothing left to release (R120, R121). -/
def Gang.between (g : Gang) : Bool := g.chunk.isNone && g.releases.isEmpty

def State.coxOf (s : State) (k : Nat) : Cox := s.cox.getD k Cox.reset
def State.setCox (s : State) (k : Nat) (c : Cox) : State := { s with cox := setAt k c s.cox }

/-- Whether a cox core is at S (Table 14.5). -/
def State.coxAtS (s : State) (k : Nat) : Bool := (s.coxOf k).sstatus.getLsbD 0

def State.crewOf (s : State) (g : Gang) : Option Crew := g.crew.bind s.crew?

def Desc.width (d : Desc) : Nat := if d.gw % 2 = 1 then 64 else 32
def Desc.prio (d : Desc) : Nat := d.mode / 16 % 4
def Desc.cor (d : Desc) : Bool := d.mode / 8 % 2 = 1
def Desc.precise (d : Desc) : Bool := d.mode / 4 % 2 = 1
def Desc.crewsN (d : Desc) : Nat := d.cx * d.cy * d.cz
/-- R57. -/
def Desc.charge (d : Desc) : Nat := d.ng * d.width * (4 * d.nv + 16 * d.np) + 256 * d.nc + 2432 * d.nk

def State.widthOf (s : State) (g : Gang) : Nat := match s.crewOf g with | some c => c.desc.width | none => 32
/-- The declared registers per thread, 0 on a cox core (R57, R153). -/
def State.regsOf (s : State) (g : Gang) : Nat := match s.crewOf g with | some c => c.desc.nv | none => 0
/-- The context of an executor (R307). -/
def State.ctxOf (s : State) (g : Gang) : Nat :=
  match s.crewOf g with
  | some c => c.ctx
  | none => if s.coxAtS g.id then 0 else (s.coxOf g.id).cctx.toNat % 4096
/-- Whether an executor is at supervisor privilege (R307). -/
def State.supOf (s : State) (g : Gang) : Bool := g.isCox && s.coxAtS g.id

/-- Die, quad and core of a core index. -/
def coreDie (k : Nat) : Nat := k / 256
def coreQuad (k : Nat) : Nat := k / 4 % 64
def coreCore (k : Nat) : Nat := k % 4
def State.dieOf (s : State) (g : Gang) : Nat := match s.crewOf g with | some c => coreDie c.coreIx | none => 0
/-- The package-wide quad number die × 64 + %quad (R325) of a core. -/
def quadOf (coreIx : Nat) : Nat := coreIx / 4

/-- Whether a quad is present (R414). -/
def State.quadPresent (s : State) (q : Nat) : Bool := (s.fuses.qpres.getD (q / 64) 0).getLsbD (q % 64)

def State.part (s : State) (p : Nat) : Partition := s.parts.getD p Partition.reset
def State.setPart (s : State) (p : Nat) (x : Partition) : State := { s with parts := setAt p x s.parts }
/-- The partition that holds a quad, if any (R325). -/
def State.partOfQuad (s : State) (q : Nat) : Option Nat :=
  (List.range 32).find? (fun p => (s.part p).blk.getLsbD (q / 8))
/-- The partition whose PLIVE holds a context (R335); of several, which no rule forbids, the lowest-numbered (the model's choice, log entry 91). -/
def State.partOfCtx (s : State) (ctx : Nat) : Option Nat := (List.range 32).find? (fun p => ctx ≠ 0 && (s.part p).live == ctx)
/-- The present quads of a partition, in increasing number. -/
def State.partQuads (s : State) (p : Nat) : List Nat :=
  (List.range 256).filter (fun q => (s.part p).blk.getLsbD (q / 8) && s.quadPresent q)

/-- Whether a crew issues: its partition runs and its context is live there (R380). -/
def State.crewRuns (s : State) (c : Crew) : Bool :=
  c.live && match s.partOfQuad (quadOf c.coreIx) with
    | some p => (s.part p).st == .running && (s.part p).live == c.ctx
    | none => false

/-- Whether a gang's fixed record is one of the live image of a live context (Table 17.2); a cox core's is. -/
def State.recordLive (s : State) (g : Gang) : Bool :=
  (s.crewOf g).all (fun c => c.live && (s.partOfQuad (quadOf c.coreIx)).any (fun p => (s.part p).live == c.ctx))

/-- A fixed record struck while live stands struck in a saved image once its context is live no more (R77). -/
def State.saveRecords (s : State) : State :=
  { s with gangs := mapIf (fun g => g.record == .live && !s.recordLive g) (fun g => { g with record := .saved }) s.gangs }

/-- Whether a context's work proceeds in the partition of a quad (R382). -/
def State.ctxRunsAt (s : State) (q ctx : Nat) : Bool :=
  match s.partOfQuad q with
  | some p => (s.part p).st == .running && (s.part p).live == ctx
  | none => false

/-- The TOKEN of Table 14.11. -/
def tokenBits (ctx seq coreIx place : Nat) : Nat :=
  ctx * 2 ^ 52 + seq % 2 ^ 20 * 2 ^ 32 + coreDie coreIx * 2 ^ 22 + coreQuad coreIx * 2 ^ 16 + coreCore coreIx * 2 ^ 14 + place * 2 ^ 6

def State.tokenOf (s : State) (g : Gang) (seq : Nat) : Nat :=
  match s.crewOf g with
  | some c => tokenBits c.ctx seq c.coreIx g.place
  | none => 0

/-- Lanes of a gang that have neither exited nor been quarantined. -/
def GangCore.liveLanes (c : GangCore) : LaneMask := c.subs.foldl (fun m x => m ||| x.lanes) 0

def Gang.sub? (g : Gang) (lead : Nat) : Option SubGang := g.core.subs.find? (fun x => lowestLane x.lanes == lead && x.lanes != 0)

def GangCore.putSub (c : GangCore) (x : SubGang) : GangCore :=
  { c with subs := mapIf (fun y => y.lanes == x.lanes) (fun _ => x) c.subs }

/-! ## Memory bytes (R352; an unlisted byte reads 0, as power-on zeroes HBM4E, R407) -/

def memByte (m : List Host.Cell) (a : Nat) : Byte := spGet 0 m a
def memPut (m : List Host.Cell) (a : Nat) (b : Byte) : List Host.Cell := spPut 0 a b m
def memRead (m : List Host.Cell) (a n : Nat) : List Byte := (rangeFrom a n).map (memByte m)
def memWrite (m : List Host.Cell) (a : Nat) : List Byte → List Host.Cell
  | [] => m
  | b :: r => memWrite (memPut m a b) (a + 1) r

/-- The canonical form of memory: addresses rise strictly and no listed byte is 0. -/
def Memory.wf (m : List Host.Cell) : Bool := spWf 0 m

def lineOf (la : Nat) : Nat := la / 64

/-- Store bytes at a location address; whole lines lose their poison mark, partly written ones keep it (R370). -/
def State.store (s : State) (la : Nat) (bs : List Byte) : State := { s with mem := memWrite s.mem la bs }

def State.linePoisoned (s : State) (la : Nat) : Bool := s.poisoned.contains (lineOf la)
def State.poisonLine (s : State) (la : Nat) : State := { s with poisoned := setAdd (lineOf la) s.poisoned }
def State.cleanLine (s : State) (ln : Nat) : State := { s with poisoned := s.poisoned.filter (· != ln) }

/-- A write of bytes as one piece within a line: poison is cleared when the line is written whole (R370). -/
def State.storePiece (s : State) (la : Nat) (bs : List Byte) : State :=
  let s := s.store la bs
  if la % 64 = 0 ∧ 64 ≤ bs.length then s.cleanLine (lineOf la) else s

/-- A little-endian number of memory. -/
def State.loadNat (s : State) (la n : Nat) : Nat := ofBytesLE (memRead s.mem la n)

/-! ## Records (R314, R371) -/

/-- Bytes of a record: fields given by offset, size and value; every other byte is zero. -/
def recordBytes (fields : List (Nat × Nat × Nat)) : List Byte :=
  (List.range 128).map (fun i =>
    match fields.find? (fun f => f.1 ≤ i && i < f.1 + f.2.1) with
    | some f => BitVec.ofNat 8 (f.2.2 / 256 ^ (i - f.1))
    | none => 0)

/-- A record joins the hub's order; `tag` names the crew whose release waits for it (R372). -/
def State.addRecord (s : State) (tag : Nat) (r : List Byte) : State :=
  { s with fq := { s.fq with waiting := s.fq.waiting ++ [(tag, r)] } }

/-- Records of kinds 0x02 to 0x07 (Table 17.3). -/
def State.kindRecord (s : State) (kind cause flags ctx src addr aux0 aux1 cmd tag : Nat) : State :=
  s.addRecord tag (recordBytes [(0, 1, cause), (1, 1, kind), (2, 2, flags), (4, 4, ctx % 4096), (8, 8, src), (16, 8, addr),
    (24, 8, aux0), (32, 8, aux1), (40, 16, cmd), (88, 8, s.tick)])

/-! ## Grants (R308, R331) -/

/-- Resource keys of GRSEL (Table 14.7): kind × 2^14 + index. -/
def mboxKey (m : Nat) : Nat := 2 ^ 14 + m
def semKey (n : Nat) : Nat := 2 * 2 ^ 14 + n
def queueKey (q : Nat) : Nat := 3 * 2 ^ 14 + q

def State.grant (s : State) (k : Nat) : Grant := spGet ⟨false, false, 0⟩ s.grants k

/-- The grant check of R308. -/
def State.granted (s : State) (g : Gang) (k : Nat) : Bool :=
  s.supOf g || ((s.grant k).v && (s.grant k).owner == s.ctxOf g)

/-- A task queue or gate check in a context. -/
def State.ctxGranted (s : State) (ctx k : Nat) : Bool := (s.grant k).v && (s.grant k).owner == ctx

/-! ## Lifetime counters (R418) -/

/-- Counter names: class × 4096 + instance. -/
def State.count (s : State) (k n : Nat) : State :=
  { s with counts := spPut 0 k (min (spGet 0 s.counts k + n) (2 ^ 64 - 1)) s.counts }

def ctrCorrected (die tier : Nat) : Nat := 0 * 4096 + die * 8 + tier
def ctrCorrectedStack (stack : Nat) : Nat := 1 * 4096 + stack
def ctrUncorrDie (die : Nat) : Nat := 2 * 4096 + die
def ctrUncorrStack (stack : Nat) : Nat := 3 * 4096 + stack
def ctrRefr (die band : Nat) : Nat := 4 * 4096 + die * 4 + band
def ctrCommit (die squashes : Nat) : Nat := 5 * 4096 + die * 8 + squashes
def ctrToken (die : Nat) : Nat := 6 * 4096 + die
def ctrTemp (die band : Nat) : Nat := 7 * 4096 + die * 32 + band
def ctrSag (die : Nat) : Nat := 8 * 4096 + die
def ctrTrip : Nat := 9 * 4096

end Sys2Proof.Machine
end

