-- ==== Sys2Proof/Machine/Translate.lean ====
section
/-! DEFINITION. Address translation (16_translation, R352 to R361): the walk, malformed entries, page groups, translation caches, the checks of Table 16.6. -/

namespace Sys2Proof.Machine

/-! ## Causes (00 Table 0.2) -/

def cIllegalEncoding : Cause := 0x01
def cEscape : Cause := 0x02
def cIllegalRegister : Cause := 0x03
def cFetchBoundary : Cause := 0x04
def cCollectiveSplit : Cause := 0x05
def cCollectiveGuard : Cause := 0x06
def cPrivilege : Cause := 0x07
def cExpiredRead : Cause := 0x08
def cPoisonConsumed : Cause := 0x09
def cOperandRange : Cause := 0x0A
def cAccWindow : Cause := 0x0B
def cAccOwner : Cause := 0x0C
def cPageNotPresent : Cause := 0x10
def cPermission : Cause := 0x11
def cOwnership : Cause := 0x12
def cAlignment : Cause := 0x13
def cEngineFault : Cause := 0x18
def cTrapInstr : Cause := 0x20
def cSyscall : Cause := 0x21
def cResource : Cause := 0x28
def cUncorrectable : Cause := 0x30

/-! ## Entries (Table 16.2, Table 16.3) -/

def peV (e : Nat) : Bool := bitsAt e 0 1 == 1
def peR (e : Nat) : Bool := bitsAt e 1 1 == 1
def peW (e : Nat) : Bool := bitsAt e 2 1 == 1
def peX (e : Nat) : Bool := bitsAt e 3 1 == 1
def peU (e : Nat) : Bool := bitsAt e 4 1 == 1
def peG (e : Nat) : Bool := bitsAt e 5 1 == 1
def peO (e : Nat) : Bool := bitsAt e 54 1 == 1
def pePS (e : Nat) : Bool := bitsAt e 55 1 == 1
def peCG (e : Nat) : Nat := bitsAt e 56 2
def peTier (e : Nat) : Bool := bitsAt e 58 1 == 1
def peDie (e : Nat) : Nat := bitsAt e 59 2
def pePL (e : Nat) : Nat := bitsAt e 61 2
def peFrame (e : Nat) : Nat := bitsAt e 12 40 * 4096
/-- A valid entry with R = W = X = 0. -/
def peIsPointer (e : Nat) : Bool := bitsAt e 1 3 == 0

/-- Bytes that a leaf of a level maps (Table 16.1). -/
def levelSize (level : Nat) : Nat := 2 ^ (12 + 9 * (3 - level))

/-- The frame space of a leaf (Table 16.4). -/
def frameLimit (e : Nat) : Nat := if peTier e then 2 ^ 42 else if pePL e = 0 then 2 ^ 39 else 2 ^ 37

/-- The defects of R357 in an entry of the context table or of a region array. -/
def dirMalformed (e : Nat) : Bool := bitsAt e 52 12 != 0 || bitsAt e 1 11 != 0

/-- The defects of R357 in an entry of levels 0 to 3. -/
def entryMalformed (level e : Nat) : Bool :=
  bitsAt e 63 1 != 0 || bitsAt e 52 2 != 0 || bitsAt e 6 6 != 0 ||
  (if peIsPointer e then
    level == 3 || pePL e != 0 || peDie e != 0 || peTier e || peCG e != 0 || pePS e || peO e || peG e || peU e
  else
    level == 0 || (peW e && peX e) || pePL e == 3 || (pePL e == 0 && peDie e != 0) || (peTier e && pePL e != 0) ||
    peCG e == 3 || (peCG e == 2 && level != 2) || (peCG e != 0 && pePS e) ||
    (pePS e && level != 3) || (pePS e && peTier e) || (!pePS e && peO e) ||
    peFrame e % levelSize level != 0 || frameLimit e < peFrame e + levelSize level)

/-- Where a walk ended: the leaf, its level, and the location address of its entry (R359). -/
structure WalkEnd where
  leaf : Nat
  level : Nat
  entryLa : Nat
deriving DecidableEq, Repr

/-- The location address of the context table (Table 16.9). -/
def State.tabBase (s : State) : Nat := bitsAt s.ctxtab.toNat 15 37 * 2 ^ 15

/-- Conditions 1 to 3 of Table 16.6 at one directory entry. -/
def readDir (s : State) (la : Nat) : Except Cause Nat :=
  let e := s.loadNat la 8
  if s.linePoisoned la then .error cUncorrectable
  else if !peV e then .error cPageNotPresent
  else if dirMalformed e then .error cPermission
  else .ok (bitsAt e 12 40 * 4096)

/-- A table that lies beyond HBM4E reads as zero, since nothing is stored there, and so ends the walk in PAGE_NOT_PRESENT: R353 names no fault for it (the model's choice, log entry 87). Levels from `level` on, with the pointers met on the way; `fuel` counts the levels left. -/
def walkLevels (s : State) (ctx va : Nat) : Nat → Nat → Nat → List PtrEnt × Except Cause WalkEnd
  | 0, _, _ => ([], .error cPermission)
  | fuel + 1, level, tbl =>
    let la := tbl + 8 * (va / levelSize level % 512)
    let e := s.loadNat la 8
    if s.linePoisoned la then ([], .error cUncorrectable)
    else if !peV e then ([], .error cPageNotPresent)
    else if entryMalformed level e then ([], .error cPermission)
    else if peIsPointer e then
      let r := walkLevels s ctx va fuel (level + 1) (peFrame e)
      (⟨s.tabBase, ctx, level + 3, va % 2 ^ 57 / levelSize level, peFrame e⟩ :: r.1, r.2)
    else ([], .ok ⟨e, level, la⟩)

/-- From a region array on. -/
def walkRegion (s : State) (ctx va region : Nat) : List PtrEnt × Except Cause WalkEnd :=
  match readDir s (region + 8 * (va / 2 ^ 48 % 512)) with
  | .error c => ([], .error c)
  | .ok tbl => let r := walkLevels s ctx va 4 0 tbl; (⟨s.tabBase, ctx, 2, va / 2 ^ 48 % 512, tbl⟩ :: r.1, r.2)

/-- A walk (R359, R364): context-table entry, region entry, levels 0 to 3. -/
def walkPath (s : State) (ctx va : Nat) : List PtrEnt × Except Cause WalkEnd :=
  if !s.ctxtab.getLsbD 0 then ([], .error cPageNotPresent)
  else
    match readDir s (s.tabBase + 8 * ctx) with
    | .error c => ([], .error c)
    | .ok region => let r := walkRegion s ctx va region; (⟨s.tabBase, ctx, 1, 0, region⟩ :: r.1, r.2)

/-- Where a walk ends. -/
def walk (s : State) (ctx va : Nat) : Except Cause WalkEnd := (walkPath s ctx va).2

/-- Bytes of address space below a cached pointer: depth 1 a region array, depth 2 the table of level 0, and so on. -/
def ptrSize (depth : Nat) : Nat := if depth ≤ 1 then 2 ^ 57 else 2 ^ (66 - 9 * depth)

/-- Whether walks use the context table from which a cached pointer was met: no walk does once CTXTAB has EN = 0 or another BASE (R364). -/
def State.ptrValid (s : State) (p : PtrEnt) : Bool := s.ctxtab.getLsbD 0 && p.base == s.tabBase

/-- Whether a cached pointer lies on the way to an address. -/
def PtrEnt.leads (p : PtrEnt) (ctx va : Nat) : Bool := p.ctx == ctx && p.prefx == va % 2 ^ 57 / ptrSize p.depth

/-- A walk that starts at a cached pointer. -/
def PtrEnt.walk (p : PtrEnt) (s : State) (va : Nat) : List PtrEnt × Except Cause WalkEnd :=
  if p.depth ≤ 1 then walkRegion s p.ctx va p.table else walkLevels s p.ctx va (6 - p.depth) (p.depth - 2) p.table

/-- The frame byte that leaf `e` at table position `j` gives to `va` whose own position is `own` (R358): none where it lies outside the range of Table 16.4. -/
def frameByte (e level : Nat) (j own : Nat) (va : Nat) : Option Nat :=
  let p := levelSize level
  let y : Int := (peFrame e : Int) + ((own : Int) - (j : Int)) * (p : Int) + ((va % p : Nat) : Int)
  if 0 ≤ y ∧ y.toNat < frameLimit e then some y.toNat else none

/-- Entries of a contiguity group (Table 16.5). -/
def groupSize (cg : Nat) : Nat := if cg = 1 then 16 else if cg = 2 then 256 else 1

/-- Positions of the table that hold a listed byte. -/
def tablePositions (s : State) (tbl : Nat) : List Nat :=
  (s.mem.filter (fun c => tbl ≤ c.1 && c.1 < tbl + 4096)).foldl (fun l c => addNew ((c.1 - tbl) / 8) l) []

/-- The leaves that may serve `va` in place of its own leaf when its group breaks the rule (R358). -/
def groupLeaves (s : State) (w : WalkEnd) (va : Nat) : List (Nat × Nat) :=
  let tbl := w.entryLa / 4096 * 4096
  let own := (w.entryLa - tbl) / 8
  (tablePositions s tbl).filterMap (fun j =>
    let e := s.loadNat (tbl + 8 * j) 8
    let g := groupSize (peCG e)
    if j ≠ own && peV e && !peIsPointer e && !entryMalformed w.level e && !s.linePoisoned (tbl + 8 * j) && j / g == own / g &&
        !(frameByte e w.level j own va == frameByte w.leaf w.level own own va && e / 2 ^ 52 == w.leaf / 2 ^ 52 && e % 2 ^ 12 == w.leaf % 2 ^ 12)
    then some (j, e) else none)

/-- The cached form of what leaf `e` gives to `va`, whose frame byte is `y`. -/
def tlbOf (s : State) (ctx va : Nat) (w : WalkEnd) (e y : Nat) : TlbEnt :=
  let tbl := w.entryLa / 4096 * 4096
  let own := (w.entryLa - tbl) / 8
  let g := groupSize (peCG e)
  let valid (j : Nat) : Bool := let x := s.loadNat (tbl + 8 * j) 8; j / g == own / g && peV x && !peIsPointer x && !entryMalformed w.level x && !s.linePoisoned (tbl + 8 * j)
  ⟨ctx, (va - va % levelSize w.level) / 4096 % 2 ^ 45, e, w.level, y - va % levelSize w.level,
   if g = 1 then [] else ((tablePositions s tbl).filter valid).map (fun j => (j % g, s.loadNat (tbl + 8 * j) 8)), w.leaf⟩

/-- One way in which an access may be translated: its outcome, and the pointers that its walk met. -/
abbrev Way := Except Cause TlbEnt × List PtrEnt

/-- The ways in which a walk may be used: through the leaf it met, or through another leaf of a broken group (R358). -/
def waysOf (s : State) (ctx va : Nat) (r : List PtrEnt × Except Cause WalkEnd) : List Way :=
  match r.2 with
  | .error c => [(.error c, [])]
  | .ok w =>
    let own := w.entryLa % 4096 / 8
    let mk (j e : Nat) : Way :=
      match frameByte e w.level j own va with
      | some y => (.ok (tlbOf s ctx va w e y), r.1)
      | none => (.error cPermission, [])
    mk own w.leaf :: (groupLeaves s w va).map (fun p => mk p.1 p.2)

/-- Whether a cached leaf serves a context through the page's own entry `own`: its own context, or, where leaf and entry both have G = 1, every one (R361). -/
def TlbEnt.serves (t : TlbEnt) (ctx own : Nat) : Bool := t.ctx == ctx || (peG t.leaf && peG own)

/-- What a cached leaf gives to an address, if it serves it: one of its own range, or one of its group whose entry was a valid leaf. -/
def TlbEnt.at (t : TlbEnt) (ctx va : Nat) : Option (Except Cause TlbEnt) :=
  let p := levelSize t.level / 4096
  let v := va / 4096 % 2 ^ 45 / p * p
  let g := groupSize (peCG t.leaf)
  if v == t.vpage then (if t.serves ctx t.own then some (.ok { t with ctx := ctx }) else none)
  else if v / (p * g) == t.vpage / (p * g) then
    (t.peers.find? (fun q => q.1 == v / p % g && t.serves ctx q.2)).map (fun q =>
      let y : Int := (t.frame : Int) + ((v : Int) - (t.vpage : Int)) * 4096
      if 0 ≤ y ∧ y.toNat < frameLimit t.leaf then .ok { t with ctx := ctx, vpage := v, frame := y.toNat, own := q.2 } else .error cPermission)
  else none

/-- Two ways have one outcome. -/
def sameWay (a b : Way) : Bool :=
  match a.1, b.1 with
  | .ok x, .ok y => x.vpage == y.vpage && x.leaf == y.leaf && x.level == y.level && x.frame == y.frame && x.own == y.own
  | .error c, .error d => c == d
  | _, _ => false

def addWay (l : List Way) (x : Way) : List Way := if l.any (sameWay x) then l else l ++ [x]

/-- The ways in which one access may be translated (R358, R361): a fresh walk first; a walk from an old cached pointer; a cached leaf. -/
def xlatWays (s : State) (ctx va : Nat) : List Way :=
  let fresh := walkPath s ctx va
  let old := s.ptrs.filter (fun p => s.ptrValid p && p.leads ctx va && !fresh.1.contains p)
  let cached : List Way := (s.tlb.filterMap (fun t => t.at ctx va)).map (fun x => (x, []))
  (waysOf s ctx va fresh ++ old.flatMap (fun p => waysOf s ctx va (p.walk s va)) ++ cached).foldl addWay []

/-- What an access does (Table 16.6 condition 5). -/
inductive AccKind | load | store | fetch
deriving DecidableEq, Repr

/-- Who makes it (Table 16.6 conditions 7 and 8). -/
inductive Accessor | lane | engine | codec
deriving DecidableEq, Repr

/-- Where an access goes: a location address, or a deep address (Table 16.4), and the translation it used. -/
structure Loc where
  la : Nat
  deep : Bool
  memside : Bool
  ent : TlbEnt
deriving DecidableEq, Repr

/-- Frame byte to location (Table 16.4). -/
def frameToLoc (leaf y : Nat) : Nat :=
  if peTier leaf then y
  else if pePL leaf = 0 then
    let h := (bitsAt y 12 2) ^^^ (bitsAt y 14 2) ^^^ (bitsAt y 16 2) ^^^ (bitsAt y 18 2)
    h * 2 ^ 37 + bitsAt y 14 25 * 2 ^ 12 + y % 2 ^ 12
  else peDie leaf * 2 ^ 37 + y % 2 ^ 37

/-- The frame byte that a location comes from under a leaf's PL and DIE, if any does. -/
def locToFrame (leaf la : Nat) : Option Nat :=
  let y :=
    if peTier leaf then la
    else if pePL leaf = 0 then
      let k := la / 2 ^ 12 % 2 ^ 25
      let h := (la / 2 ^ 37 % 4) ^^^ (k % 4) ^^^ (k / 4 % 4) ^^^ (k / 16 % 4)
      k * 2 ^ 14 + h * 2 ^ 12 + la % 2 ^ 12
    else la % 2 ^ 37
  if frameToLoc leaf y = la then some y else none

/-- Conditions 4 to 8 of Table 16.6: permissions and ownership are those of the address's own entry, even where another leaf of a broken group gives the location (R358); the tier is that of the leaf that gives it (log entry 88). -/
def leafCheck (own leaf : Nat) (sup : Bool) (k : AccKind) (who : Accessor) : Option Cause :=
  if !sup && !peU own then some cPermission
  else if (match k with | .load => !peR own | .store => !(peR own && peW own) | .fetch => !peX own) then some cPermission
  else if pePS own && !peO own then some cOwnership
  else if peTier leaf && who != .codec then some (if who == .lane then cPageNotPresent else cEngineFault)
  else if !peTier leaf && who == .codec then some cEngineFault
  else none

/-- The frame byte of an address under a cached leaf that serves it. -/
def TlbEnt.byte (t : TlbEnt) (va : Nat) : Nat := t.frame + va % levelSize t.level

/-- Where an access may go (R358, R361): the places that pass the checks. -/
def State.xlatLocs (s : State) (ctx : Nat) (sup : Bool) (k : AccKind) (who : Accessor) (va : Nat) : List Nat :=
  (xlatWays s ctx va).filterMap (fun x => match x.1 with
    | .ok t => if (leafCheck t.own t.leaf sup k who).isNone then some (frameToLoc t.leaf (t.byte va)) else none
    | .error _ => none)

/-- One access through one translation (R360). Only a translation that passes every check is cached (R361). -/
def State.xlat (s : State) (ctx : Nat) (sup : Bool) (k : AccKind) (who : Accessor) (va : Nat) : Except Cause Loc × State :=
  let ws := xlatWays s ctx va
  let (i, s) := s.choose ws.length
  match ws.getD i (.error cPageNotPresent, []) with
  | (.error c, _) => (.error c, s)
  | (.ok t, path) =>
    match leafCheck t.own t.leaf sup k who with
    | some c => (.error c, s)
    | none =>
      (.ok ⟨frameToLoc t.leaf (t.byte va), peTier t.leaf, !peTier t.leaf && pePL t.leaf == 2, t⟩,
       { s with tlb := addNew t s.tlb, ptrs := path.foldl (fun l p => addNew p l) s.ptrs })

/-! ## Invalidation spans (R322) -/

/-- `n` bytes from `lo` on meet a span; a span with no size is the whole context. -/
def spanMeets (lo : Nat) (size : Option Nat) (a n : Nat) : Bool :=
  match size with
  | none => true
  | some k => decide (lo < a + n) && decide (a < lo + k)

/-- Whether a translation meets an invalidated span: 0xFFF takes every context, one context keeps G translations. A translation that serves a whole page group goes when the group meets the span. -/
def invalMatches (ctx lo : Nat) (size : Option Nat) (t : TlbEnt) : Bool :=
  let n := levelSize t.level * (if t.peers.isEmpty then 1 else groupSize (peCG t.leaf))
  (ctx == 0xFFF || (t.ctx == ctx && !peG t.leaf)) && spanMeets lo size (t.vpage * 4096 / n * n) n

/-- Whether a cached pointer meets an invalidated span. -/
def PtrEnt.spanned (ctx lo : Nat) (size : Option Nat) (p : PtrEnt) : Bool :=
  (ctx == 0xFFF || p.ctx == ctx) && spanMeets lo size (p.prefx * ptrSize p.depth) (ptrSize p.depth)

/-- Whether a translation is not the one that a fresh walk gives now. -/
def State.staleEnt (s : State) (t : TlbEnt) : Bool :=
  match waysOf s t.ctx (t.vpage * 4096) (walkPath s t.ctx (t.vpage * 4096)) with
  | x :: _ => !sameWay x (.ok t, [])
  | [] => true

/-! ## The addresses of a location (R324) -/

/-- The leaves of a table and of those below it; `fuel` counts the levels left. -/
def tableLeaves (s : State) (ctx : Nat) : Nat → Nat → Nat → Nat → List TlbEnt
  | 0, _, _, _ => []
  | fuel + 1, level, tbl, base =>
    (tablePositions s tbl).flatMap (fun j =>
      let e := s.loadNat (tbl + 8 * j) 8
      let va := base + j * levelSize level
      if !peV e || entryMalformed level e then []
      else if peIsPointer e then tableLeaves s ctx fuel (level + 1) (peFrame e) va
      else [⟨ctx, va / 4096, e, level, peFrame e, [], e⟩])

/-- The leaves below a region array. -/
def regionLeaves (s : State) (ctx region : Nat) : List TlbEnt :=
  (tablePositions s region).flatMap (fun j => match readDir s (region + 8 * j) with
    | .ok tbl => tableLeaves s ctx 4 0 tbl (j * 2 ^ 48)
    | .error _ => [])

/-- The leaves that a context's accesses may meet, through its tables, cached pointers or cached leaves. -/
def contextLeaves (s : State) (ctx : Nat) : List TlbEnt :=
  (if s.ctxtab.getLsbD 0 then
    (match readDir s (s.tabBase + 8 * ctx) with
     | .ok region => regionLeaves s ctx region
     | .error _ => [])
   else []) ++
  (s.ptrs.filter (fun p => s.ptrValid p && p.ctx == ctx)).flatMap (fun p =>
    if p.depth ≤ 1 then regionLeaves s ctx p.table else tableLeaves s ctx (6 - p.depth) (p.depth - 2) p.table (p.prefx * ptrSize p.depth)) ++
  s.tlb.filter (fun t => t.ctx == ctx || peG t.leaf)

/-- An address of the lower or upper half from its 57 bits (R25). -/
def signVa (v : Nat) : Nat := if 2 ^ 56 ≤ v % 2 ^ 57 then v % 2 ^ 57 + (2 ^ 64 - 2 ^ 57) else v % 2 ^ 57

/-- The address that a leaf gives a location, in its own range or in that of its group. -/
def TlbEnt.vaOf (t : TlbEnt) (la : Nat) : Option Nat :=
  match locToFrame t.leaf la with
  | none => none
  | some y =>
    let n := levelSize t.level * groupSize (peCG t.leaf)
    let base := t.vpage * 4096 / n * n
    let v : Int := (t.vpage : Int) * 4096 + (y : Int) - (t.frame : Int)
    if (base : Int) ≤ v ∧ v < base + n then some (signVa v.toNat) else none

/-- Whether an access at `va` may reach a location. -/
def reaches (s : State) (ctx va la : Nat) : Bool :=
  (xlatWays s ctx va).any (fun x => match x.1 with | .ok t => frameToLoc t.leaf (t.byte va) == la | .error _ => false)

/-- The addresses at which a context's accesses may reach a location. -/
def addressesOf (s : State) (ctx la : Nat) : List Nat :=
  (contextLeaves s ctx).filterMap (fun t => match t.vaOf la with | some v => if reaches s ctx v la then some v else none | none => none)

end Sys2Proof.Machine
end

