-- ==== Sys2Proof/Machine/Retention.lean ====
section
/-! DEFINITION. Retention codes, renewal and expiry of operand-store values (03, R59 to R73). -/

namespace Sys2Proof.Machine

/-- Table 3.2: HELD and classes 1 to 6 with either action. -/
def codeLegal (c : Nat) : Bool := c == 0 || (c < 16 && 1 ≤ c % 8 && c % 8 ≤ 6)

/-- The worst retention of a die at 105 °C, in µs, as step 3 of the boot measures it (R414). -/
def State.retentionOf (s : State) (die : Nat) : Nat := s.fuses.retention.getD die 2000

/-- RCLS of a die: bit k is set when class k is enabled (R414). -/
def State.rclsOf (s : State) (die : Nat) : Nat :=
  let r := s.retentionOf die
  if 2000 ≤ r then 0x7F else if 1500 ≤ r then 0x3F else if 1000 ≤ r then 0x1F else 0x0F

/-- The ceiling of a die's refresh interval: half the retention of a die that holds its values for less than 1 ms (R414). -/
def State.refCeilOf (s : State) (die : Nat) : Nat := let r := s.retentionOf die; if r < 1000 then r / 2 else 1000

/-- The code applied for code `c` on a die (R61): the class itself, else the next longer enabled class, else HELD. -/
def State.codeApplied (s : State) (die c : Nat) : Nat :=
  if c % 8 = 0 then c
  else match (rangeFrom (c % 8) (7 - c % 8)).find? (fun k => s.rclsOf die / 2 ^ k % 2 == 1) with
    | some k => c / 8 * 8 + k
    | none => 0

/-- The expiry tick that a renewal at tick `n` sets (R63); 0 for HELD, which has none. -/
def expiryTick (code n : Nat) : Nat := if code % 8 = 0 then 0 else n + 4 ^ (code % 8) + 1

/-- The value an expiry leaves (R64, Table 3.6). -/
def lapsed (code : Nat) : Cell := ⟨0xFFFFFFFF, if code / 8 % 2 = 1 then .expired else .poison⟩

/-- Whether an allocation of this code and expiry tick has expired by `tick`. -/
def isOver (code exp tick : Nat) : Bool := code % 8 != 0 && exp ≤ tick

/-- Expiry of a run of values: every value but those already POISON takes the lapsed state (R64). -/
def expireCells (code : Nat) (fill : Cell) (cells : Sparse Cell) : Cell × Sparse Cell :=
  let f := if fill.st == .poison then fill else lapsed code
  (f, (cells.map (fun c => if c.2.st == .poison then c else (c.1, lapsed code))).filter (fun c => c.2 != f))

def Alloc.expire (a : Alloc) : Alloc :=
  let r := expireCells a.code a.fill a.cells
  { a with fill := r.1, cells := r.2 }

/-- The word `w` of a run of values. -/
def cellAt (fill : Cell) (cells : Sparse Cell) (w : Nat) : Cell := spGet fill cells w

/-- Replace the bytes of a word that `bs` names (byte number, byte). -/
def mergeBytes (x : Word32) (bs : List (Nat × Byte)) : Word32 :=
  BitVec.ofNat 32 (ofBytesLE ((List.range 4).map (fun i => match bs.find? (fun p => p.1 % 4 == i) with
    | some p => p.2
    | none => BitVec.ofNat 8 (x.toNat / 256 ^ i))))

/-- The stores of one committing chunk or one piece applied to the words of a run (R65); `bs` are (offset, byte). -/
def storeCells (fill : Cell) (cells : Sparse Cell) (bs : List (Nat × Byte)) : Sparse Cell :=
  let words := bs.foldl (fun l b => addNew (b.1 / 4) l) []
  words.foldl (fun cs w =>
    let mine := bs.filter (fun b => b.1 / 4 == w)
    let old := cellAt fill cs w
    let whole := (List.range 4).all (fun i => mine.any (fun b => b.1 % 4 == i))
    spPut fill w ⟨mergeBytes old.data mine, if old.st == .live || whole then .live else old.st⟩ cs) cells

/-- Store into an allocation and renew it (R63, R65). -/
def Alloc.store (a : Alloc) (tick : Nat) (bs : List (Nat × Byte)) : Alloc :=
  { a with cells := storeCells a.fill a.cells bs, exp := expiryTick a.code tick }

def Alloc.renew (a : Alloc) (tick : Nat) : Alloc := { a with exp := expiryTick a.code tick }

def Alloc.holds (a : Alloc) (x n : Nat) : Bool := a.start ≤ x && x + n ≤ a.start + a.size

def LaneSpace.store (a : LaneSpace) (code tick : Nat) (bs : List (Nat × Byte)) : LaneSpace :=
  { a with cells := storeCells a.fill a.cells bs, exp := expiryTick code tick }

def LaneSpace.expire (a : LaneSpace) (code : Nat) : LaneSpace :=
  let r := expireCells code a.fill a.cells
  { a with fill := r.1, cells := r.2 }

/-! ## Vector registers -/

def regKey (r l : Nat) : Nat := 64 * r + l

def GangCore.reg (c : GangCore) (r l : Nat) : RegCell := spGet c.regFill c.regs (regKey r l)

/-- Set a register cell of one lane. -/
def GangCore.setReg (c : GangCore) (r l : Nat) (x : RegCell) : GangCore := { c with regs := spPut c.regFill (regKey r l) x c.regs }

/-- A write of a register in one lane: it becomes LIVE (or POISON with a poisoned value) and is renewed (R63, R73). -/
def GangCore.writeReg (c : GangCore) (code tick : Nat) (r l : Nat) (x : Cell) : GangCore :=
  c.setReg r l ⟨x.data, x.st, expiryTick code tick⟩

/-- A last-read mark (R72, R73): the register is dead, and reads of it are POISON of all ones (Table 3.6). -/
def GangCore.killReg (c : GangCore) (r l : Nat) : GangCore := c.setReg r l ⟨0xFFFFFFFF, .poison, (c.reg r l).exp⟩

/-- Expiry of every register whose tick has come (R64, R70). -/
def GangCore.expireRegs (c : GangCore) (code tick : Nat) : GangCore :=
  if code % 8 = 0 then c
  else
    let one (x : RegCell) : RegCell := if x.st != .poison && x.exp ≤ tick then ⟨0xFFFFFFFF, (lapsed code).st, x.exp⟩ else x
    let f := one c.regFill
    { c with regFill := f, regs := (c.regs.map (fun p => (p.1, one p.2))).filter (fun p => p.2 != f) }

/-- Expiry of every per-thread space whose tick has come. -/
def GangCore.expireSpaces (c : GangCore) (code tick : Nat) : GangCore :=
  if code % 8 = 0 then c
  else { c with spaces := c.spaces.map (fun a => if a.exp ≤ tick then a.expire code else a) }

/-- Register and per-thread codes of a gang as applied (R60, R61). -/
def State.regCode (s : State) (g : Gang) : Nat :=
  match s.crewOf g with | some c => s.codeApplied (coreDie c.coreIx) (c.desc.ret0 % 16) | none => 0
def State.thrCode (s : State) (g : Gang) : Nat :=
  match s.crewOf g with | some c => s.codeApplied (coreDie c.coreIx) (c.desc.ret0 / 16) | none => 0

end Sys2Proof.Machine
end

