-- ==== Sys2Proof/Machine/Gangs.lean ====
section
/-! DEFINITION. Sub-gangs: splitting, joining, loop ends and fault families (R31 to R38, R214). -/

namespace Sys2Proof.Machine

/-- Whether a sub-gang waits at a join, a loop end or a collective. -/
def SubGang.atMeeting (x : SubGang) : Bool :=
  match x.wait with
  | .join .. | .loopEnd .. | .coll .. => true
  | _ => false

def SubGang.isReady (x : SubGang) : Bool := x.wait == .ready

/-- Change the sub-gang that holds exactly the lanes `m`. -/
def GangCore.mapSub (c : GangCore) (m : LaneMask) (f : SubGang → SubGang) : GangCore :=
  { c with subs := mapIf (fun y => y.lanes == m) f c.subs }

/-- One sub-gang holding every live thread of the gang (R31; lanes held on a fault make it split). -/
def GangCore.unsplit (c : GangCore) : Bool := c.subs.length == 1

/-- Group lanes by next PC, in order of first appearance. -/
def groupByPc : List (Nat × Word64) → List (LaneMask × Word64) → List (LaneMask × Word64)
  | [], acc => acc
  | (l, pc) :: r, acc =>
    if acc.any (fun x => x.2 == pc) then groupByPc r (acc.map (fun x => if x.2 == pc then (x.1 ||| laneBit l, x.2) else x))
    else groupByPc r (acc ++ [(laneBit l, pc)])

/-- Replace a sub-gang by the groups its lanes split into (R31). -/
def GangCore.splitSub (c : GangCore) (x : SubGang) (nexts : List (Nat × Word64)) : GangCore :=
  { c with subs := c.subs.flatMap (fun y =>
      if y.lanes == x.lanes then (groupByPc nexts []).map (fun p => { x with lanes := p.1, pc := p.2, waited := 0 }) else [y]) }

/-- Remove lanes that exit or are quarantined from every sub-gang. -/
def GangCore.dropLanes (c : GangCore) (m : LaneMask) : GangCore :=
  { c with subs := (c.subs.map (fun x => { x with lanes := x.lanes &&& ~~~m })).filter (fun x => x.lanes != 0) }

/-! ## Fault families (R34) -/

/-- A sub-gang that holds some lanes of `m` has not come to wait at a meeting. A wait at a loop end counts here as a wait at some other join (R34): the model's choice, since R214 says so for R38 alone (log entry 86). -/
def GangCore.onWay (c : GangCore) (x : SubGang) (m : LaneMask) : Bool := c.subs.any (fun y => y.lanes != x.lanes && y.lanes &&& m != 0 && !y.atMeeting)

/-- The lanes of `m` have come to be one sub-gang: the lanes of a family that had parked are back in a remainder they now share it with (R34), at whatever meeting that was. -/
def GangCore.rejoin (c : GangCore) (m : LaneMask) : GangCore :=
  { c with fams := c.fams.map (fun f => if f.rem &&& m != 0 then ⟨f.rem ||| (f.out &&& m), f.out &&& ~~~m⟩ else f) }

/-- Whether a sub-gang at a collective waits: a remainder for lanes parked from it that are still on their way; parked lanes that have resumed and come there first, for the remainder (the model's choice, log entry 66: R34 does not say what they do). -/
def GangCore.famOut (c : GangCore) (x : SubGang) : Bool :=
  c.fams.any (fun f => (x.lanes &&& f.rem != 0 && c.onWay x f.out) || (x.lanes &&& f.out != 0 && c.onWay x f.rem))

/-- Whether ready sub-gang `x` has reached the PC at which `y` of its family waits: the remainder at a join or collective, or resumed lanes at a collective. The whole of `x` fuses, with the lanes never parked that have fused with resumed ones (the model's choice, log entry 66). -/
def Family.meet (f : Family) (x y : SubGang) : Bool :=
  x.isReady && y.lanes != x.lanes && y.pc == x.pc &&
  (match y.wait with
   | .join .. => x.lanes &&& f.out != 0 && y.lanes &&& f.rem != 0
   | .coll .. => (x.lanes &&& f.out != 0 && y.lanes &&& f.rem != 0) || (x.lanes &&& f.rem != 0 && y.lanes &&& f.out != 0)
   | _ => false)

/-- The first pair that fuses now. -/
def GangCore.fusePair (c : GangCore) : Option (SubGang × SubGang) :=
  c.fams.findSome? (fun f => c.subs.findSome? (fun x => (c.subs.find? (f.meet x)).map (fun y => (x, y))))

/-- `x` fuses with `y`, which goes on waiting. -/
def GangCore.fuse (c : GangCore) (x y : SubGang) : GangCore :=
  let m := x.lanes ||| y.lanes
  ({ c with subs := (c.subs.filter (fun z => z.lanes != x.lanes)).map (fun z => if z.lanes == y.lanes then { z with lanes := m } else z) } : GangCore).rejoin m

/-- Families whose parked lanes have all fused or exited, or whose remainder has exited, are no more. -/
def GangCore.pruneFams (c : GangCore) : GangCore :=
  { c with fams := c.fams.filter (fun f => f.rem &&& c.liveLanes != 0 && f.out &&& c.liveLanes != 0) }

/-- A remainder stops waiting at a collective when no parked lane of its family is on its way (R34). -/
def GangCore.releaseColl (c : GangCore) : GangCore :=
  { c with subs := c.subs.map (fun x => match x.wait with
      | .coll _ => if c.famOut x then x else { x with wait := .ready }
      | _ => x) }

/-! ## The order of arrivals (R38) -/

def SubGang.order (x : SubGang) : Nat := match x.wait with | .join _ n => n + 1 | .coll n => n + 1 | .loopEnd n => n + 1 | _ => 0

/-- The number of the next arrival: above those of the sub-gangs that wait. -/
def GangCore.nextOrder (c : GangCore) : Nat := c.subs.foldl (fun m x => max m x.order) 0

/-! ## Loop ends (R214, R215) -/

def GangCore.loop (c : GangCore) (k : Nat) : LoopLevel := c.loops.getD k LoopLevel.zero
def GangCore.setLoop (c : GangCore) (k : Nat) (x : LoopLevel) : GangCore := { c with loops := setAt k x c.loops }

/-- Put the lanes of a ready sub-gang whose PC is the innermost END and that belong to LMASK into the loop-end wait. -/
def GangCore.arriveEnds (c : GangCore) (m : LaneMask) : GangCore :=
  if c.ldepth = 0 then c
  else
    let k := c.loop (c.ldepth - 1)
    let n := c.nextOrder
    { c with subs := c.subs.flatMap (fun x =>
        if x.isReady && x.pc == k.stop && x.lanes &&& m &&& k.lmask != 0 then
          let a := x.lanes &&& m &&& k.lmask
          let b := x.lanes &&& ~~~a
          { x with lanes := a, wait := .loopEnd n } :: (if b == 0 then [] else [{ x with lanes := b }])
        else [x]) }

/-! ## Joins (R36) -/

def joinMaskOf (x : SubGang) : Option LaneMask := match x.wait with | .join m _ => some m | _ => none

/-- The PC of a join that completes now, if any. -/
def GangCore.joinDone (c : GangCore) : Option Word64 :=
  (c.subs.filter (fun x => (joinMaskOf x).isSome)).findSome? (fun x =>
    let here := c.subs.filter (fun y => (joinMaskOf y).isSome && y.pc == x.pc)
    let w := here.foldl (fun m y => m ||| y.lanes) 0
    let m := here.foldl (fun m y => m ||| (joinMaskOf y).getD 0) 0
    if m &&& c.liveLanes &&& ~~~w == 0 then some x.pc else none)

/-- The waiting lanes fuse after the join; where that is the innermost loop's end they wait there (R214). -/
def GangCore.completeJoin (c : GangCore) (pc : Word64) : GangCore :=
  let here := c.subs.filter (fun y => (joinMaskOf y).isSome && y.pc == pc)
  let w := here.foldl (fun m y => m ||| y.lanes) 0
  ({ c with subs := ⟨w, pc + 8, .ready, 0⟩ :: c.subs.filter (fun y => !((joinMaskOf y).isSome && y.pc == pc)) } : GangCore).rejoin w |>.arriveEnds w

/-! ## Loop steps (R214, R215) -/

def SubGang.isEnd (x : SubGang) : Bool := match x.wait with | .loopEnd _ => true | _ => false

/-- Lanes that wait at the innermost loop's end. -/
def GangCore.atEnd (c : GangCore) : LaneMask := c.subs.foldl (fun m x => if x.isEnd then m ||| x.lanes else m) 0

/-- Whether the innermost loop takes a loop step: no live lane of LMASK is still on its way. -/
def GangCore.loopDue (c : GangCore) : Bool :=
  c.ldepth != 0 && (let k := c.loop (c.ldepth - 1); k.lmask &&& c.liveLanes &&& ~~~c.atEnd == 0 && c.atEnd != 0)

/-- Take the lanes of `m` out of the loop-end waiters into one ready sub-gang at `pc`. -/
def GangCore.gather (c : GangCore) (m : LaneMask) (pc : Word64) : GangCore :=
  let got := c.atEnd &&& m
  let rest := (c.subs.map (fun x => if x.isEnd then { x with lanes := x.lanes &&& ~~~m } else x)).filter (fun x => x.lanes != 0)
  if got == 0 then c else ({ c with subs := ⟨got, pc, .ready, 0⟩ :: rest } : GangCore).rejoin got

/-- One loop step (R214). A loop whose LMASK holds no live lane ends (R215), by a loop step like any other, which counts LC down (the model's choice, log entry 67). -/
def GangCore.loopStep (c : GangCore) : GangCore :=
  let i := c.ldepth - 1
  let k := c.loop i
  let live := k.lmask &&& c.liveLanes
  let lc := k.lc - 1
  if lc != 0 && live != 0 then
    (c.setLoop i { k with lc := lc, lmask := live }).gather live k.start
  else
    let c := (c.setLoop i { k with lc := lc, lmask := live }).gather (live ||| k.xmask) k.stop
    let c := { c with ldepth := i }
    c.arriveEnds (live ||| k.xmask)

/-- Run what follows from the sub-gangs' positions until nothing changes: family fusion, collectives, joins, loop steps. -/
def settleSubs : Nat → GangCore → GangCore
  | 0, c => c
  | fuel + 1, c =>
    match c.fusePair with
    | some p => settleSubs fuel (c.fuse p.1 p.2)
    | none =>
      let c2 := c.pruneFams.releaseColl
      match c2.joinDone with
      | some pc => settleSubs fuel (c2.completeJoin pc)
      | none => if c2.loopDue then settleSubs fuel c2.loopStep else c2

def GangCore.settle (c : GangCore) : GangCore := settleSubs 200 c

/-- Sub-gangs that stop waiting go on at the PC `f` gives them; a PC at a loop's end waits there (R214). -/
def GangCore.wake (c : GangCore) (p : SubGang → Bool) (f : SubGang → Word64) : GangCore :=
  let m := c.subs.foldl (fun m x => if p x then m ||| x.lanes else m) 0
  if m = 0 then c
  else (({ c with subs := c.subs.map (fun x => if p x then { x with wait := .ready, pc := f x, waited := 0 } else x) }).arriveEnds m).settle

/-- Every live lane waits at a join, loop end or collective, and none can proceed (R38). -/
def GangCore.stuck (c : GangCore) : Bool := !c.subs.isEmpty && c.subs.all SubGang.atMeeting

/-- The sub-gang that arrived last at a join or a loop end (R38, R214). -/
def GangCore.lastArrived (c : GangCore) : Option SubGang :=
  c.subs.foldl (fun b x => match b with
    | none => some x
    | some y => if y.order ≤ x.order then some x else some y) none

/-- No sub-gang can issue: each is held or waits at a join, a loop end, a collective, a barrier or waitany (Table 5.1). That a wait at a loop end counts as a wait at a join in this row is the model's choice: R214 says so for R38 alone (log entry 86). -/
def GangCore.idle (c : GangCore) : Bool :=
  c.subs.all (fun x => x.atMeeting || (match x.wait with | .held _ | .bar _ | .events .. => true | _ => false))

/-- An implicit chunk ends at the moment when no sub-gang of its gang can issue (Table 5.1), whatever brought the last of them there. -/
def Gang.closeIdle (g : Gang) : Gang :=
  { g with chunk := g.chunk.map (fun c => { c with closed := c.closed || (c.expl.isNone && g.core.idle) }) }

end Sys2Proof.Machine
end

