-- ==== Sys2Proof/Machine/Objects.lean ====
section
/-! DEFINITION. Event latches, mailboxes, semaphores and barriers (09, R223 to R244), work items entering the distributors. -/

namespace Sys2Proof.Machine

/-! ## Latching (R234) -/

/-- Whether the binding of a slot has a source that `p` accepts. -/
def bindHas (p : EvSrc → Bool) (b : Option Binding) : Bool := match b with | some x => p x.src | none => false

/-- The slots of a gang bound to a source that `p` accepts. -/
def GangCore.slotsOf (c : GangCore) (p : EvSrc → Bool) : BitVec 16 :=
  BitVec.ofNat 16 ((List.range 16).foldl (fun m j => if bindHas p (c.binds.getD j none) then m + 2 ^ j else m) 0)

def GangCore.waitsEvents (c : GangCore) : Bool := c.subs.any (fun x => match x.wait with | .events .. => true | _ => false)

/-- Latch every slot of the package bound to a source that `p` accepts; gangs parked in waitany are then tested. -/
def State.latch (s : State) (p : EvSrc → Bool) : State :=
  let hit := s.gangs.filter (fun g => g.core.slotsOf p != 0)
  let s := { s with gangs := s.gangs.map (fun g => g.mapCore (fun c => { c with evpend := c.evpend ||| c.slotsOf p })) }
  hit.foldl (fun s g => if g.core.waitsEvents then s.addDue (.eventDelivery g.id) else s) s

/-! ## Queues (R336, R339) -/

def State.queue (s : State) (q : Nat) : Queue := s.queues.getD q Queue.reset
def State.setQueue (s : State) (q : Nat) (x : Queue) : State := { s with queues := setAt q x s.queues }

/-- The context a queue belongs to; 0 when it is granted to none. -/
def State.queueOwner (s : State) (q : Nat) : Nat := let g := s.grant (queueKey q); if g.v then g.owner else 0

/-- The context a queue's head waits for: the queue's, or, for a launch entry of a queue granted to none, its launcher's. -/
def State.headCtx (s : State) (q : Nat) : Nat :=
  match s.queueOwner q, (s.queue q).entries with
  | 0, .launch _ _ ctx _ :: _ => ctx
  | c, _ => c

/-- Whether the gate's semaphore is granted to the head's context (R339). -/
def State.gateGranted (s : State) (q : Nat) : Bool := s.ctxGranted (s.headCtx q) (semKey ((s.queue q).sem % 2 ^ 14))

/-- A gate refused: one record of kind 0x07, and the head is kept (R339). -/
def State.refuseHead (s : State) (q : Nat) : State :=
  (s.setQueue q { s.queue q with head := .refused }).kindRecord 0x07 cPermission 0 (s.headCtx q) q 0 ((s.queue q).sem % 2 ^ 32) 0 0 0

/-! ## Semaphores (R242 to R244) -/

def State.sem (s : State) (n : Nat) : Sem := spGet ⟨0, []⟩ s.sems n
def State.setSem (s : State) (n : Nat) (x : Sem) : State := { s with sems := spPut ⟨0, []⟩ n x s.sems }

/-- The latch of a changed semaphore (Table 9.10). -/
def State.latchSem (s : State) (n : Nat) : State :=
  let v := (s.sem n).value
  s.latch (fun e => match e with | .sem m t => m == n && t ≤ v | _ => false)

/-- A served group goes on after its sem.wait, whatever becomes of a chunk that another sub-gang has open; a served queue head is admitted next. -/
def State.wakeWaiter (s : State) (n : Nat) : SemWaiter → State
  | .group g lead => s.mapGang g (fun g => (g.mapBoth (fun c => c.wake (fun x => lowestLane x.lanes == lead.val &&
      (match x.wait with | .sem m _ => m == n | _ => false)) (fun x => x.pc + 8))).closeIdle)
  | .queue q => s.setQueue q { s.queue q with head := .served }

/-- Subtract a threshold; a change of the value latches (Table 9.10). -/
def State.semTake (s : State) (n thr : Nat) : State :=
  if thr = 0 then s else (s.setSem n { s.sem n with value := (s.sem n).value - thr }).latchSem n

/-- Serve waiters one after the other, the oldest first, while their thresholds are met (R244); a queue head that fails the gate's second check leaves without taking units (R339). -/
def serveFifo (n : Nat) : List (SemWaiter × Nat) → State → State
  | [], s => s
  | (w, t) :: r, s =>
    if t ≤ (s.sem n).value then
      let s := s.setSem n { s.sem n with fifo := r }
      match w with
      | .queue q => if s.gateGranted q then serveFifo n r ((s.semTake n t).wakeWaiter n w) else serveFifo n r (s.refuseHead q)
      | .group .. => serveFifo n r ((s.semTake n t).wakeWaiter n w)
    else s

def State.serveSem (s : State) (n : Nat) : State := serveFifo n (s.sem n).fifo s

/-- A change of value: latches, then service. -/
def State.semChanged (s : State) (n : Nat) : State := (s.latchSem n).serveSem n

/-- sem.sig at release (R243). -/
def State.semSignal (s : State) (n amount : Nat) : State :=
  let x := s.sem n
  let v := min (x.value + amount) 0xFFFFFFFF
  if v = x.value then s else (s.setSem n { x with value := v }).semChanged n

/-- Take waiters out of every FIFO, then serve those behind them (R244, R378). -/
def State.leaveFifos (s : State) (p : SemWaiter → Bool) : State :=
  (s.sems.map (·.1)).foldl (fun s n =>
    let x := s.sem n
    if x.fifo.any (fun w => p w.1) then (s.setSem n { x with fifo := x.fifo.filter (fun w => !p w.1) }).serveSem n else s) s

/-! ## Mailboxes (R239 to R241) -/

def State.mbox (s : State) (m : Nat) : List Word64 := spGet [] s.mboxes m
def State.setMbox (s : State) (m : Nat) (x : List Word64) : State := { s with mboxes := spPut [] m x s.mboxes }

def State.mboxAdd (s : State) (m : Nat) (x : Word64) : State :=
  (s.setMbox m (s.mbox m ++ [x])).latch (fun e => match e with | .mbx k => k == m | _ => false)

/-! ## Completion objects as event sources -/

/-- A completion value written at `la` by cmp.set or an engine completion (R234). -/
def State.latchComp (s : State) (la : Nat) : State :=
  let v := s.loadNat la 8
  s.latch (fun e => match e with | .comp _ _ _ a t => a == la && t ≤ v | _ => false)

/-! ## Level re-evaluation (R234, R235, R238) -/

/-- Whether a source would latch when re-evaluated now. -/
def State.level (s : State) : EvSrc → Bool
  | .bar _ => false
  | .comp _ _ _ la t => decide (t ≤ s.loadNat la 8)
  | .mbx m => !(s.mbox m).isEmpty
  | .sem n t => decide (t ≤ (s.sem n).value)
  | .timer t => decide (t ≤ s.tick)

/-- Latch the slots of `m` whose sources stand. Timers are not re-evaluated: Table 9.10 calls that not applicable, R237 excepts no kind (the model's choice, log entry 68). -/
def State.reeval (s : State) (m : BitVec 16) (c : GangCore) : GangCore :=
  { c with evpend := c.evpend ||| (m &&& c.slotsOf (fun e => s.level e && (match e with | .timer _ => false | _ => true))) }

/-! ## Barriers (R223, R224) -/

def State.barSlot (s : State) (k : BarKey) : Option BarSlot :=
  match k.scope with
  | .crew => (s.crew? k.inst).bind (fun c => c.bars[k.slot]?)
  | _ => (s.item? k.item).bind (fun i => (i.bars.find? (fun b => b.1 == k)).map (·.2))

def State.setBar (s : State) (k : BarKey) (x : BarSlot) : State :=
  match k.scope with
  | .crew => s.mapCrew k.inst (fun c => { c with bars := setAt k.slot x c.bars })
  | _ => { s with items := mapIf (fun i => i.id == k.item) (fun i => { i with bars := mapIf (fun b => b.1 == k) (fun b => (b.1, x)) i.bars }) s.items }

def Gang.pendPhase (g : Gang) (k : BarKey) : Option Word32 := (g.bpend.find? (fun b => b.1 == k)).map (·.2)
def Gang.setPend (g : Gang) (k : BarKey) (p : Option Word32) : Gang :=
  { g with bpend := (g.bpend.filter (fun b => b.1 != k)) ++ (match p with | some x => [(k, x)] | none => []) }

/-- A bar.wait proceeds once the phase differs from the gang's pending phase, or none is pending (R224). -/
def State.barPass (s : State) (k : BarKey) (g : Gang) : Gang :=
  if g.core.subs.any (fun x => x.wait == .bar k) then
    match s.barSlot k, g.pendPhase k with
    | some b, some p =>
      if b.phase != p then
        (g.setPend k none).mapCore (fun c => c.wake (fun x => x.wait == .bar k) (fun x => x.pc))
      else g
    | _, _ => g.mapCore (fun c => c.wake (fun x => x.wait == .bar k) (fun x => x.pc))
  else g

/-- The test of R223: run at each arrival and at each exit of a gang of the slot. -/
def State.barTest (s : State) (k : BarKey) : State :=
  match s.barSlot k with
  | none => s
  | some b =>
    let x := (b.gone.filter (fun g => !b.arrived.contains g)).length
    if 1 ≤ b.count ∧ b.need ≤ b.count + x then
      let s := s.setBar k { b with phase := b.phase + 1, count := 0, arrived := [] }
      let s := s.latch (fun e => match e with | .bar j => j == k | _ => false)
      { s with gangs := s.gangs.map (fun g => if g.between then s.barPass k g else g) }
    else s

/-- An arrival of `who` (R223). -/
def State.barArrive (s : State) (k : BarKey) (who : Nat) : State :=
  match s.barSlot k with
  | none => s
  | some b =>
    let s := s.mapGang who (fun g => g.setPend k (some b.phase))
    (s.setBar k { b with count := b.count + 1, arrived := addNew who b.arrived }).barTest k

/-- An exit that counts at a slot (R45). -/
def State.barGone (s : State) (k : BarKey) (who : Nat) : State :=
  match s.barSlot k with
  | none => s
  | some b => (s.setBar k { b with gone := addNew who b.gone }).barTest k

/-- The .pod slot of a pod-wide job that an arrival of another package joins (R344). -/
def State.podSlot (s : State) (x : PodArrival) : Option BarKey :=
  s.items.findSome? (fun i => if i.desc.podjob == x.job then (i.bars.find? (fun b => b.1.scope == .pod && b.1.slot == x.slot)).map (·.1) else none)

/-- Names of gangs of other packages in a slot's lists. -/
def podWho (x : PodArrival) : Nat := 2 ^ 64 + x.who

/-- An arrival from another package joins its slot; one whose slot is not reserved yet waits for it (R402). -/
def State.joinPod (s : State) (x : PodArrival) : State :=
  match s.podSlot x with
  | none => { s with podIn := s.podIn ++ [x] }
  | some k => if x.exited then s.barGone k (podWho x) else s.barArrive k (podWho x)

/-- Arrivals that waited are tried again. -/
def State.joinPods (s : State) : State := s.podIn.foldl State.joinPod { s with podIn := [] }

/-- Every barrier slot of a gang's crew and work item (R45). -/
def State.barsOf (s : State) (c : Crew) : List BarKey :=
  (List.range c.bars.length).map (fun i => ⟨.crew, c.item, c.id, i⟩) ++
  (match s.item? c.item with
   | some i => (i.bars.map (·.1)).filter (fun k => match k.scope with
       | .quad => k.inst == quadOf c.coreIx
       | .die => k.inst == coreDie c.coreIx
       | _ => true)
   | none => [])

/-! ## Work items and queues (R336, R340) -/

/-- An admitted launch or task record joins the package distributor, in admission order. -/
def State.takeItem (s : State) (d : Desc) (ctx : Nat) (task : Option TaskRec) (queue : Option Nat) (addr : Nat) (tested : Bool) : State :=
  let i : Item :=
    { id := s.nextId, ctx := ctx, desc := d, task := task, queue := queue, addr := addr, tested := tested,
      split := none, ranges := [], placed := 0, released := 0, bars := [] }
  { s with items := s.items ++ [i], nextId := s.nextId + 1 }

def State.enqueue (s : State) (q : Nat) (e : QEntry) : State := s.setQueue q { s.queue q with entries := (s.queue q).entries ++ [e] }

end Sys2Proof.Machine
end

