-- ==== Sys2Proof/Machine/Chunk.lean ====
section
/-! DEFINITION. Chunks (05_memory_model): access sets, held stores, squash, commit, deferred effects, the stroke token. -/

namespace Sys2Proof.Machine

/-- Keys of held crew stores: crew × 2^24 + offset; of held per-thread stores: lane × 2^16 + address. -/
def crewKey (crew off : Nat) : Nat := crew * 2 ^ 24 + off
def thrKey (lane a : Nat) : Nat := lane * 2 ^ 16 + a

def Chunk.fresh (c : GangCore) : Chunk :=
  { snap := c, expl := none, count := 0, stores := 0, rset := [], wset := [], qset := [], gst := [], cst := [], tst := [],
    ops := [], defer := [], pages := [], rebound := 0, polled := 0, closed := false }

/-- The gang's open chunk, or a new one (R107). -/
def Gang.openChunk (g : Gang) : Chunk := g.chunk.getD (Chunk.fresh g.core)

def Chunk.addR (c : Chunk) (l : Line) : Chunk := { c with rset := addNew l c.rset }
def Chunk.addW (c : Chunk) (l : Line) : Chunk := { c with wset := addNew l c.wset }
def Chunk.addQ (c : Chunk) (l : Line) : Chunk := { c with qset := addNew l c.qset }

/-- Lines counted in W ∪ Q, and in R outside it (R111). -/
def Chunk.wCount (c : Chunk) : Nat := c.wset.length + (c.qset.filter (fun l => !c.wset.contains l)).length
def Chunk.rCount (c : Chunk) : Nat := (c.rset.filter (fun l => !c.wset.contains l && !c.qset.contains l)).length

/-- Two line sets meet. -/
def meets (a b : List Line) : Bool := a.any (fun l => b.contains l)

/-- The test of R113: a commit with sets `w`, `q` against an open chunk. -/
def Chunk.hitBy (x : Chunk) (w q : List Line) : Bool :=
  meets w x.rset || meets w x.wset || meets w x.qset || meets q x.rset || meets q x.wset

/-! ## Squash (R114, R70, R237) -/

/-- EVPEND after a squash (R237): slots the chunk rebound stand as at its start; other latches are kept, and those that an evpoll of the chunk cleared come back. -/
def squashPend (c : Chunk) (now : BitVec 16) : BitVec 16 :=
  (c.snap.evpend &&& c.rebound) ||| ((now ||| c.polled) &&& ~~~c.rebound)

/-- Discard a gang's open chunk: its state is as at the chunk's start; an explicit chunk runs again from the instruction after chk.begin (R118). Every group of the gang counts its WAIT from 0 again (the model's choice, log entry 104: R114 and R347 do not say whether a squash ends a wait). -/
def State.discardChunk (s : State) (g : Gang) : Gang :=
  match g.chunk with
  | none => g
  | some c =>
    let core := { c.snap with evpend := squashPend c g.core.evpend }
    let core := s.reeval c.rebound core
    let core := (core.expireRegs (s.regCode g) s.tick).expireSpaces (s.thrCode g) s.tick
    let core := { core with subs := core.subs.map (fun x => { x with waited := 0 }) }
    { g with core := core, chunk := c.expl.map (fun e => { Chunk.fresh core with expl := some e }) }

/-- The deferred effects of a gang that are not released: of its last commit, and of its open chunk (R121). -/
def Gang.unreleased (g : Gang) : List Deferred := g.releases ++ (match g.chunk with | some c => c.defer | none => [])

/-- A group of the gang stalls on a full mailbox or queue. -/
def Gang.postStalled (g : Gang) : Bool := g.core.subs.any (fun x => match x.wait with | .stall (.mbx _) | .stall (.queue _) => true | _ => false)

/-- A squash of one gang's open chunk (R114), counted toward the four of R116. At the fourth the gang asks for the token. -/
def State.squash (s : State) (gid : Nat) : State :=
  match s.gang? gid with
  | none => s
  | some g =>
    if g.chunk.isNone then s
    else
      let g1 := s.discardChunk g
      match g.token with
      | .granted | .wanted => s.putGang g1
      | .lost =>
        if g1.postStalled then s.putGang g1
        else { s.putGang { g1 with token := .wanted } with tokenReqs := s.tokenReqs ++ [gid] }
      | .none =>
        let n := g.squashes + 1
        if 4 ≤ n then
          { s.putGang { g1 with squashes := 4, token := .wanted } with tokenReqs := s.tokenReqs ++ [gid] }
        else s.putGang { g1 with squashes := n }

/-- Release the token (R116). -/
def State.dropToken (s : State) (gid : Nat) : State :=
  if s.tokenHolder = some gid then { s with tokenHolder := none } else s

/-- The holder stalls on a full mailbox or queue (R116): it gives the token up, keeps its count, and will ask again. -/
def State.loseToken (s : State) (gid : Nat) : State :=
  if s.tokenHolder = some gid then
    { s.mapGang gid (fun g => { g with token := .lost }) with tokenHolder := none }
  else s

/-- Open chunks that a write of lines `w` and reductions `q` by `me` squash: never the holder of the token (R113, R116). -/
def State.victims (s : State) (me : Option Nat) (w q : List Line) : List Nat :=
  (s.gangs.filter (fun g => some g.id != me && s.tokenHolder != some g.id &&
    (match g.chunk with | some c => c.hitBy w q | none => false))).map (·.id)

/-- The holder's chunk stands against a commit of other sets (R116). -/
def State.holderHit (s : State) (me : Option Nat) (w q : List Line) : Bool :=
  match s.tokenHolder with
  | none => false
  | some h => some h != me && (match (s.gang? h).bind (·.chunk) with | some c => c.hitBy w q | none => false)

/-- The place of a gang in the order in which requests of one moment are granted (R116): die, quad, core, gang place; cox cores last. -/
def State.tokenRank (s : State) (gid : Nat) : Nat :=
  match s.gang? gid with
  | none => 0
  | some g => match s.crewOf g with
    | some c => c.coreIx * 256 + g.place
    | none => 2 ^ 18 + g.id

def insertRank (f : Nat → Nat) (x : Nat) : List Nat → List Nat
  | [] => [x]
  | y :: r => if f x < f y then x :: y :: r else y :: insertRank f x r

/-- Numbers in increasing rank. -/
def sortRank (f : Nat → Nat) (l : List Nat) : List Nat := l.foldl (fun r x => insertRank f x r) []

/-- Squash several chunks at one moment; those that then ask for the token do so in the order of R116. -/
def State.squashAll (s : State) (l : List Nat) : State := (sortRank s.tokenRank l).foldl State.squash s

/-- A write piece of an engine or of the hub to the given lines squashes every open chunk that holds one (R125). Its signatures report no line that a chunk does not hold (the model's choice, log entry 22). -/
def State.pieceSquash (s : State) (w : List Line) : State := s.squashAll (s.victims none w [])

/-- An indivisible write piece of an engine or of the hub within one line. -/
def State.pieceWrite (s : State) (la : Nat) (bs : List Byte) : State :=
  (s.pieceSquash [.glob (lineOf la)]).storePiece la bs

/-! ## Applying held stores -/

/-- Store the bytes of a chunk into global memory; lines stored whole lose their poison (R370). -/
def State.applyGlobal (s : State) (gst : Sparse Byte) : State :=
  let lines := gst.foldl (fun l b => addNew (b.1 / 64) l) []
  let mem := gst.foldl (fun m b => memPut m b.1 b.2) s.mem
  let whole := lines.filter (fun n => (gst.filter (fun b => b.1 / 64 == n)).length == 64)
  { s with mem := mem, poisoned := s.poisoned.filter (fun n => !whole.contains n) }

/-- Bytes stored into one crew's space, allocation by allocation (R65). -/
def Crew.storeBytes (c : Crew) (tick : Nat) (bs : List (Nat × Byte)) : Crew :=
  { c with allocs := c.allocs.map (fun a =>
      let mine := bs.filter (fun b => a.holds b.1 1)
      if mine.isEmpty then a else a.store tick mine) }

def State.applyCrews (s : State) (cst : Sparse Byte) : State :=
  let ids := cst.foldl (fun l b => addNew (b.1 / 2 ^ 24) l) []
  ids.foldl (fun s id => s.mapCrew id (fun c =>
    c.storeBytes s.tick ((cst.filter (fun b => b.1 / 2 ^ 24 == id)).map (fun b => (b.1 % 2 ^ 24, b.2))))) s

def GangCore.applyThr (c : GangCore) (code tick : Nat) (tst : Sparse Byte) : GangCore :=
  { c with spaces := c.spaces.map (fun a =>
      let mine := (tst.filter (fun b => b.1 / 2 ^ 16 == a.lane)).map (fun b => (b.1 % 2 ^ 16, b.2))
      if mine.isEmpty then a else a.store code tick mine) }

/-- Commands and requests that a crew has released and that have not completed (R256). -/
def State.crewUsers (s : State) (cid : Nat) : List Nat :=
  (s.cmds.filter (fun c => c.crew == some cid && (match c.kind with | .redg _ => false | _ => true))).map (·.id) ++ (s.reqs.filter (fun r => r.crew == cid && (match r.kind with | .rd .. => false | _ => true))).map (·.id)

/-- A completed command or request no longer holds freed blocks (R256). -/
def Crew.dropUser (c : Crew) (id : Nat) : Crew :=
  { c with freed := (c.freed.map (fun f => { f with users := f.users.filter (· != id) })).filter (fun f => !f.users.isEmpty) }

/-- The crew with the held changes of its allocation map and configuration line applied (R255 to R257, R281). -/
def Crew.applyOp (c : Crew) (code : Nat → Nat) (tick : Nat) (users : List Nat) : HeldOp → Crew
  | .alloc st sz k => { c with allocs := c.allocs ++ [⟨st, sz, code k, expiryTick (code k) tick, ⟨0, .live⟩, []⟩] }
  | .free st own => { c with allocs := c.allocs.filter (fun a => a.start != st || a.size == 0),
                             freed := if (users ++ own).isEmpty then c.freed
                               else c.freed ++ (c.allocs.filter (fun a => a.start == st && a.size != 0)).map (fun a => ⟨a, users ++ own⟩) }
  | .put bs => c.storeBytes tick bs
  | .renew b => { c with allocs := mapIf (fun a => a.holds b 1) (fun a => a.renew tick) c.allocs }
  | .tcfg m v => { c with tcfg := spPut 0 m v c.tcfg }
  | .window b l => { c with accbase := b, acclim := l }

/-! ## Memory-side reductions (R253, R270) -/

/-- Integer operations of Table 10.3 on `n`-bit values. -/
def intRed (n : Nat) (signed : Bool) (op : RedOp) (x y : Nat) : Nat :=
  let sx : Int := if signed && 2 ^ (n - 1) ≤ x then (x : Int) - 2 ^ n else x
  let sy : Int := if signed && 2 ^ (n - 1) ≤ y then (y : Int) - 2 ^ n else y
  match op with
  | .add => (x + y) % 2 ^ n
  | .min => if sx ≤ sy then x else y
  | .max => if sx ≤ sy then y else x
  | .and => x &&& y
  | .or => x ||| y
  | .xor => x ^^^ y

end Sys2Proof.Machine
end

