-- ==== Sys2Proof/Machine/Fp.lean ====
section
/-! DEFINITION. Number formats and the arithmetic rules of 04_numeric_formats: formats, exact values, one rounding, flushing, NaNs, minimum and maximum, conversions. Values are bit patterns held as natural numbers. -/

namespace Sys2Proof.Machine

/-! ## Formats (R86, Table 4.1) -/

inductive FmtKind | ieee | e5m2 | e4m3 | e2m1
deriving DecidableEq, Repr

structure Fmt where
  eb : Nat
  fb : Nat
  bias : Nat
  kind : FmtKind
deriving DecidableEq, Repr

def fp64 : Fmt := ⟨11, 52, 1023, .ieee⟩
def fp32 : Fmt := ⟨8, 23, 127, .ieee⟩
def fp16 : Fmt := ⟨5, 10, 15, .ieee⟩
def bf16 : Fmt := ⟨8, 7, 127, .ieee⟩
def fE4m3 : Fmt := ⟨4, 3, 7, .e4m3⟩
def fE5m2 : Fmt := ⟨5, 2, 15, .e5m2⟩
def fE2m1 : Fmt := ⟨2, 1, 1, .e2m1⟩

def Fmt.width (f : Fmt) : Nat := 1 + f.eb + f.fb
def Fmt.signBit (f : Fmt) : Nat := 2 ^ (f.eb + f.fb)
/-- The code of the largest finite magnitude. -/
def Fmt.maxCode (f : Fmt) : Nat :=
  match f.kind with
  | .ieee | .e5m2 => (2 ^ f.eb - 1) * 2 ^ f.fb - 1
  | .e4m3 => 0x7E
  | .e2m1 => 7
/-- The code of +∞, where the format has one. -/
def Fmt.infCode (f : Fmt) : Nat := (2 ^ f.eb - 1) * 2 ^ f.fb
/-- Table 4.1; E2M1 has no NaN and takes +0 (Table 4.6). -/
def Fmt.canonNan (f : Fmt) : Nat :=
  match f.kind with
  | .ieee | .e5m2 => f.infCode + 2 ^ (f.fb - 1)
  | .e4m3 => 0x7F
  | .e2m1 => 0
/-- The least exponent of a unit in the last place. -/
def Fmt.qmin (f : Fmt) : Int := 1 - (f.bias : Int) - f.fb

/-- A value read from a format: `fin neg m e` is ±m × 2^e. -/
inductive Fv
  | nan (neg : Bool) (frac : Nat) (sig : Bool)
  | inf (neg : Bool)
  | fin (neg : Bool) (m : Nat) (e : Int)
deriving DecidableEq, Repr

def Fmt.decode (f : Fmt) (x : Nat) : Fv :=
  let x := x % 2 ^ f.width
  let neg := f.signBit ≤ x
  let c := x % f.signBit
  let ex := c / 2 ^ f.fb
  let fr := c % 2 ^ f.fb
  match f.kind with
  | .e4m3 => if c = 0x7F then .nan neg 7 false else if ex = 0 then .fin neg fr f.qmin else .fin neg (2 ^ f.fb + fr) (f.qmin + ex - 1)
  | .e2m1 => if ex = 0 then .fin neg fr f.qmin else .fin neg (2 ^ f.fb + fr) (f.qmin + ex - 1)
  | k =>
    if ex = 2 ^ f.eb - 1 then
      if fr = 0 then .inf neg else .nan neg fr (k == .ieee && fr < 2 ^ (f.fb - 1))
    else if ex = 0 then .fin neg fr f.qmin
    else .fin neg (2 ^ f.fb + fr) (f.qmin + ex - 1)

def Fmt.isSub (f : Fmt) (x : Nat) : Bool := let c := x % f.signBit; 0 < c && c < 2 ^ f.fb

/-! ## Flags (R93) -/

abbrev Flags := Word32
def flNV : Flags := 1
def flDZ : Flags := 2
def flOF : Flags := 4
def flUF : Flags := 8
def flNX : Flags := 16
def flID : Flags := 32

/-! ## Rounding (R95) -/

inductive RM | rne | rtz | rdn | rup | rna
deriving DecidableEq, Repr

/-- Whether a magnitude is rounded up, given its kept part, the comparison of the rest with one half (0 below, 1 equal, 2 above) and whether the rest is nonzero. -/
def roundsUp (rm : RM) (neg : Bool) (k : Nat) (half : Nat) (rest : Bool) : Bool :=
  match rm with
  | .rne => half == 2 || (half == 1 && k % 2 == 1)
  | .rna => 1 ≤ half
  | .rtz => false
  | .rdn => neg && rest
  | .rup => !neg && rest

/-- An exact magnitude: m × 2^e, or, with `more`, a value strictly between that and (m + 1) × 2^e. -/
structure Mag where
  m : Nat
  e : Int
  more : Bool
deriving DecidableEq, Repr

/-- Round a magnitude to a multiple of 2^q: the multiple, and whether it differs. -/
def Mag.roundAt (x : Mag) (rm : RM) (neg : Bool) (q : Int) : Nat × Bool :=
  let sh := q - x.e
  if sh ≤ 0 then
    let k := x.m * 2 ^ (-sh).toNat
    (if x.more && roundsUp rm neg k 0 true then k + 1 else k, x.more)
  else
    let d := 2 ^ sh.toNat
    let k := x.m / d
    let r := x.m % d
    let rest := r != 0 || x.more
    let half := if 2 * r < d then 0 else if 2 * r = d then (if x.more then 2 else 1) else 2
    (if roundsUp rm neg k half rest then k + 1 else k, rest)

/-- What one rounding to a format gives. `ovf` marks finite overflow, whose code is then that of Table 4.4 for a format with infinities, `tiny` a nonzero value below the least normal number after rounding with an unbounded exponent. -/
structure Rounded where
  code : Nat
  ovf : Bool
  overInf : Bool
  inexact : Bool
  tiny : Bool
deriving DecidableEq, Repr

/-- Whether overflow in this mode and sign goes to infinity (Table 4.4). -/
def overToInf (rm : RM) (neg : Bool) : Bool :=
  match rm with
  | .rne | .rna => true
  | .rtz => false
  | .rdn => neg
  | .rup => !neg

/-- Round a nonzero magnitude to the codes of a format (sign apart). -/
def Fmt.roundMag (f : Fmt) (rm : RM) (neg : Bool) (x : Mag) : Rounded :=
  let top := x.e + Nat.log2 x.m
  let qu := top - f.fb
  let q := if qu < f.qmin then f.qmin else qu
  let (k, ix) := x.roundAt rm neg q
  let (ku, _) := x.roundAt rm neg qu
  let tiny := decide (qu < f.qmin) && !(qu + 1 == f.qmin && ku == 2 ^ (f.fb + 1))
  let code :=
    if k < 2 ^ f.fb then k
    else if k = 2 ^ (f.fb + 1) then ((q - f.qmin).toNat + 2) * 2 ^ f.fb
    else ((q - f.qmin).toNat + 1) * 2 ^ f.fb + (k - 2 ^ f.fb)
  if f.maxCode < code then ⟨if overToInf rm neg then f.infCode else f.maxCode, true, overToInf rm neg, true, false⟩
  else ⟨code, false, false, ix, tiny⟩

def Fmt.sign (f : Fmt) (neg : Bool) (c : Nat) : Nat := if neg then f.signBit + c else c

/-! ## The mode of an instruction (R92, R95) -/

inductive MinMax | number | nan | legacy
deriving DecidableEq, Repr

/-- FPMODE as an instruction uses it, with the rounding its RND field selects. -/
structure FpEnv where
  rm : RM
  mm : MinMax
  nanp : Bool
  fzs : Bool
  fin64 : Bool
  fout64 : Bool
  fin32 : Bool
  fout32 : Bool
  fin16 : Bool
  fout16 : Bool
deriving DecidableEq, Repr

def rmOfCode (n : Nat) : RM := match n with | 2 => .rtz | 3 => .rdn | 4 => .rup | 5 => .rna | _ => .rne

def rndMode (r : Rnd) (fpmode : Word32) : RM :=
  match r with
  | .dyn => rmOfCode (fpmode.toNat % 8)
  | .rne => .rne
  | .rtz => .rtz
  | .rdn => .rdn
  | .rup => .rup
  | .rna => .rna

def fpEnv (fpmode : Word32) (r : Rnd) : FpEnv :=
  { rm := rndMode r fpmode, mm := if fpmode.getLsbD 18 then .nan else if fpmode.getLsbD 19 then .legacy else .number,
    nanp := fpmode.getLsbD 17, fzs := fpmode.getLsbD 16, fin64 := fpmode.getLsbD 4, fout64 := fpmode.getLsbD 5,
    fin32 := fpmode.getLsbD 6, fout32 := fpmode.getLsbD 7, fin16 := fpmode.getLsbD 8, fout16 := fpmode.getLsbD 9 }

/-- Nothing flushed, RNE, canonical NaNs: the matrix engine, the reducers, the atomics and the inline constants. -/
def fpPlain : FpEnv := ⟨.rne, .number, false, false, false, false, false, false, false, false⟩

def FpEnv.flushIn (p : FpEnv) (f : Fmt) : Bool :=
  if f.kind != .ieee then false else if f.eb = 11 then p.fin64 else if f.fb = 23 then p.fin32 else p.fin16
def FpEnv.flushOut (p : FpEnv) (f : Fmt) : Bool :=
  if f.kind != .ieee then false else if f.eb = 11 then p.fout64 else if f.fb = 23 then p.fout32 else p.fout16

/-- An input after flushing (R98), with its ID flag (R93). -/
def FpEnv.input (p : FpEnv) (f : Fmt) (x : Nat) : Nat × Flags :=
  let x := x % 2 ^ f.width
  if f.isSub x then (if p.flushIn f then (if p.fzs then 0 else x / f.signBit * f.signBit) else x, flID) else (x, 0)

/-! ## Results -/

/-- Infinity in a format (Table 4.6 gives formats that lack it). -/
def Fmt.infinity (f : Fmt) (neg : Bool) : Nat :=
  match f.kind with
  | .ieee | .e5m2 => f.sign neg f.infCode
  | .e4m3 => f.sign neg 0x7F
  | .e2m1 => f.sign neg 7

/-- A rounded result with its overflow, underflow and flush rules (R95, R98, Table 4.6). -/
def finish (p : FpEnv) (f : Fmt) (neg : Bool) (x : Mag) : Nat × Flags :=
  if x.m = 0 ∧ !x.more then (f.sign neg 0, 0)
  else
    let r := f.roundMag p.rm neg x
    if r.ovf then
      ((if r.overInf then f.infinity neg else f.sign neg f.maxCode), flOF ||| flNX)
    else if r.tiny && p.flushOut f then (if p.fzs then 0 else f.sign neg 0, flUF ||| flNX)
    else (f.sign neg r.code, (if r.inexact then flNX else 0) ||| (if r.tiny && r.inexact then flUF else 0))

/-- A NaN operand's payload carried into a format (R99). -/
def carryNan (src dst : Fmt) (neg : Bool) (frac : Nat) : Nat :=
  match dst.kind with
  | .ieee | .e5m2 =>
    let q := frac ||| 2 ^ (src.fb - 1)
    let fr := if src.fb ≤ dst.fb then q * 2 ^ (dst.fb - src.fb) else q / 2 ^ (src.fb - dst.fb)
    dst.sign neg (dst.infCode + fr)
  | .e4m3 => dst.sign neg 0x7F
  | .e2m1 => 0

/-- The NaN result for operands of format `src` (R99): the first NaN operand, or the canonical NaN. -/
def nanResult (p : FpEnv) (src dst : Fmt) (ops : List Fv) : Nat :=
  match ops.find? (fun v => match v with | .nan .. => true | _ => false) with
  | some (.nan neg frac _) => if p.nanp then carryNan src dst neg frac else dst.canonNan
  | _ => dst.canonNan

def Fv.isNan : Fv → Bool | .nan .. => true | _ => false
def Fv.isSig : Fv → Bool | .nan _ _ s => s | _ => false
def Fv.neg : Fv → Bool | .nan n _ _ => n | .inf n => n | .fin n _ _ => n
def Fv.isZero : Fv → Bool | .fin _ 0 _ => true | _ => false

/-- A signed value m × 2^e. -/
def signedOf (neg : Bool) (m : Nat) : Int := if neg then -(m : Int) else m

/-- Exact sum of two finite values. -/
def addFin (n1 : Bool) (m1 : Nat) (e1 : Int) (n2 : Bool) (m2 : Nat) (e2 : Int) : Int × Int :=
  let e := if e1 ≤ e2 then e1 else e2
  (signedOf n1 (m1 * 2 ^ (e1 - e).toNat) + signedOf n2 (m2 * 2 ^ (e2 - e).toNat), e)

/-- A finite exact result, with the sign of an exact zero as IEEE 754-2019 gives it for a sum (R190). -/
def finishSum (p : FpEnv) (f : Fmt) (n1 n2 : Bool) (z1 z2 : Bool) (v e : Int) : Nat × Flags :=
  if v = 0 then
    let neg := if z1 && z2 && n1 == n2 then n1 else p.rm == .rdn
    (f.sign neg 0, 0)
  else finish p f (v < 0) ⟨v.natAbs, e, false⟩

/-! ## Operations on operands already flushed -/

def addF (p : FpEnv) (f : Fmt) (x y : Nat) : Nat × Flags :=
  let a := f.decode x
  let b := f.decode y
  let nv := if a.isSig || b.isSig then flNV else 0
  match a, b with
  | .inf n, .inf m => if n == m then (f.infinity n, nv) else (f.canonNan, flNV)
  | .fin n1 m1 e1, .fin n2 m2 e2 =>
    let (v, e) := addFin n1 m1 e1 n2 m2 e2
    finishSum p f n1 n2 (m1 = 0) (m2 = 0) v e
  | .inf n, .fin .. => (f.infinity n, 0)
  | .fin .., .inf n => (f.infinity n, 0)
  | _, _ => (nanResult p f f [a, b], nv)

/-- The value of an operand with its sign inverted, as the subtrahend of fsub uses it; a NaN keeps its sign. -/
def negF (f : Fmt) (y : Nat) : Nat :=
  if (f.decode y).isNan then y else (y % 2 ^ f.width) ^^^ f.signBit

def mulF (p : FpEnv) (f : Fmt) (x y : Nat) : Nat × Flags :=
  let a := f.decode x
  let b := f.decode y
  let nv := if a.isSig || b.isSig then flNV else 0
  match a, b with
  | .fin n1 m1 e1, .fin n2 m2 e2 => finish p f (n1 != n2) ⟨m1 * m2, e1 + e2, false⟩
  | .inf n, .inf m => (f.infinity (n != m), 0)
  | .inf n, .fin m k _ => if k = 0 then (f.canonNan, flNV) else (f.infinity (n != m), 0)
  | .fin m k _, .inf n => if k = 0 then (f.canonNan, flNV) else (f.infinity (n != m), 0)
  | _, _ => (nanResult p f f [a, b], nv)

/-- x × y + z of exact values with one rounding. Whether 0 × ∞ with a quiet NaN addend is invalid is log entry 8. -/
def fmaV (p : FpEnv) (f : Fmt) (zeroInf : Bool) (a b c : Fv) : Nat × Flags :=
  let sig := a.isSig || b.isSig || c.isSig
  let bad := (match a, b with | .inf _, .fin _ 0 _ => true | .fin _ 0 _, .inf _ => true | _, _ => false)
  if a.isNan || b.isNan || c.isNan then
    (nanResult p f f [a, b, c], if sig || (bad && zeroInf) then flNV else 0)
  else if bad then (f.canonNan, flNV)
  else
    match a, b, c with
    | .fin n1 m1 e1, .fin n2 m2 e2, .fin n3 m3 e3 =>
      let (v, e) := addFin (n1 != n2) (m1 * m2) (e1 + e2) n3 m3 e3
      finishSum p f (n1 != n2) n3 (m1 * m2 = 0) (m3 = 0) v e
    | _, _, .inf n =>
      (match a, b with
       | .fin .., .fin .. => (f.infinity n, 0)
       | _, _ => if (a.neg != b.neg) == n then (f.infinity n, 0) else (f.canonNan, flNV))
    | _, _, _ => (f.infinity (a.neg != b.neg), 0)

def fmaF (p : FpEnv) (f : Fmt) (zeroInf : Bool) (x y z : Nat) : Nat × Flags := fmaV p f zeroInf (f.decode x) (f.decode y) (f.decode z)

/-- Exact comparison of two values that are not NaN: negative, zero or positive. -/
def cmpF (a b : Fv) : Int :=
  match a, b with
  | .inf n, .inf m => (if n then -1 else 1) - (if m then -1 else 1)
  | .inf n, _ => if n then -1 else 1
  | _, .inf n => if n then 1 else -1
  | .fin n1 m1 e1, .fin n2 m2 e2 => (addFin n1 m1 e1 (!n2) m2 e2).1
  | _, _ => 0

/-- A number passed through with output flushing (R98). -/
def outF (p : FpEnv) (f : Fmt) (x : Nat) : Nat × Flags :=
  if f.isSub x && p.flushOut f then (if p.fzs then 0 else x / f.signBit * f.signBit, flUF ||| flNX) else (x, 0)

/-- fmin (`big` false) and fmax (R100). -/
def minmaxF (p : FpEnv) (f : Fmt) (big : Bool) (x y : Nat) : Nat × Flags :=
  let a := f.decode x
  let b := f.decode y
  let nv := if a.isSig || b.isSig then flNV else 0
  let less := decide (cmpF a b < 0) || (decide (cmpF a b = 0) && a.neg && !b.neg)
  match p.mm with
  | .legacy =>
    if a.isNan || b.isNan then (y, 0)
    else if (if big then decide (0 < cmpF a b) else decide (cmpF a b < 0)) then (x, 0) else (y, 0)
  | .nan =>
    if a.isNan || b.isNan then (nanResult p f f [a, b], nv)
    else outF p f (if less == big then y else x)
  | .number =>
    if a.isNan && b.isNan then (nanResult p f f [a, b], nv)
    else if a.isNan then let r := outF p f y; (r.1, r.2 ||| nv)
    else if b.isNan then let r := outF p f x; (r.1, r.2 ||| nv)
    else outF p f (if less == big then y else x)

/-! ## Operations on raw operands: inputs flushed, flags joined -/

def FpEnv.two (p : FpEnv) (f : Fmt) (op : Nat → Nat → Nat × Flags) (x y : Nat) : Nat × Flags :=
  let (a, i) := p.input f x
  let (b, j) := p.input f y
  let r := op a b
  (r.1, r.2 ||| i ||| j)

def fAdd (p : FpEnv) (f : Fmt) (x y : Nat) : Nat × Flags := p.two f (addF p f) x y
def fSub (p : FpEnv) (f : Fmt) (x y : Nat) : Nat × Flags := p.two f (fun a b => addF p f a (negF f b)) x y
def fMul (p : FpEnv) (f : Fmt) (x y : Nat) : Nat × Flags := p.two f (mulF p f) x y
def fFma (p : FpEnv) (f : Fmt) (zeroInf : Bool) (x y z : Nat) : Nat × Flags :=
  let (a, i) := p.input f x
  let (b, j) := p.input f y
  let (c, k) := p.input f z
  let r := fmaF p f zeroInf a b c
  (r.1, r.2 ||| i ||| j ||| k)
/-- Under legacy compare-select no flag is set, ID included (R100). -/
def fMinMax (p : FpEnv) (f : Fmt) (big : Bool) (x y : Nat) : Nat × Flags :=
  let r := p.two f (minmaxF p f big) x y
  if p.mm == .legacy then (r.1, 0) else r

/-- frnd (R190). -/
def fRnd (p : FpEnv) (f : Fmt) (x : Nat) : Nat × Flags :=
  let (a, i) := p.input f x
  match f.decode a with
  | .nan n fr s => (nanResult p f f [.nan n fr s], i ||| (if s then flNV else 0))
  | .inf n => (f.infinity n, i)
  | .fin n m e =>
    let (k, ix) := (Mag.mk m e false).roundAt p.rm n 0
    if k = 0 then (f.sign n 0, i ||| (if ix then flNX else 0))
    else (f.sign n (f.roundMag .rtz n ⟨k, 0, false⟩).code, i ||| (if ix then flNX else 0))

/-- fscale (R190): a × 2^b with b a signed integer. -/
def fScale (p : FpEnv) (f : Fmt) (x : Nat) (b : Int) : Nat × Flags :=
  let (a, i) := p.input f x
  match f.decode a with
  | .nan n fr s => (nanResult p f f [.nan n fr s], i ||| (if s then flNV else 0))
  | .inf n => (f.infinity n, i)
  | .fin n m e =>
    let r := finish p f n ⟨m, e + (if b < -5000 then -5000 else if 5000 < b then 5000 else b), false⟩
    (r.1, r.2 ||| i)

/-- The bit of Table 8.8. -/
def fClass (f : Fmt) (x : Nat) : Nat :=
  match f.decode x with
  | .nan _ _ s => if s then 8 else 9
  | .inf n => if n then 0 else 7
  | .fin n m _ =>
    if m = 0 then (if n then 3 else 4)
    else if f.isSub x then (if n then 2 else 5)
    else (if n then 1 else 6)

/-- SAT on a floating-point result (Table 4.5): clamped to [+0, +1], NaN and -0 give +0. -/
def clamp01 (f : Fmt) (x : Nat) : Nat :=
  match f.decode x with
  | .nan .. => 0
  | .inf n => if n then 0 else f.bias * 2 ^ f.fb
  | .fin n m _ => if n || m = 0 then 0 else if f.bias * 2 ^ f.fb ≤ x then f.bias * 2 ^ f.fb else x

/-! ## Compares (R189, Table 8.5) -/

def fCmp (p : FpEnv) (f : Fmt) (c : FCond) (x y : Nat) : Bool × Flags :=
  let (x, i) := p.input f x
  let (y, j) := p.input f y
  let a := f.decode x
  let b := f.decode y
  let uno := a.isNan || b.isNan
  let d := cmpF a b
  let sig := a.isSig || b.isSig
  let nv := (match c with
    | .lt | .le | .gt | .ge => uno
    | _ => sig)
  let r := (match c with
    | .eq => !uno && decide (d = 0)
    | .ne => !uno && decide (d ≠ 0)
    | .lt => !uno && decide (d < 0)
    | .le => !uno && decide (d ≤ 0)
    | .gt => !uno && decide (0 < d)
    | .ge => !uno && decide (0 ≤ d)
    | .ord => !uno
    | .uno => uno
    | .equ => uno || decide (d = 0)
    | .neu => uno || decide (d ≠ 0)
    | .ltu => uno || decide (d < 0)
    | .leu => uno || decide (d ≤ 0)
    | .gtu => uno || decide (0 < d)
    | .geu => uno || decide (0 ≤ d))
  (r, i ||| j ||| (if nv then flNV else 0))

/-! ## Conversions (R96, R97, R193 to R195) -/

def intMin (n : Nat) (signed : Bool) : Int := if signed then -(2 ^ (n - 1) : Int) else 0
def intMax (n : Nat) (signed : Bool) : Int := if signed then 2 ^ (n - 1) - 1 else 2 ^ n - 1
def clampInt (n : Nat) (signed : Bool) (x : Int) : Int :=
  if x < intMin n signed then intMin n signed else if intMax n signed < x then intMax n signed else x
/-- The bit pattern of an integer modulo 2^n. -/
def wrapInt (n : Nat) (x : Int) : Nat := (x % (2 ^ n : Int)).toNat
/-- The integer that `n` bits hold. -/
def intOf (n : Nat) (signed : Bool) (x : Nat) : Int :=
  let x := x % 2 ^ n
  if signed && 2 ^ (n - 1) ≤ x then (x : Int) - 2 ^ n else x

/-- Float to float (R193, Table 4.6). -/
def cvtFF (p : FpEnv) (src dst : Fmt) (sat : Bool) (x : Nat) : Nat × Flags :=
  let (x, i) := p.input src x
  let narrow := dst.kind == .e4m3 || dst.kind == .e5m2
  let r : Nat × Flags :=
    match src.decode x with
    | .nan n fr s =>
      if dst.kind == .e2m1 then (0, flNV) else (nanResult p src dst [.nan n fr s], if s then flNV else 0)
    | .inf n =>
      if dst.kind == .e2m1 then (dst.sign n 7, flNV)
      else if narrow && sat then (dst.sign n dst.maxCode, 0)
      else if dst.kind == .e4m3 then (dst.sign n 0x7F, flNV)
      else (dst.infinity n, 0)
    | .fin n m e =>
      let r := finish p dst n ⟨m, e, false⟩
      if narrow && sat && r.2 &&& flOF != 0 then (dst.sign n dst.maxCode, r.2) else r
  let v := if sat && dst.kind == .ieee then clamp01 dst r.1 else r.1
  (v, r.2 ||| i)

/-- Float to integer (R97). Where R97 has NV alone, a consumed subnormal input (R93) sets ID with it: the model's choice (log entry 74). -/
def cvtFI (p : FpEnv) (src : Fmt) (n : Nat) (signed : Bool) (x : Nat) : Nat × Flags :=
  let (x, i) := p.input src x
  match src.decode x with
  | .nan .. => (0, i ||| flNV)
  | .inf neg => (wrapInt n (if neg then intMin n signed else intMax n signed), i ||| flNV)
  | .fin neg m e =>
    let (k, ix) := (Mag.mk m e false).roundAt p.rm neg 0
    let v := signedOf neg k
    if v < intMin n signed then (wrapInt n (intMin n signed), i ||| flNV)
    else if intMax n signed < v then (wrapInt n (intMax n signed), i ||| flNV)
    else (wrapInt n v, i ||| (if ix then flNX else 0))

/-- Integer to float (R97). -/
def cvtIF (p : FpEnv) (n : Nat) (signed : Bool) (dst : Fmt) (sat : Bool) (x : Nat) : Nat × Flags :=
  let v := intOf n signed x
  let r := finish p dst (v < 0) ⟨v.natAbs, 0, false⟩
  let narrow := dst.kind == .e4m3 || dst.kind == .e5m2
  if narrow && sat && r.2 &&& flOF != 0 then (dst.sign (v < 0) dst.maxCode, r.2)
  else if sat && dst.kind == .ieee then (clamp01 dst r.1, r.2) else r

/-- f32 to E8M0 (Table 8.11 SUB 0). -/
def toE8 (p : FpEnv) (x : Nat) : Nat × Flags :=
  let (x, i) := p.input fp32 x
  match fp32.decode x with
  | .nan _ _ s => (0xFF, i ||| (if s then flNV else 0))
  | .inf _ => (0xFF, i ||| flNV)
  | .fin neg m e =>
    if m = 0 then (0, i ||| flUF ||| flNX)
    else if neg then (0xFF, i ||| flNV)
    else
      let top := e + Nat.log2 m
      let (k, ix) := (Mag.mk m e false).roundAt p.rm false top
      let ex := if k = 2 then top + 1 else top
      let nx := if ix then flNX else 0
      if ex < -127 then (0, i ||| flNX ||| flUF)
      else if 127 < ex then (0xFF, i ||| nx ||| flOF)
      else ((ex + 127).toNat, i ||| nx ||| (if top < -127 then flUF else 0))

/-- f32 to S24 (Table 8.11 SUB 1). -/
def toS24 (p : FpEnv) (x : Nat) : Nat × Flags :=
  let (x, i) := p.input fp32 x
  match fp32.decode x with
  | .nan _ _ s => (0xFF0000, i ||| (if s then flNV else 0))
  | .inf _ => (0xFF0000, i ||| flNV)
  | .fin neg m e =>
    if m = 0 then (0, i)
    else if neg then (0xFF0000, i ||| flNV)
    else
      let top := e + Nat.log2 m
      if top < -126 then (0, i ||| flUF ||| flNX)
      else
        let (k, ix) := (Mag.mk m e false).roundAt p.rm false (top - 16)
        let (k, top) := if k = 2 ^ 17 then (2 ^ 16, top + 1) else (k, top)
        if 127 < top then (0xFEFFFF, i ||| flOF ||| flNX)
        else ((top + 127).toNat * 65536 + (k - 65536), i ||| (if ix then flNX else 0))

/-- E8M0 to f32 (R89, Table 8.11 SUB 2). -/
def fromE8 (p : FpEnv) (x : Nat) : Nat × Flags :=
  let e := x % 256
  if e = 255 then (fp32.canonNan, 0) else finish p fp32 false ⟨1, (e : Int) - 127, false⟩

/-- S24 to f32 (R90, Table 8.11 SUB 3). -/
def fromS24 (x : Nat) : Nat × Flags :=
  let e := x / 65536 % 256
  let f := x % 65536
  if e = 255 then (fp32.canonNan, 0)
  else if e = 0 then (if f = 0 then (0, 0) else (fp32.canonNan, flNV))
  else (e * 2 ^ 23 + f * 2 ^ 7, 0)

end Sys2Proof.Machine
end

