-- ==== Sys2Proof/Machine/Operands.lean ====
section
/-! DEFINITION. Operand forms (06, R144 to R149): registers, specials, inline constants and source modifiers, as a lane reads them; register writes. -/

namespace Sys2Proof.Machine

/-! ## The issuing group -/

/-- What an instruction sees of its issuing group: the gang as it stands, the sub-gang, the PC and the bytes that hold the instruction, the active lanes and those whose guard holds (R29). -/
structure Env where
  g : Gang
  x : SubGang
  pc : Nat
  n : Nat
  w0 : Nat
  half : List Byte
  act : LaneMask
  on : LaneMask
  cox : Bool
  sup : Bool
  width : Nat
  nv : Nat
  ctx : Nat
  crew : Option Crew
  tick : Nat
deriving DecidableEq, Repr

def Env.core (e : Env) : GangCore := e.g.core
/-- The lanes that execute, lowest first. -/
def Env.lanes (e : Env) : List Nat := lanesOf e.on

/-! ## How a slot is read -/

/-- A 32- or 64-bit integer or untyped operand, a floating-point operand, a pair of packed 16-bit elements, a narrow integer, four packed bytes. -/
inductive Rd
  | w32
  | w64
  | flt (f : Fmt)
  | pk (f : Fmt)
  | int (n : Nat)
  | bytes
deriving DecidableEq, Repr

def Rd.wide : Rd → Bool
  | .w64 => true
  | .flt f => f.eb == 11
  | _ => false

/-- A value read, with its state (R64, R75). -/
structure Val where
  bits : Nat
  st : VSt
deriving DecidableEq, Repr

def joinSt (a b : VSt) : VSt :=
  if a = .expired ∨ b = .expired then .expired else if a = .poison ∨ b = .poison then .poison else .live

def Val.live (x : Nat) : Val := ⟨x, .live⟩

/-! ## Inline constants (R146) -/

/-- FP32 bits of the floating-point codes 0x3F0 to 0x3FF. -/
def constFp32 (k : Nat) : Nat :=
  [0x3F000000, 0xBF000000, 0x3F800000, 0xBF800000, 0x40000000, 0xC0000000, 0x40800000, 0xC0800000,
   0x3EA2F983, 0x3F317218, 0x3FB8AA3B, 0x40490FDB, 0x3E22F983, 0x7F800000, 0xFF800000, 0x80000000].getD k 0

/-- The irrational constants 1/π, ln 2, log2 e, π, 1/(2π), times 2^200 and rounded down. -/
def constReal (k : Nat) : Nat :=
  [511504265972482371356817160047419747232591328621101924753663,
   1113844574712631719546256151097547306333272293549090750737802,
   2318321547468254865173387471183990171487108758923299108729110,
   5048344754617993871973410141242436836214643421488662971535368,
   255752132986241185678408580023709873616295664310550962376831].getD k 0

/-- A floating-point code read as a format: the exact real rounded by roundTiesToEven; an infinity becomes the largest finite value where the format has none. -/
def constFlt (f : Fmt) (k : Nat) : Nat :=
  if 8 ≤ k && k < 13 then (finish fpPlain f false ⟨constReal (k - 8), -200, true⟩).1
  else
    match fp32.decode (constFp32 k) with
    | .inf n => if f.kind == .e4m3 || f.kind == .e2m1 then f.sign n f.maxCode else f.infinity n
    | .fin n m e => (finish fpPlain f n ⟨m, e, false⟩).1
    | .nan .. => f.canonNan

/-- The integer of codes 0x3C0 to 0x3EF. -/
def constInt (n : Nat) : Int := if n < 32 then n else -((n - 31 : Nat) : Int)

/-- An integer code read as a format, a value beyond the range giving the largest finite value. -/
def constIntFlt (f : Fmt) (n : Nat) : Nat :=
  let v := constInt n
  let r := finish fpPlain f (v < 0) ⟨v.natAbs, 0, false⟩
  if r.2 &&& flOF != 0 then f.sign (v < 0) f.maxCode else r.1

/-- Constant code 0x3C0 + n as an operand. -/
def constBits (rd : Rd) (n : Nat) : Nat :=
  match rd with
  | .flt f => if n < 48 then constIntFlt f n else constFlt f (n - 48)
  | .pk f => let x := if n < 48 then constIntFlt f n else constFlt f (n - 48); x * 2 ^ 16 + x
  | .w32 => if n < 48 then wrapInt 32 (constInt n) else constFp32 (n - 48)
  | .w64 => if n < 48 then wrapInt 64 (constInt n) else constFlt fp64 (n - 48)
  | .int w => if n < 48 then wrapInt w (constInt n) else constFp32 (n - 48) % 2 ^ w
  | .bytes => (if n < 48 then wrapInt 8 (constInt n) else constFp32 (n - 48) % 2 ^ 8) * 0x01010101

/-! ## Specials (R145, R41) -/

/-- Specials that differ across lanes. -/
def specialPerLane : Special → Bool
  | .lane | .tidX | .tidY | .tidZ => true
  | _ => false

/-- The value a cox core reads from a special of a crew or gang place (log entry 6). -/
def coxSpecialOf (k : Nat) : Nat := Config.coxSpecial k % 2 ^ 32

/-- The value of a special in a lane. In the crew of a task record %ncix reads CX, CY and CZ of its DESC (the model's choice, log entry 94: R274 has the descriptor's index space ignored). -/
def Env.special (e : Env) (l : Nat) (x : Special) : Nat :=
  match x with
  | .evslot => e.core.evslot.toNat
  | .amask => e.act.toNat
  | .tick => e.tick
  | .zero => 0
  | x =>
    match e.crew with
    | none =>
      match x with
      | .lane => 0 | .gang => coxSpecialOf 1 | .crew => coxSpecialOf 2 | .tidX => coxSpecialOf 3 | .tidY => coxSpecialOf 4
      | .tidZ => coxSpecialOf 5 | .cixX => coxSpecialOf 6 | .cixY => coxSpecialOf 7 | .cixZ => coxSpecialOf 8
      | .ncixX => coxSpecialOf 9 | .ncixY => coxSpecialOf 10 | .ncixZ => coxSpecialOf 11 | .ntidX => coxSpecialOf 12
      | .ntidY => coxSpecialOf 13 | .ntidZ => coxSpecialOf 14 | .ngang => coxSpecialOf 15 | .width => coxSpecialOf 16
      | .core => coxSpecialOf 17 | .quad => coxSpecialOf 18 | .die => coxSpecialOf 19 | .args => Config.coxSpecial 20 % 2 ^ 64
      | .tileX => coxSpecialOf 21 | .tileY => coxSpecialOf 22 | .tileZ => coxSpecialOf 23 | .accbase => coxSpecialOf 24
      | _ => coxSpecialOf 25
    | some c =>
      let d := c.desc
      let t := e.g.num * e.width + l
      match x with
      | .lane => l
      | .gang => e.g.num
      | .crew => c.num
      | .tidX => t % d.tx
      | .tidY => t / d.tx % d.ty
      | .tidZ => t / (d.tx * d.ty)
      | .cixX => c.num % d.cx
      | .cixY => c.num / d.cx % d.cy
      | .cixZ => c.num / (d.cx * d.cy)
      | .ncixX => d.cx
      | .ncixY => d.cy
      | .ncixZ => d.cz
      | .ntidX => d.tx
      | .ntidY => d.ty
      | .ntidZ => d.tz
      | .ngang => d.ng
      | .width => d.width
      | .core => coreCore c.coreIx
      | .quad => coreQuad c.coreIx
      | .die => coreDie c.coreIx
      | .args => c.args
      | .tileX => c.tile.1
      | .tileY => c.tile.2.1
      | .tileZ => c.tile.2.2
      | .accbase => c.accbase
      | .acclim => c.acclim
      | _ => 0

/-! ## Reading a slot -/

def GangCore.sreg (c : GangCore) (n : Nat) : Word64 := spGet 0 c.sregs n
def GangCore.setSreg (c : GangCore) (n : Nat) (x : Word64) : GangCore := { c with sregs := spPut 0 n x c.sregs }

/-- One register or a pair of a lane (R148). -/
def GangCore.vval (c : GangCore) (wide : Bool) (n l : Nat) : Val :=
  let a := c.reg n l
  if wide then let b := c.reg (n + 1) l; ⟨b.data.toNat * 2 ^ 32 + a.data.toNat, joinSt a.st b.st⟩
  else ⟨a.data.toNat, a.st⟩

/-- The value of a source operand in a lane. -/
def Env.src (e : Env) (rd : Rd) (l : Nat) (o : Src) : Val :=
  match o with
  | .v n => e.core.vval rd.wide n.val l
  | .s n => .live ((e.core.sreg n.val).toNat % (if rd.wide then 2 ^ 64 else 2 ^ 32))
  | .spec x => .live (e.special l x % (if rd.wide then 2 ^ 64 else 2 ^ 32))
  | .const n => .live (constBits rd n.val)

def Env.rsrc (e : Env) (rd : Rd) (l : Nat) (o : RSrc) : Val := e.src rd l o.src

/-- A uniform operand (R205), as a number. -/
def Env.uni (e : Env) (rd : Rd) (o : Src) : Nat := (e.src rd 0 o).bits

/-! ## Source modifiers (R149) -/

def segSize (seg : Fin 6) : Nat := 2 ^ (seg.val + 1)

/-- The lane whose register lane `l` reads. -/
def swizzleLane (z : Swizzle) (l : Nat) : Nat :=
  match z with
  | .none => l
  | .rot seg d => let s := segSize seg; let b := l - l % s; b + (l - b + d.val) % s
  | .swap _ d => l ^^^ d.val
  | .bcast seg d => l - l % segSize seg + d.val

/-- What NEG does, by operation group. -/
inductive NegK
  | int (n : Nat)
  | logic (n : Nat)
  | flt (f : Fmt)
  | pk (f : Fmt)
deriving DecidableEq, Repr

def NegK.apply (k : NegK) (x : Nat) : Nat :=
  match k with
  | .int n => (2 ^ n - x % 2 ^ n) % 2 ^ n
  | .logic n => 2 ^ n - 1 - x % 2 ^ n
  | .flt f => x ^^^ f.signBit
  | .pk f => x ^^^ (f.signBit * 2 ^ 16 + f.signBit)

/-- A modified source operand. -/
def Env.msrc (e : Env) (rd : Rd) (k : NegK) (l : Nat) (o : MSrc) : Val :=
  let x := e.src rd (swizzleLane o.swz l) o.src
  if o.neg then { x with bits := k.apply x.bits } else x

/-! ## Writing registers -/

/-- The 32-bit words of a result, lowest first. -/
def wordsOf (k : Nat) (x : Nat) (st : VSt) : List Cell := (List.range k).map (fun i => ⟨BitVec.ofNat 32 (x / 2 ^ (32 * i)), st⟩)

/-- Write consecutive registers from `r` in one lane. -/
def GangCore.writeWords (c : GangCore) (code tick : Nat) (r l : Nat) : List Cell → GangCore
  | [] => c
  | x :: xs => (c.writeReg code tick r l x).writeWords code tick (r + 1) l xs

/-- Kill registers `r` to `r` + k - 1 in the lanes of `m` (R72). -/
def GangCore.killRegs (c : GangCore) (m : LaneMask) (rs : List Nat) : GangCore :=
  rs.foldl (fun c r => (lanesOf m).foldl (fun c l => c.killReg r l) c) c

end Sys2Proof.Machine
end

