-- ==== Sys2Proof/Machine/Flags.lean ====
section
/-! DEFINITION. The flag computations: FPFLAGS (R93, R101), predicates and their pairs (R138, R177), guards (R135). -/

namespace Sys2Proof.Machine

def GangCore.pred (c : GangCore) (p : Nat) : LaneMask := c.preds.getD p 0

/-- Write predicate `p` in the lanes of `m` with the bits of `v`. -/
def GangCore.setPred (c : GangCore) (p : Nat) (m v : LaneMask) : GangCore :=
  { c with preds := setAt p ((c.pred p &&& ~~~m) ||| (v &&& m)) c.preds }

/-- A condition and its complement, written to p(2k) and p(2k+1) (R138). -/
def GangCore.setPredPair (c : GangCore) (k : Nat) (m v : LaneMask) : GangCore :=
  (c.setPred (2 * k) m v).setPred (2 * k + 1) m (~~~v)

/-- FPFLAGS only gains flags (R93). -/
def GangCore.orFlags (c : GangCore) (f : Flags) : GangCore := { c with fpflags := c.fpflags ||| f }

/-- The lanes in which a guard holds (R135). -/
def guardMask (g : Guard) (c : GangCore) : LaneMask :=
  match g with
  | .always => BitVec.allOnes 64
  | .p n => c.pred n.val

/-- The flags of the real element computations of a list (R101): those whose result is not POISON. -/
def joinFlags (l : List (VSt × Flags)) : Flags := l.foldl (fun f x => if x.1 = .poison then f else f ||| x.2) 0

/-- Carry-out of iaddc and isubb (R177): the exact result lies outside the type's range. -/
def carryOut (signed : Bool) (x : Int) : Bool := decide (x < intMin 32 signed) || decide (intMax 32 signed < x)

end Sys2Proof.Machine
end

