-- ==== Sys2Proof/Machine/Traps.lean ====
section
/-! DEFINITION. Taking an exception and aborting an explicit chunk: gang traps and their records (R313, R314), escapes handled by user code (R318), traps of cox cores (R316), eret (R317), explicit aborts (R119). -/

namespace Sys2Proof.Machine

/-- A trap that an instruction raises. -/
structure Trap where
  cause : Cause
  addr : Nat
  lane : Nat
  access : Nat
  info : Nat
  tval : Nat
deriving DecidableEq, Repr

/-- A trap with no address. -/
def Trap.plain (c : Cause) : Trap := ⟨c, 0, 0xFF, 0, 0, 0⟩
/-- A trap of an address (R314): the address of the lowest lane, that lane, and ACCESS. -/
def Trap.atAddr (c : Cause) (va lane access : Nat) : Trap := ⟨c, va, lane, access, 0, va⟩
def Trap.withInfo (c : Cause) (info : Nat) : Trap := ⟨c, 0, 0xFF, 0, info, 0⟩

def accRead : Nat := 1
def accWrite : Nat := 2
def accFetch : Nat := 4
def accAtomic : Nat := 11

/-- Where an instruction stands: its PC, its half-block, its word 0. -/
structure Site where
  pc : Nat
  half : List Byte
  w0 : Nat
deriving DecidableEq, Repr

/-- What SKIP adds (R320). -/
def skipOf (w0 : Nat) : Nat :=
  if formOf (bitsAt w0 2 8) == some .tr then 32
  else match w0 % 4 with | 0 => 4 | 1 => 8 | 2 => 12 | _ => 16

/-- The record of a gang trap (Table 14.10). -/
def gangRecord (s : State) (g : Gang) (st : Site) (t : Trap) (flags seq : Nat) (amask tmask : LaneMask) : List Byte :=
  recordBytes [(0, 1, t.cause), (1, 1, 1), (2, 2, flags), (8, 8, s.tokenOf g seq), (16, 8, st.pc), (24, 8, amask.toNat),
    (32, 8, tmask.toNat), (40, 8, t.addr), (48, 1, t.lane), (49, 1, t.access), (52, 4, t.info), (56, 16, ofBytesLE st.half),
    (72, 4, g.core.fpmode.toNat), (76, 4, g.core.fpflags.toNat), (80, 8, st.w0 / 2 ^ 10), (88, 8, s.tick)]

/-- A gang has passed a chunk end: old code bytes that an icinv left with it are gone (R134). -/
def State.endStale (s : State) (gid : Nat) : State :=
  if s.code.all (fun b => b.stale.isEmpty) then s
  else { s with code := (s.code.filter (fun b => b.stale != [gid])).map (fun b => { b with stale := b.stale.filter (· != gid) }) }

/-- A chunk with nothing in it ends: the token and the squash count go with it (R116, log entry 9), and so do blocks of the loop buffer that an icinv has discarded (R217). -/
def State.emptyCommit (s : State) (g : Gang) : State × Gang :=
  ((s.dropToken g.id).endStale g.id, { g with chunk := none, squashes := 0, token := .none, lbuf := g.lbuf.filter (fun b => !b.stale) })

/-- Hold the lanes of `m` of a sub-gang: they become a sub-gang of their own if others remain, with a family that ties both (R34), and a record is entered (R313, R249). -/
def State.holdLanes (s : State) (g : Gang) (x : SubGang) (m : LaneMask) (st : Site) (t : Trap) (flags : Nat) : State :=
  let seq := (g.seq + 1) % 2 ^ 20
  let rec' := gangRecord s g st t flags seq x.lanes m
  let h : Held := ⟨t.cause, seq, skipOf st.w0, true, .issue, rec'⟩
  let rest := x.lanes &&& ~~~m
  let parked : SubGang := ⟨m, BitVec.ofNat 64 st.pc, .held h, 0⟩
  let subs := g.core.subs.flatMap (fun y =>
    if y.lanes == x.lanes then (if rest = 0 then [parked] else [{ y with lanes := rest, waited := 0 }, parked]) else [y])
  let fams := if rest = 0 then g.core.fams else g.core.fams ++ [⟨rest, m⟩]
  (s.putGang { g with seq := seq, core := { g.core with subs := subs, fams := fams } }).addRecord 0 rec'

def backOf (w : Wait) : Back :=
  match w with
  | .join m n => .join m n
  | .loopEnd n => .loopEnd n
  | .coll n => .coll n
  | .bar k => .bar k
  | .stall (.fence x n) => .fence x n
  | _ => .issue

/-- UNCORRECTABLE holds every live lane of the gang (R313); a group already held keeps its own record, and one that waits on a semaphore leaves its FIFO. -/
def State.holdAll (s : State) (g : Gang) (x : SubGang) (st : Site) (t : Trap) (flags : Nat) : State :=
  let s := s.leaveFifos (fun w => match w with | .group n _ => n == g.id | .queue _ => false)
  let seq := (g.seq + 1) % 2 ^ 20
  let rec' := gangRecord s g st t flags seq x.lanes g.core.liveLanes
  let subs := g.core.subs.map (fun y => match y.wait with
    | .held _ => y
    | w => { y with wait := .held ⟨t.cause, seq, skipOf st.w0, y.lanes == x.lanes, backOf w, rec'⟩, waited := 0 })
  (s.putGang { g with seq := seq, record := .sound, core := { g.core with subs := subs } }).addRecord 0 rec'

/-- A trap of a cox core (R316). -/
def State.coxTrap (s : State) (g : Gang) (st : Site) (t : Trap) : State :=
  let c := s.coxOf g.id
  if c.sstatus.getLsbD 4 && c.sstatus.getLsbD 0 then
    { s.setCox g.id { c with stopped := true } with doubleTraps := s.doubleTraps ++ [g.id] }
  else
    let acc := bitsAt t.access 0 3
    let c' := { c with
      sepc := BitVec.ofNat 64 st.pc, scause := BitVec.ofNat 64 (acc * 2 ^ 8 + t.cause), stval := BitVec.ofNat 64 t.tval,
      sinsn0 := BitVec.ofNat 64 (ofBytesLE (st.half.take 8)), sinsn1 := BitVec.ofNat 64 (ofBytesLE (st.half.drop 8)),
      sstatus := BitVec.ofNat 64 (16 + (if c.sstatus.getLsbD 0 then 4 else 0) + 1) }
    (s.setCox g.id c').putGang { g with record := .sound, core := { g.core with
      subs := g.core.subs.map (fun y => { y with pc := c.stvec, wait := .ready, waited := 0 }) } }

/-- ESCAPE to the handler of UEVEC (R318): the EF registers are the first effect of the chunk that opens at the escape. -/
def State.userEscape (s : State) (g : Gang) (x : SubGang) (st : Site) : State :=
  let ef := [BitVec.ofNat 64 st.pc, BitVec.ofNat 64 (ofBytesLE (st.half.take 8)), BitVec.ofNat 64 (ofBytesLE (st.half.drop 8)),
    x.lanes, BitVec.ofNat 64 (2 * 2 ^ 32 + g.core.fpmode.toNat), BitVec.ofNat 64 (st.w0 / 2 ^ 10)]
  let core := { g.core with ef := ef }.mapSub x.lanes (fun y => { y with pc := g.core.uevec &&& ~~~3, waited := 0 })
  let core := (core.arriveEnds x.lanes).settle
  s.putGang { g with core := core, chunk := some { g.openChunk with count := g.openChunk.count + 1 } }

/-- Take a trap at an instruction boundary with no chunk open: THE exception entry of the model (R313, R316, R318). -/
def State.takeTrap (s : State) (g : Gang) (x : SubGang) (st : Site) (t : Trap) : State :=
  if g.isCox then let r := s.emptyCommit g; r.1.coxTrap r.2 st t
  else if t.cause = cEscape && g.core.uevec.getLsbD 0 then s.userEscape g x st
  else
    let r := s.emptyCommit g
    if t.cause = cUncorrectable then r.1.holdAll r.2 x st { t with addr := 0, lane := 0xFF } 0
    else r.1.holdLanes r.2 x x.lanes st t 0

/-- The return from a cox core's trap (R317). The PC check is the caller's. -/
def Cox.ret (c : Cox) : Cox :=
  { c with sstatus := BitVec.ofNat 64 ((if c.sstatus.getLsbD 2 then 5 else 0)) }

/-! ## Explicit chunks -/

/-- A gang's explicit chunk undone to the state before its chk.begin. -/
def State.undoExplicit (s : State) (g : Gang) (c : Chunk) (e : Expl) : Gang :=
  let core := { e.before with evpend := squashPend c g.core.evpend }
  let core := s.reeval c.rebound core
  let core := (core.expireRegs (s.regCode g) s.tick).expireSpaces (s.thrCode g) s.tick
  { g with core := core, chunk := none }

/-- The status word of Table 5.4. -/
def statusWord (off user cause status : Nat) : Word64 :=
  BitVec.ofNat 64 (off % 2 ^ 32 * 2 ^ 32 + user % 2 ^ 16 * 2 ^ 16 + cause * 2 ^ 8 + status)

/-- Abort an explicit chunk (R119): its effects are discarded, the status word is written, the members resume at the fallback. -/
def State.abortExplicit (s : State) (g : Gang) (c : Chunk) (e : Expl) (pc user cause status : Nat) : State :=
  let g1 := s.undoExplicit g c e
  let r := s.emptyCommit g1
  let off := (pc + 2 ^ 64 - e.pc.toNat) % 2 ^ 64
  let core := (r.2.core.setSreg e.status.val (statusWord off user cause status)).mapSub e.members
    (fun y => { y with pc := e.fallback, wait := .ready, waited := 0 })
  r.1.putGang { r.2 with core := (core.arriveEnds e.members).settle }

/-- UNCORRECTABLE inside an explicit chunk (R119): nothing commits, every live lane is held at the chk.begin, INFO holds the offset. ADDR and LANE describe the faulting access where there is one, as R119 says of this record, although Table 14.10 fills them for address causes alone (the model's choice, log entry 96). A cox core takes the trap itself, at its chk.begin (R10, R316; log entry 69). -/
def State.uncorrectableExplicit (s : State) (g : Gang) (c : Chunk) (e : Expl) (pc : Nat) (t : Trap) : State :=
  let g1 := s.undoExplicit g c e
  let r := s.emptyCommit g1
  let b := e.pc.toNat
  let st : Site := ⟨b, (e.block.drop (b % 32 / 16 * 16)).take 16, ofBytesLE ((e.block.drop (b % 32)).take 8)⟩
  let x : SubGang := (r.2.core.subs.find? (fun y => y.lanes == e.members)).getD ⟨e.members, e.pc, .ready, 0⟩
  if g.isCox then r.1.coxTrap r.2 st t
  else r.1.holdAll r.2 x st { t with info := (pc + 2 ^ 64 - b) % 2 ^ 32 } 2

/-- Codes of Table 5.3. -/
def stReadCap : Nat := 1
def stWriteCap : Nat := 2
def stLength : Nat := 3
def stUnsupported : Nat := 4
def stSoftware : Nat := 5
def stFault : Nat := 6
def stRange : Nat := 7
def stGuard : Nat := 8
def stDiverge : Nat := 9

/-- A condition of Table 5.3 that an instruction meets: status, user code, cause. -/
structure Abort where
  status : Nat
  user : Nat
  cause : Nat
deriving DecidableEq, Repr

/-- The condition with the lowest code (R119). -/
def lowestAbort : List Abort → Option Abort
  | [] => none
  | a :: r => match lowestAbort r with
    | none => some a
    | some b => some (if b.status < a.status then b else a)

/-- The condition that a trap is; UNCORRECTABLE is none. -/
def Trap.aborts (t : Trap) : List Abort :=
  if t.cause = cUncorrectable then [] else if t.cause = cOperandRange then [⟨stRange, 0, 0⟩] else [⟨stFault, 0, t.cause⟩]

/-- A 257th counted instruction would issue. -/
def Chunk.lengthAborts (c : Chunk) : List Abort := if 256 ≤ c.count then [⟨stLength, 0, 0⟩] else []

/-- Whether the instruction at a site is guarded off in every active lane of its group, as word 0 says; one whose bytes were not fetched is not. -/
def Site.guardedOff (st : Site) (c : GangCore) (act : LaneMask) : Bool :=
  !st.half.isEmpty && (match fGuard.dec (bitsAt st.w0 10 4) with | some g => act &&& guardMask g c == 0 | none => false)

/-- A trap of an instruction, wherever it strikes; an instruction guarded off is not counted (R111, R155): inside an explicit chunk it aborts it (or is UNCORRECTABLE); in an implicit chunk that holds instructions the chunk ends first and the trap is taken when the instruction is issued again (R10, Table 5.1); else it is taken. -/
def State.raise (s : State) (g : Gang) (x : SubGang) (st : Site) (t : Trap) : State :=
  match g.chunk with
  | none => s.takeTrap g x st t
  | some c =>
    match c.expl with
    | some e =>
      (match lowestAbort ((if st.guardedOff g.core x.lanes then [] else c.lengthAborts) ++ t.aborts) with
       | some a => s.abortExplicit g c e st.pc a.user a.cause a.status
       | none => s.uncorrectableExplicit g c e st.pc t)
    | none =>
      if c.count = 0 then s.takeTrap { g with chunk := none } x st t
      else s.putGang { g with chunk := some { c with closed := true } }

end Sys2Proof.Machine
end

