-- ==== Sys2Proof/Machine/Commit.lean ====
section
/-! DEFINITION. The stroke's commit of a chunk (R112, R113), the release of its deferred effects (R121), and what follows from both: exits, barriers, events. -/

namespace Sys2Proof.Machine

/-! ## Atomic operations (R251, R253) -/

def atomBits : AtomTy → Nat | .i64 | .n64 => 64 | _ => 32
def atomSigned : AtomTy → Bool | .i32 | .i64 => true | _ => false

/-- The new value of one read-modify-write (Table 10.3); none where nothing is written. -/
def atomApply (ty : AtomTy) (op : AtomOp) (old b c : Nat) : Option Nat :=
  let n := atomBits ty
  match op with
  | .exch => some (b % 2 ^ n)
  | .cas => if old = b % 2 ^ n then some (c % 2 ^ n) else none
  | .add => some (if ty = .f32 then (fAdd fpPlain fp32 old b).1 else intRed n (atomSigned ty) .add old (b % 2 ^ n))
  | .min => some (intRed n (atomSigned ty) .min old (b % 2 ^ n))
  | .max => some (intRed n (atomSigned ty) .max old (b % 2 ^ n))
  | .and => some (intRed n false .and old (b % 2 ^ n))
  | .or => some (intRed n false .or old (b % 2 ^ n))
  | .xor => some (intRed n false .xor old (b % 2 ^ n))

/-- redg: as the atomics, with minimumNumber and maximumNumber for f32 (R253). -/
def redApply (ty : AtomTy) (op : RedOp) (old b : Nat) : Nat :=
  let n := atomBits ty
  if ty = .f32 then
    match op with
    | .min => (fMinMax fpPlain fp32 false old b).1
    | .max => (fMinMax fpPlain fp32 true old b).1
    | _ => (fAdd fpPlain fp32 old b).1
  else intRed n (atomSigned ty) op old (b % 2 ^ n)

/-- Memory-side reductions, in lane order: a poisoned line stays poisoned and the result is discarded (R253). -/
def State.applyRedg (s : State) : List RedgOp → State
  | [] => s
  | x :: r =>
    let n := atomBits x.ty / 8
    let s := if s.linePoisoned x.la then s else s.store x.la (bytesLE n (redApply x.ty x.op (s.loadNat x.la n) x.b.toNat))
    s.applyRedg r

/-! ## Base dies (R394) -/

/-- Path class of a command (Table 5.6). -/
def CmdKind.cls : CmdKind → Nat
  | .lin .. | .ten .. | .enc .. | .dec .. => 1
  | .gat .. | .sct .. => 2
  | _ => 4

def CmdKind.output : CmdKind → Option Nat
  | .nmr _ a .. | .nmrShaped _ a .. => some a
  | _ => none

/-- The lanes of a waiting redg. -/
def CmdKind.redgs : CmdKind → List RedgOp | .redg ops => ops | _ => []

/-- A base die: die and stack. -/
abbrev BaseDie := Nat × Nat

def baseAt (la : Nat) : BaseDie := (la / 2 ^ 37 % 4, la / 2 ^ 36 % 2)

/-- The base die of a command of class 4: that of the output's page, the releasing die's first if that page has none; of a redg that of its first lane. -/
def State.baseOf (s : State) (c : Cmd) : BaseDie :=
  match c.kind with
  | .redg (x :: _) => baseAt x.la
  | k =>
    match k.output with
    | none => (c.die, 0)
    | some a =>
      match walk s c.ctx a with
      | .ok w => baseAt (frameToLoc w.leaf (peFrame w.leaf + a % levelSize w.level))
      | .error _ => (c.die, 0)

/-- Whether a command stands at a base die: a redg at those of all its lanes still to be performed. -/
def State.standsAt (s : State) (b : BaseDie) (c : Cmd) : Bool :=
  c.kind.cls == 4 && (match c.kind with | .redg ops => ops.any (fun x => baseAt x.la == b) | _ => s.baseOf c == b)

/-- Whether a base die takes one more command behind those of `l` (R394). -/
def State.roomAt (s : State) (b : BaseDie) (l : List Cmd) : Bool :=
  let l := l.filter (fun d => d.kind.cls == 4)
  l.length < 64 || (l.filter (s.standsAt b)).length < 64

/-- Commands released before one: the list of commands is in the order of their release. -/
def State.releasedBefore (s : State) (c : Cmd) : List Cmd := s.cmds.takeWhile (fun d => d.id != c.id)

/-- Whether a command's base die has taken it. -/
def State.baseTakes (s : State) (c : Cmd) : Bool := c.kind.cls != 4 || s.roomAt (s.baseOf c) (s.releasedBefore c)

/-! ## Release (Table 5.5) -/

/-- Whether a command has no data piece (R263). -/
def CmdKind.noData : CmdKind → Bool
  | .lin _ _ n _ _ => n == 0
  | .ten _ _ n _ _ _ _ _ _ => n == 0
  | .gat _ _ _ n _ _ _ => n == 0
  | .sct _ _ _ n _ _ _ => n == 0
  | .enc _ _ n _ => n == 0
  | .dec _ _ n => n == 0
  | .nmr _ _ _ _ n _ _ _ => n == 0
  | .nmrShaped _ _ _ _ q0 _ q2 _ => bitsAt q0 0 16 * bitsAt q0 16 15 * bitsAt q2 24 7 == 0
  | .flush | .redg _ => false

/-- Semaphore name fields (Table 9.12). -/
def semSpace (n : Nat) : Nat := bitsAt n 30 2
def semPkg (n : Nat) : Nat := bitsAt n 14 10
def semIndex (n : Nat) : Nat := bitsAt n 0 14

/-- The package's own number (R413), 10 bits. -/
def State.pkgNo (s : State) : Nat := s.pkg.toNat % 1024

/-- A gang's name in what the pod transport carries. -/
def State.podName (s : State) (gid : Nat) : Nat := s.pkgNo * 2 ^ 64 + gid

/-- A MEMSIDE redg is performed at the commit point (Table 5.5); lanes whose base die is full wait there, and the redg stays counted in ST (R394). -/
def State.releaseRedg (s : State) (c : Cmd) : State :=
  let ops := c.kind.redgs
  let later := ops.filter (fun x => !s.roomAt (baseAt x.la) s.cmds)
  let s := s.applyRedg (ops.filter (fun x => s.roomAt (baseAt x.la) s.cmds))
  if later.isEmpty then s
  else { s with cmds := s.cmds ++ [{ c with kind := .redg later }] }.mapGang c.gang (fun g => g.mapBoth (fun k => { k with st := k.st + 1 }))

def State.release (s : State) (g : Gang) (d : Deferred) : State :=
  match d with
  | .cmd c =>
    let (die, s) := if g.isCox then s.choose 4 else (c.die, s)
    let (k, s) := s.choose (s.fuses.ceng.getD die 24)
    let s := { s with cmds := s.cmds ++ [{ c with die := die, engine := k }] }
    if c.kind.noData then s.addDue (.commandCompletion c.id) else s
  | .req r => { s with reqs := s.reqs ++ [r] }
  | .redg c => s.releaseRedg c
  | .cmpSet _ _ la v => (s.store la (bytesLE 8 v.toNat)).latchComp la
  | .post m x => s.mboxAdd m x
  | .signal name amount =>
    if semSpace name = 2 && semPkg name != s.pkgNo then
      { s with podOut := s.podOut ++ [.signal (semPkg name) name amount (s.ctxOf g)] }
    else if semSpace name = 0 then
      match s.crewOf g with
      | some c => s.semSignal (c.sems.getD (semIndex name) 0) amount
      | none => s
    else s.semSignal (semIndex name) amount
  | .arrive k =>
    let s := s.barArrive k g.id
    if k.scope = .pod then
      match s.crewOf g with
      | some c => { s with podOut := s.podOut ++ [.arrival c.desc.podjob k.slot (s.podName g.id) false] }
      | none => s
    else s
  | .launch d a ctx tested =>
    if d.tq / 128 = 1 then s.enqueue (d.tq % 64) (.launch d a ctx tested) else s.takeItem d ctx none none a tested
  | .task q r => s.enqueue q (.task r)

/-! ## Exits (R40, R45, R209, R210) -/

def Gang.exited (g : Gang) : Bool := g.core.subs.isEmpty && g.between
def GangCore.countsZero (c : GangCore) : Bool := c.ld == 0 && c.st == 0 && c.cp == 0 && c.tl == 0

/-- Whether every gang of a crew has exited (R39). -/
def State.crewExited (s : State) (c : Crew) : Bool :=
  c.gangs.all (fun i => match s.gang? i with | some g => g.exited | none => true)

/-- The gangs of a crew whose fault mask is nonzero, in increasing %gang. -/
def State.faulted (s : State) (c : Crew) : List Gang := (c.gangs.filterMap s.gang?).filter (fun g => g.core.fmask != 0)

/-- The records of kind 0x03, the last with LAST = 1 (R373). -/
def State.exitRecordsOf (s : State) (c : Crew) : List Gang → State
  | [] => s
  | g :: r =>
    (s.kindRecord 0x03 cOperandRange (if r.isEmpty then 1 else 0) c.ctx (s.tokenOf g 0) 0 g.core.fmask.toNat (c.num % 2 ^ 32 + g.num * 2 ^ 32) 0 (c.id + 1)).exitRecordsOf c r

/-- When the last gang of a crew exits, its fault masks are reported, whatever its commands still do (R39, R80). -/
def State.crewExit (s : State) (c : Crew) : State :=
  if c.exitRecords || !s.crewExited c then s
  else (s.exitRecordsOf c (s.faulted c)).mapCrew c.id (fun k => { k with exitRecords := true })

/-- Whether a crew may be released (R210). -/
def State.crewDone (s : State) (c : Crew) : Bool :=
  c.gangs.all (fun i => match s.gang? i with | some g => g.exited && g.core.countsZero | none => true)

/-- The release of a crew follows once nothing is left to wait for. -/
def State.checkCrew (s : State) (cid : Nat) : State :=
  match s.crew? cid with
  | some c => if s.crewDone c && !s.due.contains (.crewRelease cid) then s.addDue (.crewRelease cid) else s
  | none => s

/-- A gang with no live thread exits: it counts at every slot of its crew from now on, in every package of a pod-wide job (R45, R402). -/
def State.gangExit (s : State) (gid : Nat) : State :=
  match s.gang? gid with
  | none => s
  | some g =>
    match s.crewOf g with
    | none => s
    | some c =>
      let ks := s.barsOf c
      let s := ks.foldl (fun s k => s.barGone k gid) s
      let pods := ks.filter (fun k => k.scope = .pod)
      let s := { s with podOut := s.podOut ++ pods.map (fun (k : BarKey) => PodOut.arrival c.desc.podjob k.slot (s.podName gid) true) }
      (s.crewExit c).checkCrew c.id

/-! ## After a chunk has ended -/

/-- A gang just parked in waitany re-evaluates its re-armed slots and takes its first test (R235). -/
def State.rearm (s : State) (g : Gang) : Gang :=
  g.mapCore (fun c => { s.reeval c.rearm c with rearm := 0 })

/-- The bytes of the half-block at a PC, as a fetch reads them now. -/
def State.halfAt (s : State) (g : Gang) (pc : Nat) : List Byte :=
  match (s.xlat (s.ctxOf g) (s.supOf g) .fetch .lane (pc / 16 * 16)).1 with
  | .ok l => memRead s.mem l.la 16
  | .error _ => List.replicate 16 0

/-- R38: no live lane of the gang can proceed. -/
def State.stuckTrap (s : State) (gid : Nat) : State :=
  match s.gang? gid with
  | none => s
  | some g =>
    if g.between && g.core.stuck then
      match g.core.lastArrived with
      | none => s
      | some x =>
        let pc := x.pc.toNat
        let half := s.halfAt g pc
        let w0 := ofBytesLE ((half.drop (pc % 16)).take 8)
        s.takeTrap g x ⟨pc, half, w0⟩ (Trap.plain cCollectiveSplit)
    else s

/-- A group that waits at a barrier takes its test (R224). -/
def State.barMeet (s : State) (g : Gang) (x : SubGang) : Gang := match x.wait with | .bar k => s.barPass k g | _ => g

/-- What a gang does once its chunk has committed: barrier waits and waitany are tested (R224, R235), a stuck gang traps (R38), a gang with no live thread exits (R209). -/
def State.afterCommit (s : State) (gid : Nat) : State :=
  match s.gang? gid with
  | none => s
  | some g =>
    let g1 := g.core.subs.foldl s.barMeet g
    let s := s.putGang g1
    let s := if g1.core.waitsEvents then (s.putGang (s.rearm g1)).addDue (.eventDelivery gid) else s
    if g1.core.subs.isEmpty then s.gangExit gid else s.stuckTrap gid

/-! ## Commit -/

/-- Lines a commit counts as local and remote to the gang's die (R363). -/
def Chunk.globals (c : Chunk) : List Nat :=
  (c.rset ++ c.wset ++ c.qset).foldl (fun l x => match x with | .glob n => addNew n l | _ => l) []

def State.countLines (s : State) (g : Gang) (c : Chunk) : State :=
  if g.isCox then s
  else
    let d := s.dieOf g
    let ls := c.globals
    let loc := (ls.filter (fun n => n * 64 / 2 ^ 37 == d)).length
    { s with lreq := setAt d (s.lreq.getD d 0 + BitVec.ofNat 64 loc) s.lreq,
             rreq := setAt d (s.rreq.getD d 0 + BitVec.ofNat 64 (ls.length - loc)) s.rreq }

/-- A crew with the held changes of a chunk applied. -/
def State.applyOps (s : State) (die : Nat) (c : Chunk) (k : Crew) : Crew :=
  c.ops.foldl (fun k o => k.applyOp (s.codeApplied die) s.tick (s.crewUsers k.id) o) k

/-- Whether a block that the chunk allocated meets one that commands released meanwhile keep in use beyond its free (R256): the chunk then runs again, and allocates elsewhere (log entry 70). -/
def State.allocClash (s : State) (g : Gang) (c : Chunk) : Bool :=
  match s.crewOf g with
  | none => false
  | some k =>
    let t := s.applyOps (s.dieOf g) c k
    c.ops.any (fun o => match o with | .alloc .. => true | _ => false) &&
      t.allocs.any (fun a => a.size != 0 && t.freed.any (fun f => decide (a.start < f.block.start + f.block.size) && decide (f.block.start < a.start + a.size)))

/-- The stores and held changes of a chunk take effect. -/
def State.applyChunk (s : State) (g : Gang) (c : Chunk) : State :=
  let die := s.dieOf g
  let s := match g.crew with
    | some cid => s.mapCrew cid (s.applyOps die c)
    | none => s
  let s := (s.applyGlobal c.gst).applyCrews c.cst
  let code := s.thrCode g
  s.putGang (g.mapCore (fun k => { k.applyThr code s.tick c.tst with st := k.st - c.stores }))

/-- Release deferred effects in their order, but for the last `later`, which the gang releases in later steps, before it issues again (R121; log entry 95). With the last of them the gang goes on from its commit. -/
def State.releaseSome (s : State) (g : Gang) (l : List Deferred) (later : Nat) : State :=
  let n := l.length - later
  match l.drop n with
  | [] => (l.foldl (fun s d => s.release g d) s).afterCommit g.id
  | d :: r => (l.take n).foldl (fun s d => s.release g d) (s.mapGang g.id (fun g => { g with releases := d :: r }))

/-- A gang releases deferred effects that its commit has left. -/
def State.releaseMore (s : State) (g : Gang) (later : Nat) : State :=
  (s.putGang { g with releases := [] }).releaseSome { g with releases := [] } g.releases later

/-- The commit point of a chunk that nothing of the token's holder forbids; `more` are open chunks that the signatures report falsely (R113), the holder's among them being passed over (the model's choice, log entry 22). Its deferred effects but the last `later` are released in this step. -/
def State.commitNow (s : State) (g : Gang) (c : Chunk) (more : List Nat) (later : Nat) : State :=
  let vs := s.victims (some g.id) c.wset c.qset
  let extra := (more.filter (fun v => !vs.contains v && v != g.id && s.tokenHolder != some v)).eraseDups
  let s := s.squashAll (vs ++ extra)
  let s := (if g.isCox then s else s.count (ctrCommit (s.dieOf g) g.squashes) 1).countLines g c
  let r := s.emptyCommit g
  let s := r.1.applyChunk r.2 c
  s.releaseSome r.2 c.defer later

/-- The stroke takes a closed chunk: it commits, or it is squashed because it would strike the holder of the token (R116) or has allocated bytes that are still in use (R256). -/
def State.commitChunk (s : State) (gid : Nat) (more : List Nat) (later : Nat) : State :=
  match s.gang? gid with
  | none => s
  | some g =>
    match g.chunk with
    | none => s
    | some c => if s.holderHit (some gid) c.wset c.qset || s.allocClash g c then s.squash gid else s.commitNow g c more later

end Sys2Proof.Machine
end

