-- ==== Sys2Proof/Machine/Issue.lean ====
section
/-! DEFINITION. The issue of one instruction by a group: guards (R29), register checks (R154 step 8), collectives (R46), chunk ends (R110, R119), interlocks, marks (R72), next PCs (R31, R133, R214). Every encoded instruction's meaning is one use of `issue`. -/

namespace Sys2Proof.Machine

/-! ## Slots as the register checks see them (R147, R148, R205) -/

inductive Use
  /-- a source that may be a vector register of `w` words -/
  | src (slot : Nat) (o : Src) (w : Nat)
  /-- a source that may be a vector register whatever the destination -/
  | red (slot : Nat) (o : Src) (w : Nat)
  /-- a uniform operand -/
  | uni (slot : Nat) (o : Src)
  /-- a scalar register, only -/
  | sreg (slot : Nat) (o : Src)
  /-- an even scalar register below s127 -/
  | spair (slot : Nat) (o : Src)
  /-- a vector register of `w` words, only -/
  | vec (slot : Nat) (o : Src) (w : Nat)
  /-- a destination, vector or scalar -/
  | dst (o : Dst) (w : Nat)
  | dstV (o : Dst) (w : Nat)
  | dstS (o : Dst)
  /-- the pair s(n), s(n+1) with n even -/
  | dstPair (o : Dst)
  /-- a tile register (R58) -/
  | tile (slot : Nat) (m : Nat)
deriving DecidableEq, Repr

def Use.slot : Use → Nat
  | .src k _ _ | .red k _ _ | .uni k _ | .sreg k _ | .spair k _ | .vec k _ _ | .tile k _ => k
  | _ => 0

def Use.code : Use → Nat
  | .src _ o _ | .red _ o _ | .uni _ o | .sreg _ o | .spair _ o | .vec _ o _ => fSrc.enc o
  | .dst o _ | .dstV o _ | .dstS o | .dstPair o => fDst.enc o
  | .tile _ m => m

/-- A vector register of `w` words: aligned, and below the declared count; none on a cox core (R58, R148, R153). -/
def Env.vecOk (e : Env) (n w : Nat) : Bool := !e.cox && n % w == 0 && n + w ≤ e.nv

def perGang (o : Src) : Bool :=
  match o with
  | .v _ => false
  | .spec x => !specialPerLane x
  | _ => true

/-- Whether a slot passes step 8 of R154. `scalar` says that the destination is a scalar register. -/
def Env.useOk (e : Env) (scalar : Bool) (u : Use) : Bool :=
  match u with
  | .src _ (.v n) w => !scalar && e.vecOk n.val w
  | .src _ o _ => !scalar || perGang o
  | .red _ (.v n) w => e.vecOk n.val w
  | .red .. => true
  | .uni _ o => perGang o
  | .sreg _ o => (match o with | .s _ => true | _ => false)
  | .spair _ o => (match o with | .s n => n.val % 2 == 0 && n.val < 127 | _ => false)
  | .vec _ o w => (match o with | .v n => e.vecOk n.val w | _ => false)
  | .dst o w => (match o with | .v n => e.vecOk n.val w | .s _ => true)
  | .dstV o w => (match o with | .v n => e.vecOk n.val w | .s _ => false)
  | .dstS o => (match o with | .s _ => true | .v _ => false)
  | .dstPair o => (match o with | .s n => n.val % 2 == 0 && n.val < 127 | .v _ => false)
  | .tile _ m => (match e.crew with | some c => m < c.desc.nk | none => false)

def Use.scalarDst : Use → Bool
  | .dst (.s _) _ => true
  | _ => false

/-- The vector registers a slot names, and its scalar registers. -/
def Use.vregs : Use → List Nat
  | .src _ (.v n) w | .red _ (.v n) w | .vec _ (.v n) w => rangeFrom n.val w
  | .dst (.v n) w | .dstV (.v n) w => rangeFrom n.val w
  | _ => []
/-- The vector registers of a destination. -/
def Use.dregs : Use → List Nat
  | .dst (.v n) w | .dstV (.v n) w => rangeFrom n.val w
  | _ => []
def Use.sregs : Use → List Nat
  | .src _ (.s n) _ | .red _ (.s n) _ | .uni _ (.s n) | .sreg _ (.s n) => [n.val]
  | .spair _ (.s n) => [n.val, n.val + 1]
  | .dst (.s n) _ | .dstV (.s n) _ | .dstS (.s n) => [n.val]
  | .dstPair (.s n) => [n.val, n.val + 1]
  | _ => []

/-! ## What an instruction is -/

/-- How an instruction meets the chunk's ends (Table 5.1). -/
inductive ChunkEnd
  | plain
  | before
  | after
  | own
  /-- chk.end and chk.abort: they act on an explicit chunk themselves -/
  | bracket
deriving DecidableEq, Repr

inductive Ctr | none | ld | st | cp | tl
deriving DecidableEq, Repr

/-- The fixed part of an instruction's behaviour. -/
structure Spec where
  guard : Guard
  /-- legal only at S (R153) -/
  priv : Bool := false
  /-- excluded on a cox core (R153) -/
  noCox : Bool := false
  /-- the field checks of R154 step 7 that depend on the gang -/
  fieldsOk : Bool := true
  /-- a register named at S only, or written where it is read-only (R309), found at step 6 -/
  privReg : Bool := false
  uses : List Use := []
  /-- further registers that must not be in flight -/
  more : List Nat := []
  /-- scalar registers that the field checks read (R142): a result in flight to one is awaited before any check -/
  early : List Nat := []
  /-- last-read marks: first register and words -/
  marks : List (Nat × Nat) := []
  coll : Bool := false
  chunk : ChunkEnd := .plain
  ctr : Ctr := .none
deriving DecidableEq, Repr

/-- The marks of slots that carry one. -/
def markOf (o : Src) (last : Bool) (w : Nat) : List (Nat × Nat) :=
  match o, last with
  | .v n, true => [(n.val, w)]
  | _, _ => []

/-- Where the lanes that executed go: their next PCs, and the wait they enter. Lanes quarantined or exited leave; only `retired` lanes take last-read marks. -/
structure After where
  next : List (Nat × Word64)
  wait : Wait
  retired : LaneMask
  gone : LaneMask
  quar : LaneMask

/-- What one execution gives. -/
inductive Res
  /-- it retires, with the package and the gang as they then stand -/
  | ok (s : State) (g : Gang) (a : After)
  | trap (s : State) (t : Trap)
  /-- a trap of some lanes; the gang's chunk holds the lines of the lanes that found theirs -/
  | fault (s : State) (g : Gang) (t : Trap)
  /-- it retires as a chunk of its own (R110), found only when it executes (R252) -/
  | own (s : State) (g : Gang) (a : After)
  /-- some lanes park on a missing page (R249); the gang as for `fault` -/
  | park (s : State) (g : Gang) (m : LaneMask) (t : Trap)
  | stall (s : State) (w : Stall)
  /-- the open chunk ends before it; the gang as for `fault` -/
  | endBefore (s : State) (g : Gang)
  /-- an explicit chunk aborts: status and user code -/
  | abort (s : State) (user status : Nat)
  /-- the instruction dealt with its group itself -/
  | done (s : State)

/-- Fall through with no effect on lanes. -/
def Env.through (e : Env) : After := ⟨[], .ready, e.on, 0, 0⟩

/-! ## Retirement -/

/-- The PC after the instruction (R133). -/
def Env.nextPc (e : Env) : Word64 := BitVec.ofNat 64 (e.pc + e.n)

/-- Waits that a whole issuing group enters, guarded-off lanes included (R226, R244). -/
def Wait.groupWide : Wait → Bool
  | .stall _ | .sem .. => true
  | _ => false

/-- The sub-gangs a group becomes: lanes that executed by next PC and wait, lanes guarded off falling through (R31). -/
def Env.split (e : Env) (a : After) : List SubGang :=
  let stay := e.act &&& ~~~(a.gone ||| a.quar)
  let onL := lanesOf (stay &&& e.on)
  let off := stay &&& ~~~e.on
  let nextOf (l : Nat) : Word64 := match a.next.find? (fun p => p.1 == l) with | some p => p.2 | none => e.nextPc
  let ons := groupByPc (onL.map (fun l => (l, nextOf l))) []
  let mk (m : LaneMask) (pc : Word64) (w : Wait) : SubGang := ⟨m, pc, w, 0⟩
  if a.wait.groupWide then (if stay = 0 then [] else [mk stay ((a.next.head?.map (·.2)).getD e.nextPc) a.wait])
  else if off = 0 then ons.map (fun p => mk p.1 p.2 a.wait)
  else if a.wait = .ready then
    (groupByPc (lanesOf off |>.map (fun l => (l, e.nextPc))) ons).map (fun p => mk p.1 p.2 .ready)
  else ons.map (fun p => mk p.1 p.2 a.wait) ++ [mk off e.nextPc .ready]

/-- Put the group's successors in its place, and let loop ends, joins and collectives follow (R214, R36, R34). -/
def Env.move (e : Env) (c : GangCore) (subs : List SubGang) : GangCore :=
  let c := { c with subs := c.subs.flatMap (fun (y : SubGang) => if y.lanes == e.x.lanes then subs else [y]) }
  (c.arriveEnds e.act).settle

/-- Last-read marks of the lanes that retired, a register of the destination excepted (R72). -/
def Spec.applyMarks (sp : Spec) (m : LaneMask) (c : GangCore) : GangCore :=
  let dst := sp.uses.flatMap Use.dregs
  c.killRegs m ((sp.marks.flatMap (fun k => rangeFrom k.1 k.2)).filter (fun r => !dst.contains r))

def GangCore.ctrUp (c : GangCore) (k : Ctr) : GangCore :=
  match k with
  | .none => c
  | .ld => { c with ld := c.ld + 1 }
  | .st => { c with st := c.st + 1 }
  | .cp => { c with cp := c.cp + 1 }
  | .tl => { c with tl := c.tl + 1 }

/-- Latches that reached the gang's copy in the package while its instruction executed (R234). -/
def State.adoptLatches (s : State) (was g : Gang) : Gang :=
  match s.gang? g.id with
  | some h => g.mapCore (fun c => { c with evpend := c.evpend ||| (h.core.evpend &&& ~~~was.core.evpend) })
  | none => g

/-- The core after an instruction that left `c`: last reads and counters, lanes that leave, sub-gangs moved. -/
def Env.settled (e : Env) (sp : Spec) (c : GangCore) (a : After) : GangCore :=
  let c := (sp.applyMarks a.retired c).ctrUp sp.ctr
  { e.move c (e.split a) with exited := c.exited ||| a.gone, quarantined := c.quarantined ||| a.quar, fmask := c.fmask ||| a.quar }

/-- The gang after an instruction: sub-gangs moved; an implicit chunk ends where Table 5.1 says. -/
def Env.retire (e : Env) (sp : Spec) (s : State) (g : Gang) (a : After) : State :=
  let g := s.adoptLatches e.g g
  let core := e.settled sp g.core a
  match g.chunk with
  | none => s.putGang { g with core := core }
  | some c =>
    let c := { c with count := c.count + 1 }
    if c.expl.isSome then s.putGang { g with core := core, chunk := some c }
    else s.putGang { g with core := core, chunk := some { c with closed := 1024 ≤ c.count || sp.chunk == .after || sp.chunk == .bracket || core.idle } }

/-- An instruction that forms a chunk of its own: it executes and commits at one point, unless it would strike the holder of the token (R110, R116). -/
def Env.retireOwn (e : Env) (sp : Spec) (s0 s : State) (g : Gang) (a : After) : State :=
  match g.chunk with
  | none => s
  | some c =>
    if s0.holderHit (some g.id) c.wset c.qset then
      (s0.putGang { e.g with chunk := some (Chunk.fresh e.g.core) }).squash g.id
    else
      let s := e.retire sp s g a
      match s.gang? g.id with
      | some g => (match g.chunk with | some c => s.commitNow g c [] 0 | none => s)
      | none => s

/-- The lanes of a group pass an instruction whose guard holds nowhere (R29). -/
def Env.pass (e : Env) (s : State) : State :=
  let core := e.move e.g.core [⟨e.act, e.nextPc, .ready, 0⟩]
  let g := { e.g with core := core }
  match g.chunk with
  | some c =>
    match c.expl with
    | some x => if core.idle then s.abortExplicit g c x e.pc 0 0 stUnsupported else s.putGang g
    | none => s.putGang { g with chunk := some { c with closed := c.closed || core.idle } }
  | none => (s.putGang g).stuckTrap g.id

def Env.site (e : Env) : Site := ⟨e.pc, e.half, e.w0⟩

def Env.raise (e : Env) (s : State) (t : Trap) : State := s.raise e.g e.x e.site t

/-- The group stalls at issue (R347): the slot passes on, nothing of the instruction has happened. A token holder that stalls on a full mailbox or queue gives the token up (R116). -/
def Env.stallAt (e : Env) (s : State) (w : Wait) : State :=
  let s := s.putGang (e.g.mapCore (fun c => c.mapSub e.x.lanes (fun y => { y with wait := w, waited := 0 })))
  match w with
  | .stall (.mbx _) | .stall (.queue _) => s.loseToken e.g.id
  | _ => s

/-- The gang's open chunk ends before this instruction, which is then issued again. -/
def Env.closeBefore (e : Env) (s : State) : State :=
  match e.g.chunk with
  | some c => s.putGang { e.g with chunk := some { c with closed := true } }
  | none => s

/-- Whether registers that the instruction names are results in flight (R175, R246). -/
def Env.interlocked (e : Env) (sp : Spec) : Bool :=
  let vs := sp.uses.flatMap Use.vregs ++ sp.more
  let ss := sp.uses.flatMap Use.sregs
  e.core.pend.any (fun p =>
    (vs.any (fun r => p.lanes.any (fun l => p.reg ≤ r && r < p.reg + l.words.length))) || p.scalars.any (fun q => ss.contains q.1))

/-- Whether a scalar register that the field checks read awaits a result in flight (R142, R175, R264). -/
def Env.awaits (e : Env) (sp : Spec) : Bool := e.core.pend.any (fun p => p.scalars.any (fun q => sp.early.contains q.1))

/-- The counters R229 allows. -/
def GangCore.ctrFull (c : GangCore) (k : Ctr) : Bool :=
  match k with
  | .none => false
  | .ld => 63 ≤ c.ld
  | .st => 63 ≤ c.st
  | .cp => 63 ≤ c.cp
  | .tl => 63 ≤ c.tl

/-- The limits of the implied wait of R229. -/
def ctrLimit (k : Ctr) : Stall :=
  match k with
  | .none => .counters 63 63 63 63
  | .ld => .counters 62 63 63 63
  | .st => .counters 63 62 63 63
  | .cp => .counters 63 63 62 63
  | .tl => .counters 63 63 63 62

/-! ## The checks before execution -/

/-- Steps 4, 6, 7 and 8 of R154 as far as they depend on the executor. -/
def Env.check (e : Env) (sp : Spec) : Option Trap :=
  if e.cox && sp.noCox then some (Trap.plain cIllegalEncoding)
  else if (sp.priv && !e.sup) || sp.privReg then some (Trap.plain cPrivilege)
  else if !sp.fieldsOk then some (Trap.plain cIllegalEncoding)
  else
    let scalar := sp.uses.any Use.scalarDst
    match sp.uses.find? (fun u => !e.useOk scalar u) with
    | some u => some (Trap.withInfo cIllegalRegister (u.slot * 2 ^ 10 + u.code))
    | none => none

/-- What the collective rules of R46 decide before a collective executes. -/
inductive CollWay | go | wait | trap (t : Trap)
deriving DecidableEq, Repr

def Env.collWay (e : Env) : CollWay :=
  if !e.core.unsplit then (if e.core.famOut e.x then .wait else .trap (Trap.plain cCollectiveSplit))
  else if e.on != e.act then .trap (Trap.plain cCollectiveGuard)
  else .go

/-- Whether the chunk's limits force it to end before an instruction that gave `c` (Table 5.1). -/
def overLimit (c : Chunk) : Bool := 128 < c.wCount || 512 < c.rCount

/-! ## Explicit chunks (R117 to R119) -/

/-- The open explicit chunk. -/
def Env.explicit (e : Env) : Option (Chunk × Expl) := e.g.chunk.bind (fun c => c.expl.map (fun x => (c, x)))

/-- Lines beyond the caps of an explicit chunk. -/
def Gang.capAborts (g : Gang) : List Abort :=
  match g.chunk with
  | some c => (if 64 < c.rCount then [⟨stReadCap, 0, 0⟩] else []) ++ (if 32 < c.wCount then [⟨stWriteCap, 0, 0⟩] else [])
  | none => []

def unsupported (b : Bool) : List Abort := if b then [⟨stUnsupported, 0, 0⟩] else []

/-- What any execution of an instruction meets: the limit of instructions, and a chunk end of Table 5.1. -/
def Env.baseAborts (e : Env) (sp : Spec) (c : Chunk) : List Abort :=
  c.lengthAborts ++ unsupported ((sp.chunk != .plain && sp.chunk != .bracket) || e.core.ctrFull sp.ctr)

/-- The conditions of Table 5.3 that an executed instruction meets. -/
def Env.aborts (e : Env) (sp : Spec) (c : Chunk) (r : Res) : List Abort :=
  e.baseAborts sp c ++
  (match r with
   | .ok _ g a =>
     g.capAborts ++ unsupported ((match g.chunk with | some c => !c.closed | none => false) && (e.settled sp g.core a).idle) ++
       (if 1 < (e.split a).length then [⟨stDiverge, 0, 0⟩] else [])
   | .own _ g _ | .endBefore _ g => g.capAborts ++ unsupported true
   | .fault _ g t | .park _ g _ t => g.capAborts ++ t.aborts
   | .trap _ t => t.aborts
   | .abort _ u k => [⟨k, u, 0⟩]
   | .stall .. | .done _ => [])

/-- The state that a result stands in. -/
def Res.state : Res → State
  | .ok s _ _ | .own s _ _ | .endBefore s _ | .fault s _ _ | .park s _ _ _ | .trap s _ | .abort s _ _ | .stall s _ | .done s => s

/-- `s` with the translations and open choices that an execution which comes to nothing has made. -/
def State.keepWalks (s t : State) : State := { s with tlb := t.tlb, ptrs := t.ptrs, freeCtr := t.freeCtr }

/-- Execute inside an explicit chunk: the condition of Table 5.3 with the lowest code aborts it. -/
def Env.runExplicit (e : Env) (sp : Spec) (s : State) (body : Env → State → Gang → Res) (c : Chunk) (x : Expl) : State :=
  let r := body e s e.g
  match lowestAbort (e.aborts sp c r) with
  | some a => (s.keepWalks r.state).abortExplicit e.g c x e.pc a.user a.cause a.status
  | none =>
    match r with
    | .ok s g a => e.retire sp s g a
    | .stall s w => e.stallAt s (.stall w)
    | .trap s t | .fault s _ t | .park s _ _ t => e.raise s t
    | r => r.state

/-- The gang with the group waiting at a collective for lanes of its family; others whose parked lanes have so come to wait stop waiting (R34). -/
def Env.waitCore (e : Env) : GangCore :=
  (e.core.mapSub e.x.lanes (fun y => { y with wait := .coll e.core.nextOrder, waited := 0 })).settle

/-- The issue of an instruction inside an explicit chunk, its guard true in some lane. -/
def Env.issueExplicit (e : Env) (sp : Spec) (s : State) (body : Env → State → Gang → Res) (c : Chunk) (x : Expl) : State :=
  let stop (s : State) (l : List Abort) (go : State) : State :=
    match lowestAbort (e.baseAborts sp c ++ l) with
    | some a => s.abortExplicit e.g c x e.pc a.user a.cause a.status
    | none => go
  match e.check sp, (if sp.coll then e.collWay else .go) with
  | some t, _ => stop s t.aborts (e.raise s t)
  | none, .trap t => stop s t.aborts (e.raise s t)
  | none, .wait => stop s (unsupported e.waitCore.idle) (s.putGang { e.g with core := e.waitCore })
  | none, .go => if e.interlocked sp then e.stallAt s (.stall .interlock) else e.runExplicit sp s body c x

/-! ## Implicit chunks -/

/-- Execute with an implicit chunk open, and settle what came of it. -/
def Env.run (e : Env) (sp : Spec) (s : State) (body : Env → State → Gang → Res) : State :=
  let ch := e.g.openChunk
  let g := { e.g with chunk := some ch }
  let e1 := { e with g := g }
  let empty := ch.count == 0
  if !empty && (sp.chunk == .before || sp.chunk == .own) then e.closeBefore s
  else
    match body e1 s g with
    | .ok s' g' a =>
      if !empty && (match g'.chunk with | some c => overLimit c | none => false) then e.closeBefore (s.keepWalks s')
      else if sp.chunk == .own then e1.retireOwn sp s s' g' a
      else e1.retire sp s' g' a
    | .own s' g' a => if empty then e1.retireOwn sp s s' g' a else e.closeBefore (s.keepWalks s')
    | .trap s' t | .fault s' _ t => e.raise s' t
    | .park s' _ m t =>
      if !empty then e.closeBefore s'
      else
        let r := s'.emptyCommit { e.g with chunk := none }
        (r.1.holdLanes r.2 e.x m e.site t 0).stuckTrap e.g.id
    | .stall s' w => e.stallAt s' (.stall w)
    | .endBefore s' _ => if empty then s' else e.closeBefore s'
    | .abort s' _ _ | .done s' => s'

/-- A group that waits at a collective for lanes of its family; a chunk that its gang has open ends there if no sub-gang goes on (Table 5.1). -/
def Env.waitColl (e : Env) (s : State) : State :=
  s.putGang { e.g with core := e.waitCore, chunk := e.g.chunk.map (fun c => { c with closed := c.closed || e.waitCore.idle }) }

/-- The whole issue of an instruction by a group. -/
def Env.issue (e : Env) (sp : Spec) (s : State) (body : Env → State → Gang → Res) : State :=
  if e.awaits sp then e.stallAt s (.stall .interlock) else
  match (if e.on = 0 then none else e.explicit) with
  | some (c, x) => e.issueExplicit sp s body c x
  | none =>
    match e.check sp with
    | some t =>
      (match e.explicit, lowestAbort t.aborts with
       | some (c, x), some a => s.abortExplicit e.g c x e.pc a.user a.cause a.status
       | _, _ => e.raise s t)
    | none =>
      if e.on = 0 then e.pass s
      else
        match (if sp.coll then e.collWay else .go) with
        | .trap t => e.raise s t
        | .wait => e.waitColl s
        | .go =>
          if e.core.ctrFull sp.ctr then
            (match e.g.chunk with
             | some c => if c.count = 0 then e.stallAt s (.stall (ctrLimit sp.ctr)) else e.closeBefore s
             | none => e.stallAt s (.stall (ctrLimit sp.ctr)))
          else if e.interlocked sp then e.stallAt s (.stall .interlock)
          else e.run sp s body

/-! ## The issuing group of a state -/

/-- A crew with the accumulator window as the gang's open chunk has it (R281, R287). -/
def Gang.windowed (g : Gang) (c : Crew) : Crew :=
  match g.chunk with
  | none => c
  | some ch => ch.ops.foldl (fun k o => match o with | .window b l => { k with accbase := b, acclim := l } | _ => k) c

/-- The environment of the issuing group, if the state names one that stands at an instruction boundary. -/
def State.env (s : State) (n : Nat) (guard : Guard) : Option Env :=
  match s.cur with
  | none => none
  | some r =>
    match s.gang? r.gang with
    | none => none
    | some g =>
      match g.sub? r.lead.val with
      | none => none
      | some x =>
        let pc := x.pc.toNat
        let half := (s.curBlk.drop (pc % 32 / 16 * 16)).take 16
        let crew := (s.crewOf g).map g.windowed
        some { g := g, x := x, pc := pc, n := n, w0 := ofBytesLE ((s.curBlk.drop (pc % 32)).take 8), half := half,
               act := x.lanes, on := x.lanes &&& guardMask guard g.core, cox := g.isCox, sup := s.supOf g,
               width := (match crew with | some c => c.desc.width | none => 32),
               nv := (match crew with | some c => c.desc.nv | none => 0), ctx := s.ctxOf g, crew := crew, tick := s.tick }

/-- The meaning of an encoded instruction: the issuing group issues it. -/
def issue (n : Nat) (guard : Guard) (spec : Env → Spec) (body : Env → State → Gang → Res) (s : State) : Host.Outcome State Fault Refusal :=
  match s.env n guard with
  | none => .fault .noIssuingGroup
  | some e => .next (e.issue (spec e) s body)

/-- The meaning of a step that no instruction encodes. -/
def event (f : State → State) (s : State) : Host.Outcome State Fault Refusal := .next (f s)

end Sys2Proof.Machine
end

