-- ==== Sys2Proof/Machine/Special.lean ====
section
/-! DEFINITION. The special functions (R102, R196) and the float forms of the legacy unit (R203): each is the exact value of its function rounded once. A value is first bracketed in fixed point with 640 fraction bits, far closer than any two FP32 results that an FP32 input can lie between, and then rounded. -/

namespace Sys2Proof.Machine

/-- Fraction bits of the fixed-point brackets. -/
def fxBits : Nat := 640
def fxOne : Int := 2 ^ fxBits

/-- The largest r with r² ≤ x, built from bit b - 1 downwards. -/
def isqrtBits (x : Nat) : Nat → Nat → Nat
  | 0, r => r
  | b + 1, r => isqrtBits x b (if (r + 2 ^ b) * (r + 2 ^ b) ≤ x then r + 2 ^ b else r)

def isqrt (x : Nat) : Nat := isqrtBits x (Nat.log2 x / 2 + 1) 0

/-- π × 2^800 and ln 2 × 2^800, rounded down. -/
def pi800 : Nat := 20948185156366061645643766395320583804404110054917410661001193935637068554322671606167204993106553114357255005533540283561029206848473842820348248606897488101457448383057018700235998647758998983149673314854554443134041172997893486965491011653
def ln800 : Nat := 4621915404083693673706875932675205015453565172230550426539967411210454986352689890721664442570866243885822531744113695039172807218199452359833764686208720506147098250020752592785330170224056724879031149859014393999526362059299592526015399857
def ln2Fx : Int := (ln800 / 2 ^ (800 - fxBits) : Nat)

/-- The fixed-point value of m × 2^e, rounded down in magnitude. -/
def fxOf (neg : Bool) (m : Nat) (e : Int) : Int :=
  let k := e + fxBits
  signedOf neg (if 0 ≤ k then m * 2 ^ k.toNat else m / 2 ^ (-k).toNat)

/-- Terms of a series x, x·y/(a₁), …: each term is the one before times `y` over `d n`. -/
def series (y : Int) (d : Nat → Int) : Nat → Nat → Int → Int → Int
  | 0, _, _, acc => acc
  | fuel + 1, n, term, acc =>
    let t := term * y / fxOne / d n
    series y d fuel (n + 1) t (acc + t)

/-- e^y for 0 ≤ y < 1 in fixed point. -/
def fxExp (y : Int) : Int := series y (fun n => (n : Int)) 160 1 fxOne fxOne

/-- 2·artanh z = ln((1 + z)/(1 - z)) for 0 ≤ z ≤ 1/3 in fixed point. -/
def fxLnSum (z2 : Int) : Nat → Nat → Int → Int → Int
  | 0, _, _, acc => acc
  | fuel + 1, n, pw, acc => fxLnSum z2 fuel (n + 2) (pw * z2 / fxOne) (acc + pw / (n : Int))

/-- sin y and cos y for |y| ≤ 1 in fixed point. -/
def fxSin (y : Int) : Int := series (-(y * y / fxOne)) (fun n => ((2 * n) * (2 * n + 1) : Nat)) 90 1 y y
def fxCos (y : Int) : Int := series (-(y * y / fxOne)) (fun n => ((2 * n - 1) * (2 * n) : Nat)) 90 1 fxOne fxOne

/-- A positive fixed-point bracket as a magnitude whose last 16 bits are dropped. -/
def magOfFx (v : Int) : Mag := ⟨v.toNat / 2 ^ 16, 16 - (fxBits : Int), true⟩

/-- The sine or cosine of a finite nonzero value, as sign and magnitude. -/
def sinCos (cos : Bool) (neg : Bool) (m : Nat) (e : Int) : Bool × Mag :=
  -- |x| and π/2 in units of 2^-800
  let x : Nat := m * 2 ^ (e + 800).toNat
  let h := pi800 / 2
  let n := (x + h / 2) / h
  let r : Int := ((x : Int) - (n * pi800 : Nat) / 2) / 2 ^ (800 - fxBits)
  let k := (if cos then n + 1 else n) % 4
  let v := if k % 2 = 0 then fxSin r else fxCos r
  let v := if k < 2 then v else -v
  let v := if neg && !cos then -v else v
  (decide (v < 0), magOfFx v.natAbs)

/-- 2^x for a finite nonzero x that is not an integer, |x| < 200. -/
def exp2Mag (neg : Bool) (m : Nat) (e : Int) : Mag :=
  let x := fxOf neg m e
  let n := x / fxOne
  let f := x - n * fxOne
  let v := fxExp (f * ln2Fx / fxOne)
  ⟨v.toNat / 2 ^ 16, 16 - (fxBits : Int) + n, true⟩

/-- log2 of a finite positive value that is no power of two, as sign and magnitude. -/
def log2Mag (m : Nat) (e : Int) : Bool × Mag :=
  let k := Nat.log2 m
  let ex := e + k
  let mm : Int := ((m * 2 ^ fxBits / 2 ^ k : Nat) : Int)
  let z := (mm - fxOne) * fxOne / (mm + fxOne)
  let ln := 2 * fxLnSum (z * z / fxOne) 210 1 z 0
  let v := ex * fxOne + ln * fxOne / ln2Fx
  (decide (v < 0), magOfFx v.natAbs)

/-- tanh of a finite positive value. -/
def tanhMag (m : Nat) (e : Int) : Mag :=
  if 5 ≤ e + Nat.log2 m then ⟨2 ^ 200 - 1, -200, true⟩
  else
    let x := 2 * fxOf false m e
    let n := x / ln2Fx
    let v := fxExp (x - n * ln2Fx) * 2 ^ n.toNat
    ⟨((v - fxOne) * fxOne / (v + fxOne)).toNat / 2 ^ 16, 16 - (fxBits : Int), true⟩

inductive SfuOp | rcp | rsq | sqrt | exp2 | log2 | sin | cos | tanh
deriving DecidableEq, Repr

/-- 1/(m × 2^e). -/
def rcpMag (m : Nat) (e : Int) : Mag := ⟨2 ^ 200 / m, -200 - e, 2 ^ 200 % m != 0⟩

/-- √(m × 2^e). -/
def sqrtMag (m : Nat) (e : Int) : Mag :=
  let (m, e) := if e % 2 = 0 then (m, e) else (2 * m, e - 1)
  let x := m * 2 ^ 200
  let r := isqrt x
  ⟨r, e / 2 - 100, r * r != x⟩

/-- 1/√(m × 2^e). -/
def rsqMag (m : Nat) (e : Int) : Mag :=
  let (m, e) := if e % 2 = 0 then (m, e) else (2 * m, e - 1)
  let x := 2 ^ 400 / m
  let r := isqrt x
  ⟨r, -200 - e / 2, r * r * m != 2 ^ 400⟩

/-- The value of a special function at a flushed operand (Table 4.9, R102), with every flag but those of flushed inputs. -/
def sfuValue (p : FpEnv) (f : Fmt) (op : SfuOp) (x : Nat) : Nat × Flags :=
  let v := f.decode x
  let one := f.bias * 2 ^ f.fb
  match v with
  | .nan n fr s => (nanResult p f f [.nan n fr s], if s then flNV else 0)
  | .inf n =>
    match op with
    | .rcp => (f.sign n 0, 0)
    | .rsq => if n then (f.canonNan, flNV) else (0, 0)
    | .sqrt => if n then (f.canonNan, flNV) else (f.infCode, 0)
    | .exp2 => if n then (0, 0) else (f.infCode, 0)
    | .log2 => if n then (f.canonNan, flNV) else (f.infCode, 0)
    | .sin | .cos => (f.canonNan, flNV)
    | .tanh => (f.sign n one, 0)
  | .fin n m e =>
    if m = 0 then
      match op with
      | .rcp | .rsq => (f.sign n f.infCode, flDZ)
      | .sqrt | .sin | .tanh => (f.sign n 0, 0)
      | .exp2 | .cos => (one, 0)
      | .log2 => (f.sign true f.infCode, flDZ)
    else
      match op with
      | .rcp => finish p f n (rcpMag m e)
      | .rsq => if n then (f.canonNan, flNV) else finish p f false (rsqMag m e)
      | .sqrt => if n then (f.canonNan, flNV) else finish p f false (sqrtMag m e)
      | .exp2 =>
        if 0 ≤ e ∨ m % 2 ^ (-e).toNat = 0 then
          -- an integer exponent: 2^x is exact
          let k := signedOf n (if 0 ≤ e then m * 2 ^ (if 20 < e then 20 else e.toNat) else m / 2 ^ (-e).toNat)
          let k := if k < -400 then -400 else if 400 < k then 400 else k
          finish p f false ⟨1, k, false⟩
        else if 8 ≤ e + Nat.log2 m then finish p f false ⟨1, if n then -400 else 400, true⟩
        else finish p f false (exp2Mag n m e)
      | .log2 =>
        if n then (f.canonNan, flNV)
        else if m = 2 ^ Nat.log2 m then
          let k := e + Nat.log2 m
          finish p f (k < 0) ⟨k.natAbs, 0, false⟩
        else let r := log2Mag m e; finish p f r.1 r.2
      | .sin => let r := sinCos false n m e; finish p f r.1 r.2
      | .cos => let r := sinCos true n m e; finish p f r.1 r.2
      | .tanh => finish p f n (tanhMag m e)

/-- R102: RNE for all but fsqrt, which alone sets NX. -/
def sfu (p : FpEnv) (f : Fmt) (op : SfuOp) (x : Nat) : Nat × Flags :=
  let p := if op == .sqrt then p else { p with rm := .rne }
  let (a, i) := p.input f x
  let r := sfuValue p f op a
  (r.1, (if op == .sqrt then r.2 else r.2 &&& ~~~flNX) ||| i)

/-! ## The legacy unit (R203) -/

/-- Canonical NaNs, RNE, FP32 subnormals replaced by zero of the same sign. -/
def fpLegacy : FpEnv := { fpPlain with fin32 := true, fout32 := true }

/-- NV and DZ of Table 4.9, and no other flag. -/
def lgcFloat (op : SfuOp) (x : Nat) : Nat × Flags :=
  let (a, _) := fpLegacy.input fp32 x
  let r := sfuValue fpLegacy fp32 op a
  (r.1, r.2 &&& (flNV ||| flDZ))

/-- The reduced argument x' of Table 8.14. -/
def lgcReduce (x : Nat) : Nat :=
  let (a, _) := fpLegacy.input fp32 x
  let q := (mulF fpPlain fp32 a 0x3E22F983).1
  let n := (fRnd fpPlain fp32 q).1
  let t := (mulF fpPlain fp32 0x40C90FDB n).1
  (addF fpPlain fp32 a (negF fp32 t)).1

/-- sin and cos of the reduced argument; a zero (subnormals are flushed to one), an infinity or a NaN operand gives Table 4.9's result. -/
def lgcTrig (op : SfuOp) (x : Nat) : Nat × Flags :=
  match fp32.decode x with
  | .fin .. => if (fpLegacy.input fp32 x).1 % 2 ^ 31 = 0 then lgcFloat op x else lgcFloat op (lgcReduce x)
  | _ => lgcFloat op x

/-- div and rem (Table 8.14) on 32-bit patterns. -/
def lgcDiv (signed : Bool) (a b : Nat) : Nat :=
  if b % 2 ^ 32 = 0 then 0xFFFFFFFF else wrapInt 32 ((intOf 32 signed a).tdiv (intOf 32 signed b))
def lgcRem (signed : Bool) (a b : Nat) : Nat :=
  if b % 2 ^ 32 = 0 then a % 2 ^ 32 else wrapInt 32 ((intOf 32 signed a).tmod (intOf 32 signed b))

/-- min and max of each half apart: the high half signed for i64. -/
def lgcHalves (signed big : Bool) (a b : Nat) : Nat :=
  let pick (s : Bool) (x y : Nat) : Nat := if (decide (intOf 32 s x < intOf 32 s y)) == big then y else x
  pick signed (a / 2 ^ 32 % 2 ^ 32) (b / 2 ^ 32 % 2 ^ 32) * 2 ^ 32 + pick false (a % 2 ^ 32) (b % 2 ^ 32)

end Sys2Proof.Machine
end

