-- ==== Sys2Proof/Machine/Lanes.lean ====
section
/-! DEFINITION. The lane-by-lane pseudocode of R172: what one lane computes, the write of its destination, results that go through a queue (R175). -/

namespace Sys2Proof.Machine

/-- What one lane computes: the states of every source it reads, the result, the state its consumed sources give it (R75), the flags it raises. -/
structure LaneRes where
  reads : List VSt
  bits : Nat
  st : VSt
  flags : Flags
deriving DecidableEq, Repr

def lane1 (a : Val) (f : Nat → Nat) : LaneRes := ⟨[a.st], f a.bits, a.st, 0⟩
def lane2 (a b : Val) (f : Nat → Nat → Nat) : LaneRes := ⟨[a.st, b.st], f a.bits b.bits, joinSt a.st b.st, 0⟩
/-- Three sources. All of them poison the result, also one that a control value makes unused, as the first source of a field insert of length 0; a shift by more than the width, of two sources, likewise (the model's choice, log entry 90: R75's examples are sel and lanf alone). -/
def lane3 (a b c : Val) (f : Nat → Nat → Nat → Nat) : LaneRes :=
  ⟨[a.st, b.st, c.st], f a.bits b.bits c.bits, joinSt (joinSt a.st b.st) c.st, 0⟩
def laneF1 (a : Val) (f : Nat → Nat × Flags) : LaneRes := let r := f a.bits; ⟨[a.st], r.1, a.st, r.2⟩
def laneF2 (a b : Val) (f : Nat → Nat → Nat × Flags) : LaneRes := let r := f a.bits b.bits; ⟨[a.st, b.st], r.1, joinSt a.st b.st, r.2⟩
def laneF3 (a b c : Val) (f : Nat → Nat → Nat → Nat × Flags) : LaneRes :=
  let r := f a.bits b.bits c.bits; ⟨[a.st, b.st, c.st], r.1, joinSt (joinSt a.st b.st) c.st, r.2⟩

/-- The lanes in which an instruction computes: every lane that executes, or one for a scalar destination (R147). -/
def Env.computing (e : Env) (d : Dst) : List Nat :=
  match d with
  | .v _ => e.lanes
  | .s _ => [lowestLane e.on]

/-- Each computing lane with its result. -/
def Env.results (e : Env) (d : Dst) (f : Nat → LaneRes) : List (Nat × LaneRes) := (e.computing d).map (fun l => (l, f l))

def anyExpired (rs : List (Nat × LaneRes)) : Bool := rs.any (fun r => r.2.reads.any (· == .expired))

/-- Write the results to the destination: registers LIVE or POISON and renewed, a scalar register zero-extended (R147, R172). -/
def GangCore.writeDst (c : GangCore) (code tick : Nat) (d : Dst) (w : Nat) (rs : List (Nat × LaneRes)) : GangCore :=
  match d with
  | .v n => rs.foldl (fun c r => c.writeWords code tick n.val r.1 (wordsOf w r.2.bits r.2.st)) c
  | .s n => rs.foldl (fun c r => c.setSreg n.val (BitVec.ofNat 64 (r.2.bits % 2 ^ (32 * w)))) c

/-- The body of R172: results in every lane, written at once; an EXPIRED source traps (R66). -/
def laneBody (d : Dst) (w : Nat) (f : Env → Nat → LaneRes) (e : Env) (s : State) (g : Gang) : Res :=
  let rs := e.results d (f e)
  if anyExpired rs then .trap s (Trap.plain cExpiredRead)
  else
    let core := (g.core.writeDst (s.regCode g) s.tick d w rs).orFlags (joinFlags (rs.map (fun r => (r.2.st, r.2.flags))))
    .ok s { g with core := core } e.through

/-- A result in flight for the destination (R175, R246). -/
def pendOf (id : Nat) (kind : PendKind) (d : Dst) (w : Nat) (rs : List (Nat × LaneRes)) : Pend :=
  match d with
  | .v n => { id := id, kind := kind, reg := n.val, lanes := rs.map (fun r => ⟨toLane r.1, wordsOf w r.2.bits r.2.st⟩), scalars := [] }
  | .s n => { id := id, kind := kind, reg := 0, lanes := [], scalars := rs.map (fun r => (n.val, BitVec.ofNat 64 (r.2.bits % 2 ^ (32 * w)))) }

/-- Requests of a kind in flight on the core of a gang. -/
def State.inFlight (s : State) (g : Gang) (k : PendKind) : Nat :=
  let same (h : Gang) : Bool := match s.crewOf g, s.crewOf h with
    | some a, some b => a.coreIx == b.coreIx && a.live == b.live
    | _, _ => h.id == g.id
  ((s.gangs.filter same).map (fun h => (h.core.pend.filter (fun p => p.kind == k)).length)).foldl (· + ·) 0

/-- The body of an instruction whose result goes through the special-function or conversion queue: the values are those of its issue, the destination is interlocked until the result is written (R175, Table 15.8). -/
def queueBody (kind : PendKind) (d : Dst) (w : Nat) (f : Env → Nat → LaneRes) (e : Env) (s : State) (g : Gang) : Res :=
  let rs := e.results d (f e)
  if 32 ≤ s.inFlight g kind then .stall s (.funit (kind == .convert))
  else if anyExpired rs then .trap s (Trap.plain cExpiredRead)
  else
    let core := g.core.orFlags (joinFlags (rs.map (fun r => (r.2.st, r.2.flags))))
    .ok { s with nextId := s.nextId + 1 } { g with core := { core with pend := core.pend ++ [pendOf s.nextId kind d w rs] } } e.through

/-! ## Specs of the arithmetic forms -/

/-- A segment of 64 lanes does not exist in a 32-wide gang (R48, R149). -/
def Env.modOk (e : Env) (m : MSrc) : Bool :=
  e.cox || e.width == 64 ||
    (match m.swz with | .rot s _ | .swap s _ | .bcast s _ => s.val != 5 | .none => true)

/-- Sources of a Form M or B instruction: slot, operand and its width in words. -/
def useM (k : Nat) (m : MSrc) (w : Nat) : Use := .src k m.src w
def useR (k : Nat) (m : RSrc) (w : Nat) : Use := .src k m.src w

/-- A lane-by-lane instruction with modified sources `ms` and plain sources `rs`. -/
def aluSpec (g : Guard) (d : Use) (ms : List (Nat × MSrc × Nat)) (rs : List (Nat × RSrc × Nat)) (e : Env) : Spec :=
  { guard := g, fieldsOk := ms.all (fun m => e.modOk m.2.1),
    uses := d :: (ms.map (fun m => useM m.1 m.2.1 m.2.2) ++ rs.map (fun r => useR r.1 r.2.1 r.2.2)),
    marks := ms.flatMap (fun m => markOf m.2.1.src m.2.1.last m.2.2) ++ rs.flatMap (fun r => markOf r.2.1.src r.2.1.last r.2.2) }

/-! ## Types as widths -/

def intBits : IntTy → Nat | .i32 | .n32 => 32 | _ => 64
def intSigned : IntTy → Bool | .i32 | .i64 => true | _ => false
def nBits : NTy → Nat | .n32 => 32 | .n64 => 64
def sBits : SIntTy → Nat | .i32 => 32 | .i64 => 64
def fltFmt : FltTy → Fmt | .f32 => fp32 | .f64 => fp64
def hFmt : HTy → Fmt | .f16 => fp16 | .bf16 => bf16
def fcFmt : FcTy → Fmt | .f32 => fp32 | .f64 => fp64 | .f16 => fp16 | .bf16 => bf16
/-- Registers of a value of `n` bits. -/
def regsFor (n : Nat) : Nat := if n = 64 then 2 else 1
def rdN (n : Nat) : Rd := if n = 64 then .w64 else .w32

end Sys2Proof.Machine
end

