-- ==== Sys2Proof/Machine/Arith.lean ====
section
/-! DEFINITION. Integer arithmetic (R176 to R179). -/

namespace Sys2Proof.Machine

/-- An exact integer result: clamped under SAT, else modulo 2^n (R176). -/
def intResult (n : Nat) (signed sat : Bool) (x : Int) : Nat := wrapInt n (if sat then clampInt n signed x else x)

/-- The integer binary family (Table 8.1). -/
def intBinary {S : Type} (o : AluM IntTy MSrc Unit S Unit Unit) (f : Nat → Bool → Int → Int → Nat) (s : State) :
    Host.Outcome State Fault Refusal :=
  let n := intBits o.ty
  let sg := intSigned o.ty
  let w := regsFor n
  issue 12 o.g (aluSpec o.g (.dst o.d w) [(1, o.a, w), (2, o.b, w)] [])
    (laneBody o.d w (fun e l => lane2 (e.msrc (rdN n) (.int n) l o.a) (e.msrc (rdN n) (.int n) l o.b)
      (fun a b => f n sg (intOf n sg a) (intOf n sg b)))) s

def execIadd (o : AluM IntTy MSrc Unit Bool Unit Unit) (s : State) : Host.Outcome State Fault Refusal :=
  intBinary o (fun n sg a b => intResult n sg o.sat (a + b)) s

def execIsub (o : AluM IntTy MSrc Unit Bool Unit Unit) (s : State) : Host.Outcome State Fault Refusal :=
  intBinary o (fun n sg a b => intResult n sg o.sat (a - b)) s

def execImul (o : AluM IntTy MSrc Unit Bool Unit Unit) (s : State) : Host.Outcome State Fault Refusal :=
  intBinary o (fun n sg a b => intResult n sg o.sat (a * b)) s

/-- floor(a × b / 2^n). -/
def execImulhi (o : AluM IntTy MSrc Unit Unit Unit Unit) (s : State) : Host.Outcome State Fault Refusal :=
  intBinary o (fun n _ a b => wrapInt n (a * b / (2 ^ n : Int))) s

def execImin (o : AluM IntTy MSrc Unit Unit Unit Unit) (s : State) : Host.Outcome State Fault Refusal :=
  intBinary o (fun n _ a b => wrapInt n (if a ≤ b then a else b)) s

def execImax (o : AluM IntTy MSrc Unit Unit Unit Unit) (s : State) : Host.Outcome State Fault Refusal :=
  intBinary o (fun n _ a b => wrapInt n (if a ≤ b then b else a)) s

/-- a × b + c (R176). -/
def execImad (o : AluM IntTy MSrc RSrc Bool Unit Unit) (s : State) : Host.Outcome State Fault Refusal :=
  let n := intBits o.ty
  let sg := intSigned o.ty
  let w := regsFor n
  issue 12 o.g (aluSpec o.g (.dst o.d w) [(1, o.a, w), (2, o.b, w)] [(3, o.c, w)])
    (laneBody o.d w (fun e l => lane3 (e.msrc (rdN n) (.int n) l o.a) (e.msrc (rdN n) (.int n) l o.b) (e.rsrc (rdN n) l o.c)
      (fun a b c => intResult n sg o.sat (intOf n sg a * intOf n sg b + intOf n sg c)))) s

/-- |a|; the minimum stays, or becomes the maximum under SAT (R176). -/
def execIabs (o : AluM SIntTy Unit Unit Bool Unit Unit) (s : State) : Host.Outcome State Fault Refusal :=
  let n := sBits o.ty
  let w := regsFor n
  issue 12 o.g (aluSpec o.g (.dst o.d w) [(1, o.a, w)] [])
    (laneBody o.d w (fun e l => lane1 (e.msrc (rdN n) (.int n) l o.a) (fun a => intResult n true o.sat (intOf n true a).natAbs))) s

/-- iaddc and isubb (R177): the carry joins the exact sum, the carry-out goes to its predicate. -/
def carryOp (o : AluM W32Ty MSrc (Option PReg) Unit Unit (Option PReg)) (f : Int → Int → Int → Int) (s : State) :
    Host.Outcome State Fault Refusal :=
  let sg := o.ty == .i32
  issue 12 o.g (aluSpec o.g (.dstV o.d 1) [(1, o.a, 1), (2, o.b, 1)] [])
    (fun e s g =>
      let exact (l : Nat) : Int := f (intOf 32 sg (e.msrc .w32 (.int 32) l o.a).bits) (intOf 32 sg (e.msrc .w32 (.int 32) l o.b).bits)
        (match o.c with | some p => if (e.core.pred p.val).getLsbD l then 1 else 0 | none => 0)
      let rs := e.results o.d (fun l => lane2 (e.msrc .w32 (.int 32) l o.a) (e.msrc .w32 (.int 32) l o.b) (fun _ _ => wrapInt 32 (exact l)))
      if anyExpired rs then .trap s (Trap.plain cExpiredRead)
      else if o.xf.isSome && rs.any (fun r => r.2.st == .poison) then .trap s (Trap.plain cPoisonConsumed)
      else
        let core := g.core.writeDst (s.regCode g) s.tick o.d 1 rs
        let core := match o.xf with
          | some p => core.setPred p.val e.on (maskOf (e.lanes.filter (fun l => carryOut sg (exact l))))
          | none => core
        .ok s { g with core := core } e.through) s

def execIaddc (o : AluM W32Ty MSrc (Option PReg) Unit Unit (Option PReg)) (s : State) : Host.Outcome State Fault Refusal :=
  carryOp o (fun a b c => a + b + c) s

def execIsubb (o : AluM W32Ty MSrc (Option PReg) Unit Unit (Option PReg)) (s : State) : Host.Outcome State Fault Refusal :=
  carryOp o (fun a b c => a - b - c) s

/-- (a << k) + b; for n64, a is a 32-bit operand and b a pair (R178). -/
def execLea (o : AluM LeaTy MSrc Unit Unit Unit Unit) (s : State) : Host.Outcome State Fault Refusal :=
  let n := nBits o.ty.ty
  let w := regsFor n
  issue 12 o.g (aluSpec o.g (.dst o.d w) [(1, o.a, 1), (2, o.b, w)] [])
    (laneBody o.d w (fun e l => lane2 (e.msrc .w32 (.int 32) l o.a) (e.msrc (rdN n) (.int n) l o.b)
      (fun a b => (a * 2 ^ o.ty.k.val + b) % 2 ^ n))) s

/-- c plus the four products of the bytes of a and b (R179). NEG of A or B negates the 32-bit word, not each byte (the model's choice, log entry 97: R149 says modulo 2^n without naming n for packed bytes). -/
def execIdp4 (o : AluM IdpTy MSrc RSrc Bool Unit Unit) (s : State) : Host.Outcome State Fault Refusal :=
  let dot (a b : Nat) : Int := (List.range 4).foldl (fun x j =>
    x + intOf 8 o.ty.aSigned (a / 256 ^ j) * intOf 8 o.ty.bSigned (b / 256 ^ j)) 0
  issue 12 o.g (aluSpec o.g (.dst o.d 1) [(1, o.a, 1), (2, o.b, 1)] [(3, o.c, 1)])
    (laneBody o.d 1 (fun e l => lane3 (e.msrc .bytes (.int 32) l o.a) (e.msrc .bytes (.int 32) l o.b) (e.rsrc .w32 l o.c)
      (fun a b c => intResult 32 true o.sat (intOf 32 true c + dot a b)))) s

end Sys2Proof.Machine
end

