-- ==== Sys2Proof/Machine/Fetch.lean ====
section
/-! DEFINITION. Instruction fetch (R131 to R134), the loop buffer (R217) and the checks of word 0 that come before execution (R154 steps 1 to 6, R153). -/

namespace Sys2Proof.Machine

/-! ## The loop buffer (R217, log entry 72) -/

/-- Whether a body is that of an active loop. -/
def GangCore.runsBody (c : GangCore) (b : LoopBody) : Bool :=
  decide (b.level < c.ldepth) && (c.loop b.level).start == b.start && (c.loop b.level).stop == b.stop

/-- Whether a body is still of use: its loop is active, or becomes so again if the open chunk is discarded. -/
def Gang.usesBody (g : Gang) (b : LoopBody) : Bool :=
  g.core.runsBody b || (match g.chunk with
    | some c => c.snap.runsBody b || (match c.expl with | some e => e.before.runsBody b | none => false)
    | none => false)

/-- Whether one body lies within another. -/
def LoopBody.within (b a : LoopBody) : Bool := decide (a.start.toNat ≤ b.start.toNat) && decide (b.stop.toNat ≤ a.stop.toNat)

/-- The buffered body of an active loop that holds a PC, the outermost. -/
def Gang.bodyOf (g : Gang) (pc : Word64) : Option LoopBody :=
  g.lbody.find? (fun b => g.core.runsBody b && decide (b.start.toNat ≤ pc.toNat) && decide (pc.toNat < b.stop.toNat))

/-- lp: a body inside one that the buffer holds stays there; another short body joins the buffer, empty. Bodies of loops that are over leave it. -/
def Gang.keepBody (g : Gang) (short : Bool) (b : LoopBody) : Gang :=
  if g.lbody.any (fun a => a != b && g.core.runsBody a && b.within a) then g
  else { g with lbody := g.lbody.filter (fun a => a != b && g.usesBody a) ++ (if short then [b] else []),
                lbuf := g.lbuf.filter (fun x => x.body != b && g.usesBody x.body) }

/-- A fetched block of a buffered body stays in the buffer; old bytes that an icinv has discarded stay until the gang's chunk ends. -/
def Gang.keepBlock (g : Gang) (pc : Word64) (la : Nat) (bytes : List Byte) (stale : Bool) : Gang :=
  match g.bodyOf pc with
  | some b => { g with lbuf := g.lbuf ++ [⟨b, pc.toNat - pc.toNat % 32, la, bytes, stale⟩] }
  | none => g

/-- The buffered block that holds a PC. -/
def Gang.buffered (g : Gang) (pc : Word64) : Option LoopBlock :=
  (g.bodyOf pc).bind (fun b => g.lbuf.find? (fun x => x.body == b && x.va == pc.toNat - pc.toNat % 32))

/-! ## Fetching a block (R134) -/

/-- The instruction cache that serves a gang: its quad's, or, 256, the cox cores' own. -/
def State.codeQuad (s : State) (g : Gang) : Nat := match s.crewOf g with | some c => quadOf c.coreIx | none => 256

/-- Cached copies of a block that a gang may still execute. -/
def State.cachedCode (s : State) (g : Gang) (la : Nat) : List CodeBlock :=
  s.code.filter (fun b => b.quad == s.codeQuad g && b.la == la && (b.stale.isEmpty || b.stale.contains g.id))

/-- The trap of a fetch that gives no bytes, an access of its own at the PC. -/
def fetchTrap (g : Gang) (x : SubGang) (c : Cause) : Trap := Trap.atAddr c x.pc.toNat (if g.isCox then 0 else lowestLane x.lanes) accFetch

/-- Fetch the 32-byte block that holds the PC of a sub-gang: from the loop buffer; else memory as it stands, or an old copy, which the cache then holds for the address it was fetched at too (R323). -/
def State.fetchBlock (s : State) (g : Gang) (x : SubGang) : Except Trap (List Byte) × State :=
  let pc := x.pc.toNat
  if !canonical pc then (.error (fetchTrap g x cPermission), s)
  else
    match g.buffered x.pc with
    | some b => (.ok b.bytes, s)
    | none =>
      match s.xlat (s.ctxOf g) (s.supOf g) .fetch .lane (pc - pc % 32) with
      | (.error c, s) => (.error (fetchTrap g x c), s)
      | (.ok l, s) =>
        let bytes := memRead s.mem l.la 32
        let at' : CodeBlock := ⟨s.codeQuad g, s.ctxOf g, pc - pc % 32, l.la, bytes, []⟩
        let old := (s.cachedCode g l.la).filter (fun b => b.bytes != bytes)
        let c := s.choose (old.length + 1)
        match old[c.1]? with
        | some b => (.ok b.bytes, { c.2 with code := addNew { at' with bytes := b.bytes, stale := b.stale } c.2.code }.mapGang g.id (fun g => g.keepBlock x.pc l.la b.bytes (!b.stale.isEmpty)))
        | none =>
          if c.2.linePoisoned l.la then (.error (fetchTrap g x cUncorrectable), c.2)
          else (.ok bytes, { c.2 with code := addNew at' c.2.code }.mapGang g.id (fun g => g.keepBlock x.pc l.la bytes false))

/-- The OPCs that the next instruction of a sub-gang may have, for the shared resources of Table 15.8: the loop buffer's, where it serves the PC; else memory's and those of every cached copy that the fetch may give, through every translation that it may use. -/
def State.peekOpcs (s : State) (g : Gang) (x : SubGang) : List Nat :=
  let opc (blk : List Byte) : Nat := bitsAt (ofBytesLE ((blk.drop (x.pc.toNat % 32)).take 4)) 2 8
  match g.buffered x.pc with
  | some b => [opc b.bytes]
  | none =>
    (s.xlatLocs (s.ctxOf g) (s.supOf g) .fetch .lane (x.pc.toNat - x.pc.toNat % 32)).flatMap (fun la =>
      opc (memRead s.mem la 32) :: (s.cachedCode g la).map (fun b => opc b.bytes))

/-! ## Word 0 -/

/-- OPCs that a cox core has not (R153). -/
def coxExcluded (opc : Nat) : Bool :=
  opc == 0x0E || (0x43 ≤ opc && opc ≤ 0x47) || opc == 0x49 || opc == 0x64 || (0x70 ≤ opc && opc ≤ 0x76) || (0xA0 ≤ opc && opc ≤ 0xAC)

/-- OPCs legal at S only (R153). -/
def sysOnly (opc : Nat) : Bool := opc == 0xE2 || opc == 0xE6 || opc == 0xE7 || (0xE9 ≤ opc && opc ≤ 0xED)

/-- Registers whose U access is read-only (Table 14.1). -/
def csrRo : Csr → Bool
  | .ef _ | .lc _ | .thrsn | .ctx => true
  | _ => false

/-- Registers with no access at U (Tables 14.1 and 16.8). -/
def csrSys : Csr → Bool
  | .fpmode | .fpflags | .uevec | .ef _ | .lc _ | .thrsn | .ctx => false
  | _ => true

/-- Whether a register number breaks privilege at U (R309): `wr` for csrw and csrx. -/
def csrPriv (wr : Bool) (c : Csr) : Bool := csrSys c || (wr && csrRo c)

/-- Step 6 of R154 for the CSR instructions, by IMM32[11:0] alone. -/
def csrBreaks (opc imm : Nat) : Bool :=
  0xE3 ≤ opc && opc ≤ 0xE5 && (match fCsr.dec (imm % 4096) with | some c => csrPriv (opc != 0xE3) c | none => false)

/-- Length in bytes that placement sees: Form TR by its OPC, else LEN (R131, R132). -/
def placeLen (w0 : Nat) : Nat := if formOf (bitsAt w0 2 8) == some .tr then 32 else 4 + 4 * (w0 % 4)

/-- The bytes of word 0 at an address, as a fetch reads them now. -/
def State.peekWord (s : State) (g : Gang) (va : Nat) : Option Nat :=
  match (s.xlat (s.ctxOf g) (s.supOf g) .fetch .lane (va - va % 32)).1 with
  | .ok l => some (s.loadNat (l.la + va % 32) 4)
  | .error _ => none

/-- Whether at most `fuel` instructions stand from `pc` up to `stop`, as far as the bytes are at hand: what lies beyond a page that is not counts as short (log entry 72). -/
def bodyFits (word : Nat → Option Nat) (stop : Nat) : Nat → Nat → Bool
  | 0, pc => stop ≤ pc
  | fuel + 1, pc =>
    if stop ≤ pc then true
    else match word pc with
      | some w => bodyFits word stop fuel (pc + placeLen w)
      | none => true

/-- Whether the body of a loop has up to 256 instructions. -/
def State.bodyShort (s : State) (g : Gang) (start stop : Word64) : Bool := bodyFits (s.peekWord g) stop.toNat 256 start.toNat

/-- Steps 1 to 7 of R154 on the bytes from offset `off` of a block, as far as no register decides. -/
def readInstr (cox sup : Bool) (off : Nat) (blk : List Byte) : Except Trap Instr :=
  let bs := blk.drop off
  let w0 := word0At bs
  let opc := bitsAt w0 2 8
  if 0xF0 ≤ opc then .ok (.escape (BitVec.ofNat 64 w0))
  else if w0 % 4 = 0 then .error (Trap.plain cIllegalEncoding)
  else if (placeLen w0 = 32 ∧ off ≠ 0) ∨ 32 < off + placeLen w0 then .error (Trap.plain cFetchBoundary)
  else
    match formOf opc with
    | none => .error (Trap.plain cIllegalEncoding)
    | some f =>
      if (cox && coxExcluded opc) || w0 % 4 != f.lenField then .error (Trap.plain cIllegalEncoding)
      else if !sup && (sysOnly opc || csrBreaks opc (wordAt bs 2)) then .error (Trap.plain cPrivilege)
      else
        match decode bs with
        | .ok (i, _) => .ok i
        | .error _ => .error (Trap.plain cIllegalEncoding)

end Sys2Proof.Machine
end

