-- ==== Sys2Proof/Machine/Logic.lean ====
section
/-! DEFINITION. Logic, shifts and bit fields (R180 to R185), moves and selection (R186 to R188), integer compares (R189). -/

namespace Sys2Proof.Machine

/-! ## Bitwise (Table 8.2, R181) -/

/-- A two-source operation on n32 or n64 whose modifiers complement (R149, R180). -/
def logic2 (o : AluM NTy MSrc Unit Unit Unit Unit) (f : Nat → Nat → Nat → Nat) (s : State) : Host.Outcome State Fault Refusal :=
  let n := nBits o.ty
  let w := regsFor n
  issue 12 o.g (aluSpec o.g (.dst o.d w) [(1, o.a, w), (2, o.b, w)] [])
    (laneBody o.d w (fun e l => lane2 (e.msrc (rdN n) (.logic n) l o.a) (e.msrc (rdN n) (.logic n) l o.b) (f n))) s

/-- Complement of `n` bits. -/
def notBits (n x : Nat) : Nat := 2 ^ n - 1 - x % 2 ^ n

def execAnd (o : AluM NTy MSrc Unit Unit Unit Unit) (s : State) : Host.Outcome State Fault Refusal := logic2 o (fun _ a b => a &&& b) s
def execOr (o : AluM NTy MSrc Unit Unit Unit Unit) (s : State) : Host.Outcome State Fault Refusal := logic2 o (fun _ a b => a ||| b) s
def execXor (o : AluM NTy MSrc Unit Unit Unit Unit) (s : State) : Host.Outcome State Fault Refusal := logic2 o (fun _ a b => a ^^^ b) s
def execAndn (o : AluM NTy MSrc Unit Unit Unit Unit) (s : State) : Host.Outcome State Fault Refusal := logic2 o (fun n a b => a &&& notBits n b) s

/-- A Form B operation of one source of `n` bits to a result of `dw` registers. -/
def unary (g : Guard) (d : Dst) (a : RSrc) (n dw : Nat) (f : Nat → Nat) (s : State) : Host.Outcome State Fault Refusal :=
  issue 8 g (aluSpec g (.dst d dw) [] [(1, a, regsFor n)])
    (laneBody d dw (fun e l => lane1 (e.rsrc (rdN n) l a) f)) s

def execNot (o : AluB NTy) (s : State) : Host.Outcome State Fault Refusal :=
  unary o.g o.d o.a (nBits o.ty) (regsFor (nBits o.ty)) (notBits (nBits o.ty)) s

/-- Whether mask `k` selects a product that names input `bit` (R181). -/
def lanfUses (k : BitVec 8) (bit : Nat) : Bool := (List.range 8).any (fun m => k.getLsbD m && m.testBit bit)

/-- The products that `k` selects, joined by exclusive or. -/
def lanfValue (k : BitVec 8) (n a b c : Nat) : Nat :=
  (List.range 8).foldl (fun r m =>
    if k.getLsbD m then
      r ^^^ ((if m.testBit 2 then a else 2 ^ n - 1) &&& (if m.testBit 1 then b else 2 ^ n - 1) &&& (if m.testBit 0 then c else 2 ^ n - 1))
    else r) 0

/-- lanf (R181): an input that no selected product names is read but not used (R75). -/
def execLanf (o : LanfOps) (s : State) : Host.Outcome State Fault Refusal :=
  let n := nBits o.ty
  let w := regsFor n
  issue 16 o.g (aluSpec o.g (.dst o.d w) [(1, o.a, w), (2, o.b, w)] [(3, o.c, w)])
    (laneBody o.d w (fun e l =>
      let a := e.msrc (rdN n) (.logic n) l o.a
      let b := e.msrc (rdN n) (.logic n) l o.b
      let c := e.rsrc (rdN n) l o.c
      let used (bit : Nat) (v : Val) : VSt := if lanfUses o.k bit then v.st else .live
      ⟨[a.st, b.st, c.st], lanfValue o.k n a.bits b.bits c.bits, joinSt (joinSt (used 2 a) (used 1 b)) (used 0 c), 0⟩)) s

/-! ## Shifts (Table 8.3): the count is one 32-bit register -/

def shiftOp (g : Guard) (d : Dst) (a b : MSrc) (n : Nat) (f : Nat → Nat → Nat) (s : State) : Host.Outcome State Fault Refusal :=
  let w := regsFor n
  issue 12 g (aluSpec g (.dst d w) [(1, a, w), (2, b, 1)] [])
    (laneBody d w (fun e l => lane2 (e.msrc (rdN n) (.logic n) l a) (e.msrc .w32 (.logic 32) l b) f)) s

def shlBits (n a cnt : Nat) : Nat := if cnt < n then a * 2 ^ cnt % 2 ^ n else 0
def shrBits (n a cnt : Nat) : Nat := if cnt < n then a / 2 ^ cnt else 0
def sarBits (n a cnt : Nat) : Nat := wrapInt n (if cnt < n then intOf n true a / (2 ^ cnt : Int) else if intOf n true a < 0 then -1 else 0)

def execShl (o : AluM NTy MSrc Unit Unit Unit Unit) (s : State) : Host.Outcome State Fault Refusal :=
  shiftOp o.g o.d o.a o.b (nBits o.ty) (shlBits (nBits o.ty)) s
def execShr (o : AluM NTy MSrc Unit Unit Unit Unit) (s : State) : Host.Outcome State Fault Refusal :=
  shiftOp o.g o.d o.a o.b (nBits o.ty) (shrBits (nBits o.ty)) s
def execSar (o : AluM SIntTy MSrc Unit Unit Unit Unit) (s : State) : Host.Outcome State Fault Refusal :=
  shiftOp o.g o.d o.a o.b (sBits o.ty) (sarBits (sBits o.ty)) s

/-- A three-source operation on 32-bit words. -/
def word3 (o : AluM Unit MSrc RSrc Unit Unit Unit) (k : NegK) (f : Nat → Nat → Nat → Nat) (s : State) : Host.Outcome State Fault Refusal :=
  issue 12 o.g (aluSpec o.g (.dst o.d 1) [(1, o.a, 1), (2, o.b, 1)] [(3, o.c, 1)])
    (laneBody o.d 1 (fun e l => lane3 (e.msrc .w32 k l o.a) (e.msrc .w32 k l o.b) (e.rsrc .w32 l o.c) f)) s

def execFshL (o : AluM Unit MSrc RSrc Unit Unit Unit) (s : State) : Host.Outcome State Fault Refusal :=
  word3 o (.logic 32) (fun a b c => (a * 2 ^ 32 + b) * 2 ^ (c % 32) / 2 ^ 32 % 2 ^ 32) s
def execFshR (o : AluM Unit MSrc RSrc Unit Unit Unit) (s : State) : Host.Outcome State Fault Refusal :=
  word3 o (.logic 32) (fun a b c => (a * 2 ^ 32 + b) / 2 ^ (c % 32) % 2 ^ 32) s

/-! ## Bit counts and fields (R183 to R185) -/

def popCount (n x : Nat) : Nat := ((List.range n).filter (fun i => x.testBit i)).length
def leadZeros (n x : Nat) : Nat := ((List.range n).find? (fun i => x.testBit (n - 1 - i))).getD n
def trailZeros (n x : Nat) : Nat := ((List.range n).find? (fun i => x.testBit i)).getD n
def revBits (n x : Nat) : Nat := (List.range n).foldl (fun r i => if x.testBit i then r + 2 ^ (n - 1 - i) else r) 0

def execPopc (o : AluB NTy) (s : State) : Host.Outcome State Fault Refusal := unary o.g o.d o.a (nBits o.ty) 1 (popCount (nBits o.ty)) s
def execClz (o : AluB NTy) (s : State) : Host.Outcome State Fault Refusal := unary o.g o.d o.a (nBits o.ty) 1 (leadZeros (nBits o.ty)) s
def execCtz (o : AluB NTy) (s : State) : Host.Outcome State Fault Refusal := unary o.g o.d o.a (nBits o.ty) 1 (trailZeros (nBits o.ty)) s
def execBrev (o : AluB NTy) (s : State) : Host.Outcome State Fault Refusal :=
  unary o.g o.d o.a (nBits o.ty) (regsFor (nBits o.ty)) (revBits (nBits o.ty)) s

/-- bfe (R184): position and length from the control word. -/
def bfeBits (n : Nat) (signed : Bool) (a ctl : Nat) : Nat :=
  let pos := ctl % 256
  let len := ctl / 256 % 256
  if n ≤ pos || len == 0 then 0
  else
    let len := min len (n - pos)
    wrapInt n (intOf len signed (a / 2 ^ pos))

def bfiBits (n a ctl c : Nat) : Nat :=
  let pos := ctl % 256
  let len := ctl / 256 % 256
  if n ≤ pos || len == 0 then c
  else
    let len := min len (n - pos)
    c % 2 ^ pos + a % 2 ^ len * 2 ^ pos + c / 2 ^ (pos + len) * 2 ^ (pos + len)

def execBfe (o : AluM IntTy MSrc Unit Unit Unit Unit) (s : State) : Host.Outcome State Fault Refusal :=
  shiftOp o.g o.d o.a o.b (intBits o.ty) (bfeBits (intBits o.ty) (intSigned o.ty)) s

def execBfi (o : AluM NTy MSrc RSrc Unit Unit Unit) (s : State) : Host.Outcome State Fault Refusal :=
  let n := nBits o.ty
  let w := regsFor n
  issue 12 o.g (aluSpec o.g (.dst o.d w) [(1, o.a, w), (2, o.b, 1)] [(3, o.c, w)])
    (laneBody o.d w (fun e l => lane3 (e.msrc (rdN n) (.logic n) l o.a) (e.msrc .w32 (.logic 32) l o.b) (e.rsrc (rdN n) l o.c) (bfiBits n))) s

/-- One byte of bpick (R185). -/
def bpickByte (a b c i : Nat) : Nat :=
  let y := (b * 2 ^ 32 + a) / 256 ^ (c / 2 ^ (3 * i) % 8) % 256
  if c.testBit (16 + i) then 0
  else if c.testBit (12 + i) then (if y.testBit 7 then 0xFF else 0)
  else y

def execBpick (o : AluM Unit MSrc RSrc Unit Unit Unit) (s : State) : Host.Outcome State Fault Refusal :=
  word3 o (.int 32) (fun a b c => bpickByte a b c 0 + bpickByte a b c 1 * 256 + bpickByte a b c 2 * 65536 + bpickByte a b c 3 * 16777216) s

/-! ## Moves (R186, R187) -/

def execMov (o : AluB NTy) (s : State) : Host.Outcome State Fault Refusal :=
  unary o.g o.d o.a (nBits o.ty) (regsFor (nBits o.ty)) (fun a => a) s

def execMovi (o : MoviOps) (s : State) : Host.Outcome State Fault Refusal :=
  let n := intBits o.ty
  let w := regsFor n
  issue 12 o.g (aluSpec o.g (.dst o.d w) [] [])
    (laneBody o.d w (fun _ _ => ⟨[], wrapInt n (if intSigned o.ty then o.imm.toInt else o.imm.toNat), .live, 0⟩)) s

/-- The first register that movx reaches through its index, and whether it lies among the declared ones (R187). -/
def movxReg (e : Env) (base : Nat) (w : Nat) (b : Src) : Nat := base + e.uni .w32 b * w
def movxOk (e : Env) (g w : Nat) : Bool := g + w ≤ e.nv && g + w ≤ 768

def vcode (o : Src) : Nat := match o with | .v n => n.val | _ => 0
def dcode (o : Dst) : Nat := match o with | .v n => n.val | .s _ => 0

/-- movx.rd (R187). -/
def execMovxRd (o : MovxOps) (s : State) : Host.Outcome State Fault Refusal :=
  let w := regsFor (nBits o.ty)
  issue 12 o.g
    (fun e => { guard := o.g, noCox := true, uses := [.dstV o.d w, .vec 1 o.a w, .uni 2 o.b], more := rangeFrom (movxReg e (vcode o.a) w o.b % 1024) w })
    (fun e s g =>
      let k := movxReg e (vcode o.a) w o.b
      if !movxOk e k w then .trap s (Trap.withInfo cIllegalRegister (1 * 2 ^ 10 + fSrc.enc o.a))
      else laneBody o.d w (fun e l => lane1 (e.core.vval (w == 2) k l) (fun a => a)) e s g) s

/-- movx.wr (R187): the register written is the indexed one. -/
def execMovxWr (o : MovxOps) (s : State) : Host.Outcome State Fault Refusal :=
  let n := nBits o.ty
  let w := regsFor n
  issue 12 o.g
    (fun e => { guard := o.g, noCox := true, uses := [.dstV o.d w, .src 1 o.a w, .uni 2 o.b], more := rangeFrom (movxReg e (dcode o.d) w o.b % 1024) w })
    (fun e s g =>
      let k := movxReg e (dcode o.d) w o.b
      if h : movxOk e k w = true ∧ k < 768 then laneBody (.v ⟨k, h.2⟩) w (fun e l => lane1 (e.src (rdN n) l o.a) (fun a => a)) e s g
      else .trap s (Trap.withInfo cIllegalRegister (fDst.enc o.d))) s

/-- sel (R188). With a scalar destination the lane whose predicate decides is an open choice (log entry 10). -/
def execSel (o : AluM NTy MSrc PReg Unit Unit Unit) (s : State) : Host.Outcome State Fault Refusal :=
  let n := nBits o.ty
  let w := regsFor n
  issue 12 o.g (aluSpec o.g (.dst o.d w) [(1, o.a, w), (2, o.b, w)] [])
    (fun e s g =>
      let (i, s) := match o.d with | .s _ => s.choose e.lanes.length | .v _ => (0, s)
      let lp := e.lanes.getD i 0
      laneBody o.d w (fun e l =>
        let a := e.msrc (rdN n) (.logic n) l o.a
        let b := e.msrc (rdN n) (.logic n) l o.b
        let l' := match o.d with | .s _ => lp | .v _ => l
        let v := if (e.core.pred o.c.val).getLsbD l' then a else b
        ⟨[a.st, b.st], v.bits, v.st, 0⟩) e s g) s

/-! ## Compares (R189, Table 8.5) -/

/-- A condition written to a predicate pair; a POISON operand traps (R76, R138). -/
def condBody (k : Fin 6) (f : Env → Nat → LaneRes) (e : Env) (s : State) (g : Gang) : Res :=
  let rs := e.lanes.map (fun l => (l, f e l))
  if anyExpired rs then .trap s (Trap.plain cExpiredRead)
  else if rs.any (fun r => r.2.st == .poison) then .trap s (Trap.plain cPoisonConsumed)
  else
    let v := maskOf ((rs.filter (fun r => r.2.bits != 0)).map (·.1))
    .ok s { g with core := (g.core.setPredPair k.val e.on v).orFlags (joinFlags (rs.map (fun r => (r.2.st, r.2.flags)))) } e.through

def icondHolds (c : ICond) (a b : Int) : Bool :=
  match c with
  | .eq => decide (a = b)
  | .ne => decide (a ≠ b)
  | .lt => decide (a < b)
  | .le => decide (a ≤ b)
  | .gt => decide (b < a)
  | .ge => decide (b ≤ a)

/-- The sources of a Form CMP instruction. -/
def cmpSpec (g : Guard) (a b : RSrc) (w : Nat) : Spec :=
  { guard := g, uses := [useR 1 a w, useR 2 b w], marks := markOf a.src a.last w ++ markOf b.src b.last w }

def execIcmp (o : CmpOps IntTy ICond) (s : State) : Host.Outcome State Fault Refusal :=
  let n := intBits o.ty
  let sg := intSigned o.ty
  issue 8 o.g (fun _ => cmpSpec o.g o.a o.b (regsFor n))
    (condBody o.k (fun e l => lane2 (e.rsrc (rdN n) l o.a) (e.rsrc (rdN n) l o.b)
      (fun a b => (icondHolds o.cnd (intOf n sg a) (intOf n sg b)).toNat))) s

end Sys2Proof.Machine
end

