-- ==== Sys2Proof/Machine/FpArith.lean ====
section
/-! DEFINITION. Floating-point compares (R189), arithmetic (R190, R191) and packed 16-bit arithmetic (R192). -/

namespace Sys2Proof.Machine

/-- SAT on a floating-point result (Table 4.5). -/
def satF (f : Fmt) (sat : Bool) (r : Nat × Flags) : Nat × Flags := if sat then (clamp01 f r.1, r.2) else r

/-! ## Compares -/

def execFcmp (o : CmpOps FcTy FCond) (s : State) : Host.Outcome State Fault Refusal :=
  let f := fcFmt o.ty
  issue 8 o.g (fun _ => cmpSpec o.g o.a o.b (regsFor f.width))
    (condBody o.k (fun e l => laneF2 (e.rsrc (.flt f) l o.a) (e.rsrc (.flt f) l o.b)
      (fun a b => let r := fCmp (fpEnv e.core.fpmode .dyn) f o.cnd (a % 2 ^ f.width) (b % 2 ^ f.width); (r.1.toNat, r.2)))) s

/-! ## The two-source family (Table 8.7) -/

def fltBinary {S R : Type} (o : AluM FltTy MSrc Unit S R Unit) (rnd : Rnd) (sat : Bool) (op : FpEnv → Fmt → Nat → Nat → Nat × Flags) (s : State) :
    Host.Outcome State Fault Refusal :=
  let f := fltFmt o.ty
  let w := regsFor f.width
  issue 12 o.g (aluSpec o.g (.dst o.d w) [(1, o.a, w), (2, o.b, w)] [])
    (laneBody o.d w (fun e l => laneF2 (e.msrc (.flt f) (.flt f) l o.a) (e.msrc (.flt f) (.flt f) l o.b)
      (fun a b => satF f sat (op (fpEnv e.core.fpmode rnd) f a b)))) s

def execFadd (o : AluM FltTy MSrc Unit Bool Rnd Unit) (s : State) : Host.Outcome State Fault Refusal := fltBinary o o.rnd o.sat fAdd s
def execFsub (o : AluM FltTy MSrc Unit Bool Rnd Unit) (s : State) : Host.Outcome State Fault Refusal := fltBinary o o.rnd o.sat fSub s
def execFmul (o : AluM FltTy MSrc Unit Bool Rnd Unit) (s : State) : Host.Outcome State Fault Refusal := fltBinary o o.rnd o.sat fMul s
def execFmin (o : AluM FltTy MSrc Unit Unit Unit Unit) (s : State) : Host.Outcome State Fault Refusal :=
  fltBinary o .dyn false (fun p f => fMinMax p f false) s
def execFmax (o : AluM FltTy MSrc Unit Unit Unit Unit) (s : State) : Host.Outcome State Fault Refusal :=
  fltBinary o .dyn false (fun p f => fMinMax p f true) s

/-- a × b + c with one rounding (R95). -/
def execFfma (o : AluM FltTy MSrc RSrc Bool Rnd Unit) (s : State) : Host.Outcome State Fault Refusal :=
  let f := fltFmt o.ty
  let w := regsFor f.width
  issue 12 o.g (aluSpec o.g (.dst o.d w) [(1, o.a, w), (2, o.b, w)] [(3, o.c, w)])
    (laneBody o.d w (fun e l => laneF3 (e.msrc (.flt f) (.flt f) l o.a) (e.msrc (.flt f) (.flt f) l o.b) (e.rsrc (.flt f) l o.c)
      (fun a b c => satF f o.sat (fFma (fpEnv e.core.fpmode o.rnd) f Config.fmaZeroInfNan a b c)))) s

/-- The sign bit cleared, bit for bit (R98). -/
def execFabs (o : AluB FltTy) (s : State) : Host.Outcome State Fault Refusal :=
  let f := fltFmt o.ty
  let w := regsFor f.width
  issue 8 o.g (aluSpec o.g (.dst o.d w) [] [(1, o.a, w)])
    (laneBody o.d w (fun e l => lane1 (e.rsrc (.flt f) l o.a) (fun a => a % f.signBit))) s

def execFrnd (o : AluM FltTy Unit Unit Unit Rnd Unit) (s : State) : Host.Outcome State Fault Refusal :=
  let f := fltFmt o.ty
  let w := regsFor f.width
  issue 12 o.g (aluSpec o.g (.dst o.d w) [(1, o.a, w)] [])
    (laneBody o.d w (fun e l => laneF1 (e.msrc (.flt f) (.flt f) l o.a) (fRnd (fpEnv e.core.fpmode o.rnd) f))) s

/-- R191: one register whatever the type. -/
def execFclass (o : AluB FltTy) (s : State) : Host.Outcome State Fault Refusal :=
  let f := fltFmt o.ty
  issue 8 o.g (aluSpec o.g (.dst o.d 1) [] [(1, o.a, regsFor f.width)])
    (laneBody o.d 1 (fun e l => lane1 (e.rsrc (.flt f) l o.a) (fun a => 2 ^ fClass f a))) s

/-- a × 2^b, b one register read as i32. -/
def execFscale (o : AluM FltTy MSrc Unit Bool Rnd Unit) (s : State) : Host.Outcome State Fault Refusal :=
  let f := fltFmt o.ty
  let w := regsFor f.width
  issue 12 o.g (aluSpec o.g (.dst o.d w) [(1, o.a, w), (2, o.b, 1)] [])
    (laneBody o.d w (fun e l => laneF2 (e.msrc (.flt f) (.flt f) l o.a) (e.msrc .w32 (.int 32) l o.b)
      (fun a b => satF f o.sat (fScale (fpEnv e.core.fpmode o.rnd) f a (intOf 32 true b))))) s

/-! ## Packed 16-bit pairs -/

/-- Both elements, or element 0 alone with zero above (XF[0], `.lo`). -/
def packed (lo : Bool) (op : Nat → Nat × Flags) : Nat × Flags :=
  let r0 := op 0
  if lo then r0 else let r1 := op 1; (r1.1 * 2 ^ 16 + r0.1, r0.2 ||| r1.2)

/-- Element `j` of a packed word. -/
def half16 (x j : Nat) : Nat := x / 2 ^ (16 * j) % 2 ^ 16

def packedBinary {S R : Type} (o : AluM HTy MSrc Unit S R Bool) (rnd : Rnd) (sat : Bool) (op : FpEnv → Fmt → Nat → Nat → Nat × Flags) (s : State) :
    Host.Outcome State Fault Refusal :=
  let f := hFmt o.ty
  issue 12 o.g (aluSpec o.g (.dst o.d 1) [(1, o.a, 1), (2, o.b, 1)] [])
    (laneBody o.d 1 (fun e l => laneF2 (e.msrc (.pk f) (.pk f) l o.a) (e.msrc (.pk f) (.pk f) l o.b)
      (fun a b => packed o.xf (fun j => satF f sat (op (fpEnv e.core.fpmode rnd) f (half16 a j) (half16 b j)))))) s

def execHadd2 (o : AluM HTy MSrc Unit Bool Rnd Bool) (s : State) : Host.Outcome State Fault Refusal := packedBinary o o.rnd o.sat fAdd s
def execHmul2 (o : AluM HTy MSrc Unit Bool Rnd Bool) (s : State) : Host.Outcome State Fault Refusal := packedBinary o o.rnd o.sat fMul s
def execHmin2 (o : AluM HTy MSrc Unit Unit Unit Bool) (s : State) : Host.Outcome State Fault Refusal :=
  packedBinary o .dyn false (fun p f => fMinMax p f false) s
def execHmax2 (o : AluM HTy MSrc Unit Unit Unit Bool) (s : State) : Host.Outcome State Fault Refusal :=
  packedBinary o .dyn false (fun p f => fMinMax p f true) s

def execHfma2 (o : AluM HTy MSrc RSrc Bool Rnd Bool) (s : State) : Host.Outcome State Fault Refusal :=
  let f := hFmt o.ty
  issue 12 o.g (aluSpec o.g (.dst o.d 1) [(1, o.a, 1), (2, o.b, 1)] [(3, o.c, 1)])
    (laneBody o.d 1 (fun e l => laneF3 (e.msrc (.pk f) (.pk f) l o.a) (e.msrc (.pk f) (.pk f) l o.b) (e.rsrc (.pk f) l o.c)
      (fun a b c => packed o.xf (fun j =>
        satF f o.sat (fFma (fpEnv e.core.fpmode o.rnd) f Config.fmaZeroInfNan (half16 a j) (half16 b j) (half16 c j)))))) s

end Sys2Proof.Machine
end

