-- ==== Sys2Proof/Machine/Convert.lean ====
section
/-! DEFINITION. Conversions (R193 to R195), special functions (R196) and the arrival of queued results (R175). -/

namespace Sys2Proof.Machine

/-! ## The fifteen types of Table 6.6 -/

inductive NumKind
  | int (n : Nat) (signed : Bool)
  | flt (f : Fmt)
deriving DecidableEq, Repr

def numKind : NumTy → NumKind
  | .i32 => .int 32 true | .n32 => .int 32 false | .i64 => .int 64 true | .n64 => .int 64 false
  | .i16 => .int 16 true | .n16 => .int 16 false | .i8 => .int 8 true | .n8 => .int 8 false
  | .f32 => .flt fp32 | .f64 => .flt fp64 | .f16 => .flt fp16 | .bf16 => .flt bf16
  | .e4m3 => .flt fE4m3 | .e5m2 => .flt fE5m2 | .e2m1 => .flt fE2m1

def NumKind.width : NumKind → Nat
  | .int n _ => n
  | .flt f => f.width

def NumKind.rd : NumKind → Rd
  | .int n _ => if n = 64 then .w64 else if n = 32 then .w32 else .int n
  | .flt f => .flt f

def NumKind.neg : NumKind → NegK
  | .int n _ => .int n
  | .flt f => .flt f

/-- A narrow integer as its register holds it: a sign copy above i8 and i16, zero above the others (R193). -/
def NumKind.extend (k : NumKind) (x : Nat) : Nat :=
  match k with
  | .int n true => if n < 32 then wrapInt 32 (intOf n true x) else x
  | _ => x

/-- One conversion by the row of Table 8.9 that the types select. -/
def convert (p : FpEnv) (dst src : NumKind) (sat : Bool) (x : Nat) : Nat × Flags :=
  let x := x % 2 ^ src.width
  match src, dst with
  | .flt a, .flt b => cvtFF p a b sat x
  | .flt a, .int n sg => let r := cvtFI p a n sg x; (dst.extend r.1, r.2)
  | .int n sg, .flt b => cvtIF p n sg b sat x
  | .int n sg, .int m sm =>
    let v := intOf n sg x
    (dst.extend (wrapInt m (if sat then clampInt m sm v else v)), 0)

def execCvt (o : AluM NumTy Unit Unit Bool Rnd NumTy) (s : State) : Host.Outcome State Fault Refusal :=
  let dst := numKind o.ty
  let src := numKind o.xf
  let w := regsFor dst.width
  issue 12 o.g (aluSpec o.g (.dst o.d w) [(1, o.a, regsFor src.width)] [])
    (queueBody .convert o.d w (fun e l => laneF1 (e.msrc src.rd src.neg l o.a)
      (convert (fpEnv e.core.fpmode o.rnd) dst src o.sat))) s

def pkKind : PkTy → NumKind
  | .i16 => .int 16 true | .n16 => .int 16 false | .i8 => .int 8 true | .n8 => .int 8 false
  | .f16 => .flt fp16 | .bf16 => .flt bf16 | .e4m3 => .flt fE4m3 | .e5m2 => .flt fE5m2 | .e2m1 => .flt fE2m1

/-- {c, e1, e0} of Table 8.10 for elements of `n` bits. -/
def packWord (n e0 e1 c : Nat) : Nat :=
  let lo := e1 % 2 ^ n * 2 ^ n + e0 % 2 ^ n
  if n = 16 then lo else c / 2 ^ (2 * n) * 2 ^ (2 * n) + lo

/-- cvtpk (R194): the bits passed from c poison D; c is not read for 16-bit elements. -/
def execCvtpk (o : AluM PkTy MSrc RSrc Bool Rnd Unit) (s : State) : Host.Outcome State Fault Refusal :=
  let k := pkKind o.ty
  let n := k.width
  issue 12 o.g (aluSpec o.g (.dst o.d 1) [(1, o.a, 1), (2, o.b, 1)] (if n = 16 then [] else [(3, o.c, 1)]))
    (queueBody .convert o.d 1 (fun e l =>
      let a := e.msrc (.flt fp32) (.flt fp32) l o.a
      let b := e.msrc (.flt fp32) (.flt fp32) l o.b
      let c := if n = 16 then Val.live 0 else e.rsrc .w32 l o.c
      let p := fpEnv e.core.fpmode o.rnd
      laneF3 a b c (fun a b c =>
        let r0 := convert p k (.flt fp32) o.sat a
        let r1 := convert p k (.flt fp32) o.sat b
        (packWord n r0.1 r1.1 c, r0.2 ||| r1.2)))) s

/-- cvtsc (R195) with one source and the conversion `f` under the effective mode. -/
def scaleOp {R : Type} (o : AluM Unit Unit Unit Unit R Unit) (rnd : Rnd) (rd : Rd) (neg : NegK) (f : FpEnv → Nat → Nat × Flags) (s : State) :
    Host.Outcome State Fault Refusal :=
  issue 12 o.g (aluSpec o.g (.dst o.d 1) [(1, o.a, 1)] [])
    (queueBody .convert o.d 1 (fun e l => laneF1 (e.msrc rd neg l o.a) (f (fpEnv e.core.fpmode rnd)))) s

def execCvtscToe8 (o : AluM Unit Unit Unit Unit Rnd Unit) (s : State) : Host.Outcome State Fault Refusal :=
  scaleOp o o.rnd (.flt fp32) (.flt fp32) toE8 s
def execCvtscTos24 (o : AluM Unit Unit Unit Unit Rnd Unit) (s : State) : Host.Outcome State Fault Refusal :=
  scaleOp o o.rnd (.flt fp32) (.flt fp32) toS24 s
/-- The scale code is read as an untyped word; NEG negates it as an integer (log entry 11). -/
def execCvtscFrome8 (o : AluM Unit Unit Unit Unit Unit Unit) (s : State) : Host.Outcome State Fault Refusal :=
  scaleOp o .dyn .w32 (.int 32) fromE8 s
def execCvtscFroms24 (o : AluM Unit Unit Unit Unit Unit Unit) (s : State) : Host.Outcome State Fault Refusal :=
  scaleOp o .dyn .w32 (.int 32) (fun _ => fromS24) s

/-! ## Special functions (R196, R102) -/

def sfuOp {R : Type} (g : Guard) (f : Fmt) (op : SfuOp) (sat : Bool) (rnd : Rnd) (o : AluM R Unit Unit Bool Unit Unit) (s : State) :
    Host.Outcome State Fault Refusal :=
  let w := regsFor f.width
  issue 12 g (aluSpec g (.dst o.d w) [(1, o.a, w)] [])
    (queueBody .special o.d w (fun e l => laneF1 (e.msrc (.flt f) (.flt f) l o.a)
      (fun a => satF f sat (sfu (fpEnv e.core.fpmode rnd) f op a)))) s

def execFrcp (o : AluM Unit Unit Unit Bool Unit Unit) (s : State) : Host.Outcome State Fault Refusal := sfuOp o.g fp32 .rcp o.sat .dyn o s
def execFrsq (o : AluM Unit Unit Unit Bool Unit Unit) (s : State) : Host.Outcome State Fault Refusal := sfuOp o.g fp32 .rsq o.sat .dyn o s
def execFexp2 (o : AluM Unit Unit Unit Bool Unit Unit) (s : State) : Host.Outcome State Fault Refusal := sfuOp o.g fp32 .exp2 o.sat .dyn o s
def execFlog2 (o : AluM Unit Unit Unit Bool Unit Unit) (s : State) : Host.Outcome State Fault Refusal := sfuOp o.g fp32 .log2 o.sat .dyn o s
def execFsin (o : AluM Unit Unit Unit Bool Unit Unit) (s : State) : Host.Outcome State Fault Refusal := sfuOp o.g fp32 .sin o.sat .dyn o s
def execFcos (o : AluM Unit Unit Unit Bool Unit Unit) (s : State) : Host.Outcome State Fault Refusal := sfuOp o.g fp32 .cos o.sat .dyn o s
def execFtanh (o : AluM Unit Unit Unit Bool Unit Unit) (s : State) : Host.Outcome State Fault Refusal := sfuOp o.g fp32 .tanh o.sat .dyn o s

/-- fsqrt alone has a mode and an FP64 form. -/
def execFsqrt (o : AluM FltTy Unit Unit Bool Rnd Unit) (s : State) : Host.Outcome State Fault Refusal :=
  let f := fltFmt o.ty
  let w := regsFor f.width
  issue 12 o.g (aluSpec o.g (.dst o.d w) [(1, o.a, w)] [])
    (queueBody .special o.d w (fun e l => laneF1 (e.msrc (.flt f) (.flt f) l o.a)
      (fun a => satF f o.sat (sfu (fpEnv e.core.fpmode o.rnd) f .sqrt a)))) s

/-! ## Arrival (R175, R246) -/

/-- A result in flight is written: registers become LIVE or POISON and are renewed, scalar registers take their value. -/
def GangCore.deliver (c : GangCore) (code tick id : Nat) : GangCore :=
  match c.pend.find? (fun p => p.id == id) with
  | none => c
  | some p =>
    let c := p.lanes.foldl (fun c l => c.writeWords code tick p.reg l.lane.val l.words) c
    let c := p.scalars.foldl (fun c q => c.setSreg q.1 q.2) c
    { c with pend := c.pend.filter (fun q => q.id != id), ld := if p.kind == .load then c.ld - 1 else c.ld }

/-- A gang takes a result in flight, in its present state and in the state its chunk would be rolled back to if the request was made before the chunk (R175). -/
def State.arrive (s : State) (gang id : Nat) : State :=
  s.mapGang gang (fun g => g.mapBoth (fun c => c.deliver (s.regCode g) s.tick id))

/-- Whether a gang has a result in flight of the given kinds. -/
def State.hasPend (s : State) (gang id : Nat) (ks : List PendKind) : Bool :=
  match s.gang? gang with
  | some g => g.core.pend.any (fun p => p.id == id && ks.contains p.kind)
  | none => false

def execQueuedResultWrite (gang id : Nat) (s : State) : Host.Outcome State Fault Refusal :=
  event (fun s => if s.hasPend gang id [.special, .convert] then s.arrive gang id else s) s

end Sys2Proof.Machine
end

