-- ==== Sys2Proof/Machine/GangOps.lean ====
section
/-! DEFINITION. Predicates (R197), gang operations (R198 to R202) and the legacy unit (R203, R204). -/

namespace Sys2Proof.Machine

/-! ## Predicates (R197) -/

/-- A source predicate over the lanes; none is always true. -/
def GangCore.predSrc (c : GangCore) (p : Option PReg) : LaneMask := match p with | some q => c.pred q.val | none => BitVec.allOnes 64

def predOp (g : Guard) (d : PReg) (f : GangCore → LaneMask) (s : State) : Host.Outcome State Fault Refusal :=
  issue 8 g (fun _ => { guard := g }) (fun e s g => .ok s { g with core := g.core.setPred d.val e.on (f e.core) } e.through) s

def execPand (o : Pred2) (s : State) : Host.Outcome State Fault Refusal := predOp o.g o.d (fun c => c.predSrc o.a &&& c.predSrc o.b) s
def execPor (o : Pred2) (s : State) : Host.Outcome State Fault Refusal := predOp o.g o.d (fun c => c.predSrc o.a ||| c.predSrc o.b) s
def execPxor (o : Pred2) (s : State) : Host.Outcome State Fault Refusal := predOp o.g o.d (fun c => c.predSrc o.a ^^^ c.predSrc o.b) s
def execPnot (o : Pred1) (s : State) : Host.Outcome State Fault Refusal := predOp o.g o.d (fun c => ~~~(c.predSrc o.a)) s
def execPmov (o : Pred1) (s : State) : Host.Outcome State Fault Refusal := predOp o.g o.d (fun c => c.predSrc o.a) s

/-! ## shfl (R198) -/

/-- The lane that lane `l` reads, of the segment of `seg` lanes that holds it. -/
def shflIdxLane (seg l d : Nat) : Nat := (l - l % seg) + d % seg
def shflUpLane (seg l d : Nat) : Nat := if d ≤ l % seg then l - d else l
def shflDownLane (seg l d : Nat) : Nat := if l % seg + d < seg then l + d else l
def shflXorLane (seg l d : Nat) : Nat := l ^^^ (d % seg)

def shfl (o : ShflOps) (f : Nat → Nat → Nat → Nat) (s : State) : Host.Outcome State Fault Refusal :=
  let n := nBits o.ty
  let w := regsFor n
  let seg := 2 ^ (o.q.val + 1)
  issue 12 o.g
    (fun e => { guard := o.g, noCox := true, coll := true, fieldsOk := e.width == 64 || o.q.val != 5,
                uses := [.dst o.d w, useR 1 o.a w, useR 2 o.b 1], marks := markOf o.a.src o.a.last w ++ markOf o.b.src o.b.last 1 })
    (fun e s g =>
      let rs := e.results o.d (fun l =>
        let b := e.rsrc .w32 l o.b
        let a := e.rsrc (rdN n) (f seg l b.bits) o.a
        ⟨[a.st, b.st], a.bits, joinSt a.st b.st, 0⟩)
      if anyExpired rs then .trap s (Trap.plain cExpiredRead)
      else if rs.any (fun r => r.2.st == .poison) then .trap s (Trap.plain cPoisonConsumed)
      else .ok s { g with core := g.core.writeDst (s.regCode g) s.tick o.d w rs } e.through) s

def execShflIdx (o : ShflOps) (s : State) : Host.Outcome State Fault Refusal := shfl o shflIdxLane s
def execShflUp (o : ShflOps) (s : State) : Host.Outcome State Fault Refusal := shfl o shflUpLane s
def execShflDown (o : ShflOps) (s : State) : Host.Outcome State Fault Refusal := shfl o shflDownLane s
def execShflXor (o : ShflOps) (s : State) : Host.Outcome State Fault Refusal := shfl o shflXorLane s

/-! ## quorum and ballot (R199, R200) -/

def quorum (g : Guard) (k : Fin 6) (q : PReg) (uses : List Use) (test : Env → Nat → Nat → Bool) (s : State) : Host.Outcome State Fault Refusal :=
  issue 8 g (fun _ => { guard := g, noCox := true, coll := true, uses := uses })
    (fun e s g =>
      let n := countLanes (e.act &&& e.core.pred q.val)
      let r := test e n (countLanes e.act)
      .ok s { g with core := g.core.setPredPair k.val e.on (if r then BitVec.allOnes 64 else 0) } e.through) s

def execQuorumGe (o : QuorumT) (s : State) : Host.Outcome State Fault Refusal :=
  quorum o.g o.k o.q [.uni 1 o.t] (fun e n _ => decide (e.uni .w32 o.t ≤ n)) s
def execQuorumLt (o : QuorumT) (s : State) : Host.Outcome State Fault Refusal :=
  quorum o.g o.k o.q [.uni 1 o.t] (fun e n _ => decide (n < e.uni .w32 o.t)) s
def execQuorumSame (o : QuorumS) (s : State) : Host.Outcome State Fault Refusal :=
  quorum o.g o.k o.q [] (fun _ n m => n == 0 || n == m) s

def execBallot (o : BallotOps) (s : State) : Host.Outcome State Fault Refusal :=
  issue 8 o.g (fun _ => { guard := o.g, noCox := true, coll := true, uses := [.dstS o.d] })
    (fun e s g =>
      match o.d with
      | .s n => .ok s { g with core := g.core.setSreg n.val (e.act &&& e.core.predSrc o.q) } e.through
      | .v _ => .trap s (Trap.withInfo cIllegalRegister (fDst.enc o.d))) s

/-! ## Reduction trees (R105, R106) -/

/-- A node's value: none where no lane takes part; and the flags of its combines. -/
abbrev Node := Option Nat × Flags

/-- A combine: a side with no participant passes the other through (R105). -/
def combine (op : Nat → Nat → Nat × Flags) (a b : Node) : Node :=
  match a.1, b.1 with
  | some x, some y => let r := op x y; (some r.1, a.2 ||| b.2 ||| r.2)
  | some x, none => (some x, a.2 ||| b.2)
  | none, y => (y, a.2 ||| b.2)

/-- The next level of the tree: neighbouring nodes combined. -/
def treeLevel (op : Nat → Nat → Nat × Flags) : List Node → List Node
  | a :: b :: r => combine op a b :: treeLevel op r
  | l => l

/-- Levels 0 to 6 of the tree, leaves first. -/
def treeLevels (op : Nat → Nat → Nat × Flags) : Nat → List Node → List (List Node)
  | 0, l => [l]
  | k + 1, l => l :: treeLevels op k (treeLevel op l)

/-- The nodes that cover lanes 0 to `m` - 1, largest first: one for each set bit of `m` (R106). -/
def coverNodes (levels : List (List Node)) (m : Nat) : List Node :=
  (((List.range 7).reverse).filter (fun k => m.testBit k)).map (fun k => (levels.getD k []).getD (m / 2 ^ (k + 1) * 2) (none, 0))

def foldNodes (op : Nat → Nat → Nat × Flags) : List Node → Node
  | [] => (none, 0)
  | x :: r => r.foldl (combine op) x

inductive RedKind
  | int (n : Nat) (signed : Bool)
  | flt (f : Fmt)
deriving DecidableEq, Repr

def redKind : RedTy → RedKind
  | .i32 => .int 32 true | .n32 => .int 32 false | .i64 => .int 64 true | .n64 => .int 64 false
  | .f32 => .flt fp32 | .f64 => .flt fp64

/-- One combine (R105). -/
def redCombine (p : FpEnv) (k : RedKind) (op : RedOp) (x y : Nat) : Nat × Flags :=
  match k with
  | .int n sg => (intRed n sg op x y, 0)
  | .flt f =>
    match op with
    | .min => fMinMax p f false x y
    | .max => fMinMax p f true x y
    | _ => fAdd p f x y

/-- The identity of Table 4.10. -/
def redIdentity (k : RedKind) (op : RedOp) : Nat :=
  match k with
  | .int n sg =>
    match op with
    | .add | .or | .xor => 0
    | .min => wrapInt n (intMax n sg)
    | .max => wrapInt n (intMin n sg)
    | .and => 2 ^ n - 1
  | .flt f =>
    match op with
    | .min => f.infCode
    | .max => f.sign true f.infCode
    | _ => f.signBit

def RedKind.width : RedKind → Nat | .int n _ => n | .flt f => f.width
def RedKind.rd : RedKind → Rd | .int n _ => rdN n | .flt f => .flt f
def RedKind.neg : RedKind → NegK | .int n _ => .int n | .flt f => .flt f

/-- The leaves of the tree: the value of every member lane. -/
def redLeaves (k : RedKind) (e : Env) (a : MSrc) : List Node :=
  (List.range 64).map (fun l => if e.act.getLsbD l then (some ((e.msrc k.rd k.neg l a).bits), 0) else (none, 0))

/-- What a reduction's sources do before it executes (R66, R46). -/
def redTrap (k : RedKind) (e : Env) (a : MSrc) : Option Trap :=
  let st := (lanesOf e.act).map (fun l => (e.msrc k.rd k.neg l a).st)
  if st.any (· == .expired) then some (Trap.plain cExpiredRead)
  else if st.any (· == .poison) then some (Trap.plain cPoisonConsumed) else none

def redSpec (g : Guard) (d : Use) (a : MSrc) (w : Nat) (e : Env) : Spec :=
  { guard := g, noCox := true, coll := true, fieldsOk := e.modOk a, uses := [d, .red 1 a.src w], marks := markOf a.src a.last w }

/-- redux (R201). -/
def execRedux (o : AluM RedSel Unit Unit Unit Rnd Unit) (s : State) : Host.Outcome State Fault Refusal :=
  let k := redKind o.ty.ty
  let w := regsFor k.width
  issue 12 o.g (redSpec o.g (.dst o.d w) o.a w)
    (fun e s g =>
      match redTrap k e o.a with
      | some t => .trap s t
      | none =>
        let op := redCombine (fpEnv e.core.fpmode o.rnd) k o.ty.op
        let root := ((treeLevels op 6 (redLeaves k e o.a)).getD 6 []).headD (none, 0)
        let v := root.1.getD (redIdentity k o.ty.op)
        let core := g.core.writeDst (s.regCode g) s.tick o.d w ((e.computing o.d).map (fun l => (l, ⟨[], v, .live, root.2⟩)))
        .ok s { g with core := core.orFlags root.2 } e.through) s

/-- scan (R202): the flags are those of the nodes and steps that some member lane's result uses (R106). -/
def execScan (o : AluM RedSel Unit Unit Unit Rnd Bool) (s : State) : Host.Outcome State Fault Refusal :=
  let k := redKind o.ty.ty
  let w := regsFor k.width
  issue 12 o.g (redSpec o.g (.dstV o.d w) o.a w)
    (fun e s g =>
      match redTrap k e o.a with
      | some t => .trap s t
      | none =>
        let op := redCombine (fpEnv e.core.fpmode o.rnd) k o.ty.op
        let levels := treeLevels op 6 (redLeaves k e o.a)
        let rs : List (Nat × LaneRes) := e.lanes.map (fun l =>
          let r := foldNodes op (coverNodes levels (if o.xf then l else l + 1))
          (l, ⟨[], r.1.getD (redIdentity k o.ty.op), .live, r.2⟩))
        let core := g.core.writeDst (s.regCode g) s.tick o.d w rs
        .ok s { g with core := core.orFlags (joinFlags (rs.map (fun r => (VSt.live, r.2.flags)))) } e.through) s

/-! ## The legacy unit (R203, R204) -/

/-- Requests of a gang's core that hold a credit. -/
def State.legacyOut (s : State) (die core : Nat) : Nat := (s.legacy.filter (fun r => r.1 == die && r.2.1 == core)).length

/-- The body of lgc: one of the core's 8 credits, and a request of the die's legacy unit whose result is written when it is served. -/
def legacyBody (d : Dst) (w : Nat) (f : Env → Nat → LaneRes) (e : Env) (s : State) (g : Gang) : Res :=
  let core := match e.crew with | some c => c.coreIx | none => 0
  let die := coreDie core
  let rs := e.results d (f e)
  if 8 ≤ s.legacyOut die core then .stall s .credit
  else if anyExpired rs then .trap s (Trap.plain cExpiredRead)
  else
    let c := g.core.orFlags (joinFlags (rs.map (fun r => (r.2.st, r.2.flags))))
    .ok { s with nextId := s.nextId + 1, legacy := s.legacy ++ [(die, core, g.id, s.nextId)] }
      { g with core := { c with pend := c.pend ++ [pendOf s.nextId .legacy d w rs] } } e.through

def lgcSpec (g : Guard) (d : Dst) (w : Nat) (ms : List (Nat × MSrc × Nat)) (e : Env) : Spec := { aluSpec g (.dst d w) ms [] e with noCox := true }

def lgcInt (o : AluM W32Ty MSrc Unit Unit Unit Unit) (f : Bool → Nat → Nat → Nat) (s : State) : Host.Outcome State Fault Refusal :=
  issue 12 o.g (lgcSpec o.g o.d 1 [(1, o.a, 1), (2, o.b, 1)])
    (legacyBody o.d 1 (fun e l => lane2 (e.msrc .w32 (.int 32) l o.a) (e.msrc .w32 (.int 32) l o.b) (f (o.ty == .i32)))) s

def execLgcDiv (o : AluM W32Ty MSrc Unit Unit Unit Unit) (s : State) : Host.Outcome State Fault Refusal := lgcInt o lgcDiv s
def execLgcRem (o : AluM W32Ty MSrc Unit Unit Unit Unit) (s : State) : Host.Outcome State Fault Refusal := lgcInt o lgcRem s

def lgcFlt (o : AluM Unit Unit Unit Unit Unit Unit) (f : Nat → Nat × Flags) (s : State) : Host.Outcome State Fault Refusal :=
  issue 12 o.g (lgcSpec o.g o.d 1 [(1, o.a, 1)])
    (legacyBody o.d 1 (fun e l => laneF1 (e.msrc (.flt fp32) (.flt fp32) l o.a) f)) s

def execLgcRcp (o : AluM Unit Unit Unit Unit Unit Unit) (s : State) : Host.Outcome State Fault Refusal := lgcFlt o (lgcFloat .rcp) s
def execLgcRsq (o : AluM Unit Unit Unit Unit Unit Unit) (s : State) : Host.Outcome State Fault Refusal := lgcFlt o (lgcFloat .rsq) s
def execLgcSin (o : AluM Unit Unit Unit Unit Unit Unit) (s : State) : Host.Outcome State Fault Refusal := lgcFlt o (lgcTrig .sin) s
def execLgcCos (o : AluM Unit Unit Unit Unit Unit Unit) (s : State) : Host.Outcome State Fault Refusal := lgcFlt o (lgcTrig .cos) s
def execLgcEx2 (o : AluM Unit Unit Unit Unit Unit Unit) (s : State) : Host.Outcome State Fault Refusal := lgcFlt o (lgcFloat .exp2) s
def execLgcLg2 (o : AluM Unit Unit Unit Unit Unit Unit) (s : State) : Host.Outcome State Fault Refusal := lgcFlt o (lgcFloat .log2) s

def lgcPair (o : AluM W64Ty MSrc Unit Unit Unit Unit) (big : Bool) (s : State) : Host.Outcome State Fault Refusal :=
  issue 12 o.g (lgcSpec o.g o.d 2 [(1, o.a, 2), (2, o.b, 2)])
    (legacyBody o.d 2 (fun e l => lane2 (e.msrc .w64 (.int 64) l o.a) (e.msrc .w64 (.int 64) l o.b) (lgcHalves (o.ty == .i64) big))) s

def execLgcMin (o : AluM W64Ty MSrc Unit Unit Unit Unit) (s : State) : Host.Outcome State Fault Refusal := lgcPair o false s
def execLgcMax (o : AluM W64Ty MSrc Unit Unit Unit Unit) (s : State) : Host.Outcome State Fault Refusal := lgcPair o true s

/-- The legacy unit of a die serves its oldest request: the result is written and the credit returns; a squashed chunk's request only returns its credit (R204). -/
def execLegacyRequestService (die : Fin 4) (s : State) : Host.Outcome State Fault Refusal :=
  event (fun s =>
    match s.legacy.find? (fun r => r.1 == die.val) with
    | none => s
    | some r => { s.arrive r.2.2.1 r.2.2.2 with legacy := s.legacy.erase r }) s

end Sys2Proof.Machine
end

