-- ==== Sys2Proof/Machine/Control.lean ====
section
/-! DEFINITION. Branches, calls, exit, nop, hardware loops, join (R207 to R218), chunk instructions (R219, R220). -/

namespace Sys2Proof.Machine

/-- Every lane that executes goes to one PC. -/
def Env.allTo (e : Env) (pc : Word64) (w : Wait) : After := { e.through with next := e.lanes.map (fun l => (l, pc)), wait := w }

/-! ## Transfers (R207, R208) -/

/-- The trap of the lowest lane whose target breaks R25. -/
def targetTrap : List (Nat × Nat) → Option Trap
  | [] => none
  | (l, t) :: r =>
    if t % 4 ≠ 0 then some (Trap.atAddr cAlignment t l 0)
    else if !canonical t then some (Trap.atAddr cPermission t l 0)
    else targetTrap r

/-- Go to the targets, writing the link pair in each lane first if there is one. -/
def transfer (e : Env) (s : State) (g : Gang) (link : Option Dst) (ts : List (Nat × Nat)) : Res :=
  match targetTrap ts with
  | some t => .trap s t
  | none =>
    let core := match link with
      | some d => g.core.writeDst (s.regCode g) s.tick d 2 (e.lanes.map (fun l => (l, ⟨[], e.nextPc.toNat, .live, 0⟩)))
      | none => g.core
    .ok s { g with core := core } { e.through with next := ts.map (fun t => (t.1, BitVec.ofNat 64 t.2)) }

/-- PC + 4 × sext(OFF, 64). -/
def branchTarget (e : Env) (off : BitVec 40) : Nat := (BitVec.ofNat 64 e.pc + 4 * off.signExtend 64).toNat

def execBra (o : BraOps) (s : State) : Host.Outcome State Fault Refusal :=
  issue 8 o.g (fun _ => { guard := o.g })
    (fun e s g => transfer e s g none (e.lanes.map (fun l => (l, branchTarget e o.off)))) s

def execCall (o : CallOps) (s : State) : Host.Outcome State Fault Refusal :=
  issue 8 o.g (fun _ => { guard := o.g, uses := [.dstV o.d 2] })
    (fun e s g => transfer e s g (some o.d) (e.lanes.map (fun l => (l, branchTarget e o.off)))) s

/-- Targets from a 64-bit operand (R206, R76). -/
def indirect (e : Env) (s : State) (g : Gang) (link : Option Dst) (a : RSrc) : Res :=
  let vs := e.lanes.map (fun l => (l, e.rsrc .w64 l a))
  if vs.any (fun v => v.2.st == .expired) then .trap s (Trap.plain cExpiredRead)
  else if vs.any (fun v => v.2.st == .poison) then .trap s (Trap.plain cPoisonConsumed)
  else transfer e s g link (vs.map (fun v => (v.1, v.2.bits)))

def brxSpec (g : Guard) (a : RSrc) : Spec := { guard := g, uses := [useR 1 a 2], marks := markOf a.src a.last 2 }

def execBrx (o : BrxOps) (s : State) : Host.Outcome State Fault Refusal :=
  issue 8 o.g (fun _ => brxSpec o.g o.a) (fun e s g => indirect e s g none o.a) s

/-- ret differs only in what it tells the return-address predictor, which no result depends on. -/
def execRet (o : BrxOps) (s : State) : Host.Outcome State Fault Refusal :=
  issue 8 o.g (fun _ => brxSpec o.g o.a) (fun e s g => indirect e s g none o.a) s

def execCallx (o : CallxOps) (s : State) : Host.Outcome State Fault Refusal :=
  issue 8 o.g (fun _ => { guard := o.g, uses := [.dstV o.d 2, useR 1 o.a 2], marks := markOf o.a.src o.a.last 2 })
    (fun e s g => indirect e s g (some o.d) o.a) s

/-! ## exit and nop (R209, R211) -/

/-- Whether the instruction runs inside an explicit chunk. -/
def Gang.inExplicit (g : Gang) : Bool := match g.chunk with | some c => c.expl.isSome | none => false

def execExit (g : Guard) (s : State) : Host.Outcome State Fault Refusal :=
  issue 8 g (fun _ => { guard := g })
    (fun e s g => if g.inExplicit then .abort s 0 stUnsupported else .ok s g { e.through with gone := e.on }) s

def execNop (g : Guard) (s : State) : Host.Outcome State Fault Refusal :=
  issue 8 g (fun _ => { guard := g }) (fun e s g => .ok s g e.through) s

def execNopL (g : Guard) (s : State) : Host.Outcome State Fault Refusal :=
  issue 12 g (fun _ => { guard := g }) (fun e s g => .ok s g e.through) s

/-! ## Loops (R213 to R215) -/

def execLp (o : LpOps) (s : State) : Host.Outcome State Fault Refusal :=
  issue 12 o.g (fun _ => { guard := o.g, uses := [.uni 1 o.a] })
    (fun e s g =>
      let stop := BitVec.ofNat 64 (e.pc + 4 * o.dist.toNat)
      let n := e.uni .w32 o.a
      if !e.core.unsplit then .trap s (Trap.plain cCollectiveSplit)
      else if e.on != e.act then .trap s (Trap.plain cCollectiveGuard)
      else if n = 0 then .ok s g (e.allTo stop .ready)
      else if 3 ≤ e.core.ldepth then .trap s (Trap.plain cIllegalEncoding)
      else
        let k := e.core.ldepth
        let core := g.core.setLoop k ⟨BitVec.ofNat 32 n, e.nextPc, stop, e.act, 0⟩
        .ok s (({ g with core := { core with ldepth := k + 1 } } : Gang).keepBody (s.bodyShort g e.nextPc stop) ⟨k, e.nextPc, stop⟩) e.through) s

def execLpbrk (g : Guard) (s : State) : Host.Outcome State Fault Refusal :=
  issue 8 g (fun _ => { guard := g })
    (fun e s g =>
      if e.core.ldepth = 0 then .trap s (Trap.plain cIllegalEncoding)
      else
        let i := e.core.ldepth - 1
        let k := e.core.loop i
        let core := g.core.setLoop i { k with lmask := k.lmask &&& ~~~e.on, xmask := k.xmask ||| e.on }
        .ok s { g with core := core } (e.allTo k.stop (.loopEnd e.core.nextOrder))) s

/-! ## join (R218, R36, R37) -/

def execJoin (o : GA) (s : State) : Host.Outcome State Fault Refusal :=
  issue 8 o.g (fun _ => { guard := o.g, uses := [.sreg 1 o.a] })
    (fun e s g =>
      let m := BitVec.ofNat 64 (e.uni .w64 o.a) &&& allLanes e.width
      .ok s g (e.allTo (BitVec.ofNat 64 e.pc) (.join m e.core.nextOrder))) s

/-! ## Explicit chunks (R117 to R120, R219, R220) -/

/-- chk.begin opens an explicit chunk whose members are the group's active lanes; a guard that differs across them aborts it at once. -/
def execChkBegin (o : ChkBeginOps) (s : State) : Host.Outcome State Fault Refusal :=
  issue 12 o.g (fun _ => { guard := o.g, uses := [.dstS o.d], chunk := .before })
    (fun e s g =>
      let fb := BitVec.ofNat 64 e.pc + 4 * o.off.signExtend 64
      if !canonical fb.toNat then .trap s (Trap.plain cPermission)
      else
        match o.d with
        | .v _ => .trap s (Trap.withInfo cIllegalRegister (fDst.enc o.d))
        | .s n =>
          let x : Expl := { pc := BitVec.ofNat 64 e.pc, fallback := fb, status := n, members := e.act, before := g.core, block := s.curBlk }
          let core := e.move (g.core.setSreg n.val 0) [⟨e.act, e.nextPc, .ready, 0⟩]
          let c := { Chunk.fresh core with expl := some x }
          let g1 := { g with core := core, chunk := some c }
          if e.on != e.act then .done (s.abortExplicit g1 c x e.pc 0 0 stGuard)
          else if core.idle then .done (s.abortExplicit g1 c x e.pc 0 0 stUnsupported)
          else .done (s.putGang g1)) s

/-- chk.end closes an explicit chunk; outside one it acts as chk.cut. -/
def execChkEnd (g : Guard) (s : State) : Host.Outcome State Fault Refusal :=
  issue 8 g (fun _ => { guard := g, chunk := .bracket })
    (fun e s g =>
      if g.inExplicit && e.on != e.act then .abort s 0 stGuard
      else .ok s { g with chunk := g.chunk.map (fun c => { c with closed := true }) } e.through) s

def execChkAbort (o : GA) (s : State) : Host.Outcome State Fault Refusal :=
  issue 8 o.g (fun _ => { guard := o.g, uses := [.uni 1 o.a], chunk := .bracket })
    (fun e s g => if g.inExplicit then .abort s (e.uni .w32 o.a % 2 ^ 16) stSoftware else .ok s g e.through) s

def execChkCut (g : Guard) (s : State) : Host.Outcome State Fault Refusal :=
  issue 8 g (fun _ => { guard := g, chunk := .after }) (fun e s g => .ok s g e.through) s

end Sys2Proof.Machine
end

