-- ==== Sys2Proof/Machine/Sync.lean ====
section
/-! DEFINITION. Barriers (R222 to R224), fences and wait (R225 to R229), events (R230 to R238), mailboxes (R239 to R241), semaphores (R242 to R244). -/

namespace Sys2Proof.Machine

/-! ## Barriers -/

/-- Slots a crew reserved at a scope (Table 15.1). -/
def Desc.barSlots (d : Desc) : Scope → Nat
  | .gang => 0
  | .crew => d.bcrew
  | .quad => d.bquad
  | .die => d.bdie
  | .pkg => d.bpkg
  | .pod => d.bpod

/-- The slot a crew names at a scope. -/
def Crew.barKey (c : Crew) (sc : Scope) (slot : Nat) : BarKey :=
  ⟨sc, c.item, (match sc with | .crew => c.id | .quad => quadOf c.coreIx | .die => coreDie c.coreIx | _ => 0), slot⟩

/-- A barrier instruction: `arr` makes an arrival, `wt` waits. At .gang scope it goes on at once. -/
def barrier (o : BarOps) (arr wt : Bool) (s : State) : Host.Outcome State Fault Refusal :=
  issue 8 o.g (fun _ => { guard := o.g, noCox := true, coll := true, uses := if o.scope = .gang then [] else [.uni 1 o.a], chunk := .after })
    (fun e s g =>
      match o.scope, e.crew with
      | .gang, _ => .ok s g e.through
      | sc, some c =>
        let n := e.uni .w32 o.a
        if c.desc.barSlots sc ≤ n then .trap s (Trap.plain cResource)
        else
          let k := c.barKey sc n
          let ch := g.chunk.map (fun x => if arr then { x with defer := x.defer ++ [.arrive k] } else x)
          .ok s { g with chunk := ch } { e.through with wait := if wt then .bar k else .ready }
      | _, none => .trap s (Trap.plain cResource)) s

def execBarArrive (o : BarOps) (s : State) : Host.Outcome State Fault Refusal := barrier o true false s
def execBarWait (o : BarOps) (s : State) : Host.Outcome State Fault Refusal := barrier o false true s
def execBarSync (o : BarOps) (s : State) : Host.Outcome State Fault Refusal := barrier o true true s

/-! ## Fences and wait -/

/-- fence orders nothing beyond what chunk order does; it ends the chunk (R126). -/
def execFence (o : FenceOps) (s : State) : Host.Outcome State Fault Refusal :=
  issue 8 o.g (fun _ => { guard := o.g, chunk := .after }) (fun e s g => .ok s g e.through) s

/-- fence.x stalls the group until the accesses of class X made for the gang before it have been performed: commands and requests named below the package's next name (R126). -/
def execFenceX (o : FenceXOps) (s : State) : Host.Outcome State Fault Refusal :=
  issue 8 o.g (fun _ => { guard := o.g, chunk := .after })
    (fun e s g => .ok s g { e.through with wait := .stall (.fence o.x s.nextId), next := e.lanes.map (fun l => (l, e.nextPc)) }) s

/-- Every counter is at or below its limit. -/
def GangCore.within (c : GangCore) (ld st cp tl : Nat) : Bool := c.ld ≤ ld && c.st ≤ st && c.cp ≤ cp && c.tl ≤ tl

def execWait (o : WaitOps) (s : State) : Host.Outcome State Fault Refusal :=
  issue 12 o.g (fun _ => { guard := o.g })
    (fun e s g =>
      let ld := o.ld.toNat
      let st := o.st.toNat
      let cp := o.cp.toNat
      let tl := o.tl.toNat
      if g.core.within ld st cp tl then .ok s g e.through
      else
        match g.chunk with
        | some c => if c.expl.isSome || c.count != 0 then .endBefore s g else .stall s (.counters ld st cp tl)
        | none => .stall s (.counters ld st cp tl)) s

/-! ## Names (R239, R242) -/

/-- What a name operand gives. -/
inductive NameRes
  | ok (n : Nat)
  | remote
  | trap (c : Cause)
deriving DecidableEq, Repr

/-- A mailbox name: die × 1024 + index. -/
def mbxName (s : State) (g : Gang) (x : Nat) : NameRes :=
  if x / 2 ^ 12 != 0 then .trap cIllegalEncoding
  else if !s.granted g (mboxKey x) then .trap cPermission else .ok x

/-- A semaphore name: its number in the package, or a pod semaphore of another package. A malformed name is ILLEGAL_ENCODING before RESOURCE and PERMISSION are looked at, the order in which R242 lists them (the model's choice, log entry 73: R206 has those two before the remaining checks). Mailbox names likewise. A nonzero DIE field of a crew-relative name is ILLEGAL_ENCODING (the model's choice, log entry 99: Table 9.12 says so of PKG alone). -/
def semName (s : State) (g : Gang) (x : Nat) : NameRes :=
  let idx := bitsAt x 0 12
  if semSpace x = 3 || bitsAt x 24 6 != 0 then .trap cIllegalEncoding
  else if semSpace x = 0 then
    if bitsAt x 6 18 != 0 then .trap cIllegalEncoding
    else match s.crewOf g with
      | some c => if idx < c.sems.length then .ok (c.sems.getD idx 0) else .trap cResource
      | none => .trap cResource
  else if semSpace x = 1 && semPkg x != 0 then .trap cIllegalEncoding
  else if semSpace x = 2 && semPkg x != s.pkgNo then .remote
  else if !s.granted g (semKey (semIndex x)) then .trap cPermission else .ok (semIndex x)

/-! ## Binding events (R230 to R232) -/

/-- A descriptor and argument that keep R231. -/
def bindWellFormed (d arg : Nat) : Bool :=
  let kind := bitsAt d 60 4
  let id := bitsAt d 0 54
  1 ≤ kind && kind ≤ 5 && bitsAt d 54 2 == 0 &&
  (if kind = 1 then 2 ≤ bitsAt d 56 3 && bitsAt d 56 3 ≤ 6 && id < 256 && arg == 0
   else bitsAt d 56 3 == 0 &&
     (if kind = 2 then true
      else if kind = 3 then id < 2 ^ 32 && arg == 0
      else if kind = 4 then id < 2 ^ 32 && arg < 2 ^ 32
      else id == 0 && bitsAt d 59 1 == 1))

def scopeOf (n : Nat) : Scope := match n with | 2 => .crew | 3 => .quad | 4 => .die | 5 => .pkg | _ => .pod

/-- The virtual address of bits [56:3], sign-extended (R25). -/
def compVa (id : Nat) : Nat := (BitVec.ofNat 57 (id * 8)).signExtend 64 |>.toNat

/-- Slots a gang may bind (R232). -/
def Env.evSlots (e : Env) : Nat := match e.crew with | some c => c.desc.ne | none => 16

/-- The source of a descriptor, or the trap it takes. -/
def bindSrc (e : Env) (s : State) (g : Gang) (d arg : Nat) : Except Trap EvSrc × State :=
  let kind := bitsAt d 60 4
  let id := bitsAt d 0 54
  if kind = 1 then
    match e.crew with
    | some c =>
      let sc := scopeOf (bitsAt d 56 3)
      if c.desc.barSlots sc ≤ id then (.error (Trap.plain cResource), s) else (.ok (.bar (c.barKey sc id)), s)
    | none => (.error (Trap.plain cResource), s)
  else if kind = 2 then
    let va := compVa id
    match s.xlat e.ctx e.sup .load .lane va with
    | (.error c, s) => (.error (Trap.atAddr c va (lowestLane e.on) accRead), s)
    | (.ok l, s) => (.ok (.comp e.ctx e.sup va l.la arg), s)
  else if kind = 3 then
    match mbxName s g id with
    | .ok n => (.ok (.mbx n), s)
    | .remote => (.error (Trap.plain cPermission), s)
    | .trap c => (.error (Trap.plain c), s)
  else if kind = 4 then
    match semName s g id with
    | .ok n => (.ok (.sem n arg), s)
    | .remote => (.error (Trap.plain cPermission), s)
    | .trap c => (.error (Trap.plain c), s)
  else (.ok (.timer arg), s)

def bit16 (j : Nat) : BitVec 16 := BitVec.ofNat 16 (2 ^ j)

/-- Slot `j` stands unlatched with binding `b`. -/
def GangCore.rebind (c : GangCore) (j : Nat) (b : Option Binding) : GangCore :=
  { c with binds := setAt j b c.binds, evpend := c.evpend &&& ~~~(bit16 j), rearm := c.rearm &&& ~~~(bit16 j) }

def execEvbind (o : EvbindOps) (s : State) : Host.Outcome State Fault Refusal :=
  issue 12 o.g (fun _ => { guard := o.g, uses := [.uni 1 o.a, .uni 2 o.b, .uni 3 o.c] })
    (fun e s g =>
      let j := e.uni .w32 o.a
      let d := e.uni .w64 o.b
      let arg := e.uni .w64 o.c
      let h := BitVec.ofNat 64 e.pc + 4 * o.off.signExtend 64
      if !bindWellFormed d arg then .trap s (Trap.plain cIllegalEncoding)
      else if e.evSlots ≤ j then .trap s (Trap.plain cResource)
      else
        match bindSrc e s g d arg with
        | (.error t, s) => .trap s t
        | (.ok src, s) =>
          if !canonical h.toNat then .trap s (Trap.plain cPermission)
          else
            let core := g.core.rebind j (some ⟨src, bitsAt d 59 1 == 1, h⟩)
            let core := if s.level src then { core with evpend := core.evpend ||| bit16 j } else core
            .ok s { g with core := core, chunk := g.chunk.map (fun c => { c with rebound := c.rebound ||| bit16 j }) } e.through) s

def execEvunbind (o : GA) (s : State) : Host.Outcome State Fault Refusal :=
  issue 8 o.g (fun _ => { guard := o.g, uses := [.uni 1 o.a] })
    (fun e s g =>
      let j := e.uni .w32 o.a
      if e.evSlots ≤ j then .trap s (Trap.plain cResource)
      else .ok s { g with core := g.core.rebind j none, chunk := g.chunk.map (fun c => { c with rebound := c.rebound ||| bit16 j }) } e.through) s

/-- Write a scalar destination. -/
def GangCore.putS (c : GangCore) (d : Dst) (x : Word64) : GangCore := match d with | .s n => c.setSreg n.val x | .v _ => c

def execEvmask (o : GDA) (s : State) : Host.Outcome State Fault Refusal :=
  issue 8 o.g (fun _ => { guard := o.g, uses := [.dstS o.d, .uni 1 o.a] })
    (fun e s g =>
      .ok s { g with core := { g.core.putS o.d (g.core.even.setWidth 64) with even := BitVec.ofNat 16 (e.uni .w64 o.a) } } e.through) s

def execEvpoll (o : GDA) (s : State) : Host.Outcome State Fault Refusal :=
  issue 8 o.g (fun _ => { guard := o.g, uses := [.dstS o.d, .uni 1 o.a] })
    (fun e s g =>
      let c := { s.reeval g.core.rearm g.core with rearm := 0 }
      let clear := c.evpend &&& BitVec.ofNat 16 (e.uni .w64 o.a)
      let c1 := s.reeval clear { c.putS o.d (c.evpend.setWidth 64) with evpend := c.evpend &&& ~~~clear }
      .ok s { g with core := c1, chunk := g.chunk.map (fun x => { x with polled := x.polled ||| (g.core.evpend &&& clear) }) } e.through) s

/-- waitany parks the gang at its own PC; its tests follow the commit of the chunk it ends (R235). -/
def execWaitany (o : GDA) (s : State) : Host.Outcome State Fault Refusal :=
  issue 8 o.g (fun _ => { guard := o.g, coll := true, uses := [.dstS o.d, .uni 1 o.a], chunk := .after })
    (fun e s g =>
      match o.d with
      | .s n => .ok s g (e.allTo (BitVec.ofNat 64 e.pc) (.events (e.uni .w64 o.a % 2 ^ 16) n))
      | .v _ => .trap s (Trap.withInfo cIllegalRegister (fDst.enc o.d))) s

/-! ## Delivery (R235) -/

/-- The lowest slot that may be delivered. -/
def GangCore.readySlot (c : GangCore) (mask : Nat) : Option Nat :=
  (List.range 16).find? (fun j => (c.evpend &&& c.even &&& BitVec.ofNat 16 mask).getLsbD j)

/-- Enter the handler of slot `j` from a waitany. -/
def GangCore.enterHandler (c : GangCore) (x : SubGang) (d : Fin 128) (j : Nat) : GangCore :=
  match c.binds.getD j none with
  | none => c
  | some b =>
    let c1 := { c.setSreg d.val (x.pc + 8) with evpend := c.evpend &&& ~~~(bit16 j), evslot := BitVec.ofNat 32 j }
    let c2 := if b.one then { c1 with binds := setAt j none c1.binds } else { c1 with rearm := c1.rearm ||| bit16 j }
    c2.wake (fun y => y.lanes == x.lanes) (fun _ => b.handler)

/-- Whether a gang may be moved on now: a cox core that runs, or a gang of a crew that is resident and running. -/
def State.gangRuns (s : State) (g : Gang) : Bool :=
  match g.crew with
  | some k => (match s.crew? k with | some c => s.crewRuns c | none => false)
  | none => let c := s.coxOf g.id; c.started && !c.stopped

def State.deliverEvent (s : State) (gid : Nat) : State :=
  match s.gang? gid with
  | none => s
  | some g =>
    if !g.between || !s.gangRuns g then s
    else
      match g.core.subs.find? (fun x => match x.wait with | .events .. => true | _ => false) with
      | none => s
      | some x =>
        match x.wait with
        | .events m d =>
          (match g.core.readySlot m with
           | some j => s.putGang { g with core := g.core.enterHandler x d j }
           | none => s)
        | _ => s

def execEventDelivery (gang : Nat) (s : State) : Host.Outcome State Fault Refusal := event (fun s => s.deliverEvent gang) s

/-- The tick of a timer's deadline latches its slot (Table 9.10); gangs in waitany are then tested. -/
def State.expireTimer (s : State) (gid : Nat) (j : Nat) : State :=
  match s.gang? gid with
  | none => s
  | some g =>
    match g.core.binds.getD j none with
    | some b =>
      (match b.src with
       | .timer t =>
         if t ≤ s.tick then
           let s := s.putGang (g.mapCore (fun c => { c with evpend := c.evpend ||| bit16 j }))
           if g.core.waitsEvents then s.addDue (.eventDelivery gid) else s
         else s
       | _ => s)
    | none => s

def execTimerExpiry (gang : Nat) (slot : Fin 16) (s : State) : Host.Outcome State Fault Refusal :=
  event (fun s => s.expireTimer gang slot.val) s

/-! ## Mailboxes -/

/-- Messages that open chunks, and commits not yet released, hold places for (R240). -/
def State.mbxHeld (s : State) (m : Nat) : Nat :=
  sumOf (fun (g : Gang) => (g.unreleased.filter (fun d => match d with | .post k _ => k == m | _ => false)).length) s.gangs

def State.mbxFull (s : State) (m : Nat) : Bool := 16 ≤ (s.mbox m).length + s.mbxHeld m

/-- An effect joins the chunk's deferred ones (R121). -/
def Gang.defer (g : Gang) (d : Deferred) : Gang := { g with chunk := g.chunk.map (fun c => { c with defer := c.defer ++ [d] }) }

def execMbxPost (o : GAB) (s : State) : Host.Outcome State Fault Refusal :=
  issue 8 o.g (fun _ => { guard := o.g, uses := [.uni 1 o.a, .uni 2 o.b] })
    (fun e s g =>
      match mbxName s g (e.uni .w32 o.a) with
      | .ok m =>
        if s.mbxFull m then .stall s (.mbx m)
        else .ok s (g.defer (.post m (BitVec.ofNat 64 (e.uni .w64 o.b)))) e.through
      | .remote => .trap s (Trap.plain cPermission)
      | .trap c => .trap s (Trap.plain c)) s

/-- Set a predicate in every active lane whose guard holds. -/
def GangCore.setFlag (c : GangCore) (k : PReg) (on : LaneMask) (b : Bool) : GangCore :=
  c.setPred k.val on (if b then BitVec.allOnes 64 else 0)

def execMbxTake (o : MbxTakeOps) (s : State) : Host.Outcome State Fault Refusal :=
  issue 8 o.g (fun _ => { guard := o.g, uses := [.dstS o.d, .uni 1 o.a], chunk := .own })
    (fun e s g =>
      match mbxName s g (e.uni .w32 o.a) with
      | .ok m =>
        (match s.mbox m with
         | x :: r => .ok (s.setMbox m r) { g with core := (g.core.putS o.d x).setFlag o.k e.on true } e.through
         | [] => .ok s { g with core := g.core.setFlag o.k e.on false } e.through)
      | .remote => .trap s (Trap.plain cPermission)
      | .trap c => .trap s (Trap.plain c)) s

/-! ## Semaphores -/

def execSemSig (o : GAB) (s : State) : Host.Outcome State Fault Refusal :=
  issue 8 o.g (fun _ => { guard := o.g, uses := [.uni 1 o.a, .uni 2 o.b] })
    (fun e s g =>
      let name := e.uni .w32 o.a
      match semName s g name with
      | .trap c => .trap s (Trap.plain c)
      | _ => .ok s (g.defer (.signal name (e.uni .w32 o.b))) e.through) s

/-- Whether a request of a threshold succeeds at once: a threshold of 0 always does (R244). -/
def Sem.serves (x : Sem) (thr : Nat) : Bool := thr == 0 || (x.fifo.isEmpty && thr ≤ x.value)

def execSemTry (o : SemTryOps) (s : State) : Host.Outcome State Fault Refusal :=
  issue 8 o.g (fun _ => { guard := o.g, uses := [.uni 1 o.a, .uni 2 o.b], chunk := .own })
    (fun e s g =>
      let thr := e.uni .w32 o.b
      match semName s g (e.uni .w32 o.a) with
      | .ok n =>
        let yes := (s.sem n).serves thr
        .ok (if yes then s.semTake n thr else s) { g with core := g.core.setFlag o.k e.on yes } e.through
      | .remote => .trap s (Trap.plain cPermission)
      | .trap c => .trap s (Trap.plain c)) s

/-- sem.wait: the group that is not served joins the FIFO at its own PC and goes on after it when served. -/
def execSemWait (o : GAB) (s : State) : Host.Outcome State Fault Refusal :=
  issue 8 o.g (fun _ => { guard := o.g, uses := [.uni 1 o.a, .uni 2 o.b], chunk := .own })
    (fun e s g =>
      let thr := e.uni .w32 o.b
      match semName s g (e.uni .w32 o.a) with
      | .ok n =>
        if (s.sem n).serves thr then .ok (s.semTake n thr) g e.through
        else
          let x := s.sem n
          .ok (s.setSem n { x with fifo := x.fifo ++ [(.group g.id (toLane (lowestLane e.act)), thr)] }) g
            (e.allTo (BitVec.ofNat 64 e.pc) (.sem n thr))
      | .remote => .trap s (Trap.plain cPermission)
      | .trap c => .trap s (Trap.plain c)) s

end Sys2Proof.Machine
end

