-- ==== Sys2Proof/Machine/LaneMem.lean ====
section
/-! DEFINITION. Lane accesses to the operand store and to global memory: ldo, sto, ldg, stg (R245 to R249), the atomics and redg (R250 to R253), allocation (R254 to R258). -/

namespace Sys2Proof.Machine

/-! ## Where an access goes -/

/-- A byte of per-thread space, of a crew's space, or of global memory. -/
inductive Place
  | thr (lane a : Nat)
  | crew (id off : Nat)
  | glob (la : Nat)
deriving DecidableEq, Repr

/-- The line of a place for the chunk's sets; private accesses have none (R56, R108). -/
def Place.line : Place → Option Line
  | .thr .. => none
  | .crew id off => some (.store id (off / 64))
  | .glob la => some (.glob (la / 64))

def Place.shift (p : Place) (i : Nat) : Place :=
  match p with
  | .thr l a => .thr l (a + i)
  | .crew id off => .crew id (off + i)
  | .glob la => .glob (la + i)

/-- A crew as the gang's open chunk sees it: the held changes of its map and configuration applied (R255, R281). -/
def State.crewView (s : State) (g : Gang) (c : Crew) : Crew :=
  match g.chunk with
  | none => c
  | some ch => ch.ops.foldl (fun k o => k.applyOp (s.codeApplied (coreDie c.coreIx)) s.tick (s.crewUsers c.id) o) c

def Desc.privBytes (d : Desc) : Nat := 16 * d.np
def Desc.crewBytes (d : Desc) : Nat := 256 * d.nc
def Desc.staticBytes (d : Desc) : Nat := 256 * d.ns

/-- The crew of a core whose space holds core-relative bytes, in the same context, until it exits (R78). -/
def State.crewAt (s : State) (core ctx a n : Nat) : Option Crew :=
  s.crews.find? (fun c => c.live && !s.crewExited c && c.coreIx == core && c.ctx == ctx && c.base ≤ a && a + n ≤ c.base + c.desc.crewBytes)

/-- The place of an operand-store access of `n` bytes; none where it is out of range (R78). -/
def State.storePlace (s : State) (g : Gang) (own : Crew) (sp : Space) (lane ea n : Nat) : Option Place :=
  match sp with
  | .thr => if ea + n ≤ own.desc.privBytes then some (.thr lane ea) else none
  | .crew => if (s.crewView g own).allocs.any (fun a => a.holds ea n) then some (.crew own.id ea) else none
  | .quad =>
    if 2 ^ 26 ≤ ea then none
    else
      let a := ea % 2 ^ 24
      match s.crewAt (own.coreIx / 4 * 4 + ea / 2 ^ 24) own.ctx a n with
      | none => none
      | some c =>
        let c := if c.id = own.id then s.crewView g own else c
        if c.allocs.any (fun x => x.holds (a - c.base) n) then some (.crew c.id (a - c.base)) else none

/-! ## Reading and writing as the open chunk sees it (R65, R109) -/

/-- The committed operand-store word that holds a byte. -/
def State.committedWord (s : State) (g : Gang) (p : Place) : Cell :=
  match p with
  | .thr l a => (match g.core.spaces.find? (fun x => x.lane == l) with
    | some x => cellAt x.fill x.cells (a / 4)
    | none => ⟨0, .live⟩)
  | .crew id off => (match s.crew? id with
    | some c =>
      let c := if g.crew == some id then s.crewView g c else c
      (match c.allocs.find? (fun x => x.holds off 1) with
       | some x => cellAt x.fill x.cells (off / 4)
       | none => ⟨0, .live⟩)
    | none => ⟨0, .live⟩)
  | .glob _ => ⟨0, .live⟩

/-- The held byte of a place. -/
def Chunk.heldByte (c : Chunk) (p : Place) : Option Byte :=
  match p with
  | .thr l a => spFind c.tst (thrKey l a)
  | .crew id off => spFind c.cst (crewKey id off)
  | .glob la => spFind c.gst la

/-- One byte with the state of its value (R65, R74). A byte that the open chunk itself stored into a poisoned line is read as stored, LIVE (R115): the model's choice (log entry 75), since R370 has every load of the line POISON until it is whole. -/
def State.seeByte (s : State) (g : Gang) (p : Place) : Byte × VSt :=
  match g.chunk.bind (fun c => c.heldByte p) with
  | some b => (b, .live)
  | none =>
    match p with
    | .glob la => if s.linePoisoned la then (0xFF, .poison) else (memByte s.mem la, .live)
    | .thr _ a => let w := s.committedWord g p; (BitVec.ofNat 8 (w.data.toNat / 256 ^ (a % 4)), w.st)
    | .crew _ off => let w := s.committedWord g p; (BitVec.ofNat 8 (w.data.toNat / 256 ^ (off % 4)), w.st)

def State.seeBytes (s : State) (g : Gang) (p : Place) (n : Nat) : List (Byte × VSt) := (List.range n).map (fun i => s.seeByte g (p.shift i))

def bytesVal (bs : List (Byte × VSt)) : Val := ⟨ofBytesLE (bs.map (·.1)), bs.foldl (fun st b => joinSt st b.2) .live⟩

/-- Hold bytes stored by a lane; a later lane's byte remains (R109). -/
def Chunk.hold (c : Chunk) (p : Place) : List Byte → Chunk
  | [] => c
  | b :: r =>
    (match p with
     | .thr l a => { c with tst := spSet (thrKey l a) b c.tst }
     | .crew id off => { c with cst := spSet (crewKey id off) b c.cst }
     | .glob la => { c with gst := spSet la b c.gst }).hold (p.shift 1) r

def Chunk.readsAt (c : Chunk) (p : Place) : Chunk := match p.line with | some l => c.addR l | none => c
def Chunk.writesAt (c : Chunk) (p : Place) : Chunk := match p.line with | some l => c.addW l | none => c
def Chunk.inQ (c : Chunk) (p : Place) : Bool := match p.line with | some l => c.qset.contains l | none => false

def Gang.mapChunk (g : Gang) (f : Chunk → Chunk) : Gang := { g with chunk := g.chunk.map f }

/-! ## The checks of one lane (R82, R248) -/

/-- What a lane finds: a trap at a numbered step, an out-of-range address, a missing page, or its place. -/
inductive Found
  | trap (step : Nat) (t : Trap)
  | range
  | page (t : Trap)
  | at (p : Place) (memside : Bool) (ent : TlbEnt) (ea : Nat)
deriving DecidableEq, Repr

/-- EXPIRED_READ, then POISON_CONSUMED, of a value that an access needs (ACCESS: log entry 16). -/
def stTrap (step acc : Nat) (st : VSt) : Option Found :=
  match st with
  | .expired => some (.trap step { Trap.plain cExpiredRead with access := acc })
  | .poison => some (.trap (step + 1) { Trap.plain cPoisonConsumed with access := acc })
  | .live => none

/-- The step of a translation fault among the lanes of one instruction: the order of Table 16.6. -/
def xlatStep (c : Cause) : Nat := if c = cUncorrectable then 60 else if c = cPermission then 61 else 62

/-- No translation: what a place in the operand store stands with. -/
def noEnt : TlbEnt := ⟨0, 0, 0, 0, 0, [], 0⟩

/-- How an instruction accesses: bytes, kind for translation, ACCESS field. -/
structure AccInfo where
  n : Nat
  kind : AccKind
  acc : Nat
deriving DecidableEq, Repr

/-- ldo, sto, atomo: R82, with store data after the out-of-range check (R248), the operands of an atomic right after ALIGNMENT (R250). -/
def checkStore (e : Env) (s : State) (g : Gang) (own : Crew) (sp : Space) (i : AccInfo) (l : Nat) (addr : VSt) (ea : Nat) (data : VSt) : Found :=
  match stTrap 20 i.acc addr, (if i.acc = accAtomic then stTrap 42 i.acc data else none) with
  | some f, _ => f
  | none, early =>
    if ea % i.n ≠ 0 then .trap 40 (Trap.atAddr cAlignment ea l i.acc)
    else if early.isSome then early.getD .range
    else
      match s.storePlace g own sp l ea i.n with
      | none => if own.desc.precise || e.g.inExplicit then .trap 45 (Trap.atAddr cOperandRange ea l i.acc) else .range
      | some p => (stTrap 50 i.acc data).getD (.at p false noEnt ea)

/-- ldg, stg, atomg, redg: R248. -/
def checkGlobal (e : Env) (s : State) (i : AccInfo) (l : Nat) (addr : VSt) (ea : Nat) (data : VSt) : Found × State :=
  match stTrap 20 i.acc addr with
  | some f => (f, s)
  | none =>
    if !canonical ea then (.trap 30 (Trap.atAddr cPermission ea l i.acc), s)
    else if ea % i.n ≠ 0 then (.trap 40 (Trap.atAddr cAlignment ea l i.acc), s)
    else
      match stTrap 50 i.acc data with
      | some f => (f, s)
      | none =>
        match s.xlat e.ctx e.sup i.kind .lane ea with
        | (.ok x, s) => (.at (.glob x.la) x.memside x.ent ea, s)
        | (.error c, s) =>
          if c = cPageNotPresent then (.page (Trap.atAddr c ea l i.acc), s) else (.trap (xlatStep c) (Trap.atAddr c ea l i.acc), s)

/-- What the lanes of one instruction find together. -/
structure Finds where
  trap : Option (Nat × Trap)
  ranged : List Nat
  paged : List (Nat × Trap)
  ats : List (Nat × Place × Bool × TlbEnt × Nat)
deriving DecidableEq, Repr

def Finds.none : Finds := ⟨Option.none, [], [], []⟩

/-- Add a lane's finding; lanes come in increasing order, so the first at a step stays. -/
def Finds.add (f : Finds) (l : Nat) : Found → Finds
  | .trap k t => (match f.trap with
    | some (j, _) => if k < j then { f with trap := some (k, t) } else f
    | Option.none => { f with trap := some (k, t) })
  | .range => { f with ranged := f.ranged ++ [l] }
  | .page t => { f with paged := f.paged ++ [(l, t)] }
  | .at p m v ea => { f with ats := f.ats ++ [(l, p, m, v, ea)] }

/-- The findings of every executing lane, in order. -/
def findAll (chk : Nat → State → Found × State) : List Nat → State → Finds → Finds × State
  | [], s, f => (f, s)
  | l :: r, s, f => let x := chk l s; findAll chk r x.2 (f.add l x.1)

/-- The instruction-wide outcome of the checks: a trap, parked lanes, the end of the chunk before a line held in Q (R125), or go on. `look` gives the gang with the lines of the lanes that found theirs. -/
def settleFinds (e : Env) (s : State) (g : Gang) (look : Gang → Gang) (f : Finds) (memOnly : Bool) : Option Res :=
  match f.trap with
  | some (_, t) => some (.fault s (look g) t)
  | Option.none =>
    match f.paged with
    | (_, t) :: _ => some (if e.cox then .fault s (look g) t else .park s (look g) (maskOf (f.paged.map (·.1))) t)
    | [] =>
      if f.ats.any (fun a => !(memOnly && a.2.2.1) && (match g.chunk with | some c => c.inQ a.2.1 | Option.none => false))
      then some (.endBefore s (look g)) else Option.none

/-- The translations an instruction used, with the lines reached through them, for the squash of tlbinv (R322). -/
def notePages (f : Finds) (c : Chunk) : Chunk :=
  { c with pages := f.ats.foldl (fun l a => match a.2.1 with
      | .glob la => addNew (a.2.2.2.1, Line.glob (la / 64)) l
      | _ => l) c.pages }

/-- The lanes that did not quarantine go on; quarantined ones leave (R79). -/
def Env.afterAccess (e : Env) (f : Finds) : After :=
  let q := maskOf f.ranged
  { e.through with retired := e.on &&& ~~~q, quar := q }

/-! ## Effective addresses (R245) -/

def eaOf (e : Env) (w : Nat) (a b : RSrc) (imm : Word32) (l : Nat) : VSt × Nat :=
  let x := e.rsrc (if w = 64 then .w64 else .w32) l a
  let y := e.rsrc .w32 l b
  (joinSt x.st y.st, effAddr w x.bits (BitVec.ofNat 32 y.bits) imm)

def ldBytes : LdSz → Nat | .n8 | .i8 => 1 | .n16 | .i16 => 2 | .b32 => 4 | .b64 => 8 | .b128 => 16
def stBytes : StSz → Nat | .n8 => 1 | .n16 => 2 | .b32 => 4 | .b64 => 8 | .b128 => 16
/-- Registers of an access of `n` bytes. -/
def memRegs (n : Nat) : Nat := if n = 16 then 4 else if n = 8 then 2 else 1

/-- A POISON value that a load takes from a global line has all its data bits set (Table 3.6). -/
def Cell.flood (c : Cell) : Cell := if c.st = .poison then ⟨BitVec.allOnes 32, .poison⟩ else c

/-- The registers a load writes (Table 10.2). -/
def ldCells (sz : LdSz) (bs : List (Byte × VSt)) : List Cell :=
  let v := bytesVal bs
  match sz with
  | .i8 => [⟨BitVec.ofNat 32 (wrapInt 32 (intOf 8 true v.bits)), v.st⟩]
  | .i16 => [⟨BitVec.ofNat 32 (wrapInt 32 (intOf 16 true v.bits)), v.st⟩]
  | .n8 | .n16 | .b32 => [⟨BitVec.ofNat 32 v.bits, v.st⟩]
  | .b64 | .b128 => (runs 4 4 bs).map (fun w => let x := bytesVal w; ⟨BitVec.ofNat 32 x.bits, x.st⟩)

/-- What a cox core's load writes, register by register (R247). -/
def ldScalars (sz : LdSz) (n : Nat) (bs : List (Byte × VSt)) : List (Nat × Word64) :=
  let x := (bytesVal bs).bits
  match sz with
  | .i8 => [(n, BitVec.ofNat 64 (wrapInt 64 (intOf 8 true x)))]
  | .i16 => [(n, BitVec.ofNat 64 (wrapInt 64 (intOf 16 true x)))]
  | .b128 => [(n, BitVec.ofNat 64 x), (n + 1, BitVec.ofNat 64 (x / 2 ^ 64))]
  | _ => [(n, BitVec.ofNat 64 x)]

def sregNo (d : Dst) : Nat := match d with | .s n => n.val | .v _ => 0

/-- A load in flight. -/
def loadPend (id : Nat) (cox glob : Bool) (sz : LdSz) (d : Dst) (vals : List (Nat × List (Byte × VSt))) : Pend :=
  if cox then
    { id := id, kind := .load, reg := 0, lanes := [], scalars := vals.flatMap (fun v => ldScalars sz (sregNo d) v.2) }
  else
    { id := id, kind := .load, reg := dcode d, lanes := vals.map (fun v => ⟨toLane v.1, if glob then (ldCells sz v.2).map Cell.flood else ldCells sz v.2⟩), scalars := [] }

/-- Put a result in flight. -/
def Gang.addPend (g : Gang) (p : Pend) : Gang := g.mapCore (fun c => { c with pend := c.pend ++ [p] })

/-! ## Loads -/

/-- Operands of an address (Table 10.13). A special of 32 bits may stand as a 64-bit base, read as R145 says (the model's choice, log entry 12: R245 names a 64-bit special). A last-read mark on a vector code on a cox core, where R247 makes the slot uniform, is left to the register check and is ILLEGAL_REGISTER (the model's choice, log entry 98: R71 with R205 could make it ILLEGAL_ENCODING first). -/
def addrUses (e : Env) (a b : RSrc) (w : Nat) : List Use :=
  if e.cox then [.uni 1 a.src, .uni 2 b.src] else [useR 1 a w, useR 2 b 1]

def addrMarks (a b : RSrc) (w : Nat) : List (Nat × Nat) := markOf a.src a.last w ++ markOf b.src b.last 1

def ldDst (e : Env) (d : Dst) (n : Nat) : Use :=
  if e.cox then (if n = 16 then .dstPair d else .dstS d) else .dstV d (memRegs n)

/-- The lines that a load's lanes read, with their pages. -/
def readLook (f : Finds) (g : Gang) : Gang := g.mapChunk (fun c => notePages f (f.ats.foldl (fun c a => c.readsAt a.2.1) c))

/-- Read the lanes' places, put the load in flight, note its lines. -/
def finishLoad (e : Env) (s : State) (g : Gang) (glob : Bool) (sz : LdSz) (d : Dst) (f : Finds) : Res :=
  let n := ldBytes sz
  let vals := f.ats.map (fun a => (a.1, s.seeBytes g a.2.1 n))
  let bad := f.ats.find? (fun a => (bytesVal (s.seeBytes g a.2.1 n)).st == .expired)
  let pois := f.ats.find? (fun a => e.cox && (bytesVal (s.seeBytes g a.2.1 n)).st == .poison)
  match bad, pois with
  | some a, _ => .fault s (readLook f g) (Trap.atAddr cExpiredRead a.2.2.2.2 a.1 accRead)
  | none, some a => .fault s (readLook f g) (Trap.atAddr cUncorrectable a.2.2.2.2 a.1 accRead)
  | none, none =>
    .ok { s with nextId := s.nextId + 1 } (readLook f (g.addPend (loadPend s.nextId e.cox glob sz d vals))) (e.afterAccess f)

def execLdo (o : LdOps Space) (s : State) : Host.Outcome State Fault Refusal :=
  let n := ldBytes o.sz
  issue 12 o.g
    (fun e => { guard := o.g, noCox := true, uses := ldDst e o.d n :: addrUses e o.a o.b 1, marks := addrMarks o.a o.b 1, ctr := .ld })
    (fun e s g =>
      match e.crew with
      | none => .trap s (Trap.plain cIllegalEncoding)
      | some own =>
        let f := (findAll (fun l s => let x := eaOf e 32 o.a o.b o.imm l; (checkStore e s g own o.sp ⟨n, .load, accRead⟩ l x.1 x.2 .live, s)) e.lanes s Finds.none).1
        match settleFinds e s g (readLook f) f false with
        | some r => r
        | none => finishLoad e s g false o.sz o.d f) s

def execLdg (o : LdOps Unit) (s : State) : Host.Outcome State Fault Refusal :=
  let n := ldBytes o.sz
  issue 12 o.g
    (fun e => { guard := o.g, uses := ldDst e o.d n :: addrUses e o.a o.b 2, marks := addrMarks o.a o.b 2, ctr := .ld })
    (fun e s g =>
      let r := findAll (fun l s => let x := eaOf e 64 o.a o.b o.imm l; checkGlobal e s ⟨n, .load, accRead⟩ l x.1 x.2 .live) e.lanes s Finds.none
      match settleFinds e r.2 g (readLook r.1) r.1 false with
      | some x => x
      | none => finishLoad e r.2 g true o.sz o.d r.1) s

/-- The arrival of a load's data (R246): registers are written and renewed, LD falls. -/
def execLoadDataArrival (gang id : Nat) (s : State) : Host.Outcome State Fault Refusal :=
  event (fun s => if s.hasPend gang id [.load] then s.arrive gang id else s) s

/-! ## Stores -/

/-- The data of a store in a lane (Table 10.2, R247). -/
def storeVal (e : Env) (n l : Nat) (c : RSrc) : Val :=
  if n = 16 then
    match c.src with
    | .v r => let a := e.core.vval true r.val l; let b := e.core.vval true (r.val + 2) l; ⟨b.bits * 2 ^ 64 + a.bits, joinSt a.st b.st⟩
    | .s r => .live ((e.core.sreg (r.val + 1)).toNat * 2 ^ 64 + (e.core.sreg r.val).toNat)
    | _ => .live 0
  else e.rsrc (if n = 8 then .w64 else .w32) l c

/-- The slot of a store's data. A per-lane special is a source like any other for SZ 0 to 5: the model's choice (log entry 76), since R246 lists vector registers and uniform operands only. -/
def stUse (e : Env) (n : Nat) (c : RSrc) : Use :=
  if n = 16 then (match c.src with | .v _ => .vec 3 c.src 4 | _ => .spair 3 c.src)
  else if e.cox then .sreg 3 c.src else useR 3 c (memRegs n)

/-- The lines that a store's lanes write, with their pages. -/
def writeLook (f : Finds) (g : Gang) : Gang := g.mapChunk (fun c => notePages f (f.ats.foldl (fun c a => c.writesAt a.2.1) c))

/-- Hold the lanes' bytes with the chunk, note its lines. -/
def finishStore (e : Env) (s : State) (g : Gang) (n : Nat) (c : RSrc) (f : Finds) : Res :=
  let g := g.mapChunk (fun ch =>
    let ch := f.ats.foldl (fun ch a => (ch.writesAt a.2.1).hold a.2.1 (bytesLE n (storeVal e n a.1 c).bits)) ch
    { notePages f ch with stores := ch.stores + 1 })
  .ok s g (e.afterAccess f)

def execSto (o : StOps Space) (s : State) : Host.Outcome State Fault Refusal :=
  let n := stBytes o.sz
  issue 12 o.g
    (fun e => { guard := o.g, noCox := true, uses := addrUses e o.a o.b 1 ++ [stUse e n o.c],
                marks := addrMarks o.a o.b 1 ++ markOf o.c.src o.c.last (memRegs n), ctr := .st })
    (fun e s g =>
      match e.crew with
      | none => .trap s (Trap.plain cIllegalEncoding)
      | some own =>
        let f := (findAll (fun l s => let x := eaOf e 32 o.a o.b o.imm l
          (checkStore e s g own o.sp ⟨n, .store, accWrite⟩ l x.1 x.2 (storeVal e n l o.c).st, s)) e.lanes s Finds.none).1
        match settleFinds e s g (writeLook f) f false with
        | some r => r
        | none => finishStore e s g n o.c f) s

def execStg (o : StOps Unit) (s : State) : Host.Outcome State Fault Refusal :=
  let n := stBytes o.sz
  issue 12 o.g
    (fun e => { guard := o.g, uses := addrUses e o.a o.b 2 ++ [stUse e n o.c],
                marks := addrMarks o.a o.b 2 ++ markOf o.c.src o.c.last (memRegs n), ctr := .st })
    (fun e s g =>
      let r := findAll (fun l s => let x := eaOf e 64 o.a o.b o.imm l
        checkGlobal e s ⟨n, .store, accWrite⟩ l x.1 x.2 (storeVal e n l o.c).st) e.lanes s Finds.none
      match settleFinds e r.2 g (writeLook r.1) r.1 false with
      | some x => x
      | none => finishStore e r.2 g n o.c r.1) s

/-! ## Atomics (R250 to R252) -/

def atomRd (ty : AtomTy) : Rd := match ty with | .f32 => .flt fp32 | .i64 | .n64 => .w64 | _ => .w32

/-- The lanes' operations in increasing lane order on what the chunk sees: the old values, and the gang with the writes held. Lanes whose old value is not live write nothing; they decide a trap. -/
def atomLanes (e : Env) (s : State) (sel : AtomSel) (b c : RSrc) : List (Nat × Place × Bool × TlbEnt × Nat) → Gang → List (Nat × List (Byte × VSt)) → Gang × List (Nat × List (Byte × VSt))
  | [], g, olds => (g, olds)
  | (l, p, _, _, _) :: r, g, olds =>
    let n := atomBits sel.ty / 8
    let old := s.seeBytes g p n
    let v := bytesVal old
    let g1 := g.mapChunk (fun ch => ch.readsAt p)
    let g2 := if v.st != .live then g1
      else match atomApply sel.ty sel.op v.bits (e.rsrc (atomRd sel.ty) l b).bits (e.rsrc (atomRd sel.ty) l c).bits with
        | some x => g1.mapChunk (fun ch => (ch.writesAt p).hold p (bytesLE n x))
        | none => g1
    atomLanes e s sel b c r g2 (olds ++ [(l, old)])

/-- The lines that an atomic's lanes read and write, with their pages. -/
def atomLook (e : Env) (s : State) (sel : AtomSel) (b c : RSrc) (f : Finds) (g : Gang) : Gang := (atomLanes e s sel b c f.ats g []).1.mapChunk (notePages f)

/-- Perform the lanes of an atomic and put the old values in flight. -/
def finishAtom (e : Env) (s : State) (g : Gang) (sel : AtomSel) (d : Dst) (b c : RSrc) (f : Finds) : Res :=
  let n := atomBits sel.ty / 8
  let r := atomLanes e s sel b c f.ats g []
  let at? (st : VSt) := f.ats.find? (fun a => r.2.any (fun v => v.1 == a.1 && (bytesVal v.2).st == st))
  match at? .expired, at? .poison with
  | some a, _ => .fault s (r.1.mapChunk (notePages f)) (Trap.atAddr cExpiredRead a.2.2.2.2 a.1 accAtomic)
  | none, some a => .fault s (r.1.mapChunk (notePages f)) (if e.cox then Trap.atAddr cUncorrectable a.2.2.2.2 a.1 accAtomic else { Trap.plain cPoisonConsumed with access := accAtomic })
  | none, none =>
    let g := (r.1.addPend (loadPend s.nextId e.cox false (if n = 8 then .b64 else .b32) d r.2)).mapChunk (notePages f)
    .ok { s with nextId := s.nextId + 1 } g (e.afterAccess f)

def atomUses (e : Env) (sel : AtomSel) (d : Dst) (a b c : RSrc) (aw : Nat) : List Use :=
  let w := regsFor (atomBits sel.ty)
  let cs (u : RSrc → Use) : List Use := if sel.op = .cas then [u c] else []
  if e.cox then .dstS d :: .uni 1 a.src :: .uni 2 b.src :: cs (fun c => .uni 3 c.src)
  else .dstV d w :: useR 1 a aw :: useR 2 b w :: cs (fun c => useR 3 c w)

def atomMarks (sel : AtomSel) (a b c : RSrc) (aw : Nat) : List (Nat × Nat) :=
  let w := regsFor (atomBits sel.ty)
  markOf a.src a.last aw ++ markOf b.src b.last w ++ markOf c.src c.last w

/-- The state of the operands b and c of a lane; c is read only by .cas. -/
def atomData (e : Env) (sel : AtomSel) (b c : RSrc) (l : Nat) : VSt :=
  let x := (e.rsrc (atomRd sel.ty) l b).st
  if sel.op = .cas then joinSt x (e.rsrc (atomRd sel.ty) l c).st else x

def execAtomo (o : AtomOps Space) (s : State) : Host.Outcome State Fault Refusal :=
  issue 12 o.g
    (fun e => { guard := o.g, noCox := true, uses := atomUses e o.sel o.d o.a o.b o.c 1, marks := atomMarks o.sel o.a o.b o.c 1, ctr := .ld })
    (fun e s g =>
      match e.crew with
      | none => .trap s (Trap.plain cIllegalEncoding)
      | some own =>
        let i : AccInfo := ⟨atomBits o.sel.ty / 8, .store, accAtomic⟩
        let f := (findAll (fun l s => let x := e.rsrc .w32 l o.a
          (checkStore e s g own o.sp i l x.st x.bits (atomData e o.sel o.b o.c l), s)) e.lanes s Finds.none).1
        match settleFinds e s g (atomLook e s o.sel o.b o.c f) f false with
        | some r => r
        | none => finishAtom e s g o.sel o.d o.b o.c f) s

/-- atomg: a lane that names a MEMSIDE page makes it a chunk of its own (R252). -/
def execAtomg (o : AtomOps Scope) (s : State) : Host.Outcome State Fault Refusal :=
  issue 12 o.g
    (fun e => { guard := o.g, uses := atomUses e o.sel o.d o.a o.b o.c 2, marks := atomMarks o.sel o.a o.b o.c 2, ctr := .ld })
    (fun e s g =>
      let i : AccInfo := ⟨atomBits o.sel.ty / 8, .store, accAtomic⟩
      let r := findAll (fun l s => let x := e.rsrc .w64 l o.a
        checkGlobal e s i l x.st x.bits (atomData e o.sel o.b o.c l)) e.lanes s Finds.none
      match settleFinds e r.2 g (atomLook e r.2 o.sel o.b o.c r.1) r.1 false with
      | some x => x
      | none =>
        let res := finishAtom e r.2 g o.sel o.d o.b o.c r.1
        if r.1.ats.any (fun a => a.2.2.1) then
          match res with
          | .ok s g a => .own s g a
          | x => x
        else res) s

/-! ## redg (R253) -/

/-- Lanes on pages that are not MEMSIDE, performed with the chunk in lane order; a poisoned value stays as it is. -/
def redgLanes (e : Env) (s : State) (ty : AtomTy) (op : RedOp) (b : RSrc) : List (Nat × Place × Bool × TlbEnt × Nat) → Gang → Gang
  | [], g => g
  | (l, p, _, _, _) :: r, g =>
    let n := atomBits ty / 8
    let v := bytesVal (s.seeBytes g p n)
    let g1 := g.mapChunk (fun ch =>
      let ch := ch.writesAt p
      if v.st != .live then ch else ch.hold p (bytesLE n (redApply ty op v.bits (e.rsrc (atomRd ty) l b).bits)))
    redgLanes e s ty op b r g1

/-- The lines of the lanes on MEMSIDE pages go into Q. -/
def farLook (f : Finds) (g : Gang) : Gang :=
  g.mapChunk (fun ch => (f.ats.filter (fun a => a.2.2.1)).foldl (fun ch a => match a.2.1.line with | some l => ch.addQ l | none => ch) ch)

/-- redg's lanes: on pages that are not MEMSIDE with the chunk, on the others as operations that the base dies perform (R253). -/
def redgLook (e : Env) (s : State) (ty : AtomTy) (op : RedOp) (b : RSrc) (f : Finds) (g : Gang) : Gang :=
  (farLook f (redgLanes e s ty op b (f.ats.filter (fun a => !a.2.2.1)) g)).mapChunk (notePages f)

/-- The bytes of an instruction, 16 at most, for a failure record (R371). -/
def Env.insn (e : Env) (s : State) : List Byte := (s.curBlk.drop (e.pc % 32)).take (min e.n 16)

/-- The lanes of a redg that base dies perform, as they go to them (R394). -/
def Env.redgCmd (e : Env) (s : State) (ops : List RedgOp) : Cmd :=
  { id := s.nextId, gang := e.g.id, crew := e.g.crew, ctx := e.ctx, sup := e.sup,
    die := (match e.crew with | some c => coreDie c.coreIx | none => 0), engine := 0, kind := .redg ops, obj := none, insn := e.insn s,
    prog := { Progress.start with checked := true }, waitVa := none, failed := none, finished := false, corrupt := false }

def execRedg (o : RedgOps) (s : State) : Host.Outcome State Fault Refusal :=
  let w := regsFor (atomBits o.ty)
  issue 12 o.g
    (fun e => { guard := o.g, uses := if e.cox then [.uni 1 o.a.src, .uni 2 o.b.src] else [useR 1 o.a 2, useR 2 o.b w],
                marks := markOf o.a.src o.a.last 2 ++ markOf o.b.src o.b.last w, ctr := .st })
    (fun e s g =>
      let r := findAll (fun l s => let x := e.rsrc .w64 l o.a
        checkGlobal e s ⟨atomBits o.ty / 8, .store, accAtomic⟩ l x.st x.bits (e.rsrc (atomRd o.ty) l o.b).st) e.lanes s Finds.none
      let look := redgLook e r.2 o.ty o.op o.b r.1
      match settleFinds e r.2 g look r.1 true with
      | some x => x
      | none =>
        let ops := (r.1.ats.filter (fun a => a.2.2.1)).filterMap (fun a => match a.2.1 with
          | .glob la => some (⟨la, o.ty, o.op, BitVec.ofNat 64 (e.rsrc (atomRd o.ty) a.1 o.b).bits, a.2.2.2.1⟩ : RedgOp)
          | _ => none)
        .ok { r.2 with nextId := r.2.nextId + 1 } ((look g).mapChunk (fun ch =>
          { ch with stores := ch.stores + 1, defer := if ops.isEmpty then ch.defer else ch.defer ++ [.redg (e.redgCmd r.2 ops)] })) (e.afterAccess r.1)) s

/-! ## Operand-store allocation (R254 to R258) -/

def Gang.holdOp (g : Gang) (o : HeldOp) : Gang := g.mapChunk (fun c => { c with ops := c.ops ++ [o] })
/-- The map line enters R and W (R254). -/
def Gang.touchMap (g : Gang) (crew : Nat) : Gang := g.mapChunk (fun c => (c.addR (.map crew)).addW (.map crew))

/-- Ranges that a new block may not meet: live blocks, and freed ones still in use. -/
def Crew.taken (c : Crew) : List (Nat × Nat) :=
  (c.allocs.drop 1).map (fun a => (a.start, a.start + a.size)) ++ c.freed.map (fun f => (f.block.start, f.block.start + f.block.size))

/-- The lowest start at which `sz` bytes fit in the dynamic region: S, or the end of a taken range. -/
def Crew.firstFit (c : Crew) (sz : Nat) : Option Nat :=
  let free (x : Nat) : Bool := c.desc.staticBytes ≤ x && x + sz ≤ c.desc.crewBytes && c.taken.all (fun t => x + sz ≤ t.1 || t.2 ≤ x)
  ((c.desc.staticBytes :: c.taken.map (·.2)).filter free).foldl (fun b x => match b with
    | none => some x
    | some y => some (min x y)) none

def execOalloc (o : GDAB) (s : State) : Host.Outcome State Fault Refusal :=
  issue 8 o.g (fun _ => { guard := o.g, noCox := true, uses := [.dstS o.d, .uni 1 o.a, .uni 2 o.b] })
    (fun e s g =>
      let a := e.uni .w32 o.a
      let b := e.uni .w64 o.b
      match e.crew with
      | none => .trap s (Trap.plain cIllegalEncoding)
      | some c =>
        if !codeLegal b then .trap s (Trap.plain cIllegalEncoding)
        else
          let sz := ceilDiv a 256 * 256
          let g := g.touchMap c.id
          match (if a = 0 then none else (s.crewView g c).firstFit sz) with
          | none => .ok s (g.mapCore (fun k => k.putS o.d (BitVec.allOnes 64))) e.through
          | some x => .ok s ((g.holdOp (.alloc x sz b)).mapCore (fun k => k.putS o.d (BitVec.ofNat 64 x))) e.through) s

/-- A start of a live dynamic block as the chunk sees it. -/
def Crew.isBlock (c : Crew) (x : Nat) : Bool := (c.allocs.drop 1).any (fun a => a.start == x)

/-- Held stores into a block that the chunk frees are put before the free, for the engines that still use its bytes (R256). -/
def Gang.flushBlock (g : Gang) (crew lo size : Nat) : Gang :=
  g.mapChunk (fun c =>
    let mine (k : Nat) : Bool := crewKey crew lo ≤ k && k < crewKey crew (lo + size)
    let bs := c.cst.filter (fun b => mine b.1)
    if bs.isEmpty then c
    else { c with cst := c.cst.filter (fun b => !mine b.1), ops := c.ops ++ [.put (bs.map (fun b => (b.1 % 2 ^ 24, b.2)))] })

/-- The commands and requests that the open chunk will release: they go before a free of the same chunk (log entry 17). -/
def Gang.ownUsers (g : Gang) : List Nat :=
  match g.chunk with
  | some c => c.defer.filterMap (fun d => match d with | .cmd x => some x.id | .req x => some x.id | _ => none)
  | none => []

def execOfree (o : GA) (s : State) : Host.Outcome State Fault Refusal :=
  issue 8 o.g (fun _ => { guard := o.g, noCox := true, uses := [.uni 1 o.a] })
    (fun e s g =>
      let a := e.uni .w32 o.a
      match e.crew with
      | none => .trap s (Trap.plain cIllegalEncoding)
      | some c =>
        match ((s.crewView g c).allocs.drop 1).find? (fun x => x.start == a) with
        | none => .trap s (Trap.plain cOperandRange)
        | some x => .ok s (((g.flushBlock c.id a x.size).holdOp (.free a g.ownUsers)).touchMap c.id) e.through) s

def execOrenew (o : GA) (s : State) : Host.Outcome State Fault Refusal :=
  issue 8 o.g (fun _ => { guard := o.g, noCox := true, uses := [.uni 1 o.a] })
    (fun e s g =>
      let a := e.uni .w32 o.a
      match e.crew with
      | none => .trap s (Trap.plain cIllegalEncoding)
      | some c =>
        if (s.crewView g c).allocs.any (fun x => x.holds a 1) then .ok s (g.holdOp (.renew a)) e.through
        else .trap s (Trap.plain cOperandRange)) s

/-- oquery: a value of the gang or of the allocation that holds an offset. -/
def oquery (g : Guard) (d : Dst) (uses : List Use) (val : Env → State → Gang → Crew → Option Word64) (s : State) : Host.Outcome State Fault Refusal :=
  issue 8 g (fun _ => { guard := g, noCox := true, uses := .dstS d :: uses })
    (fun e s g =>
      match e.crew with
      | none => .trap s (Trap.plain cIllegalEncoding)
      | some c =>
        match val e s g c with
        | some x => .ok s (g.mapCore (fun k => k.putS d x)) e.through
        | none => .trap s (Trap.plain cOperandRange)) s

def execOqueryBase (o : GD) (s : State) : Host.Outcome State Fault Refusal :=
  oquery o.g o.d [] (fun _ _ _ c => some (BitVec.ofNat 64 (coreCore c.coreIx * 2 ^ 24 + c.base))) s

def execOqueryFmask (o : GD) (s : State) : Host.Outcome State Fault Refusal :=
  oquery o.g o.d [] (fun _ _ g _ => some g.core.fmask) s

def execOqueryCode (o : GDA) (s : State) : Host.Outcome State Fault Refusal :=
  oquery o.g o.d [.uni 1 o.a] (fun e s g c =>
    ((s.crewView g c).allocs.find? (fun x => x.holds (e.uni .w32 o.a) 1)).map (fun x => BitVec.ofNat 64 x.code)) s

/-- Whether the open chunk itself allocated a block at `x`. -/
def Gang.allocated (g : Gang) (x : Nat) : Bool :=
  match g.chunk with
  | some c => c.ops.any (fun o => match o with | .alloc st _ _ => st == x | _ => false)
  | none => false

/-- The expiry tick as last committed: all ones for HELD, 0 for a block whose oalloc has not committed. -/
def execOqueryExpiry (o : GDA) (s : State) : Host.Outcome State Fault Refusal :=
  oquery o.g o.d [.uni 1 o.a] (fun e s g c =>
    match (s.crewView g c).allocs.find? (fun x => x.holds (e.uni .w32 o.a) 1) with
    | none => none
    | some x =>
      if g.allocated x.start then some 0
      else if x.code % 8 = 0 then some (BitVec.allOnes 64)
      else (c.allocs.find? (fun y => y.holds (e.uni .w32 o.a) 1)).map (fun y => BitVec.ofNat 64 y.exp)) s

end Sys2Proof.Machine
end

