-- ==== Sys2Proof/Machine/Engine.lean ====
section
/-! DEFINITION. Issue of engine commands (R259, R260), completion objects as lanes use them (R264, R265). -/

namespace Sys2Proof.Machine

/-! ## Checks at issue (R260) -/

/-- An operand address of a command: space, value, bytes for the range check of a crew side, alignment, ACCESS. -/
structure EAddr where
  sp : ESpace
  a : Nat
  len : Nat
  align : Nat
  acc : Nat
deriving DecidableEq, Repr

/-- Whether bytes lie wholly in one live allocation; an empty range does. -/
def Crew.covers (c : Crew) (x n : Nat) : Bool := n == 0 || c.allocs.any (fun a => a.holds x n)

def firstSome {α : Type} (l : List α) (f : α → Option Trap) : Option Trap := l.findSome? f

/-- The traps of steps 3, 4 and 6 for the addresses of a command, the lowest executing lane named. -/
def eaTraps3 (l : Nat) (x : EAddr) : Option Trap :=
  if x.sp == .glob && !canonical x.a then some (Trap.atAddr cPermission x.a l x.acc) else none
def eaTraps4 (l : Nat) (x : EAddr) : Option Trap :=
  if x.a % x.align ≠ 0 then some (Trap.atAddr cAlignment x.a l x.acc) else none
def eaTraps6 (l : Nat) (c : Option Crew) (x : EAddr) : Option Trap :=
  if x.sp == .crew && !(match c with | some c => c.covers x.a x.len | none => false) then some (Trap.atAddr cOperandRange x.a l x.acc) else none

/-- The completion object of slot K: %zero names none (R259). -/
def objOf (e : Env) (k : Src) : Option Nat := match k with | .spec .zero => none | _ => some (e.uni .w64 k)

/-- Checks 3 to 6 of R260 for a command; the object is translated as for an 8-byte stg. -/
def checkCmd (e : Env) (s : State) (g : Gang) (obj : Option Nat) (addrs : List EAddr) : Option Res × State :=
  let l := lowestLane e.on
  let own := e.crew.map (fun c => s.crewView g c)
  let k : List EAddr := match obj with | some a => [⟨.glob, a, 8, 8, accWrite⟩] | none => []
  match firstSome (addrs ++ k) (eaTraps3 l) with
  | some t => (some (.trap s t), s)
  | none =>
    match firstSome (addrs ++ k) (eaTraps4 l) with
    | some t => (some (.trap s t), s)
    | none =>
      let after (s : State) : Option Res × State :=
        match firstSome addrs (eaTraps6 l own) with
        | some t => (some (.trap s t), s)
        | none => (none, s)
      match obj with
      | none => after s
      | some a =>
        match s.xlat e.ctx e.sup .store .lane a with
        | (.error c, s) => (some (.trap s (Trap.atAddr c a l accWrite)), s)
        | (.ok _, s) => after s

/-- The scalar registers that a shape record's markers name. -/
def shapeRegs (q : Shape) : List Nat := [q.q0, q.q1, q.q2, q.q3].filterMap (fun w => match w with | .sub n => some n.val | .lit _ => none)

/-- A command joins its chunk's deferred effects; one with a crew side reads the map line (R254). -/
def deferCmd (e : Env) (s : State) (g : Gang) (kind : CmdKind) (obj : Option Nat) (crewSide : Bool) : Res :=
  let c : Cmd :=
    { id := s.nextId, gang := g.id, crew := g.crew, ctx := e.ctx, sup := e.sup,
      die := (match e.crew with | some c => coreDie c.coreIx | none => 0), engine := 0, kind := kind, obj := obj, insn := e.insn s,
      prog := Progress.start, waitVa := none, failed := none, finished := false, corrupt := false }
  let g := g.defer (.cmd c)
  let g := match e.crew with
    | some k => if crewSide then g.mapChunk (fun ch => ch.addR (.map k.id)) else g
    | none => g
  .ok { s with nextId := s.nextId + 1 } g e.through

/-- The body of a command with its addresses. -/
def cmdBody (kind : Env → CmdKind) (k : Src) (addrs : Env → List EAddr) (e : Env) (s : State) (g : Gang) : Res :=
  let obj := objOf e k
  let xs := addrs e
  match checkCmd e s g obj xs with
  | (some r, _) => r
  | (none, s) => deferCmd e s g (kind e) obj (xs.any (fun x => x.sp == .crew))

def cmdSpec (g : Guard) (ops : List (Nat × Src)) (ok : Env → Bool) (e : Env) : Spec :=
  { guard := g, fieldsOk := ok e, uses := ops.map (fun p => .uni p.1 p.2), ctr := .cp }

/-- A command with a shape record, whose markers read scalar registers. -/
def shapedSpec (g : Guard) (ops : List (Nat × Src)) (q : Shape) (ok : Env → Bool) (e : Env) : Spec :=
  { cmdSpec g ops ok e with early := shapeRegs q }

/-- An address operand: 64 bits in global space, a 32-bit offset in crew space (R259). -/
def eAddrOf (e : Env) (sp : ESpace) (o : Src) : Nat := e.uni (match sp with | .glob => .w64 | .crew => .w32) o

/-! ## Copy commands -/

def execCpLin (o : CpLinOps) (s : State) : Host.Outcome State Fault Refusal :=
  issue 16 o.g (cmdSpec o.g [(1, o.a), (2, o.b), (3, o.c), (5, o.k)] (fun _ => true))
    (cmdBody (fun e => .lin (eAddrOf e o.dsp o.a) (eAddrOf e o.ssp o.b) (e.uni .w64 o.c) o.ssp o.dsp) o.k
      (fun e => let n := e.uni .w64 o.c
        [⟨o.dsp, eAddrOf e o.dsp o.a, n, 32, accWrite⟩, ⟨o.ssp, eAddrOf e o.ssp o.b, n, 32, accRead⟩])) s

/-! ### Shape records (R141, R142) -/

/-- A record word after substitution. -/
def Env.shapeWord (e : Env) (w : ShapeWord) : Nat :=
  match w with
  | .lit x => x.toNat
  | .sub n => (e.core.sreg n.val).toNat % 2 ^ 32

/-- The checks of R141 on substituted words: no marker, no reserved bit, a legal ESZ, FLAGS within `flags`. -/
def shapeOk (e : Env) (q : Shape) (flags : Nat) : Bool :=
  let w0 := e.shapeWord q.q0
  let w1 := e.shapeWord q.q1
  let w2 := e.shapeWord q.q2
  let w3 := e.shapeWord q.q3
  w0 < 2 ^ 31 && w1 < 2 ^ 31 && w2 < 2 ^ 31 && w3 < 2 ^ 16 && bitsAt w3 4 12 &&& (4095 - flags) == 0 && bitsAt w3 0 4 ≤ 5

/-- cp.ten: the strided side must be global (R267). -/
def execCpTen (o : CpTenOps) (s : State) : Host.Outcome State Fault Refusal :=
  let dir (e : Env) : Bool := bitsAt (e.shapeWord o.shape.q3) 4 1 == 1
  issue 32 o.g
    (shapedSpec o.g [(1, o.a), (2, o.b), (3, o.c), (5, o.k)] o.shape
      (fun e => shapeOk e o.shape 1 && (if dir e then o.dsp == .glob else o.ssp == .glob)))
    (cmdBody (fun e => .ten (eAddrOf e o.dsp o.a) (eAddrOf e o.ssp o.b) (e.uni .w64 o.c) o.ssp o.dsp
        (e.shapeWord o.shape.q0) (e.shapeWord o.shape.q1) (e.shapeWord o.shape.q2) (e.shapeWord o.shape.q3)) o.k
      (fun e => let n := e.uni .w64 o.c
        [⟨o.dsp, eAddrOf e o.dsp o.a, n, 1, accWrite⟩, ⟨o.ssp, eAddrOf e o.ssp o.b, n, 1, accRead⟩])) s

/-- Row stride in bytes (R268). -/
def rowStride (row stride : Nat) : Nat := 4 * (if stride = 0 then row else stride)

/-- cp.gat: A dense destination, B table base, C index list, X count (Table 10.7). -/
def execCpGat (o : CpRowOps) (s : State) : Host.Outcome State Fault Refusal :=
  issue 16 o.g (cmdSpec o.g [(1, o.a), (2, o.b), (3, o.c), (4, o.x), (5, o.k)] (fun _ => true))
    (cmdBody (fun e => .gat (eAddrOf e o.sp o.a) (e.uni .w64 o.b) (e.uni .w64 o.c) (e.uni .w64 o.x) o.sp o.row.toNat o.stride.toNat) o.k
      (fun e => [⟨o.sp, eAddrOf e o.sp o.a, e.uni .w64 o.x * 4 * o.row.toNat, 4, accWrite⟩, ⟨.glob, e.uni .w64 o.b, 0, 4, accRead⟩,
                 ⟨.glob, e.uni .w64 o.c, 0, 4, accRead⟩])) s

/-- cp.sct: A table base, B dense source. -/
def execCpSct (o : CpRowOps) (s : State) : Host.Outcome State Fault Refusal :=
  issue 16 o.g (cmdSpec o.g [(1, o.a), (2, o.b), (3, o.c), (4, o.x), (5, o.k)] (fun _ => true))
    (cmdBody (fun e => .sct (e.uni .w64 o.a) (eAddrOf e o.sp o.b) (e.uni .w64 o.c) (e.uni .w64 o.x) o.sp o.row.toNat o.stride.toNat) o.k
      (fun e => [⟨.glob, e.uni .w64 o.a, 0, 4, accWrite⟩, ⟨o.sp, eAddrOf e o.sp o.b, e.uni .w64 o.x * 4 * o.row.toNat, 4, accRead⟩,
                 ⟨.glob, e.uni .w64 o.c, 0, 4, accRead⟩])) s

def execCpCmpEnc (o : CpEncOps) (s : State) : Host.Outcome State Fault Refusal :=
  issue 16 o.g (cmdSpec o.g [(1, o.a), (2, o.b), (3, o.c), (4, o.x), (5, o.k)] (fun _ => true))
    (cmdBody (fun e => .enc (e.uni .w64 o.a) (e.uni .w64 o.b) (e.uni .w64 o.c) (objOf e o.x)) o.k
      (fun e => [⟨.glob, e.uni .w64 o.a, 0, 4096, accWrite⟩, ⟨.glob, e.uni .w64 o.b, 0, 4096, accRead⟩] ++
        (match objOf e o.x with | some x => [⟨.glob, x, 0, 1, accWrite⟩] | none => []))) s

def execCpCmpDec (o : CpDecOps) (s : State) : Host.Outcome State Fault Refusal :=
  issue 16 o.g (cmdSpec o.g [(1, o.a), (2, o.b), (3, o.c), (5, o.k)] (fun _ => true))
    (cmdBody (fun e => .dec (e.uni .w64 o.a) (e.uni .w64 o.b) (e.uni .w64 o.c)) o.k
      (fun e => [⟨.glob, e.uni .w64 o.a, 0, 4096, accWrite⟩, ⟨.glob, e.uni .w64 o.b, 0, 4096, accRead⟩])) s

/-! ## Near-memory reduction (R270 to R273) -/

def execNmrCmd (o : NmrOps) (s : State) : Host.Outcome State Fault Refusal :=
  issue 16 o.g (cmdSpec o.g [(1, o.a), (2, o.b), (3, o.c), (4, o.x), (5, o.k)] (fun _ => true))
    (cmdBody (fun e => .nmr o.sel (e.uni .w64 o.a) (e.uni .w64 o.b) (e.uni .w64 o.c) (e.uni .w64 o.x) o.acc o.row.toNat o.stride.toNat) o.k
      (fun e => [⟨.glob, e.uni .w64 o.a, 0, 4, accWrite⟩, ⟨.glob, e.uni .w64 o.b, 0, 4, accRead⟩, ⟨.glob, e.uni .w64 o.c, 0, 4, accRead⟩])) s

def execNmrCmdShaped (o : NmrShapedOps) (s : State) : Host.Outcome State Fault Refusal :=
  issue 32 o.g (shapedSpec o.g [(1, o.a), (2, o.b), (5, o.k)] o.shape (fun e => shapeOk e o.shape 0))
    (cmdBody (fun e => .nmrShaped o.sel (e.uni .w64 o.a) (e.uni .w64 o.b) o.acc
        (e.shapeWord o.shape.q0) (e.shapeWord o.shape.q1) (e.shapeWord o.shape.q2) (e.shapeWord o.shape.q3)) o.k
      (fun e => [⟨.glob, e.uni .w64 o.a, 0, 4, accWrite⟩, ⟨.glob, e.uni .w64 o.b, 0, 4, accRead⟩])) s

def execNmrFlush (o : GA) (s : State) : Host.Outcome State Fault Refusal :=
  issue 8 o.g (cmdSpec o.g [(1, o.a)] (fun _ => true)) (cmdBody (fun _ => .flush) o.a (fun _ => [])) s

/-! ## Completion objects (R264, R265) -/

/-- The address checks of an 8-byte uniform access, as ldg makes them. `look` gives the gang with the lines found. -/
def uniAccess (e : Env) (s : State) (g : Gang) (look : Finds → Gang → Gang) (a : Nat) (i : AccInfo) : Finds × State × Option Res :=
  let r := findAll (fun l s => checkGlobal e s i l .live a .live) [lowestLane e.on] s Finds.none
  let f := r.1
  match f.trap, f.paged with
  | some (_, t), _ => (f, r.2, some (.fault r.2 (look f g) t))
  | none, (_, t) :: _ => (f, r.2, some (if e.cox then .fault r.2 (look f g) t else .park r.2 (look f g) e.act t))
  | none, [] => (f, r.2, if f.ats.any (fun x => match g.chunk with | some c => c.inQ x.2.1 | none => false) then some (.endBefore r.2 (look f g)) else none)

def execCmpRd (o : CmpRdOps) (s : State) : Host.Outcome State Fault Refusal :=
  issue 8 o.g (fun _ => { guard := o.g, uses := [.dstS o.d, .uni 1 o.a, .uni 2 o.b], ctr := .ld })
    (fun e s g =>
      let a := e.uni .w64 o.a
      match uniAccess e s g readLook a ⟨8, .load, accRead⟩ with
      | (_, _, some r) => r
      | (f, s, none) =>
        match f.ats with
        | (l, p, _, _, _) :: _ =>
          let v := bytesVal (s.seeBytes g p 8)
          if v.st != .live then .fault s (readLook f g) (Trap.atAddr cUncorrectable a l accRead)
          else
            let pend : Pend := { id := s.nextId, kind := .load, reg := 0, lanes := [], scalars := [(sregNo o.d, BitVec.ofNat 64 v.bits)] }
            let g := (g.addPend pend).mapCore (fun c => c.setFlag o.k e.on (decide (e.uni .w64 o.b ≤ v.bits)))
            .ok { s with nextId := s.nextId + 1 } (readLook f g) e.through
        | [] => .ok s g e.through) s

/-- cmp.set is deferred: its line enters W, and the value is written as one piece, with its latches, when the chunk commits (R265, Table 5.5). -/
def execCmpSet (o : GAB) (s : State) : Host.Outcome State Fault Refusal :=
  issue 8 o.g (fun _ => { guard := o.g, uses := [.uni 1 o.a, .uni 2 o.b] })
    (fun e s g =>
      let a := e.uni .w64 o.a
      match uniAccess e s g writeLook a ⟨8, .store, accWrite⟩ with
      | (_, _, some r) => r
      | (f, s, none) =>
        match f.ats with
        | (_, .glob la, _, _, _) :: _ =>
          .ok s ((writeLook f g).defer (.cmpSet e.ctx a la (BitVec.ofNat 64 (e.uni .w64 o.b)))) e.through
        | _ => .ok s g e.through) s

end Sys2Proof.Machine
end

