-- ==== Sys2Proof/Machine/EngineRun.lean ====
section
/-! DEFINITION. The engines at work: pieces of copy and reduce commands (R125, R260 to R273), failures and completion (R262, R263), waits for pages (R374). -/

namespace Sys2Proof.Machine

/-- A byte with the state of the value it comes from. -/
abbrev BSt := Byte × VSt

/-! ## One piece of an engine -/

/-- Why a piece was not performed. -/
inductive EngErr
  | wait (va acc : Nat)
  | fail (cause : Cause) (va : Nat)
  /-- the line belongs to the holder of the stroke token (R116) -/
  | delay
deriving DecidableEq, Repr

/-- What an engine acts for. -/
structure EngWho where
  ctx : Nat
  sup : Bool
  crew : Option Nat
deriving DecidableEq, Repr

/-- Where a global address leads an engine. -/
def engXlat (s : State) (w : EngWho) (k : AccKind) (who : Accessor) (va : Nat) : Except EngErr Loc × State :=
  if !canonical va then (.error (.fail cPermission va), s)
  else match s.xlat w.ctx w.sup k who va with
    | (.ok l, s) => (.ok l, s)
    | (.error c, s) =>
      if c = cPageNotPresent then (.error (.wait va (if k = .load then accRead else accWrite)), s) else (.error (.fail c va), s)

/-- Bytes of HBM4E as a read piece finds them (R74). -/
def State.readBytes (s : State) (la n : Nat) : List BSt :=
  if s.linePoisoned la then List.replicate n (0xFF, .poison) else (memRead s.mem la n).map (fun b => (b, .live))

/-- The run that holds a byte of a crew's space: a live allocation, or a freed block still in use (R256). -/
def Crew.runAt (c : Crew) (off : Nat) : Option Alloc :=
  match c.allocs.find? (fun a => a.holds off 1) with
  | some a => some a
  | none => (c.freed.find? (fun f => f.block.holds off 1)).map (·.block)

def Crew.readByte (c : Crew) (off : Nat) : BSt :=
  match c.runAt off with
  | some a => let w := cellAt a.fill a.cells (off / 4); (BitVec.ofNat 8 (w.data.toNat / 256 ^ (off % 4)), w.st)
  | none => (0, .live)

/-- A read piece. -/
def engRead (s : State) (w : EngWho) (sp : ESpace) (a n : Nat) : Except EngErr (List BSt) × State :=
  match sp with
  | .glob =>
    match engXlat s w .load .engine a with
    | (.error x, s) => (.error x, s)
    | (.ok l, s) => (.ok (s.readBytes l.la n), s)
  | .crew =>
    match w.crew.bind s.crew? with
    | none => (.ok (List.replicate n (0, .live)), s)
    | some c =>
      let bs := (List.range n).map (fun i => c.readByte (a + i))
      if bs.any (fun b => b.2 == .expired) then (.error (.fail cExpiredRead 0), s) else (.ok bs, s)

/-- Words that take the POISON of the bytes written to them. -/
def poisonWords (fill : Cell) (cells : Sparse Cell) (bs : List (Nat × BSt)) : Sparse Cell :=
  (bs.filter (fun b => b.2.2 != .live)).foldl (fun cs b => spPut fill (b.1 / 4) { cellAt fill cs (b.1 / 4) with st := .poison } cs) cells

/-- A piece written to a run: bytes by R65, POISON copied as POISON, the allocation renewed (R261). -/
def Alloc.piece (a : Alloc) (tick : Nat) (bs : List (Nat × BSt)) : Alloc :=
  let b := a.store tick (bs.map (fun x => (x.1, x.2.1)))
  { b with cells := poisonWords b.fill b.cells bs }

def Crew.writePiece (c : Crew) (tick : Nat) (bs : List (Nat × BSt)) : Crew :=
  { c with
    allocs := c.allocs.map (fun a => let mine := bs.filter (fun b => a.holds b.1 1); if mine.isEmpty then a else a.piece tick mine),
    freed := c.freed.map (fun f => let mine := bs.filter (fun b => f.block.holds b.1 1)
      if mine.isEmpty then f else { f with block := f.block.piece tick mine }) }

/-- Bytes of one line of HBM4E written as one piece; a POISON value marks the line, a whole line written clears it (R261, R370). -/
def State.writeLine (s : State) (bs : List (Nat × BSt)) : State :=
  match bs with
  | [] => s
  | (la, _) :: _ =>
    let s := s.pieceSquash [.glob (lineOf la)]
    let s := { s with mem := bs.foldl (fun m b => memPut m b.1 b.2.1) s.mem }
    if bs.any (fun b => b.2.2 != .live) then s.poisonLine la
    else if 64 ≤ bs.length then s.cleanLine (lineOf la) else s

/-- A write piece: addresses of one line with their bytes. -/
def engWrite (s : State) (w : EngWho) (sp : ESpace) (bs : List (Nat × BSt)) : Except EngErr Unit × State :=
  match bs with
  | [] => (.ok (), s)
  | (a, _) :: _ =>
    match sp with
    | .glob =>
      (match engXlat s w .store .engine a with
       | (.error x, s) => (.error x, s)
       | (.ok l, s) =>
         let base := l.la - a % 64
         if s.holderHit none [.glob (lineOf l.la)] [] then (.error .delay, s)
         else (.ok (), s.writeLine (bs.map (fun b => (base + b.1 % 64, b.2)))))
    | .crew =>
      match w.crew with
      | none => (.ok (), s)
      | some id =>
        let ln := Line.store id (a / 64)
        if s.holderHit none [ln] [] then (.error .delay, s)
        else (.ok (), (s.pieceSquash [ln]).mapCrew id (fun c => c.writePiece s.tick bs))

/-! ## Units of a command -/

/-- One unit that a command moves: source and destination address, bytes. -/
structure MoveUnit where
  src : Nat
  dst : Nat
  n : Nat
deriving DecidableEq, Repr

def wrap (sp : ESpace) (a : Nat) : Nat := match sp with | .glob => a % 2 ^ 64 | .crew => a % 2 ^ 32

/-- Element size and first dimension of a shape, 4-bit elements taken in pairs. -/
def shapeElem (q0 q3 : Nat) : Nat × Nat := if q3 % 16 = 5 then (1, bitsAt q0 0 16 / 2) else (2 ^ (q3 % 16), bitsAt q0 0 16)

/-- Byte offset of element `t` on the strided side (R267). -/
def stridedOff (q0 q1 q2 q3 t : Nat) : Nat :=
  let (e, d0) := shapeElem q0 q3
  let d1 := bitsAt q0 16 15
  t % d0 * e + t / d0 % d1 * q1 + t / (d0 * d1) * bitsAt q2 0 24 * 256

/-- The index that a list entry of four bytes holds. An entry on a poisoned line stands for the bits it reads as, 0xFFFFFFFF, here and for nmr.cmd: the model's choice (log entry 77), since R268 does not say what the engine does with it. -/
def indexOf (bs : List BSt) : Nat := ofBytesLE (bs.map (·.1))

/-- Units of a block of a command: 4 KiB of destination bytes, or one row (R266 to R269). -/
def unitsIn : CmdKind → Nat
  | .lin .. => 128
  | .ten _ _ _ _ _ q0 _ _ q3 => 4096 / (shapeElem q0 q3).1
  | .gat _ _ _ _ _ row _ | .sct _ _ _ _ _ row _ => row
  | .enc .. | .dec .. => 64
  | _ => 0

/-- Units of a command. -/
def unitTotal : CmdKind → Nat
  | .lin _ _ n _ _ => ceilDiv n 32
  | .ten _ _ n _ _ q0 _ _ q3 => n / (shapeElem q0 q3).1
  | .gat _ _ _ n _ row _ | .sct _ _ _ n _ row _ => n * row
  | .enc _ _ n _ | .dec _ _ n => n / 64
  | _ => 0

/-- Blocks or rows of a command. -/
def blockCount (k : CmdKind) : Nat :=
  match k with
  | .lin _ _ n _ _ | .ten _ _ n _ _ _ _ _ _ | .enc _ _ n _ | .dec _ _ n => ceilDiv n 4096
  | .gat _ _ _ n _ _ _ | .sct _ _ _ n _ _ _ => n
  | _ => 0

/-- The index of a row, as its list entry was read. -/
def Progress.index (p : Progress) (r : Nat) : Nat := indexOf ((spFind p.list r).getD [])

/-- A unit of a command (R266 to R269). An address that runs past 2^64, or past 2^32 in crew space, wraps, while overlap is judged on the ranges as they are, unwrapped (the model's choice, log entry 101: the spec is silent). -/
def unitAt (k : CmdKind) (p : Progress) (u : Nat) : MoveUnit :=
  match k with
  | .lin a b n ss ds => ⟨wrap ss (b + 32 * u), wrap ds (a + 32 * u), min 32 (n - 32 * u)⟩
  | .ten a b _ ss ds q0 q1 q2 q3 =>
    let e := (shapeElem q0 q3).1
    let st := stridedOff q0 q1 q2 q3 u
    if q3 / 16 % 2 = 0 then ⟨wrap ss (b + st), wrap ds (a + u * e), e⟩ else ⟨wrap ss (b + u * e), wrap ds (a + st), e⟩
  | .gat a b _ _ ds row stride => ⟨(b + p.index (u / row) * rowStride row stride + 4 * (u % row)) % 2 ^ 64, wrap ds (a + 4 * u), 4⟩
  | .sct a b _ _ ss row stride => ⟨wrap ss (b + 4 * u), (a + p.index (u / row) * rowStride row stride + 4 * (u % row)) % 2 ^ 64, 4⟩
  | .enc a b .. => ⟨(b + 64 * u) % 2 ^ 64, (a + 4096 * (u / 64)) % 2 ^ 64, 64⟩
  | .dec a b .. => ⟨(b + 4096 * (u / 64)) % 2 ^ 64, (a + 64 * u) % 2 ^ 64, 64⟩
  | _ => ⟨0, 0, 0⟩

def srcSpace (k : CmdKind) : ESpace := match k with | .lin _ _ _ s _ | .ten _ _ _ s _ _ _ _ _ | .sct _ _ _ _ s _ _ => s | _ => .glob
def dstSpace (k : CmdKind) : ESpace := match k with | .lin _ _ _ _ d | .ten _ _ _ _ d _ _ _ _ | .gat _ _ _ _ d _ _ => d | _ => .glob

/-- One action of a copy command: read an index-list entry; read a unit; write units of one destination line together; read a deep block's directory entry and extent, and be done with that extent; the steps of R397: allocate a deep block's units, write them and its directory entry, write a part of its size record, free the extent it had. -/
inductive EngAct
  | entry (r : Nat)
  | read (u : Nat)
  | write (us : List Nat)
  | fetch (j : Nat)
  | close (j : Nat)
  | alloc (j : Nat)
  | store (j : Nat)
  | record (j part : Nat)
  | free (j : Nat)
deriving DecidableEq, Repr

def CmdKind.byRows : CmdKind → Bool | .gat .. | .sct .. => true | _ => false

/-- The units of a block. -/
def blockUnits (k : CmdKind) (j : Nat) : List Nat := rangeFrom (unitsIn k * j) (min (unitsIn k) (unitTotal k - unitsIn k * j))

def Progress.has (p : Progress) (u : Nat) : Bool := p.held.any (fun h => h.1 == u)

/-- The units of a block that are not written. -/
def Progress.left (p : Progress) (k : CmdKind) (j : Nat) : List Nat := (blockUnits k j).filter (fun u => !p.done.contains u)

/-- A unit that is still to be moved, of a block below `lim`. -/
def Progress.open (p : Progress) (k : CmdKind) (lim u : Nat) : Bool :=
  let j := u / unitsIn k
  decide (u < unitTotal k) && decide (p.pos ≤ j) && decide (j < lim) && !p.done.contains u

/-- Whether a unit may be read now: a row of cp.gat once its index is known, the lines of cp.cmp.dec with their block. -/
def Progress.mayRead (p : Progress) (k : CmdKind) (u : Nat) : Bool :=
  !p.has u && (match k with
    | .gat _ _ _ _ _ row _ => (spFind p.list (u / row)).isSome
    | .dec .. => false
    | _ => true)

/-- Whether a unit that is at hand may be written now. Rows of cp.sct with one index are written in increasing number (R268). -/
def Progress.mayWrite (p : Progress) (k : CmdKind) (u : Nat) : Bool :=
  p.has u && (match k with
    | .sct _ _ _ _ _ row _ =>
      let r := u / row
      (spFind p.list r).isSome && (rangeFrom p.pos (r - p.pos)).all (fun i => (spFind p.list i).isSome && (p.index i != p.index r || (p.left k i).isEmpty))
    | .enc .. => false
    | _ => true)

/-- What a codec command has in hand for a block. -/
def Progress.work (p : Progress) (j : Nat) : Option DeepWork := (p.deep.find? (fun d => d.1 == j)).map (·.2)

/-- Progress with other work in hand for a block, or none. -/
def Progress.setWork (p : Progress) (j : Nat) (w : Option DeepWork) : Progress :=
  { p with deep := (w.toList.map (fun x => (j, x))) ++ p.deep.filter (fun d => d.1 != j) }

/-- Whether an action may be taken, in blocks below `lim`. -/
def EngAct.may (k : CmdKind) (p : Progress) (lim : Nat) : EngAct → Bool
  | .entry r => k.byRows && decide (p.pos ≤ r) && decide (r < min lim (blockCount k)) && (spFind p.list r).isNone
  | .read u => p.open k lim u && p.mayRead k u
  | .write us => !us.isEmpty && us.all (fun u => p.open k lim u && p.mayWrite k u)
  | .fetch j => (match k with | .dec .. => true | _ => false) && decide (p.pos ≤ j) && decide (j < min lim (blockCount k)) &&
      !(blockUnits k j).any (fun u => p.has u || p.done.contains u)
  | .close j => (match p.work j with | some (.reading _) => true | _ => false)
  | .alloc j => (match k with | .enc .. => true | _ => false) && decide (p.pos ≤ j) && decide (j < min lim (blockCount k)) && (blockUnits k j).all p.has && (p.work j).isNone
  | .store j => (match p.work j with | some (.allocated _) => true | _ => false)
  | .record j part => (match p.work j with | some (.stored _ ps _) => ps.contains part | _ => false)
  | .free j => (match p.work j with | some (.stored _ _ (some _)) => true | _ => false)

/-- The units still to be written that go to the line of unit `u`, in its block and those beside it. -/
def lineMates (k : CmdKind) (p : Progress) (u : Nat) : List Nat :=
  ((rangeFrom (u / unitsIn k - 1) 3).flatMap (fun j => if p.pos ≤ j then p.left k j else [])).filter (fun v =>
    (unitAt k p v).dst / 64 == (unitAt k p u).dst / 64 && (match k with | .sct _ _ _ _ _ row _ => (spFind p.list (v / row)).isSome | _ => true))

/-- The action a choice names, when it is not 0. -/
def namedAct (k : CmdKind) (p : Progress) (c : Nat) : EngAct :=
  let x := c / 4
  match c % 4 with
  | 0 => (match k with | .dec .. => .fetch x | _ => .read x)
  | 1 => .write [x]
  | 2 => .write (lineMates k p x)
  | _ => (match k with
    | .dec .. => .close x
    | .enc .. => (match x % 5 with
      | 0 => .alloc (x / 5)
      | 1 => .store (x / 5)
      | 4 => .free (x / 5)
      | n => .record (x / 5) (n - 2))
    | _ => .entry x)

/-- What a command does next by itself: in its first unfinished block, the list entry or codec work; a line that is at hand whole; the next read; what is at hand. -/
def defaultAct (k : CmdKind) (p : Progress) (lim : Nat) : Option EngAct :=
  let left := p.left k p.pos
  let work : List EngAct := [.entry p.pos, .fetch p.pos, .close p.pos, .alloc p.pos, .store p.pos, .record p.pos 0, .record p.pos 1, .free p.pos]
  (work ++ (left.filter p.has).map (fun u => EngAct.write (lineMates k p u)) ++ left.map EngAct.read ++
    left.map (fun u => EngAct.write [u])).find? (EngAct.may k p lim)

/-- The action that a choice takes: R125 orders no pieces of one command but by the data they need, so every action that may be taken can be chosen. -/
def nextAct (k : CmdKind) (p : Progress) (lim choice : Nat) : Option EngAct :=
  match choice with
  | 0 => defaultAct k p lim
  | c + 1 => let a := namedAct k p c; if a.may k p lim then some a else none

/-- A block is finished: every unit is written, its list entry read, its codec work done. -/
def Progress.blockDone (p : Progress) (k : CmdKind) (j : Nat) : Bool :=
  (p.left k j).isEmpty && !p.deep.any (fun d => d.1 == j) && (!k.byRows || (spFind p.list j).isSome)

/-- Pass the blocks that are finished. -/
def Progress.pass (k : CmdKind) : Nat → Progress → Progress
  | 0, p => p
  | n + 1, p =>
    if p.pos < blockCount k && p.blockDone k p.pos then
      Progress.pass k n { p with pos := p.pos + 1, done := p.done.filter (fun u => decide (unitsIn k * (p.pos + 1) ≤ u)), list := spDrop p.pos p.list }
    else p

/-! ## Checks before the first piece -/

def rangesMeet (a b n : Nat) : Bool := a < b + n && b < a + n

def cmdBad (k : CmdKind) : Bool :=
  match k with
  | .lin a b n ss ds => 2 ^ 40 ≤ n || (ss == ds && n != 0 && rangesMeet a b n)
  | .ten a b n _ _ q0 q1 q2 q3 =>
    let e := (shapeElem q0 q3).1
    let d := bitsAt q0 0 16 * bitsAt q0 16 15 * bitsAt q2 24 7
    n % e != 0 || (if q3 % 16 = 5 then d < 2 * n || bitsAt q0 0 16 % 2 == 1 else d < n / e) ||
    a % e != 0 || b % e != 0 || q1 % e != 0 || bitsAt q2 0 24 * 256 % e != 0
  | .gat _ _ _ n _ _ _ | .sct _ _ _ n _ _ _ | .nmr _ _ _ _ n _ _ _ => 2 ^ 24 < n
  | .enc _ _ n _ | .dec _ _ n => n % 4096 != 0 || 2 ^ 40 ≤ n
  | .nmrShaped sel _ _ _ _ _ _ q3 => q3 % 16 != (match sel.ty with | .f16 | .bf16 => 1 | _ => 2)
  | .flush | .redg _ => false

/-! ## Outcomes -/

def Cmd.who (c : Cmd) : EngWho := ⟨c.ctx, c.sup, c.crew⟩

/-- SRC of a record about a command (Table 17.3): for class 4 the die and stack of the output's page, of the releasing die's first stack if that page has none. -/
def State.cmdSrc (s : State) (c : Cmd) : Nat :=
  if c.kind.cls = 4 then (s.baseOf c).1 * 2 ^ 16 + 4 * 2 ^ 8 + (s.baseOf c).2
  else c.die * 2 ^ 16 + c.kind.cls * 2 ^ 8 + c.engine

/-- The TOKEN of a command's gang with SEQ 0 (AUX1), 0 for a cox core. -/
def State.cmdToken (s : State) (gang : Nat) : Nat := match s.gang? gang with | some g => s.tokenOf g 0 | none => 0

/-- A wait for a page begins: one record of kind 0x04 (R374). -/
def State.waitRecord (s : State) (ctx src va acc : Nat) : State := s.kindRecord 0x04 cPageNotPresent 0 ctx src va acc 0 0 0

/-- A failed piece stops the command; its failure is reported by its completion step. -/
def State.cmdErr (s : State) (c : Cmd) (x : EngErr) : State :=
  match x with
  | .delay => s
  | .wait va acc =>
    let s := if c.waitVa.isSome then s else s.waitRecord c.ctx (s.cmdSrc c) va acc
    s.putCmd { c with waitVa := some va }
  | .fail cause va => (s.putCmd { c with failed := some (cause, va), waitVa := none }).addDue (.commandCompletion c.id)

/-- A command that has written its last piece. -/
def State.cmdDone (s : State) (c : Cmd) : State := (s.putCmd { c with finished := true }).addDue (.commandCompletion c.id)

/-- Go on with new progress; a command past its last block is finished. -/
def State.cmdNext (s : State) (c : Cmd) (p : Progress) : State :=
  let p := p.pass c.kind (p.done.length + p.list.length + 1)
  let c := { c with prog := p, waitVa := none }
  if blockCount c.kind ≤ p.pos then s.cmdDone c else s.putCmd c

/-! ## Moving commands -/

def heldOf (p : Progress) (i : Nat) : List BSt := ((p.held.find? (fun h => h.1 == i)).map (·.2)).getD []

def addrBytes (a : Nat) (bs : List BSt) : List (Nat × BSt) := (List.range bs.length).zip bs |>.map (fun x => (a + x.1, x.2))

/-- The table address of a unit's row, for the side of cp.gat and cp.sct that the index moves (R268). -/
def rowAddr (k : CmdKind) (p : Progress) (u : Nat) : Nat :=
  match k with
  | .gat _ b _ _ _ row stride => (b + p.index (u / row) * rowStride row stride) % 2 ^ 64
  | .sct a _ _ _ _ row stride => (a + p.index (u / row) * rowStride row stride) % 2 ^ 64
  | _ => 0

/-- The index list of cp.gat and cp.sct. -/
def CmdKind.listAt : CmdKind → Nat | .gat _ _ i _ _ _ _ | .sct _ _ i _ _ _ _ => i | _ => 0

/-- Read an index-list entry. -/
def State.actEntry (s : State) (c : Cmd) (r : Nat) : State :=
  match engRead s c.who .glob ((c.kind.listAt + 4 * r) % 2 ^ 64) 4 with
  | (.error x, s) => s.cmdErr c x
  | (.ok bs, s) => s.cmdNext c { c.prog with list := spSet r bs c.prog.list }

/-- Read a unit; a table row of cp.gat must have a canonical address. -/
def State.actRead (s : State) (c : Cmd) (i : Nat) : State :=
  let u := unitAt c.kind c.prog i
  let row := match c.kind with | .gat .. => rowAddr c.kind c.prog i | _ => 0
  if !canonical row then s.cmdErr c (.fail cEngineFault row)
  else
    match engRead s c.who (srcSpace c.kind) u.src u.n with
    | (.error x, s) => s.cmdErr c x
    | (.ok bs, s) => s.putCmd { c with waitVa := none, prog := { c.prog with held := c.prog.held ++ [(i, bs)] } }

/-- Write units of one line as one piece; a table row of cp.sct must have a canonical address. -/
def State.actWrite (s : State) (c : Cmd) (is : List Nat) : State :=
  let row := match c.kind with | .sct .. => rowAddr c.kind c.prog (is.headD 0) | _ => 0
  if !canonical row then s.cmdErr c (.fail cEngineFault row)
  else
    let bs := is.flatMap (fun i => addrBytes (unitAt c.kind c.prog i).dst (heldOf c.prog i))
    match engWrite s c.who (dstSpace c.kind) bs with
    | (.error x, s) => s.cmdErr c x
    | (.ok _, s) => s.cmdNext c { c.prog with done := c.prog.done ++ is, held := c.prog.held.filter (fun h => !is.contains h.1) }

/-! ## The codec (R269, R396 to R398) -/

/-- The units a block takes: 1 for zeros, else the codec's own count from 1 to 16 (log entry 7). -/
def codecSize (bs : List Byte) : Nat := if bs.all (· == 0) then 1 else Config.codecUnits bs % 16 + 1

def deepTotal : Nat := 2 ^ 32

/-- Whether a command is reading an extent (R397 step 4). -/
def State.extentRead (s : State) (ext : Nat) : Bool :=
  s.cmds.any (fun c => c.prog.deep.any (fun d => d.2 == .reading ext))

/-- Free the old extents that are to be freed and that no command reads any more (R397 step 4). -/
def State.freeExtents (s : State) : State :=
  let gone (x : OldExtent) : Bool := x.asked && !s.extentRead x.ext
  { s with oldExtents := s.oldExtents.filter (fun x => !gone x), unitsUsed := s.unitsUsed - sumOf OldExtent.units (s.oldExtents.filter gone) }

/-- Ask for an old extent to be freed. -/
def State.askFree (s : State) (ext : Nat) : State :=
  { s with oldExtents := mapIf (fun x => x.ext == ext) (fun x => { x with asked := true }) s.oldExtents }

/-- Steps 2 and 3 of R397: the units are written and the directory names the new extent, at one point, since no other access reaches the units of an extent that the directory does not name. The extent it named before is kept until step 4. -/
def State.storeDeep (s : State) (block : Nat) (d : DeepBlock) : State :=
  { s with deep := spSet block d s.deep,
           oldExtents := s.oldExtents ++ ((spFind s.deep block).map (fun o => (⟨o.ext, o.units, false⟩ : OldExtent))).toList }

/-- A command that is over gives back the units it has allocated and not yet used, and frees what it had still to free. -/
def State.endWork (s : State) (c : Cmd) : State :=
  (c.prog.deep.foldl (fun (s : State) d => match d.2 with
    | .allocated k => { s with unitsUsed := s.unitsUsed - k }
    | .stored _ _ (some x) => s.askFree x
    | _ => s) s).freeExtents

/-- Where the size record of block `j` goes. -/
def sizeRecordAt (x j : Nat) : Nat := (x + 2 * j) % 2 ^ 64

/-- The bytes of a block of a command whose units are all at hand. -/
def Cmd.blockBytes (c : Cmd) (j : Nat) : List Byte := ((blockUnits c.kind j).flatMap (heldOf c.prog)).map (·.1)

/-- Step 1 of R397 for a block whose lines have all been read: it is compressed and its units are allocated, or too few are free (R398). -/
def State.actAlloc (s : State) (c : Cmd) (j : Nat) : State :=
  let dst := (unitAt c.kind c.prog (64 * j)).dst
  match engXlat s c.who .store .codec dst with
  | (.error e, s) => s.cmdErr c e
  | (.ok _, s) =>
    let k := codecSize (c.blockBytes j)
    if deepTotal < s.unitsUsed + k then s.cmdErr c (.fail cEngineFault dst)
    else { s with unitsUsed := s.unitsUsed + k }.putCmd { c with waitVa := none, prog := c.prog.setWork j (some (.allocated k)) }

/-- Parts of the size record of a block, of whatever alignment: a word that crosses a line is written as two (the model's choice, log entry 78: R269 names no alignment of X). -/
def recordParts (k : CmdKind) (j : Nat) : List Nat :=
  match k with
  | .enc _ _ _ (some x) => if sizeRecordAt x j % 64 = 63 then [0, 1] else [0]
  | _ => []

/-- What is left to do for a block that is stored. -/
def storedWork (k : Nat) (parts : List Nat) (old : Option Nat) : Option DeepWork :=
  if parts.isEmpty && old.isNone then none else some (.stored k parts old)

/-- Steps 2 and 3 of R397. -/
def State.actStore (s : State) (c : Cmd) (j : Nat) : State :=
  let us := blockUnits c.kind j
  match c.prog.work j, engXlat s c.who .store .codec (unitAt c.kind c.prog (64 * j)).dst with
  | some (.allocated k), (.ok l, s) =>
    let pois := (List.range us.length).filter (fun i => (heldOf c.prog (64 * j + i)).any (fun b => b.2 != .live))
    let old := (spFind s.deep (l.la / 4096)).map (·.ext)
    let p := { c.prog with done := c.prog.done ++ us, held := c.prog.held.filter (fun h => !us.contains h.1) }
    ({ s with nextId := s.nextId + 1 }.storeDeep (l.la / 4096) ⟨s.nextId, k, c.blockBytes j, pois⟩).cmdNext c (p.setWork j (storedWork k (recordParts c.kind j) old))
  | _, (.error e, s) => s.cmdErr c e
  | _, _ => s

/-- Write a part of a block's size record. -/
def State.actRecord (s : State) (c : Cmd) (j part : Nat) : State :=
  match c.kind, c.prog.work j with
  | .enc _ _ _ (some x), some (.stored k parts old) =>
    let a := sizeRecordAt x j
    let bs : List BSt := (bytesLE 2 k).map (fun b => (b, .live))
    let piece := if a % 64 = 63 then (if part = 0 then (a, bs.take 1) else (a + 1, bs.drop 1)) else (a, bs)
    (match engWrite s c.who .glob (addrBytes piece.1 piece.2) with
     | (.error e, s) => s.cmdErr c e
     | (.ok _, s) => s.cmdNext c (c.prog.setWork j (storedWork k (parts.filter (· != part)) old)))
  | _, _ => s

/-- Step 4 of R397: the extent that the block had is freed once no command reads it. -/
def State.actFree (s : State) (c : Cmd) (j : Nat) : State :=
  match c.prog.work j with
  | some (.stored k parts (some x)) => ((s.askFree x).freeExtents).cmdNext c (c.prog.setWork j (storedWork k parts none))
  | _ => s

/-- Read a block's directory entry, and the extent it names, whose units nothing writes while they are read (R397). -/
def State.actFetch (s : State) (c : Cmd) (j : Nat) : State :=
  match engXlat s c.who .load .codec (unitAt c.kind c.prog (64 * j)).src with
  | (.error e, s) => s.cmdErr c e
  | (.ok l, s) =>
    let d := (spFind s.deep (l.la / 4096)).getD ⟨0, 0, List.replicate 4096 0, []⟩
    let lines := runs 64 64 d.bytes
    let held := (List.range 64).map (fun i => (64 * j + i, (lines.getD i []).map (fun b => (b, if d.pois.contains i then VSt.poison else VSt.live))))
    s.putCmd { c with waitVa := none, prog := { c.prog.setWork j (some (.reading d.ext)) with held := c.prog.held ++ held } }

/-- The extent of a block has been read. -/
def State.actClose (s : State) (c : Cmd) (j : Nat) : State := (s.cmdNext c (c.prog.setWork j none)).freeExtents

/-- Perform an action of a copy command. -/
def State.actOn (s : State) (c : Cmd) : EngAct → State
  | .entry r => s.actEntry c r
  | .read u => s.actRead c u
  | .write us => s.actWrite c us
  | .fetch j => s.actFetch c j
  | .close j => s.actClose c j
  | .alloc j => s.actAlloc c j
  | .store j => s.actStore c j
  | .record j part => s.actRecord c j part
  | .free j => s.actFree c j

/-! ## Reduction (R270 to R272) -/

def nmrFmt : NmrTy → Option Fmt
  | .f32 => some fp32
  | .f16 => some fp16
  | .bf16 => some bf16
  | _ => none

def nmrBytes : NmrTy → Nat | .f16 | .bf16 => 2 | _ => 4

/-- Widen, combine and narrow (R270). -/
def nmrWiden (t : NmrTy) (x : Nat) : Nat :=
  match nmrFmt t with
  | some f => if f.width = 16 then (cvtFF fpPlain f fp32 false x).1 else x
  | none => x

def nmrNarrow (t : NmrTy) (x : Nat) : Nat :=
  match nmrFmt t with
  | some f => if f.width = 16 then (cvtFF fpPlain fp32 f false x).1 else x
  | none => x

def nmrComb (sel : NmrSel) (y x : Nat) : Nat :=
  match nmrFmt sel.ty with
  | some _ =>
    (match sel.op with
     | .sum => (fAdd fpPlain fp32 y x).1
     | .min => (fMinMax fpPlain fp32 false y x).1
     | .max => (fMinMax fpPlain fp32 true y x).1)
  | none =>
    let sg := sel.ty == .i32
    (match sel.op with
     | .sum => intRed 32 sg .add y x
     | .min => intRed 32 sg .min y x
     | .max => intRed 32 sg .max y x)

/-- Elements of a byte run. -/
def elemsOf (e : Nat) (bs : List BSt) : List Nat := (runs e bs.length bs).map (fun x => ofBytesLE (x.map (·.1)))

/-- The bytes of an output line: the rows combined in list order, on the old output under ACC (R270). -/
def nmrLine (sel : NmrSel) (acc : Bool) (old : List BSt) (rows : List (List BSt)) : List BSt :=
  let e := nmrBytes sel.ty
  let n := old.length / e
  let pois := (if acc then old.any (fun b => b.2 != .live) else false) || rows.any (fun r => r.any (fun b => b.2 != .live))
  let olds := elemsOf e old
  let vals := rows.map (elemsOf e)
  let out := (List.range n).flatMap (fun i =>
    let xs := vals.map (fun v => nmrWiden sel.ty (v.getD i 0))
    let xs := if acc then nmrWiden sel.ty (olds.getD i 0) :: xs else xs
    let y := match xs with | [] => 0 | x :: r => r.foldl (nmrComb sel) x
    bytesLE e (nmrNarrow sel.ty y))
  out.map (fun b => (b, if pois then .poison else .live))

/-- A reduction as its bags: output address and bytes of a row, and the row addresses of each bag. -/
structure NmrPlan where
  sel : NmrSel
  acc : Bool
  out : Nat
  rowBytes : Nat
  bags : List (List Nat)
deriving DecidableEq, Repr

/-- The bags of an index list (R270). -/
def bagsOf (base sb : Nat) : List Nat → List Nat → List (List Nat)
  | [], [] => []
  | [], cur => [cur]
  | x :: r, cur =>
    let a := (base + x % 2 ^ 31 * sb) % 2 ^ 64
    if 2 ^ 31 ≤ x then (cur ++ [a]) :: bagsOf base sb r [] else bagsOf base sb r (cur ++ [a])

def nmrPlan (k : CmdKind) (list : List BSt) : NmrPlan :=
  match k with
  | .nmr sel a b _ _ acc row stride => ⟨sel, acc, a, 4 * row, bagsOf b (rowStride row stride) (elemsOf 4 list) []⟩
  | .nmrShaped sel a b acc q0 q1 q2 _ =>
    ⟨sel, acc, a, bitsAt q0 0 16 * nmrBytes sel.ty,
     (List.range (bitsAt q2 24 7)).map (fun i2 => (List.range (bitsAt q0 16 15)).map (fun i1 =>
       (b + i1 * q1 + i2 * bitsAt q2 0 24 * 256) % 2 ^ 64))⟩
  | _ => ⟨⟨.f32, .sum⟩, false, 0, 0, []⟩

/-- The parts of the output rows by line: bag, offset in the row, bytes. -/
def NmrPlan.parts (p : NmrPlan) : List (Nat × Nat × Nat) :=
  (List.range p.bags.length).flatMap (fun g =>
    let lo := p.out + g * p.rowBytes
    (rangeFrom (lo / 64) (if p.rowBytes = 0 then 0 else (lo + p.rowBytes - 1) / 64 - lo / 64 + 1)).map (fun l =>
      let a := max lo (64 * l)
      (g, a - lo, min (lo + p.rowBytes) (64 * l + 64) - a)))

/-- The checks of the output pages before the first write (R270); the part that fails first decides. -/
def nmrCheck (w : EngWho) : List Nat → State → Except EngErr Unit × State
  | [], s => (.ok (), s)
  | a :: r, s =>
    match engXlat s w .store .engine a with
    | (.error x, s) => (.error x, s)
    | (.ok l, s) => if l.memside then nmrCheck w r s else (.error (.fail cEngineFault a), s)

/-- One action of a reduction: read a list entry; check the output; read a piece of a row for an output line; write an output line. -/
inductive NmrAct
  | entry (r : Nat)
  | check
  | read (q i g : Nat)
  | write (q : Nat)
deriving DecidableEq, Repr

/-- The pieces of `n` bytes at `a`, at most two lines. -/
def nmrSegs (a n : Nat) : List (Nat × Nat) :=
  let k := 64 - a % 64
  if n ≤ k then [(a, n)] else [(a, k), ((a + k) % 2 ^ 64, n - k)]

/-- What is read of row `i`, piece `g`, for output line `q`. -/
def nmrKey (q i g : Nat) : Nat := (q * 2 ^ 25 + i) * 2 + g

/-- The pieces to be read for an output line: row, piece, address, bytes. -/
def NmrPlan.reads (p : NmrPlan) (x : Nat × Nat × Nat) : List (Nat × Nat × Nat × Nat) :=
  let rows := p.bags.getD x.1 []
  (List.range rows.length).flatMap (fun i =>
    let l := nmrSegs ((rows.getD i 0 + x.2.1) % 2 ^ 64) x.2.2
    (List.range l.length).map (fun g => (i, g, l.getD g (0, 0))))

/-- List entries that a reduction has still to read. -/
def CmdKind.listLeft (k : CmdKind) (p : Progress) : Bool := match k with | .nmr _ _ _ _ n _ _ _ => p.list.length < n | _ => false

/-- The action a reduction takes (R270, R271): the list in any order, then the check of the output, then the reads of any line and the writes of lines whose reads have all been made. -/
def nmrNext (k : CmdKind) (plan : NmrPlan) (p : Progress) (choice : Nat) : Option NmrAct :=
  let parts := plan.parts
  let want (q : Nat) : List (Nat × Nat × Nat × Nat) := match parts[q]? with
    | some x => (plan.reads x).filter (fun x => !p.has (nmrKey q x.1 x.2.1))
    | none => []
  let live (q : Nat) : Bool := decide (p.pos ≤ q) && decide (q < parts.length) && !p.done.contains q
  if k.listLeft p then
    match k, choice with
    | .nmr _ _ _ _ n _ _ _, 0 => ((List.range n).find? (fun r => (spFind p.list r).isNone)).map .entry
    | .nmr _ _ _ _ n _ _ _, c + 1 => if c < n && (spFind p.list c).isNone then some (.entry c) else none
    | _, _ => none
  else if p.sub = 0 then some .check
  else
    match choice with
    | 0 => (match want p.pos with | x :: _ => some (.read p.pos x.1 x.2.1) | [] => some (.write p.pos))
    | c + 1 =>
      if c % 2 = 1 then (let q := c / 2; if live q && (want q).isEmpty then some (.write q) else none)
      else
        let q := c / 2 / 2 ^ 26
        (if live q then (want q).find? (fun x => nmrKey q x.1 x.2.1 == c / 2) else none).map (fun x => .read q x.1 x.2.1)

/-- Pass the output lines that are written. -/
def Progress.passLines : Nat → Progress → Progress
  | 0, p => p
  | n + 1, p => if p.done.contains p.pos then Progress.passLines n { p with pos := p.pos + 1, done := p.done.filter (· != p.pos) } else p

/-- Read a list entry of a reduction. -/
def State.nmrEntry (s : State) (c : Cmd) (idx r : Nat) : State :=
  match engRead s c.who .glob ((idx + 4 * r) % 2 ^ 64) 4 with
  | (.error x, s) => s.cmdErr c x
  | (.ok bs, s) => s.putCmd { c with waitVa := none, prog := { c.prog with list := spSet r bs c.prog.list } }

/-- Read a piece of a row. -/
def State.nmrRead (s : State) (c : Cmd) (plan : NmrPlan) (q i g : Nat) : State :=
  match (plan.reads (plan.parts.getD q (0, 0, 0))).find? (fun x => x.1 == i && x.2.1 == g) with
  | none => s
  | some x =>
    match (if canonical x.2.2.1 then engRead s c.who .glob x.2.2.1 x.2.2.2 else (.error (.fail cPermission x.2.2.1), s)) with
    | (.error e, s) => s.cmdErr c e
    | (.ok bs, s) => s.putCmd { c with waitVa := none, prog := { c.prog with held := c.prog.held ++ [(nmrKey q i g, bs)] } }

/-- The bytes of each row for an output line. -/
def NmrPlan.rows (plan : NmrPlan) (p : Progress) (q : Nat) (x : Nat × Nat × Nat) : List (List BSt) :=
  (List.range (plan.bags.getD x.1 []).length).map (fun i => heldOf p (nmrKey q i 0) ++ heldOf p (nmrKey q i 1))

/-- Write an output line: it is read for ACC, combined with every row of its bag and written as one piece. -/
def State.nmrWrite (s : State) (c : Cmd) (plan : NmrPlan) (q : Nat) : State :=
  match plan.parts[q]? with
  | none => s.cmdDone c
  | some x =>
    match engXlat s c.who .store .engine ((plan.out + x.1 * plan.rowBytes + x.2.1) % 2 ^ 64) with
    | (.error e, s) => s.cmdErr c e
    | (.ok l, s) =>
      if s.holderHit none [.glob (lineOf l.la)] [] then s
      else
        let s := s.writeLine (addrBytes l.la (nmrLine plan.sel plan.acc (s.readBytes l.la x.2.2) (plan.rows c.prog q x)))
        let p := Progress.passLines (c.prog.done.length + 1)
          { c.prog with done := c.prog.done ++ [q], held := c.prog.held.filter (fun h => h.1 / 2 ^ 26 != q) }
        if plan.parts.length ≤ p.pos then s.cmdDone { c with prog := p } else s.putCmd { c with waitVa := none, prog := p }

/-- One piece of a reduction. -/
def State.nmrPiece (s : State) (c : Cmd) (choice : Nat) : State :=
  let plan := nmrPlan c.kind (c.prog.list.flatMap (·.2))
  match nmrNext c.kind plan c.prog choice with
  | none => s
  | some (.entry r) => s.nmrEntry c (match c.kind with | .nmr _ _ _ idx _ _ _ _ => idx | _ => 0) r
  | some .check =>
    (match nmrCheck c.who (plan.parts.map (fun p => (plan.out + p.1 * plan.rowBytes + p.2.1) % 2 ^ 64)) s with
     | (.error x, s) => s.cmdErr c x
     | (.ok _, s) => s.putCmd { c with waitVa := none, prog := { c.prog with sub := 1 } })
  | some (.read q i g) => s.nmrRead c plan q i g
  | some (.write q) => s.nmrWrite c plan q

/-! ## Waiting redg (R253, R394) -/

/-- The lanes of a waiting redg that may be performed: their base die has taken the redg, and no earlier lane on the same line is left. -/
def State.redgLanesReady (s : State) (c : Cmd) : List RedgOp → List RedgOp
  | [] => []
  | x :: r => (if s.roomAt (baseAt x.la) (s.releasedBefore c) then [x] else []) ++ (s.redgLanesReady c r).filter (fun y => lineOf y.la != lineOf x.la)

/-- A lane's operation of a waiting redg, as one piece; it is finished with its last lane. -/
def State.redgPiece (s : State) (c : Cmd) (ops : List RedgOp) (choice : Nat) : State :=
  let l := s.redgLanesReady c ops
  match l[choice % l.length]? with
  | none => s
  | some x =>
    let ln : List Line := [.glob (lineOf x.la)]
    if s.holderHit none ln [] then s
    else
      let s := (s.pieceSquash ln).applyRedg [x]
      let c := { c with kind := .redg (ops.erase x), prog := { c.prog with sub := 1 } }
      if (ops.erase x).isEmpty then s.cmdDone c else s.putCmd c

/-! ## Running and stopping (Table 17.4, R382) -/

/-- Whether a command's context runs in its gang's partition, its crew in the live image, which alone can be addressed (R13, R382); a cox core's always does. -/
def State.cmdRuns (s : State) (c : Cmd) : Bool :=
  match c.crew.bind s.crew? with
  | some k => k.live && s.ctxRunsAt (quadOf k.coreIx) c.ctx
  | none => true

/-- Whether a command stands at a boundary at which a stop finds it (Table 17.4). -/
def Cmd.atBoundary (c : Cmd) : Bool :=
  let p := c.prog
  let fresh := p.done.isEmpty && p.held.isEmpty && p.list.isEmpty && p.deep.isEmpty
  c.waitVa.isSome || !(c.finished || c.failed.isSome) &&
  (match c.kind with
   | .gat _ _ _ _ _ row _ | .sct _ _ _ _ _ row _ => fresh && (p.pos == 0 || p.pos * 4 * row / 4096 != (p.pos - 1) * 4 * row / 4096)
   | .nmr .. | .nmrShaped .. => !p.checked
   | .redg _ => p.sub == 0
   | .flush => true
   | _ => fresh)

/-- The first block at or past every block that a command has begun at which a stop finds it: the end of such a block, for cp.gat and cp.sct the end of the row in which a 4 KiB boundary of the destination falls. -/
def Cmd.stopBlock (c : Cmd) : Nat :=
  let p := c.prog
  let n := (p.done ++ p.held.map (·.1)).foldl (fun m u => max m (u / unitsIn c.kind + 1)) p.pos
  let n := p.list.foldl (fun m x => max m (x.1 + 1)) n
  let n := p.deep.foldl (fun m x => max m (x.1 + 1)) n
  match c.kind with
  | .gat _ _ _ _ _ row _ | .sct _ _ _ _ _ row _ =>
    if n = 0 || n * 4 * row / 4096 != (n - 1) * 4 * row / 4096 then n else ceilDiv ((n * 4 * row / 4096 + 1) * 4096) (4 * row)
  | _ => n

/-- Whether a command's context is the one that its gang's stopping partition is stopping. -/
def State.cmdAtStop (s : State) (c : Cmd) : Bool :=
  match c.crew.bind s.crew? with
  | some k => k.live && (match s.partOfQuad (quadOf k.coreIx) with
    | some p => (s.part p).st == .stopping && (s.part p).live == c.ctx
    | none => false)
  | none => false

/-- Whether the partition of a command is stopping, so that the command goes on to its boundary. -/
def State.cmdStopping (s : State) (c : Cmd) : Bool := s.cmdAtStop c && !c.atBoundary

/-- The blocks in which a command may move: all, or, while its partition stops, those below its boundary. -/
def State.cmdLimit (s : State) (c : Cmd) : Nat := if s.cmdRuns c then blockCount c.kind else c.stopBlock

def State.cmdMoves (s : State) (c : Cmd) : Bool := s.cmdRuns c || s.cmdStopping c

/-- The piece of a command that an engine performs next. -/
def State.cmdPiece (s : State) (c : Cmd) (choice : Nat) : State :=
  if c.corrupt then s.cmdErr c (.fail cUncorrectable 0)
  else if !c.prog.checked then
    if cmdBad c.kind then s.cmdErr c (.fail cEngineFault 0) else s.putCmd { c with prog := { c.prog with checked := true } }
  else
    match c.kind with
    | .nmr .. | .nmrShaped .. => s.nmrPiece c choice
    | .redg ops => s.redgPiece c ops choice
    | .flush => s
    | _ => (match nextAct c.kind c.prog (s.cmdLimit c) choice with
      | some a => s.actOn c a
      | none => s)

/-- Whether an engine has taken a command: a base die has room for it, for a redg at one of the dies that it needs (R394). -/
def State.taken (s : State) (c : Cmd) : Bool := match c.kind with | .redg ops => !(s.redgLanesReady c ops).isEmpty | _ => s.baseTakes c

/-- Whether a command has a piece to perform. -/
def State.cmdReady (s : State) (c : Cmd) : Bool :=
  !c.finished && c.failed.isNone && c.waitVa.isNone && !c.kind.noData && c.kind != .flush && s.cmdMoves c && s.taken c

/-! ## Completion (R263) -/

/-- Whether every reduction that the gang released before a flush has been performed (R273). -/
def State.flushReady (s : State) (c : Cmd) : Bool :=
  !s.cmds.any (fun d => d.gang == c.gang && d.id < c.id && d.id != c.id && !d.finished && d.failed.isNone &&
    (match d.kind with | .nmr .. | .nmrShaped .. | .redg _ => !d.kind.noData | _ => false))

/-- Whether a command may complete as the partition of its gang stands (R375, R382): its context runs, or is being stopped and the command neither waits for a page nor is a queued flush. -/
def State.cmdMayEnd (s : State) (c : Cmd) : Bool := s.cmdRuns c || (s.cmdAtStop c && c.waitVa.isNone && c.kind != .flush)

/-- Whether a command has come to its completion; one without a data piece has with its release (R263). -/
def State.cmdComplete (s : State) (c : Cmd) : Bool :=
  s.cmdMayEnd c && (c.finished || c.failed.isSome || c.kind.noData || (c.kind == .flush && s.flushReady c && s.baseTakes c))

/-- A failure record (kind 0x02). -/
def State.failRecord (s : State) (c : Cmd) (cause va : Nat) : State :=
  s.kindRecord 0x02 cause 0 c.ctx (s.cmdSrc c) va (c.obj.getD 0) (s.cmdToken c.gang) (ofBytesLE c.insn) 0

/-- A command leaves its counter, and its crew may then be released (R210). -/
def State.retireCmd (s : State) (c : Cmd) : State :=
  let s := ({ s with cmds := s.cmds.filter (fun d => d.id != c.id) } : State).endWork c
  let s := s.mapGang c.gang (fun g => g.mapBoth (fun k => match c.kind with | .redg _ => { k with st := k.st - 1 } | _ => { k with cp := k.cp - 1 }))
  match c.crew with
  | some id => (s.mapCrew id (fun k => k.dropUser c.id)).checkCrew id
  | none => s

/-- The object's word after a command: COUNT advanced, or F and the first CAUSE set (Table 10.8). -/
def objectAfter (old : Nat) (failed : Option Cause) : Nat :=
  match failed with
  | none => old / 2 ^ 48 * 2 ^ 48 + (old + 1) % 2 ^ 48
  | some c => if old.testBit 63 then old else 2 ^ 63 + c * 2 ^ 48 + old % 2 ^ 48

/-- The completion of a command: its object is updated as one piece, translated now (R263). -/
def State.completeCmd (s : State) (id : Nat) : State :=
  match s.cmd? id with
  | none => s
  | some c0 =>
    if !s.cmdComplete c0 then s
    else
      let c := if c0.kind.noData && !c0.prog.checked then
          { c0 with prog := { c0.prog with checked := true }, failed := if cmdBad c0.kind then some (cEngineFault, 0) else c0.failed }
        else if c0.corrupt && c0.failed.isNone && !c0.finished then { c0 with failed := some (cUncorrectable, 0) } else c0
      match c.obj with
      | none => (match c.failed with | some (k, va) => (s.failRecord c k va).retireCmd c | none => s.retireCmd c)
      | some a =>
        match engXlat s c.who .store .engine a with
        | (.error .delay, s) => s
        | (.error (.wait va acc), s) => (if c.waitVa.isSome then s else s.waitRecord c.ctx (s.cmdSrc c) va acc).putCmd { c with waitVa := some va }
        | (.error (.fail k va), s) =>
          let s := match c.failed with | some (k0, va0) => s.failRecord c k0 va0 | none => s
          (s.failRecord c k va).retireCmd c
        | (.ok l, s) =>
          if s.holderHit none [.glob (lineOf l.la)] [] then s.putCmd c
          else
            let old := s.loadNat l.la 8
            let s := s.pieceWrite l.la (bytesLE 8 (objectAfter old (c.failed.map (·.1))))
            let s := s.latchComp l.la
            let s := match c.failed with | some (k, va) => s.failRecord c k va | none => s
            s.retireCmd c

def execCommandCompletion (cmd : Nat) (s : State) : Host.Outcome State Fault Refusal := event (fun s => s.completeCmd cmd) s

end Sys2Proof.Machine
end

