-- ==== Sys2Proof/Machine/Matrix.lean ====
section
/-! DEFINITION. The tile and accumulator instructions at issue (11, R278 to R295): shapes, the accumulator window and ownership, requests entering the reservation table, acc.rd. -/

namespace Sys2Proof.Machine

/-! ## Shapes (R278 to R280) -/

def tcType (v : Nat) : Nat := bitsAt v 0 4
def tcRows (v : Nat) : Nat := bitsAt v 4 8
def tcCols (v : Nat) : Nat := bitsAt v 12 8
def tcSaxis (v : Nat) : Nat := bitsAt v 20 1

/-- Bits of an element type (Table 11.2); 0 for a code that is none. -/
def etBits (t : Nat) : Nat :=
  match t with
  | 1 | 2 => 16
  | 3 | 4 | 6 | 7 => 8
  | 5 | 8 | 9 => 4
  | _ => 0

/-- The floating-point format of an element type; none for the integers. -/
def etFmt (t : Nat) : Option Fmt :=
  match t with
  | 1 => some bf16
  | 2 => some fp16
  | 3 => some fE4m3
  | 4 => some fE5m2
  | 5 => some fE2m1
  | _ => none

/-- R280. -/
def tcfgLegal (v : Nat) : Bool :=
  v == 0 ||
  (etBits (tcType v) != 0 && 1 ≤ tcRows v && tcRows v ≤ 128 && 1 ≤ tcCols v && tcCols v ≤ 128 &&
    tcCols v * etBits (tcType v) % 32 == 0 && tcRows v * tcCols v * etBits (tcType v) ≤ 16384)

def Crew.shape (c : Crew) (m : Nat) : Nat := spGet 0 c.tcfg m

/-- The gang's crew as its chunk sees it. -/
def Env.view (e : Env) (s : State) (g : Gang) : Option Crew := e.crew.map (s.crewView g)

def Gang.readCfg (g : Gang) (e : Env) : Gang := match e.crew with | some c => g.mapChunk (fun ch => ch.addR (.cfg c.id)) | none => g
def Gang.writeCfg (g : Gang) (e : Env) : Gang := match e.crew with | some c => g.mapChunk (fun ch => ch.addW (.cfg c.id)) | none => g

def execTcfg (o : TcfgOps) (s : State) : Host.Outcome State Fault Refusal :=
  issue 8 o.g (fun _ => { guard := o.g, noCox := true, uses := [.tile 0 o.m.val, .uni 1 o.a] })
    (fun e s g =>
      let v := e.uni .w64 o.a % 2 ^ 21
      if tcfgLegal v then .ok s ((g.writeCfg e).holdOp (.tcfg o.m.val v)) e.through
      else .trap s (Trap.plain cIllegalEncoding)) s

def execTcfgr (o : TcfgrOps) (s : State) : Host.Outcome State Fault Refusal :=
  issue 8 o.g (fun _ => { guard := o.g, noCox := true, uses := [.dstS o.d, .tile 1 o.m.val] })
    (fun e s g =>
      let v := match e.view s g with | some c => c.shape o.m.val | none => 0
      .ok s ((g.readCfg e).mapCore (fun c => c.putS o.d (BitVec.ofNat 64 v))) e.through) s

/-! ## The window and its owner (R287, R288, R329) -/

def accKey (quad t : Nat) : Nat := quad * 64 + t
def AccTile.zero : AccTile := ⟨[], [], 0, false⟩
def State.acc (s : State) (quad t : Nat) : AccTile := spGet AccTile.zero s.accLive (accKey quad t)
/-- Write an accumulator tile; a fused-off quad has none (R414): its tiles read as zero and keep nothing (log entry 84). -/
def State.setAcc (s : State) (quad t : Nat) (x : AccTile) : State :=
  if s.quadPresent quad then { s with accLive := spPut AccTile.zero (accKey quad t) x s.accLive } else s

/-- accwin: the leader's, within the crew's reservation. -/
def execAccwin (o : GAB) (s : State) : Host.Outcome State Fault Refusal :=
  issue 8 o.g (fun _ => { guard := o.g, noCox := true, coll := true, uses := [.uni 1 o.a, .uni 2 o.b] })
    (fun e s g =>
      let a := e.uni .w32 o.a
      let b := e.uni .w32 o.b
      match e.crew with
      | none => .ok s g e.through
      | some c =>
        if g.num ≠ 0 then .trap s (Trap.plain cAccWindow)
        else if c.desc.na < a + b then .trap s (Trap.plain cResource)
        else .ok s ((g.writeCfg e).holdOp (.window (c.rb + a) (c.rb + a + b))) e.through) s

/-- The accumulator tile of a window offset: ACC_WINDOW, then ACC_OWNER (R289). -/
def accTile (e : Env) (s : State) (g : Gang) (t : Nat) : Except Trap Nat :=
  match e.view s g with
  | none => .error (Trap.withInfo cAccWindow t)
  | some c =>
    let n := c.accbase + t
    if c.acclim ≤ n then .error (Trap.withInfo cAccWindow t)
    else
      let own := (s.acc (quadOf c.coreIx) n).owner
      if own ≠ 0 ∧ own ≠ e.ctx then .error (Trap.withInfo cAccOwner (own * 2 ^ 6 + n)) else .ok n

/-- The first use of a free tile makes the context its owner, whatever becomes of the chunk. -/
def State.claim (s : State) (ctx quad : Nat) (t : Option Nat) : State :=
  match t with
  | none => s
  | some t => let x := s.acc quad t; if x.owner = 0 then s.setAcc quad t { x with owner := ctx } else s

/-! ## The reservation table (R282, R350) -/

def ReqKind.isRd : ReqKind → Bool | .rd .. => true | _ => false

/-- Whether a request holds an entry of its quad's table. -/
def Req.inTable (r : Req) : Bool := !r.kind.isRd && r.st != .spilled

/-- Requests of a gang that are not released. -/
def Gang.heldReqs (g : Gang) : List Req := g.unreleased.filterMap (fun d => match d with | .req r => some r | _ => none)

def State.tableHeld (s : State) (quad : Nat) : Nat :=
  (s.reqs.filter (fun r => r.quad == quad && r.inTable)).length +
    (s.gangs.map (fun g => (g.heldReqs.filter (fun r => r.quad == quad)).length)).foldl (· + ·) 0

def State.gangHeld (s : State) (g : Gang) : Nat :=
  (s.reqs.filter (fun r => r.gang == g.id && r.inTable)).length + g.heldReqs.length

/-- An accspill or accfill waits for the tile (R328). -/
def State.tileAwaited (s : State) (quad t : Nat) : Bool :=
  s.gangs.any (fun g => g.isCox && g.core.subs.any (fun x => x.wait == .stall (.tile quad t)))

/-- Step 7 of R289 and the request's release with its chunk. A request that finds no entry ends a chunk that holds requests (R282); one that an accspill or accfill keeps waiting ends none (Table 5.1). -/
def postReq (e : Env) (s : State) (g : Gang) (kind : ReqKind) (tile : Option Nat) (crewSide : Bool) : Res :=
  match e.crew with
  | none => .ok s g e.through
  | some c =>
    let q := quadOf c.coreIx
    if (match tile with | some t => s.tileAwaited q t | none => false) then .stall s (.tile q (tile.getD 0))
    else if 256 ≤ s.tableHeld q || 32 ≤ s.gangHeld g then (if g.inExplicit || !g.heldReqs.isEmpty then .endBefore s g else .stall s (.table q))
    else
      let r : Req :=
        { id := s.nextId, gang := g.id, crew := c.id, ctx := e.ctx, quad := q, prio := c.desc.prio, kind := kind, st := .queued,
          done := [], bias := [], data := [], pages := [], passed := 0, insn := e.insn s, corrupt := false }
      let g := (g.defer (.req r)).readCfg e
      let g := if crewSide then g.mapChunk (fun ch => ch.addR (.map c.id)) else g
      .ok (({ s with nextId := s.nextId + 1 } : State).claim e.ctx q tile) g e.through

/-! ## Tile loads and stores (R285, R286) -/

/-- The bytes a tile move transfers: rows of so many bytes. -/
def tileRows (v : Nat) (part : Option Bool) : Nat × Nat :=
  match part with
  | none => (tcRows v, tcCols v * etBits (tcType v) / 8)
  | some s24 => (1, tcRows v * tcCols v / 32 * (if s24 then 3 else 1))

/-- The first address trap of a request (R289 step 6). -/
def addrTrap (e : Env) (s : State) (g : Gang) (crewSp : Bool) (a acc : Nat) (aligned : Bool) (span : Nat) : Option Trap :=
  let l := lowestLane e.on
  if !crewSp && !canonical a then some (Trap.atAddr cPermission a l acc)
  else if !aligned then some (Trap.atAddr cAlignment a l acc)
  else if crewSp && !(match e.view s g with | some c => c.covers a span | none => false) then some (Trap.atAddr cOperandRange a l acc)
  else none

def tileMove (o : TileMoveOps) (store : Bool) (s : State) : Host.Outcome State Fault Refusal :=
  issue 12 o.g
    (fun _ => { guard := o.g, noCox := true, ctr := .tl,
                uses := [.tile 0 o.m.val, .uni 1 o.a] ++ (if o.part.isNone then [.uni 2 o.b] else []) })
    (fun e s g =>
      let v := match e.view s g with | some c => c.shape o.m.val | none => 0
      let a := e.uni (if o.crew then .w32 else .w64) o.a
      let b := if o.part.isNone then e.uni .w32 o.b else 0
      let (rows, rb) := tileRows v o.part
      if v = 0 || (o.part.isSome && (if tcSaxis v = 0 then tcCols v else tcRows v) % 32 != 0) then .trap s (Trap.plain cIllegalEncoding)
      else
        match addrTrap e s g o.crew a (if store then accWrite else accRead)
            (a % 4 == 0 && (o.part.isSome || (b % 4 == 0 && (!store || rb ≤ b)))) ((rows - 1) * b + rb) with
        | some t => .trap s t
        | none => postReq e s g (if store then .st o.m.val v o.crew a b o.part else .ld o.m.val v o.crew a b o.part) none o.crew) s

def execTld (o : TileMoveOps) (s : State) : Host.Outcome State Fault Refusal := tileMove o false s
def execTst (o : TileMoveOps) (s : State) : Host.Outcome State Fault Refusal := tileMove o true s

def execTzero (o : TzeroOps) (s : State) : Host.Outcome State Fault Refusal :=
  issue 8 o.g (fun _ => { guard := o.g, noCox := true, ctr := .tl, uses := [.tile 0 o.m.val] })
    (fun e s g => postReq e s g (.tzero o.m.val) none false) s

/-! ## mma and mmas (R290, R291) -/

/-- Whether a pair of types is legal (Table 11.5). -/
def pairLegal (a b : Nat) : Bool :=
  match a with
  | 1 => b == 1
  | 2 => b == 2
  | 3 | 4 | 5 => b == 3 || b == 4 || b == 5
  | 6 | 7 | 8 | 9 => 6 ≤ b && b ≤ 9
  | _ => false

/-- The K-group size of a pair (R103). -/
def kGroup (a b : Nat) : Nat :=
  if etBits a = 16 ∨ etBits b = 16 then 16 else if etBits a = 8 ∨ etBits b = 8 then 32 else 64

def isFloatType (t : Nat) : Bool := (etFmt t).isSome

/-- The shape rules of R290. -/
def mmaOk (ta tb : Nat) (sat : Bool) (scaled : Bool) : Bool :=
  let x := tcType ta
  let y := tcType tb
  let k := tcCols ta
  ta != 0 && tb != 0 && pairLegal x y && tcRows tb == k && tcRows ta ≤ 32 && tcCols tb ≤ 32 && k % kGroup x y == 0 &&
    (!sat || !isFloatType x) && (!scaled || (isFloatType x && isFloatType y && k % 32 == 0 && tcSaxis ta == 0 && tcSaxis tb == 1))

def mmaIssue (o : MmaOps) (scales : Option Bool) (s : State) : Host.Outcome State Fault Refusal :=
  issue 12 o.g
    (fun _ => { guard := o.g, noCox := true, coll := true, ctr := .tl, uses := [.tile 1 o.a.val, .tile 2 o.b.val] })
    (fun e s g =>
      match accTile e s g o.t.val with
      | .error t => .trap s t
      | .ok t =>
        let shape (m : Nat) : Nat := match e.view s g with | some c => c.shape m | none => 0
        let ta := shape o.a.val
        let tb := shape o.b.val
        if mmaOk ta tb o.sat scales.isSome then postReq e s g (.mma t o.a.val o.b.val ta tb o.zero o.sat scales) (some t) false
        else .trap s (Trap.plain cIllegalEncoding)) s

def execMma (o : MmaOps) (s : State) : Host.Outcome State Fault Refusal := mmaIssue o none s
def execMmasE8 (o : MmaOps) (s : State) : Host.Outcome State Fault Refusal := mmaIssue o (some false) s
def execMmasS24 (o : MmaOps) (s : State) : Host.Outcome State Fault Refusal := mmaIssue o (some true) s

/-! ## Accumulator moves (R293, R294) -/

def execAccZero (o : AccZeroOps) (s : State) : Host.Outcome State Fault Refusal :=
  issue 8 o.g (fun _ => { guard := o.g, noCox := true, coll := true, ctr := .tl })
    (fun e s g =>
      match accTile e s g o.t.val with
      | .error t => .trap s t
      | .ok t => postReq e s g (.accZero t) (some t) false) s

def accMove (o : AccMoveOps) (store : Bool) (s : State) : Host.Outcome State Fault Refusal :=
  issue 12 o.g (fun _ => { guard := o.g, noCox := true, coll := true, ctr := .tl, uses := [.uni 1 o.a, .uni 2 o.b] })
    (fun e s g =>
      match accTile e s g o.t.val with
      | .error t => .trap s t
      | .ok t =>
        let a := e.uni (if o.crew then .w32 else .w64) o.a
        let b := e.uni .w32 o.b
        match addrTrap e s g o.crew a (if store then accWrite else accRead)
            (a % 4 == 0 && b % 4 == 0 && (!store || 128 ≤ b)) (31 * b + 128) with
        | some t => .trap s t
        | none => postReq e s g (if store then .accSt t o.crew a b else .accLd t o.crew a b) (some t) o.crew) s

def execAccLd (o : AccMoveOps) (s : State) : Host.Outcome State Fault Refusal := accMove o false s
def execAccSt (o : AccMoveOps) (s : State) : Host.Outcome State Fault Refusal := accMove o true s

/-- The value of an accumulator tile at (r, c), with its state. -/
def AccTile.cell (x : AccTile) (i : Nat) : Cell := ⟨spGet 0 x.vals i, if x.pois.contains i then .poison else .live⟩

/-- Whether a released request of the context that writes an accumulator tile is yet to complete. -/
def ReqKind.writesAcc (k : ReqKind) (t : Nat) : Bool :=
  match k with
  | .mma u .. | .accZero u | .accLd u .. => u == t
  | _ => false

/-- The place of a stalled acc.rd in the order of R283. -/
def Req.marks (r : Req) (gang t pc : Nat) : Bool := r.gang == gang && r.kind == .rd t pc

def State.accRdReady (s : State) (gang ctx quad t pc : Nat) : Bool :=
  !(s.reqs.takeWhile (fun r => !r.marks gang t pc)).any (fun r =>
    r.quad == quad && r.ctx == ctx && r.kind.writesAcc t && r.st != .finished && r.st != .spilled)

/-- acc.rd reads a row (two in a 64-wide gang) once every earlier request that writes the tile has completed. -/
def execAccRd (o : AccRdOps) (s : State) : Host.Outcome State Fault Refusal :=
  issue 8 o.g (fun _ => { guard := o.g, noCox := true, coll := true, chunk := .before, uses := [.dstV o.d 1, .uni 2 o.b] })
    (fun e s g =>
      match accTile e s g o.t.val, e.crew with
      | .error t, _ => .trap s t
      | .ok _, none => .ok s g e.through
      | .ok t, some c =>
        let r := e.uni .w32 o.b
        let q := quadOf c.coreIx
        if (if e.width = 64 then r % 2 != 0 || 30 < r else 31 < r) then .trap s (Trap.plain cOperandRange)
        else
          let s := s.claim e.ctx q (some t)
          if s.tileAwaited q t then .stall s (.tile q t)
          else if !s.accRdReady g.id e.ctx q t e.pc then
            let mark : Req :=
              { id := s.nextId, gang := g.id, crew := c.id, ctx := e.ctx, quad := q, prio := 0, kind := .rd t e.pc, st := .queued,
                done := [], bias := [], data := [], pages := [], passed := 0, insn := [], corrupt := false }
            .stall (if s.reqs.any (fun x => x.marks g.id t e.pc) then s else { s with reqs := s.reqs ++ [mark], nextId := s.nextId + 1 }) (.accRd t)
          else
            let x := s.acc q t
            let d := match o.d with | .v n => n.val | .s _ => 0
            let code := s.regCode g
            let core := e.lanes.foldl (fun k l => k.writeReg code s.tick d l (x.cell (32 * (r + (if e.width = 64 then l / 32 else 0)) + l % 32))) g.core
            let s := { s with reqs := s.reqs.filter (fun x => !x.marks g.id t e.pc) }
            .ok s (({ g with core := core } : Gang).readCfg e) e.through) s

/-! ## acc.epi (R295) -/

/-- The output type that OTY names (Table 11.6). -/
def epiTy (o : AccEpiOps) : Option EpiTy := fEpi.dec o.oty.toNat

/-- An OTY that names a type, and SAT with E4M3 or E5M2 alone (R295). -/
def epiLegal (o : AccEpiOps) : Bool :=
  match epiTy o with
  | none => false
  | some y => !o.sat || y == .e4m3 || y == .e5m2

def epiTyBytes : EpiTy → Nat
  | .i32 | .f32 => 4
  | .f16 | .bf16 => 2
  | .i8 | .e4m3 | .e5m2 => 1

/-- Bytes of an output element. -/
def epiBytes (o : AccEpiOps) : Nat := epiTyBytes ((epiTy o).getD .i32)

def execAccEpi (o : AccEpiOps) (s : State) : Host.Outcome State Fault Refusal :=
  issue 16 o.g
    (fun _ => { guard := o.g, noCox := true, coll := true, ctr := .tl, uses := [.uni 1 o.a, .uni 2 o.b, .uni 3 o.c] })
    (fun e s g =>
      match accTile e s g o.t.val with
      | .error t => .trap s t
      | .ok t =>
        let a := e.uni (if o.crew then .w32 else .w64) o.a
        let b := e.uni .w32 o.b
        let bias := objOf e o.c
        let es := epiBytes o
        let nc := o.nc.val + 1
        let l := lowestLane e.on
        let biasBad (p : Nat → Bool) : Bool := match bias with | some x => p x | none => false
        let first : Option Trap :=
          if !epiLegal o then some (Trap.plain cIllegalEncoding)
          else if !o.crew && !canonical a then some (Trap.atAddr cPermission a l accWrite)
          else if biasBad (fun x => !canonical x) then some (Trap.atAddr cPermission (bias.getD 0) l accRead)
          else if a % es != 0 || b % es != 0 || b < nc * es then some (Trap.atAddr cAlignment a l accWrite)
          else if biasBad (fun x => x % 4 != 0) then some (Trap.atAddr cAlignment (bias.getD 0) l accRead)
          else addrTrap e s g o.crew a accWrite true (o.nr.val * b + nc * es)
        match first with
        | some t => .trap s t
        | none =>
          postReq e s g (.epi t o a b bias e.w0 (ofBytesLE ((s.curBlk.drop (e.pc % 32 + 8)).take 8))) (some t) o.crew) s

end Sys2Proof.Machine
end

