-- ==== Sys2Proof/Machine/MatrixRun.lean ====
section
/-! DEFINITION. The matrix engine at work: order of requests (R283), the arbiter (R350), sums (R103, R104, R292), tile and accumulator moves (R284, R285, R293), the epilogue's phases (R296, R297). -/

namespace Sys2Proof.Machine

/-! ## Order (R283) -/

def areaOf (crew m : Nat) (part : Option Bool) : MItem := match part with | none => .elem crew m | some _ => .scale crew m

/-- The items a request reads (Table 11.3); an epilogue reads its tile until the capture. -/
def Req.reads (r : Req) : List MItem :=
  match r.kind with
  | .st m _ _ _ _ part => [areaOf r.crew m part]
  | .mma t ma mb _ _ zero _ sc =>
    [.elem r.crew ma, .elem r.crew mb] ++ (if sc.isSome then [.scale r.crew ma, .scale r.crew mb] else []) ++
      (if zero then [] else [.acc r.quad t])
  | .accSt t .. | .rd t _ => [.acc r.quad t]
  | .epi t .. => if r.st == .captured then [] else [.acc r.quad t]
  | _ => []

def Req.writes (r : Req) : List MItem :=
  match r.kind with
  | .ld m _ _ _ _ part => [areaOf r.crew m part]
  | .tzero m => [.elem r.crew m, .scale r.crew m]
  | .mma t .. | .accZero t | .accLd t .. => [.acc r.quad t]
  | _ => []

/-- The tile that an epilogue holds until its capture: no later request that names it proceeds (R297). -/
def Req.holds (r : Req) : List MItem :=
  match r.kind with
  | .epi t .. => if r.st == .captured then [] else [.acc r.quad t]
  | _ => []

def itemsMeet (a b : List MItem) : Bool := a.any (fun x => b.contains x)

/-- Whether a request keeps a later one back: they share an item that one of them writes, or the later one names a tile that an epilogue holds. -/
def Req.conflicts (p r : Req) : Bool :=
  p.ctx == r.ctx && (itemsMeet p.writes (r.reads ++ r.writes) || itemsMeet p.reads r.writes || itemsMeet p.holds r.reads)

/-- Whether an acc.rd still stands where it stalled. -/
def State.rdStands (s : State) (r : Req) : Bool :=
  match r.kind with
  | .rd t pc => (match s.gang? r.gang with
    | some g => g.core.subs.any (fun x => x.pc.toNat == pc && (x.isReady || x.wait == .stall (.accRd t)))
    | none => false)
  | _ => true

def State.standing (s : State) (r : Req) : Bool := r.st != .finished && r.st != .spilled && s.rdStands r

/-- Whether a request's crew is in the live image, which alone can be addressed (R13). -/
def State.reqLive (s : State) (r : Req) : Bool := match s.crew? r.crew with | some c => c.live | none => true

/-- Whether a request's context runs (R382). -/
def State.reqRuns (s : State) (r : Req) : Bool := s.reqLive r && s.ctxRunsAt r.quad r.ctx

/-- Whether a request moves: its context runs, or is being stopped (Table 17.4). -/
def State.reqMoves (s : State) (r : Req) : Bool :=
  s.reqLive r && (match s.partOfQuad r.quad with
    | some p => (s.part p).live == r.ctx && ((s.part p).st == .running || (s.part p).st == .stopping)
    | none => false)

/-- Every request ordered before it has completed (R282 step 4). -/
def State.eligible (s : State) (r : Req) : Bool :=
  r.st == .queued && !r.kind.isRd && s.reqMoves r &&
  !(s.reqs.takeWhile (fun p => p.id != r.id)).any (fun p => s.standing p && s.reqLive p && p.conflicts r)

/-! ## Completion, waits and failures (R284) -/

def Req.who (r : Req) : EngWho := ⟨r.ctx, false, some r.crew⟩
def reqSrc (quad : Nat) : Nat := quad / 64 * 2 ^ 16 + 3 * 2 ^ 8 + quad % 64

def State.reqDone (s : State) (r : Req) : State := (s.putReq { r with st := .finished }).addDue (.matrixRequestComplete r.id)

def State.mapTile (s : State) (crew m : Nat) (f : TileReg → TileReg) : State :=
  s.mapCrew crew (fun c => { c with tiles := spPut ⟨[], [], [], []⟩ m (f (spGet ⟨[], [], [], []⟩ c.tiles m)) c.tiles })

/-- Add words to a set of poisoned words. -/
def poisonAll (ws : List Nat) (p : List Nat) : List Nat := ws.foldl (fun l w => setAdd w l) p

def State.mapAcc (s : State) (quad t : Nat) (f : AccTile → AccTile) : State := s.setAcc quad t (f (s.acc quad t))

/-- A run of bytes cut at the lines of memory: address, offset in the run, bytes. -/
def cutLines (a off n : Nat) : List (Nat × Nat × Nat) :=
  if n = 0 then []
  else (rangeFrom (a / 64) ((a + n - 1) / 64 - a / 64 + 1)).map (fun l =>
    let lo := max a (64 * l)
    (lo, off + (lo - a), min (a + n) (64 * l + 64) - lo))

/-- Rows of memory as pieces. -/
def rowPieces (rows a stride n : Nat) : List (Nat × Nat × Nat) := (List.range rows).flatMap (fun r => cutLines (a + r * stride) (r * n) n)

/-- The pieces of a request's memory side: address, offset among the values moved, bytes. -/
def ReqKind.pieces (k : ReqKind) : List (Nat × Nat × Nat) :=
  match k with
  | .ld _ v _ a b part | .st _ v _ a b part => let x := tileRows v part; rowPieces x.1 a b x.2
  | .accLd _ _ a b | .accSt _ _ a b => rowPieces 32 a b 128
  | .epi _ o a b _ _ _ => rowPieces (o.nr.val + 1) a b ((o.nc.val + 1) * epiBytes o)
  | _ => []

def wordsIn (off n : Nat) : List Nat := rangeFrom (off / 4) ((off + n + 3) / 4 - off / 4)

/-- What a failed request was to write and did not becomes POISON. -/
def State.poisonRest (s : State) (r : Req) : State :=
  let left := (r.kind.pieces.zip (List.range r.kind.pieces.length)).filter (fun p => !r.done.contains p.2)
  let ws := left.flatMap (fun p => wordsIn p.1.2.1 p.1.2.2)
  match r.kind with
  | .ld m _ _ _ _ none => s.mapTile r.crew m (fun x => { x with epois := poisonAll ws x.epois })
  | .ld m _ _ _ _ (some _) => s.mapTile r.crew m (fun x => { x with spois := poisonAll ws x.spois })
  | .tzero m => s.mapTile r.crew m (fun x => { x with epois := List.range 512, spois := List.range 96 })
  | .accLd t .. => s.mapAcc r.quad t (fun x => { x with pois := poisonAll ws x.pois })
  | .accZero t => s.mapAcc r.quad t (fun x => { x with pois := List.range 1024 })
  | .mma t _ _ _ _ true _ _ => s.mapAcc r.quad t (fun x => { x with pois := List.range 1024 })
  | .mma t _ _ ta tb false _ _ =>
    s.mapAcc r.quad t (fun x => { x with pois := poisonAll ((List.range (tcRows ta)).flatMap (fun i => rangeFrom (32 * i) (tcCols tb))) x.pois })
  | .epi t .. => s.mapAcc r.quad t (fun x => { x with pending := false })
  | _ => s

def State.reqFail (s : State) (r : Req) (cause va : Nat) : State :=
  (((s.poisonRest r).kindRecord 0x02 cause 0 r.ctx (reqSrc r.quad) va 0 (s.cmdToken r.gang) (ofBytesLE r.insn) 0)).reqDone r

/-- A piece or translation that was not performed. -/
def State.reqErr (s : State) (r : Req) (x : EngErr) : State :=
  match x with
  | .delay => s
  | .wait va acc =>
    let s := match r.st with
      | .pageWait v => if v = va then s else s.waitRecord r.ctx (reqSrc r.quad) va acc
      | _ => s.waitRecord r.ctx (reqSrc r.quad) va acc
    let s := match r.kind with
      | .epi t .. => s.mapAcc r.quad t (fun x => { x with pending := true })
      | _ => s
    s.putReq { r with st := .pageWait va }
  | .fail cause va => s.reqFail r cause va

/-! ## Tile and accumulator values -/

/-- Bytes written to an area: a word is POISON if a byte is, LIVE if it is written whole, else as it was. -/
def areaStore (area : Sparse Byte × List Nat) (off : Nat) (bs : List BSt) : Sparse Byte × List Nat :=
  let at' := addrBytes off bs
  let words := wordsIn off bs.length
  (at'.foldl (fun m b => spPut 0 b.1 b.2.1 m) area.1,
   words.foldl (fun p w =>
     let mine := at'.filter (fun b => b.1 / 4 == w)
     if mine.any (fun b => b.2.2 != .live) then setAdd w p else if 4 ≤ mine.length then p.filter (· != w) else p) area.2)

def areaRead (area : Sparse Byte × List Nat) (off n : Nat) : List BSt :=
  (rangeFrom off n).map (fun i => (spGet 0 area.1 i, if area.2.contains (i / 4) then .poison else .live))

def TileReg.area (x : TileReg) (part : Option Bool) : Sparse Byte × List Nat :=
  match part with | none => (x.elems, x.epois) | some _ => (x.scales, x.spois)
def TileReg.setArea (x : TileReg) (part : Option Bool) (a : Sparse Byte × List Nat) : TileReg :=
  match part with | none => { x with elems := a.1, epois := a.2 } | some _ => { x with scales := a.1, spois := a.2 }

def Crew.tileReg (c : Crew) (m : Nat) : TileReg := spGet ⟨[], [], [], []⟩ c.tiles m
def State.tileReg (s : State) (crew m : Nat) : TileReg := match s.crew? crew with | some c => c.tileReg m | none => ⟨[], [], [], []⟩

/-- Set value `i` of an accumulator tile. -/
def AccTile.put (x : AccTile) (i : Nat) (v : Cell) : AccTile :=
  { x with vals := spPut 0 i v.data x.vals, pois := if v.st == .live then x.pois.filter (· != i) else setAdd i x.pois }

/-- Values from bytes. -/
def AccTile.store (x : AccTile) (off : Nat) (bs : List BSt) : AccTile :=
  let ws := runs 4 bs.length bs
  ((List.range ws.length).zip ws).foldl (fun x w => let v := bytesVal w.2; x.put (off / 4 + w.1) ⟨BitVec.ofNat 32 v.bits, v.st⟩) x

def AccTile.bytes (x : AccTile) (off n : Nat) : List BSt :=
  (rangeFrom off n).map (fun i => let v := x.cell (i / 4); (BitVec.ofNat 8 (v.data.toNat / 256 ^ (i % 4)), v.st))

/-! ## Sums (R103, R104, R292) -/

/-- Element `i` of an area of elements of `w` bits, with its state (R87). -/
def TileReg.elem (x : TileReg) (w i : Nat) : Nat × VSt :=
  let b := i * w / 8
  let v := (spGet 0 x.elems b).toNat + 256 * (spGet 0 x.elems (b + 1)).toNat
  (v / 2 ^ (i * w % 8) % 2 ^ w, if x.epois.contains (b / 4) then .poison else .live)

/-- A scale as an exact value (R89, R90). -/
def scaleVal (s24 : Bool) (x : Nat) : Fv :=
  if s24 then
    let e : Nat := x / 2 ^ 16 % 256
    let f : Nat := x % 2 ^ 16
    if e = 255 ∨ (e = 0 ∧ f ≠ 0) then .nan false 0 false
    else if e = 0 then .fin false 0 0 else .fin false (2 ^ 16 + f) ((e : Int) - 143)
  else
    let e : Nat := x % 256
    if e = 255 then .nan false 0 false else .fin false 1 ((e : Int) - 127)

/-- Scale `i` of an area; its bytes may lie in two words. -/
def TileReg.scaleAt (x : TileReg) (s24 : Bool) (i : Nat) : Fv × VSt :=
  let n := if s24 then 3 else 1
  let bs := areaRead (x.scales, x.spois) (n * i) n
  let v := bytesVal bs
  (scaleVal s24 v.bits, v.st)

/-- The scale index of element (r, c) (R279). -/
def scaleIndex (v r c : Nat) : Nat := if tcSaxis v = 0 then r * (tcCols v / 32) + c / 32 else c * (tcRows v / 32) + r / 32

/-- One addend: element times scale times element times scale (R91). -/
def scaledProduct (a sa b sb : Fv) : Fv :=
  match a, sa, b, sb with
  | .fin n1 m1 e1, .fin _ k1 f1, .fin n2 m2 e2, .fin _ k2 f2 =>
    if k1 = 0 || k2 = 0 then .fin false 0 0 else .fin (n1 != n2) (m1 * k1 * m2 * k2) (e1 + f1 + e2 + f2)
  | .nan .., _, _, _ | _, .nan .., _, _ | _, _, .nan .., _ | _, _, _, .nan .. => .nan false 0 false
  | x, .fin _ k1 _, y, .fin _ k2 _ =>
    if x.isZero || y.isZero || k1 = 0 || k2 = 0 then .nan false 0 false else .inf (x.neg != y.neg)
  | _, _, _, _ => .nan false 0 false

/-- The exact sum of a K-group's addends rounded once to FP32 (R103). -/
def groupSum (xs : List Fv) : Nat :=
  let infs := xs.filter (fun x => match x with | .inf _ => true | _ => false)
  if xs.any Fv.isNan || (infs.any Fv.neg && infs.any (fun x => !x.neg)) then fp32.canonNan
  else match infs with
    | x :: _ => fp32.infinity x.neg
    | [] =>
      let v : Int := xs.foldl (fun t x => match x with | .fin n m e => t + signedOf n (m * 2 ^ (e + 700).toNat) | _ => t) 0
      if v = 0 then fp32.sign (xs.all (fun x => x.neg)) 0 else (finish fpPlain fp32 (v < 0) ⟨v.natAbs, -700, false⟩).1

/-- One K-group of integer products added to an accumulator element (R104). -/
def groupInt (sat : Bool) (c : Nat) (xs : List (Int × Int)) : Nat :=
  let v := intOf 32 true c + xs.foldl (fun t x => t + x.1 * x.2) 0
  wrapInt 32 (if sat then clampInt 32 true v else v)

/-- An operand element as the engine uses it. -/
structure MElem where
  bits : Nat
  val : Fv
  scale : Fv
  st : VSt
deriving DecidableEq, Repr

def mElem (x : TileReg) (v : Nat) (scales : Option Bool) (r c : Nat) : MElem :=
  let p := x.elem (etBits (tcType v)) (r * tcCols v + c)
  let sc := match scales with | some s24 => x.scaleAt s24 (scaleIndex v r c) | none => (.fin false 1 0, .live)
  ⟨p.1, (match etFmt (tcType v) with | some f => f.decode p.1 | none => .fin false 0 0), sc.1, joinSt p.2 sc.2⟩

/-- Whether an integer type is signed. -/
def etSigned (t : Nat) : Bool := t == 6 || t == 8

/-- One element of the accumulator: the groups in increasing order. -/
def mmaElem (ta tb : Nat) (sat : Bool) : List (List (MElem × MElem)) → Nat → Nat
  | [], c => c
  | g :: r, c =>
    let c' := if isFloatType (tcType ta) then groupSum (fp32.decode c :: g.map (fun p => scaledProduct p.1.val p.1.scale p.2.val p.2.scale))
      else groupInt sat c (g.map (fun p => (intOf (etBits (tcType ta)) (etSigned (tcType ta)) p.1.bits, intOf (etBits (tcType tb)) (etSigned (tcType tb)) p.2.bits)))
    mmaElem ta tb sat r c'

/-- R292. -/
def mmaTile (x y : TileReg) (ta tb : Nat) (zero sat : Bool) (scales : Option Bool) (acc : AccTile) : AccTile :=
  let acc := if zero then { acc with vals := [], pois := [] } else acc
  let k := tcCols ta
  let rows := (List.range (tcRows ta)).map (fun i => (List.range k).map (fun j => mElem x ta scales i j))
  let cols := (List.range (tcCols tb)).map (fun j => (List.range k).map (fun i => mElem y tb scales i j))
  ((List.range rows.length).zip rows).foldl (fun acc r =>
    ((List.range cols.length).zip cols).foldl (fun acc c =>
      let i := 32 * r.1 + c.1
      let ps := r.2.zip c.2
      let st := if (acc.cell i).st != .live || ps.any (fun p => joinSt p.1.st p.2.st != .live) then VSt.poison else .live
      let v := mmaElem ta tb sat (runs (kGroup (tcType ta) (tcType tb)) k ps) (acc.cell i).data.toNat
      acc.put i ⟨BitVec.ofNat 32 v, st⟩) acc) acc

/-! ## The epilogue (R296, R297) -/

def epiNum : EpiTy → NumTy
  | .i32 => .i32 | .i8 => .i8 | .f32 => .f32 | .f16 => .f16 | .bf16 => .bf16 | .e4m3 => .e4m3 | .e5m2 => .e5m2

/-- One output value. -/
def epiValue (o : AccEpiOps) (x bias : Nat) : Nat :=
  let xv : Fv := if o.aint then (let i := intOf 32 true x; .fin (decide (i < 0)) i.natAbs 0) else fp32.decode x
  let y := (fmaV fpPlain fp32 false xv (fp32.decode o.alpha.toNat) (fp32.decode bias)).1
  let y := if o.relu && fp32.signBit ≤ y && !(fp32.decode y).isNan then 0 else y
  let k := numKind (epiNum ((epiTy o).getD .i32))
  (convert fpPlain k (.flt fp32) o.sat y).1 % 2 ^ k.width

/-- Bytes of the output from offset `off` of the rows laid end to end. -/
def epiBytesAt (r : Req) (o : AccEpiOps) (off n : Nat) : List BSt :=
  let e := epiBytes o
  let nc := o.nc.val + 1
  (rangeFrom (off / e) (n / e)).flatMap (fun i =>
    let x := r.data.getD (32 * (i / nc) + i % nc) ⟨0, .live⟩
    let b := (spFind r.bias (i % nc)).getD ⟨0, .live⟩
    let st := joinSt x.st b.st
    (bytesLE e (epiValue o x.data.toNat b.data.toNat)).map (fun y => (y, st)))

/-- Translate output pages not yet at hand; the first that fails decides. -/
def epiPages (w : EngWho) : List Nat → State → List (Nat × Nat) → Except EngErr (List (Nat × Nat)) × State
  | [], s, ps => (.ok ps, s)
  | a :: r, s, ps =>
    if ps.any (fun p => p.1 == a / 4096) then epiPages w r s ps
    else match engXlat s w .store .engine (a % 2 ^ 64) with
      | (.error x, s) => (.error x, s)
      | (.ok l, s) => epiPages w r s (ps ++ [(a / 4096, l.la - a % 4096)])

/-- The translation phase: every output page, before any output is written; it starts afresh at each replay. -/
def State.epiTranslate (s : State) (r : Req) : State :=
  match r.kind with
  | .epi t o _ _ _ _ _ =>
    if o.crew then s.putReq { r with st := .translated, bias := [], pages := [] }
    else match epiPages r.who (r.kind.pieces.map (·.1)) s [] with
      | (.error x, s) => s.reqErr r x
      | (.ok ps, s) => (s.mapAcc r.quad t (fun x => { x with pending := false })).putReq { r with st := .translated, bias := [], pages := ps }
  | _ => s

/-- The columns whose bias an epilogue has yet to read. -/
def Req.biasTodo (r : Req) : List Nat :=
  match r.kind with
  | .epi _ o _ _ (some _) _ _ => (List.range (o.nc.val + 1)).filter (fun i => (spFind r.bias i).isNone)
  | _ => []

/-- Bias values that the epilogue has yet to read. -/
def Req.biasLeft (r : Req) : Bool := !r.biasTodo.isEmpty

/-- The values of a bias piece take their columns. -/
def putBias (m : Sparse Cell) (col : Nat) (bs : List BSt) : Sparse Cell :=
  let vs := (runs 4 bs.length bs).map (fun w => let v := bytesVal w; (⟨BitVec.ofNat 32 v.bits, v.st⟩ : Cell))
  ((rangeFrom col vs.length).zip vs).foldl (fun m x => spSet x.1 x.2 m) m

/-- A read of the bias values of one line; the lines are read in any order (R125). -/
def State.biasPiece (s : State) (r : Req) (choice : Nat) : State :=
  match r.kind, r.biasTodo[choice % r.biasTodo.length]? with
  | .epi _ _ _ _ (some b) _ _, some i =>
    let line (i : Nat) : Nat := (b + 4 * i) / 64
    let cols := r.biasTodo.filter (fun k => line k == line i)
    let lo := cols.headD i
    (match engRead s r.who .glob ((b + 4 * lo) % 2 ^ 64) (4 * cols.length) with
     | (.error x, s) => s.reqErr r x
     | (.ok bs, s) => s.putReq { r with bias := putBias r.bias lo bs })
  | _, _ => s

/-- The capture of the tile. -/
def State.epiCapture (s : State) (r : Req) (t : Nat) : State :=
  let x := s.acc r.quad t
  (s.setAcc r.quad t { x with pending := false }).putReq { r with st := .captured, data := (List.range 1024).map x.cell }

/-! ## Pieces -/

/-- Write bytes to the memory side of a request. -/
def State.reqWrite (s : State) (r : Req) (crewSp : Bool) (a : Nat) (bs : List BSt) : Except EngErr Unit × State :=
  let sp : ESpace := if crewSp then .crew else .glob
  match r.pages.find? (fun p => p.1 == a / 4096) with
  | some p =>
    let la := p.2 + a % 4096
    if s.holderHit none [.glob (lineOf la)] [] then (.error .delay, s) else (.ok (), s.writeLine (addrBytes la bs))
  | none => engWrite s r.who sp (addrBytes (wrap sp a) bs)

/-- One piece has been performed; the request finishes with its last. -/
def State.reqNext (s : State) (r : Req) (i : Nat) : State :=
  let r := { r with done := r.done ++ [i], st := if r.st == .captured then .captured else .granted }
  if r.kind.pieces.length ≤ r.done.length then s.reqDone r else s.putReq r

/-- A memory piece of a granted request, or an output piece of a captured epilogue. Each row's piece of a tld reads memory at its own point, also where rows overlap (the model's choice, log entry 102: R285 gives both the same bytes, R125 orders no two pieces). -/
def State.reqPiece (s : State) (r : Req) (choice : Nat) : State :=
  let ps := r.kind.pieces
  let todo := (List.range ps.length).filter (fun i => !r.done.contains i)
  match todo[choice % todo.length]? with
  | none => s.reqDone r
  | some i =>
    let (a, off, n) := ps.getD i (0, 0, 0)
    let read (crewSp : Bool) : Except EngErr (List BSt) × State :=
      let sp : ESpace := if crewSp then .crew else .glob
      engRead s r.who sp (wrap sp a) n
    let wrote (x : Except EngErr Unit × State) : State :=
      match x with
      | (.error e, s) => s.reqErr r e
      | (.ok _, s) => s.reqNext r i
    match r.kind with
    | .ld m _ crewSp _ _ part =>
      (match read crewSp with
       | (.error e, s) => s.reqErr r e
       | (.ok bs, s) => (s.mapTile r.crew m (fun x => x.setArea part (areaStore (x.area part) off bs))).reqNext r i)
    | .accLd t crewSp _ _ =>
      (match read crewSp with
       | (.error e, s) => s.reqErr r e
       | (.ok bs, s) => (s.mapAcc r.quad t (fun x => x.store off bs)).reqNext r i)
    | .st m _ crewSp _ _ part => wrote (s.reqWrite r crewSp a (areaRead ((s.tileReg r.crew m).area part) off n))
    | .accSt t crewSp _ _ => wrote (s.reqWrite r crewSp a ((s.acc r.quad t).bytes off n))
    | .epi _ o _ _ _ _ _ => wrote (s.reqWrite r o.crew a (epiBytesAt r o off n))
    | _ => s.reqDone r

/-- Whether a request has a memory piece to perform as an engine piece. -/
def State.reqReady (s : State) (r : Req) : Bool := s.reqMoves r && (r.st == .granted || (r.st == .translated && r.biasLeft))

def State.enginePiece (s : State) (id choice : Nat) : State :=
  match s.cmd? id, s.req? id with
  | some c, _ => if s.cmdReady c then s.cmdPiece c choice else s
  | none, some r =>
    if !s.reqReady r then s
    else if r.corrupt then s.reqFail r cUncorrectable 0
    else if r.st == .translated then s.biasPiece r choice else s.reqPiece r choice
  | none, none => s

def execEnginePiece (id choice : Nat) (s : State) : Host.Outcome State Fault Refusal := event (fun s => s.enginePiece id choice) s

/-! ## The arbiter (R350) -/

/-- Requests of the data port. -/
def ReqKind.dataPort : ReqKind → Bool
  | .mma .. | .accZero _ => false
  | _ => true

/-- A unit is busy while a granted request of it has pieces to perform and waits for no page. -/
def State.unitBusy (s : State) (quad : Nat) (port : Bool) : Bool :=
  s.reqs.any (fun r => r.quad == quad && r.kind.dataPort == port && s.reqMoves r &&
    (r.st == .granted || r.st == .translated || r.st == .captured))

/-- Whether `p` (released first) keeps its place before `r`. -/
def grantBefore (p r : Req) : Bool := 64 ≤ p.passed || (!(64 ≤ r.passed) && r.prio ≤ p.prio)

def bestReq : List Req → Option Req
  | [] => none
  | r :: l => match bestReq l with
    | none => some r
    | some x => some (if grantBefore r x then r else x)

/-- What a granted request does at once. -/
def State.perform (s : State) (r : Req) : State :=
  if r.corrupt then s.reqFail r cUncorrectable 0
  else
    match r.kind with
    | .mma t ma mb ta tb zero sat sc =>
      let x := s.tileReg r.crew ma
      let y := s.tileReg r.crew mb
      (s.mapAcc r.quad t (mmaTile x y ta tb zero sat sc)).reqDone r
    | .accZero t => (s.mapAcc r.quad t (fun x => { x with vals := [], pois := [] })).reqDone r
    | .tzero m => (s.mapTile r.crew m (fun _ => ⟨[], [], [], []⟩)).reqDone r
    | .epi .. => s.epiTranslate r
    | _ => s.putReq { r with st := .granted }

def State.matrixGrant (s : State) (quad : Nat) (port : Bool) : State :=
  let s := { s with reqs := s.reqs.filter (fun r => !r.kind.isRd || s.rdStands r) }
  if s.unitBusy quad port then s
  else
    let can (r : Req) : Bool := r.quad == quad && r.kind.dataPort == port && s.eligible r
    match bestReq (s.reqs.filter can) with
    | none => s
    | some r => { s with reqs := s.reqs.map (fun x => if can x && x.id != r.id then { x with passed := x.passed + 1 } else x) }.perform r

def execMatrixGrant (quad : Nat) (dataPort : Bool) (s : State) : Host.Outcome State Fault Refusal :=
  event (fun s => s.matrixGrant quad dataPort) s

/-- A request leaves the table, and TL falls (R282 step 6, R210). -/
def State.retireReq (s : State) (r : Req) : State :=
  let s := { s with reqs := s.reqs.filter (fun x => x.id != r.id) }
  let s := s.mapGang r.gang (fun g => g.mapBoth (fun k => { k with tl := k.tl - 1 }))
  (s.mapCrew r.crew (fun c => c.dropUser r.id)).checkCrew r.crew

def State.completeReq (s : State) (id : Nat) : State :=
  match s.req? id with
  | some r => if r.st == .finished then s.retireReq r else s
  | none => s

def execMatrixRequestComplete (req : Nat) (s : State) : Host.Outcome State Fault Refusal := event (fun s => s.completeReq req) s

/-- An epilogue with its pages translated and its bias read captures the tile, and then writes its outputs line by line. -/
def State.epilogueStep (s : State) (id : Nat) : State :=
  match s.req? id with
  | none => s
  | some r =>
    if !s.reqMoves r then s
    else if r.corrupt && (r.st == .translated || r.st == .captured) then s.reqFail r cUncorrectable 0
    else
      match r.kind with
      | .epi t .. =>
        if r.st == .translated && !r.biasLeft then s.epiCapture r t
        else if r.st == .captured then
          let c := s.choose (r.kind.pieces.length - r.done.length)
          c.2.reqPiece r c.1
        else s
      | _ => s

def execEpilogueCaptureWrite (req : Nat) (s : State) : Host.Outcome State Fault Refusal := event (fun s => s.epilogueStep req) s

/-! ## Waits for pages (R374) -/

/-- Walk the page of a waiting request again, while its context runs (the last row of Table 17.4); an epilogue just filled into its tile (its page is 2^64) starts its translation (R330). -/
def State.retryReq (s : State) (r : Req) : State :=
  match r.st with
  | .pageWait va =>
    if !s.reqRuns r then s
    else
      (match r.kind with
       | .epi .. =>
         if va = 2 ^ 64 then s.epiTranslate r
         else (match walk s r.ctx va with
           | .error c => if c = cPageNotPresent then s else s.epiTranslate r
           | .ok _ => s.epiTranslate r)
       | _ => (match walk s r.ctx va with
         | .error c => if c = cPageNotPresent then s else s.putReq { r with st := .granted }
         | .ok _ => s.putReq { r with st := .granted }))
  | _ => s

end Sys2Proof.Machine
end

