-- ==== Sys2Proof/Machine/Tasks.lean ====
section
/-! DEFINITION. Launch descriptors and their checks (R333, R334), task records and join blocks (R274 to R276), tsk.enq and launch (R275, R277), task queues and their gates (R336 to R339). -/

namespace Sys2Proof.Machine

/-! ## Descriptors (Table 15.1) -/

/-- A field of `n` bytes at an offset. -/
def fieldOf (b : List Byte) (off n : Nat) : Nat := ofBytesLE ((b.drop off).take n)

def descOf (b : List Byte) : Desc :=
  let f := fieldOf b
  { entry := f 0 8, args := f 8 8, cx := f 16 4, cy := f 20 4, cz := f 24 4, tx := f 28 2, ty := f 30 2, tz := f 32 2, gw := f 34 1,
    ng := f 35 1, nv := f 36 2, np := f 38 2, nc := f 40 2, ns := f 42 2, nk := f 44 1, na := f 45 1, ne := f 46 1, nm := f 47 1,
    ret0 := f 48 1, ret1 := f 49 1, bcrew := f 50 1, bquad := f 51 1, bdie := f 52 1, bpkg := f 53 1, bpod := f 54 1, mode := f 55 1,
    power := f 56 2, tq := f 58 1, podjob := f 64 4, podgangs := f 68 4 }

def Desc.tqv (d : Desc) : Bool := d.tq / 128 % 2 == 1
def Desc.tqn (d : Desc) : Nat := d.tq % 64

/-- Row 2 of Table 15.2. -/
def descFieldsOk (b : List Byte) (d : Desc) : Bool :=
  fieldOf b 59 5 == 0 && fieldOf b 72 56 == 0 && d.gw < 2 && d.ret1 < 16 && d.mode < 64 && d.tq / 64 % 2 == 0 &&
  1 ≤ d.cx && 1 ≤ d.cy && 1 ≤ d.cz && d.crewsN ≤ 2 ^ 32 && 1 ≤ d.tx && 1 ≤ d.ty && 1 ≤ d.tz && d.tx * d.ty * d.tz == d.ng * d.width &&
  1 ≤ d.ng && d.ng ≤ 16 && 1 ≤ d.nv && d.nv ≤ 768 && d.np ≤ 4096 && 1 ≤ d.nc && d.nc ≤ 49152 && d.ns ≤ d.nc && d.nk ≤ 16 &&
  d.na ≤ 64 && d.ne ≤ 16 && d.nm ≤ 64 && d.bcrew ≤ 16 && d.bquad ≤ 64 && d.bpod ≤ 64 &&
  (if d.bpod = 0 then d.podjob == 0 && d.podgangs == 0 else 1 ≤ d.podgangs)

/-- Operand-store bytes of a core's live image (R13). -/
def coreBytes : Nat := 12 * 2 ^ 20

/-- Rows 2 to 8 of Table 15.2; row 5 has its own argument. -/
def descTrap (b : List Byte) (d : Desc) (queueOk : Bool) : Option Cause :=
  if !descFieldsOk b d then some cIllegalEncoding
  else if !codeLegal (d.ret0 % 16) || !codeLegal (d.ret0 / 16) || !codeLegal (d.ret1 % 16) || d.mode % 4 == 0 || d.mode % 4 == 3 then
    some cIllegalEncoding
  else if !d.cor && (d.bquad != 0 || d.bdie != 0 || d.bpkg != 0 || d.bpod != 0) then some cIllegalEncoding
  else if d.tqv && !queueOk then some cPermission
  else if !canonical d.entry then some cPermission
  else if d.entry % 4 ≠ 0 then some cAlignment
  else if coreBytes < d.charge || 1024 < d.ng * d.ne || 4096 < d.nm then some cResource
  else none

/-! ## Fitting a crew (R343, R383) -/

/-- Barrier slots above .crew that the work items hold in a scope's pool. -/
def State.barsHeld (s : State) (sc : Scope) (inst : Nat) : Nat :=
  (s.items.map (fun i => (i.bars.filter (fun b => b.1.scope == sc && b.1.inst == inst)).length)).foldl (· + ·) 0

/-- The lowest numbers below `n` that are not taken, `k` of them. -/
def lowestFree (n k : Nat) (taken : List Nat) : Option (List Nat) :=
  let l := ((List.range n).filter (fun x => !taken.contains x)).take k
  if l.length = k then some l else none

/-- The runs of `n` accumulator tiles that no other crew of the context has reserved, best first (R383). -/
def tileRun (crews : List Crew) (own : Nat → Nat) (ctx quad n : Nat) : Option Nat :=
  let used := (crews.filter (fun c => c.live && c.ctx == ctx && quadOf c.coreIx == quad)).flatMap (fun c => rangeFrom c.rb c.desc.na)
  let fits := (List.range (65 - n)).filter (fun a => (rangeFrom a n).all (fun t => !used.contains t))
  match fits.find? (fun a => (rangeFrom a n).all (fun t => own t == ctx)) with
  | some a => some a
  | none =>
    match fits.find? (fun a => (rangeFrom a n).all (fun t => own t == 0)) with
    | some a => some a
    | none => fits.head?

/-- The free ranges of a core in which a crew space of `n` bytes fits (R53): the lowest base of each, and how many bases, 256 apart, it holds. The crews of a COR grid are laid end to end, so that none of them takes the room of another (log entry 18). -/
def baseRuns (crews : List Crew) (core n : Nat) (cor : Bool) : List (Nat × Nat) :=
  let l := crews.filter (fun c => c.live && c.coreIx == core)
  let lows := 0 :: l.map (fun c => c.base + c.desc.crewBytes)
  let fits := lows.filter (fun b => b + n ≤ coreBytes && l.all (fun c => b + n ≤ c.base || c.base + c.desc.crewBytes ≤ b))
  fits.eraseDups.map (fun b =>
    let top := (l.map (·.base)).foldl (fun m x => if b ≤ x && x < m then x else m) coreBytes
    (b, if cor then 1 else (top - b - n) / 256 + 1))

/-- The `k`-th of the bases that some runs hold. -/
def pickBase : List (Nat × Nat) → Nat → Nat
  | [], _ => 0
  | r :: l, k => if k < r.2 then r.1 + 256 * k else pickBase l (k - r.2)

/-- Operand-store bytes free in a core's live image. -/
def freeBytes (crews : List Crew) (core : Nat) : Nat := coreBytes - sumOf (fun c => c.desc.charge) (crews.filter (fun c => c.live && c.coreIx == core))

/-- The places that a reservation names. -/
structure Spot where
  core : Nat
  place : Nat
  gangs : List Nat
  sems : List Nat
  rb : Nat
  bases : List (Nat × Nat)
deriving DecidableEq, Repr

/-- Gang places in use on a core. A crew that is only being reserved (item 0) names its places itself. -/
def gangPlaces (s : State) (crews : List Crew) (core : Nat) : List Nat :=
  (crews.filter (fun c => c.live && c.coreIx == core)).flatMap (fun c => if c.item = 0 then c.gangs else c.gangs.map (fun i => match s.gang? i with | some g => g.place | none => i))

/-- The die's semaphores that no GROWN entry grants and no crew holds. -/
def freeSems (s : State) (crews : List Crew) (die k : Nat) : Option (List Nat) :=
  if k = 0 then some []
  else
    let held := (crews.filter (fun c => coreDie c.coreIx == die)).flatMap (fun c => c.sems)
    (lowestFree 4096 k ((held.map (· - die * 4096)) ++
      (s.grants.filterMap (fun g => if g.2.v && 2 * 2 ^ 14 + die * 4096 ≤ g.1 && g.1 < 2 * 2 ^ 14 + die * 4096 + 4096
        then some (g.1 - (2 * 2 ^ 14 + die * 4096)) else none)))).map (fun l => l.map (· + die * 4096))

/-- The reservation of a crew on a quad beside `crews`: the core with the most free bytes on which it fits, ties to the lowest (R341, R343). -/
def fitOn (s : State) (crews : List Crew) (own : Nat → Nat) (ctx : Nat) (d : Desc) (quad : Nat) : Option Spot :=
  match tileRun crews own ctx quad d.na, freeSems s crews (quad / 64) d.nm with
  | some rb, some sems =>
    let ok (core : Nat) : Option Spot :=
      let here := crews.filter (fun c => c.live && c.coreIx == core)
      let bars := sumOf (fun c => c.desc.bcrew) (crews.filter (fun c => c.coreIx == core))
      match lowestFree 64 1 (here.map (·.place)), lowestFree 256 d.ng (gangPlaces s crews core) with
      | some (p :: _), some gs =>
        let bs := baseRuns crews core d.crewBytes d.cor
        if d.charge ≤ freeBytes crews core && sumOf (fun c => c.desc.ng * c.desc.ne) here + d.ng * d.ne ≤ 1024 && bars + d.bcrew ≤ 256 && !bs.isEmpty
        then some ⟨core, p, gs, sems, rb, bs⟩ else none
      | _, _ => none
    let spots := (List.range 4).filterMap (fun k => ok (quad * 4 + k))
    spots.foldl (fun b x => match b with
      | none => some x
      | some y => if freeBytes crews y.core < freeBytes crews x.core then some x else some y) none
  | _, _ => none

/-! ## The split (R341) -/

/-- The ranges of `n` crews over the present quads of a partition. -/
def splitRanges (quads : List Nat) (n : Nat) : List QRange :=
  let total := quads.length
  let below (d : Nat) : Nat := (quads.filter (fun q => q / 64 < d)).length
  (List.range 4).flatMap (fun d =>
    let mine := quads.filter (fun q => q / 64 == d)
    let lo := n * below d / total
    let len := n * below (d + 1) / total - lo
    (List.range mine.length).map (fun i =>
      ⟨mine.getD i 0, lo + len * i / mine.length, lo + len * (i + 1) / mine.length⟩))

/-- A crew as a reservation sees it: of no item, with gang places for its gangs. -/
def ghostCrew (s : State) (ctx : Nat) (d : Desc) (x : Spot) : Crew :=
  { id := s.nextId, item := 0, ctx := ctx, coreIx := x.core, live := true, place := x.place, num := 0, desc := d, args := 0, tile := (0, 0, 0),
    succ := 0, base := pickBase x.bases 0, power := 0, gangs := x.gangs, allocs := [], freed := [], tiles := [], tcfg := [], accbase := x.rb,
    acclim := x.rb, rb := x.rb, sems := x.sems, bars := [], exitRecords := false }

/-- Reserve `n` crews on one quad in turn. -/
def fitMany (s : State) (own : Nat → Nat) (ctx : Nat) (d : Desc) (quad : Nat) : Nat → List Crew → Option (List Crew)
  | 0, crews => some crews
  | n + 1, crews =>
    match fitOn s crews own ctx d quad with
    | none => none
    | some x => fitMany s own ctx d quad n (crews ++ [ghostCrew s ctx d x])

def fitRanges (s : State) (ctx : Nat) (d : Desc) : List QRange → List Crew → Option (List Crew)
  | [], crews => some crews
  | r :: l, crews =>
    match fitMany s (fun t => (s.acc r.quad t).owner) ctx d r.quad (r.hi - r.lo) crews with
    | none => none
    | some crews => fitRanges s ctx d l crews

/-- Whether slots above .crew fit their pools beside what is held. -/
def barsFit (d : Desc) (held : Scope → Nat → Nat) (quads : List Nat) : Bool :=
  quads.all (fun q => held .quad q + d.bquad ≤ 64) && quads.all (fun q => held .die (q / 64) + d.bdie ≤ 256) &&
  held .pkg 0 + d.bpkg ≤ 256 && held .pod 0 + d.bpod ≤ 64

/-- Whether a grid fits a partition that is otherwise idle (row 9). -/
def gridFits (s : State) (p ctx n : Nat) (d : Desc) : Bool :=
  let quads := s.partQuads p
  n ≤ 256 * quads.length && (fitRanges s ctx d (splitRanges quads n) []).isSome

/-! ## Task records (Table 10.10) -/

def recordOf (addr : Nat) (sup : Bool) (b : List Byte) : TaskRec :=
  let f := fieldOf b
  ⟨addr, f 0 8, f 8 8, f 16 4, f 20 4, f 24 4, f 32 8, sup⟩

def recordReserved (b : List Byte) : Bool := fieldOf b 28 4 == 0 && fieldOf b 40 24 == 0
def TaskRec.aligned (r : TaskRec) : Bool := r.desc % 128 == 0 && r.succ % 128 == 0

/-! ## Queue places (R336) -/

/-- Places that open chunks, and commits not yet released, hold in a queue. -/
def State.queueHeld (s : State) (q : Nat) : Nat :=
  sumOf (fun (g : Gang) => (g.unreleased.filter (fun d => match d with
    | .task k _ => k == q
    | .launch d _ _ _ => d.tqv && d.tqn == q
    | _ => false)).length) s.gangs

def State.queueFull (s : State) (q : Nat) : Bool := 256 ≤ (s.queue q).entries.length + s.queueHeld q

/-- The lines of a record of `n` bytes, one or two. -/
def recordLook (n : Nat) (f : Finds) (g : Gang) : Gang :=
  if n = 128 then readLook { f with ats := f.ats.map (fun x => (x.1, x.2.1.shift 64, x.2.2)) } (readLook f g) else readLook f g

/-- A chunked load of `n` bytes that cannot carry poison (R275, R277). -/
def recordLoad (e : Env) (s : State) (g : Gang) (a n : Nat) : Except Res (List Byte × Gang) × State :=
  let l := lowestLane e.on
  if a % n ≠ 0 then (.error (.trap s (Trap.atAddr cAlignment a l accRead)), s)
  else
    match uniAccess e s g (recordLook n) a ⟨n, .load, accRead⟩ with
    | (_, s, some r) => (.error r, s)
    | (f, s, none) =>
      match f.ats with
      | (_, p, _) :: _ =>
        let bs := s.seeBytes g p n
        if n == 128 && (match g.chunk with | some c => c.inQ (p.shift 64) | none => false) then (.error (.endBefore s (recordLook n f g)), s)
        else if bs.any (fun b => b.2 != .live) then (.error (.fault s (recordLook n f g) (Trap.atAddr cUncorrectable a l accRead)), s)
        else (.ok (bs.map (·.1), recordLook n f g), s)
      | [] => (.ok (List.replicate n 0, g), s)

def execTskEnq (o : GAB) (s : State) : Host.Outcome State Fault Refusal :=
  issue 8 o.g (fun _ => { guard := o.g, uses := [.uni 1 o.a, .uni 2 o.b], chunk := .after })
    (fun e s g =>
      let q := e.uni .w64 o.a
      let a := e.uni .w64 o.b
      if 64 ≤ q then .trap s (Trap.plain cIllegalEncoding)
      else if !s.granted g (queueKey q) then .trap s (Trap.plain cPermission)
      else
        match recordLoad e s g a 64 with
        | (.error r, _) => r
        | (.ok (b, g), s) =>
          let r := recordOf a e.sup b
          if !recordReserved b then .trap s (Trap.plain cIllegalEncoding)
          else if !r.aligned then .trap s (Trap.plain cAlignment)
          else if s.queueFull q then .stall s (.queue q)
          else .ok s (g.defer (.task q r)) e.through) s

/-- The context in which a launch runs (R335). -/
def launchCtx (e : Env) (s : State) : Nat := if e.cox then (s.coxOf e.g.id).cctx.toNat % 4096 else e.ctx

def execLaunch (o : GA) (s : State) : Host.Outcome State Fault Refusal :=
  issue 8 o.g (fun _ => { guard := o.g, uses := [.uni 1 o.a], chunk := .after })
    (fun e s g =>
      let a := e.uni .w64 o.a
      match recordLoad e s g a 128 with
      | (.error r, _) => r
      | (.ok (b, g), s) =>
        let d := descOf b
        let ctx := launchCtx e s
        let part := s.partOfCtx ctx
        if ctx = 0 then .trap s (Trap.plain cPermission)
        else
          match descTrap b d (s.granted g (queueKey d.tqn)) with
          | some c => .trap s (Trap.plain c)
          | none =>
            if d.cor && !(match part with | some p => gridFits s p ctx d.crewsN d | none => true) then .trap s (Trap.plain cResource)
            else if d.tqv && s.queueFull d.tqn then .stall s (.queue d.tqn)
            else .ok s (g.defer (.launch d a ctx (!d.cor || part.isSome))) e.through) s

/-! ## The hub: join blocks and successors (R276, R336) -/

/-- Successors that wait for places enter their queues in order. -/
def drainHub : List HubJob → State → List HubJob → State
  | [], s, kept => { s with hub := kept }
  | .enqueue q r :: l, s, kept =>
    if s.queueFull q || kept.any (fun j => match j with | .enqueue k _ => k == q | _ => false) then drainHub l s (kept ++ [.enqueue q r])
    else drainHub l (s.enqueue q (.task r)) kept
  | j :: l, s, kept => drainHub l s (kept ++ [j])

def State.drain (s : State) : State := drainHub s.hub s []

/-- A discarded record or successor (kind 0x05). -/
def State.discardRecord (s : State) (cause ctx src addr desc : Nat) : State := s.kindRecord 0x05 cause 0 ctx src addr desc 0 0 0

/-- The join block at COUNT: decrement, and at zero the successor. -/
def State.decrementAt (s : State) (ctx block la : Nat) : State :=
  let n := s.loadNat la 8
  let s := s.pieceWrite la (bytesLE 8 ((n + 2 ^ 64 - 1) % 2 ^ 64))
  if n ≠ 1 then s
  else
    let q := s.loadNat (la + 8) 4
    let b := memRead s.mem (la + 64) 64
    let r := recordOf block false b
    if s.linePoisoned (la + 64) then s.discardRecord cUncorrectable ctx (q % 64) block r.desc
    else if 64 ≤ q || !recordReserved b || !r.aligned then s.discardRecord cEngineFault ctx (q % 64) block r.desc
    else State.drain { s with hub := s.hub ++ [HubJob.enqueue q r] }

/-- One hub job: a decrement that meets no page waits, and any other failure ends it with a record. -/
def State.hubStep (s : State) (i : Nat) : State :=
  match s.hub[i]? with
  | some (.decrement block ctx waiting) =>
    let gone (s : State) : State := { s with hub := s.hub.take i ++ s.hub.drop (i + 1) }
    (match engXlat s ⟨ctx, false, none⟩ .store .engine block with
     | (.error (.wait va acc), s) =>
       let s := if waiting then s else s.waitRecord ctx 0 va acc
       { s with hub := setAt i (.decrement block ctx true) s.hub }
     | (.error .delay, s) => s
     | (.error (.fail c _), s) => (gone s).discardRecord (if c = cUncorrectable then cUncorrectable else cEngineFault) ctx 0 block 0
     | (.ok l, s) =>
       if s.holderHit none [.glob (lineOf l.la)] [] then s
       else if s.linePoisoned l.la then (gone s).discardRecord cUncorrectable ctx 0 block 0
       else (gone s).decrementAt ctx block l.la)
  | some (.enqueue ..) => s.drain
  | none => s

def execJoinBlockDecrement (id : Nat) (s : State) : Host.Outcome State Fault Refusal := event (fun s => s.hubStep id) s

/-! ## Task queues (R337 to R339) -/

def State.popHead (s : State) (q : Nat) (head : QHead) : State :=
  (s.setQueue q { s.queue q with entries := (s.queue q).entries.drop 1, head := head }).drain

/-- A gate record is well formed and came from a cox core at S (R338). -/
def gateOk (r : TaskRec) : Bool :=
  r.sup && r.args == 0 && r.succ == 0 && r.tz < 2 &&
    (r.tz == 0 || (r.tx / 2 ^ 30 == 1 && bitsAt r.tx 14 16 == 0))

def State.applyGate (s : State) (q : Nat) (r : TaskRec) : State :=
  let s := s.popHead q .idle
  if gateOk r then
    (if r.tz = 1 then s.setQueue q { s.queue q with en := true, sem := r.tx, thr := r.ty } else s.setQueue q { s.queue q with en := false })
  else s.discardRecord cEngineFault (s.queueOwner q) q r.addr 0

/-- Admit the head entry. -/
def State.admitHead (s : State) (q ctx : Nat) : State :=
  match (s.queue q).entries with
  | [] => s
  | .launch d a c tested :: _ => (s.popHead q (.placing s.nextId)).takeItem d c none (some q) a tested
  | .task r :: _ =>
    match engXlat s ⟨ctx, false, none⟩ .load .engine r.desc with
    | (.error (.wait va acc), s) =>
      (match (s.queue q).head with
       | .page _ => s
       | _ => (s.setQueue q { s.queue q with head := .page va }).waitRecord ctx (2 ^ 18 + q) va acc)
    | (.error .delay, s) => s
    | (.error (.fail ..), s) => (s.popHead q .idle).discardRecord cEngineFault ctx q r.addr r.desc
    | (.ok l, s) =>
      let b := memRead s.mem l.la 128
      let d := descOf b
      if s.linePoisoned l.la || s.linePoisoned (l.la + 64) then (s.popHead q .idle).discardRecord cUncorrectable ctx q r.addr r.desc
      else if ctx = 0 || (descTrap b d (s.ctxGranted ctx (queueKey d.tqn))).isSome ||
          (d.cor && !(match s.partOfCtx ctx with | some p => gridFits s p ctx 1 d | none => true)) then
        (s.popHead q .idle).discardRecord cEngineFault ctx q r.addr r.desc
      else (s.popHead q (.placing s.nextId)).takeItem d ctx (some r) (some q) r.addr true

/-- Whether a context is live in a running partition. -/
def State.ctxRuns (s : State) (ctx : Nat) : Bool := match s.partOfCtx ctx with | some p => (s.part p).st == .running | none => false

/-- The gate of an idle head: its context must be live; then the semaphore is asked. -/
def State.gateStep (s : State) (q ctx : Nat) : State :=
  let x := s.queue q
  if !s.ctxRuns ctx then s
  else if !x.en then s.admitHead q ctx
  else if !s.gateGranted q then s.refuseHead q
  else
    let n := x.sem % 2 ^ 14
    let m := s.sem n
    if x.thr = 0 then s.setQueue q { x with head := .served }
    else if m.fifo.isEmpty && x.thr ≤ m.value then (s.setQueue q { x with head := .served }).semTake n x.thr
    else (s.setQueue q { x with head := .inFifo }).setSem n { m with fifo := m.fifo ++ [(.queue q, x.thr)] }

/-- One step of a queue's head. -/
def State.queueStep (s : State) (q : Nat) : State :=
  let x := s.queue q
  let ctx := s.headCtx q
  match x.entries with
  | [] => (match x.head with | .placing i => if (s.item? i).any (fun t => t.placed == 0) then s else s.setQueue q { x with head := .idle } | _ => s)
  | .task r :: _ =>
    (match x.head with
     | .placing i => if (s.item? i).any (fun t => t.placed == 0) then s else s.setQueue q { x with head := .idle }
     | .idle => if r.desc = 0 then s.applyGate q r else s.gateStep q ctx
     | .served => if s.ctxRuns ctx then s.admitHead q ctx else s
     | _ => s)
  | .launch .. :: _ =>
    (match x.head with
     | .placing i => if (s.item? i).any (fun t => t.placed == 0) then s else s.setQueue q { x with head := .idle }
     | .idle => s.gateStep q ctx
     | .served => if s.ctxRuns ctx then s.admitHead q ctx else s
     | _ => s)

def execTaskQueueAdmission (q : Fin 64) (s : State) : Host.Outcome State Fault Refusal := event (fun s => s.queueStep q.val) s

end Sys2Proof.Machine
end

