-- ==== Sys2Proof/Machine/Place.lean ====
section
/-! DEFINITION. The distributors: split, placement, stealing, thermal admission (R340 to R346), and the release of a crew (R210, R372, R373). -/

namespace Sys2Proof.Machine

/-! ## Work items in their order (R340, R345) -/

/-- Crews of a work item: one for a task record. -/
def Item.total (i : Item) : Nat := if i.task.isSome then 1 else i.desc.crewsN

/-- Items that wait in a running partition, with their place in the order of admission. -/
def State.waiting (s : State) (p : Nat) : List Item :=
  s.items.filter (fun i => (s.part p).st == .running && s.partOfCtx i.ctx == some p && i.placed < i.total)

/-- Whether `j` is served before `i`: higher PRIO, or equal PRIO and admitted earlier. -/
def servedBefore (j i : Item) : Bool := i.desc.prio < j.desc.prio || (i.desc.prio == j.desc.prio && j.id < i.id)

/-- The item served first. -/
def firstServed (l : List Item) : Option Item :=
  l.foldl (fun b i => match b with
    | none => some i
    | some j => if servedBefore i j then some i else some j) none

/-- The crews of an item that no quad has placed, as ranges: all of them before the first placement. -/
def Item.unplaced (i : Item) : List QRange := if i.placed = 0 then [⟨0, 0, i.total⟩] else i.ranges.filter (fun r => r.lo < r.hi)

/-- The part of a quad's share that an unplaced range holds. -/
def QRange.common (share old : QRange) : Option QRange :=
  let lo := max share.lo old.lo
  let hi := min share.hi old.hi
  if lo < hi then some ⟨share.quad, lo, hi⟩ else none

/-- Hand the ranges of waiting items to the present quads of their partition (R341). An item that finds other quads there than it was split over is split anew: each quad takes what is unplaced of its share (log entry 53). -/
def State.splitAll (s : State) (p : Nat) : State :=
  let quads := s.partQuads p
  if quads.isEmpty then s
  else { s with items := s.items.map (fun i =>
      if s.partOfCtx i.ctx == some p && i.split != some quads then
        { i with split := some quads, ranges := (splitRanges quads i.total).flatMap (fun r => i.unplaced.filterMap r.common) }
      else i) }

/-- The next crews of an item on a quad: its lowest unplaced range there. -/
def Item.rangeAt (i : Item) (quad : Nat) : Option QRange :=
  (i.ranges.filter (fun r => r.quad == quad && r.lo < r.hi)).foldl (fun b r => match b with
    | none => some r
    | some x => if r.lo < x.lo then some r else some x) none

/-- A crew with COR = 0 that is served before item `i` is handed to a quad and not placed: it holds back later crews there (R345). -/
def State.queueAhead (s : State) (p : Nat) (i : Item) (quad : Nat) : Bool :=
  (s.waiting p).any (fun j => j.id != i.id && !j.desc.cor && servedBefore j i && (j.rangeAt quad).isSome)

/-- Quads on which an item has crews to place. -/
def Item.quads (i : Item) : List Nat := (i.ranges.filter (fun r => r.lo < r.hi)).map (·.quad)

/-! ## Thermal admission (R346) -/

def State.diePower (s : State) (d : Nat) : DiePower := s.dies.getD d DiePower.reset

/-- A crew's figure. -/
def State.figure (s : State) (quad : Nat) (d : Desc) : Nat := if d.power = 0 then (s.diePower (quad / 64)).wcrew else d.power

def State.admits (s : State) (quad fig : Nat) : Bool :=
  let here := s.crews.filter (fun c => c.live && quadOf c.coreIx == quad)
  let die := s.crews.filter (fun c => c.live && coreDie c.coreIx == quad / 64)
  (here.isEmpty || sumOf (fun c => c.power) here + fig ≤ (s.diePower (quad / 64)).qlim) &&
    sumOf (fun c => c.power) die + fig ≤ (s.diePower (quad / 64)).dlim

/-! ## Making a crew -/

/-- The home half of the next 32-wide gang of a core (R27, R28): the halves alternate from one placement to the next, the first gang of a core taking half 0 (the model's choice, log entry 54). -/
def State.nextHalf (s : State) (core : Nat) : Nat :=
  let l := s.gangs.filter (fun g => match s.crewOf g with | some c => c.live && c.coreIx == core && c.desc.width == 32 | none => false)
  let h0 := (l.filter (fun g => g.half == 0)).length
  let h1 := l.length - h0
  if h0 + 8 ≤ h1 then 0 else if h1 + 8 ≤ h0 then 1 else spGet 0 s.halves core

/-- A placed gang: its registers and private spaces begin as allocations (R60, R63), UEVEC as PUEV (R312). -/
def State.newGang (s : State) (id crew num place : Nat) (d : Desc) (die core : Nat) (uevec : Word64) : Gang :=
  let rc := s.codeApplied die (d.ret0 % 16)
  let pc := s.codeApplied die (d.ret0 / 16)
  let spaces := if d.np = 0 then [] else (List.range d.width).map (fun l => (⟨l, expiryTick pc s.tick, ⟨0, .live⟩, []⟩ : LaneSpace))
  { id := id, crew := some crew, num := num, place := place, half := if d.width = 32 then s.nextHalf core else 0,
    core := GangCore.start [⟨allLanes d.width, BitVec.ofNat 64 d.entry, .ready, 0⟩] ⟨0, .live, expiryTick rc s.tick⟩ uevec spaces,
    chunk := none, squashes := 0, token := .none, seq := 0, bpend := [], record := .sound, releases := [], lbody := [], lbuf := [] }

def State.addGangs (s : State) (crew : Nat) (d : Desc) (core : Nat) (uevec : Word64) : List (Nat × Nat) → State
  | [] => s
  | (num, place) :: r =>
    let g := s.newGang (crew + 1 + num) crew num place d (coreDie core) core uevec
    ({ s with gangs := s.gangs ++ [g], halves := if d.width = 32 then spPut 0 core (1 - g.half) s.halves else s.halves } : State).addGangs crew d core uevec r

/-- Place crew `num` of an item at a spot. -/
def State.makeCrew (s : State) (i : Item) (num : Nat) (x : Spot) (p : Nat) : State :=
  let d := i.desc
  let (k, s) := s.choose (sumOf (·.2) x.bases)
  let id := s.nextId
  let die := coreDie x.core
  let code := s.codeApplied die (d.ret1 % 16)
  let c : Crew :=
    { id := id, item := i.id, ctx := i.ctx, coreIx := x.core, live := true, place := x.place, num := num, desc := d,
      args := (match i.task with | some t => t.args | none => d.args), tile := (match i.task with | some t => (t.tx, t.ty, t.tz) | none => (0, 0, 0)),
      succ := (match i.task with | some t => t.succ | none => 0), base := pickBase x.bases k, power := s.figure (quadOf x.core) d,
      gangs := rangeFrom (id + 1) d.ng, allocs := [⟨0, d.staticBytes, code, expiryTick code s.tick, ⟨0, .live⟩, []⟩], freed := [],
      tiles := [], tcfg := [], accbase := x.rb, acclim := x.rb, rb := x.rb, sems := x.sems,
      bars := List.replicate d.bcrew ⟨d.ng, 0, 0, [], []⟩, exitRecords := false }
  let s := { s with crews := s.crews ++ [c], nextId := id + 1 + d.ng, sems := s.sems.filter (fun n => !x.sems.contains n.1) }
  s.addGangs id d x.core (s.part p).puev ((List.range d.ng).zip x.gangs)

/-! ## Placement (R341 to R345) -/

/-- One crew on one quad: the spot and the thermal model allow it. -/
def State.spotFor (s : State) (i : Item) (quad : Nat) : Option Spot :=
  if s.admits quad (s.figure quad i.desc) then fitOn s s.crews (fun t => (s.acc quad t).owner) i.ctx i.desc quad else none

/-- The next crew of a quad's range. -/
def State.placeNext (s : State) (i : Item) (r : QRange) (x : Spot) (p : Nat) : State :=
  (s.makeCrew i r.lo x p).putItem { i with placed := i.placed + 1, ranges := mapIf (fun y => y == r) (fun y => { y with lo := y.lo + 1 }) i.ranges }

/-- Crews `lo` on, `n` of them, on one quad. -/
def placeRun (i : Item) (quad p : Nat) : Nat → Nat → State → Option State
  | 0, _, s => some s
  | n + 1, lo, s =>
    match s.spotFor i quad with
    | none => none
    | some x => placeRun i quad p n (lo + 1) (s.makeCrew i lo x p)

def placeGrid (i : Item) (p : Nat) : List QRange → State → Option State
  | [], s => some s
  | r :: l, s =>
    match placeRun i r.quad p (r.hi - r.lo) r.lo s with
    | none => none
    | some s => placeGrid i p l s

/-- Barrier slots above .crew of a placed grid, once for each quad, die and package that it occupies, with their expected counts (R344). The .pod slots of a task record's crew expect PODGANGS, as every .pod slot does, not NG (the model's choice, log entry 92: R344 says both). -/
def gridBars (i : Item) (ranges : List QRange) : List (BarKey × BarSlot) :=
  let d := i.desc
  let used := ranges.filter (fun r => r.lo < r.hi)
  let quads := used.foldl (fun l r => addNew r.quad l) []
  let crewsIn (f : QRange → Bool) : Nat := sumOf (fun r => r.hi - r.lo) (used.filter f)
  let slots (sc : Scope) (inst n need : Nat) : List (BarKey × BarSlot) := (List.range n).map (fun k => (⟨sc, i.id, inst, k⟩, ⟨need, 0, 0, [], []⟩))
  quads.flatMap (fun q => slots .quad q d.bquad (d.ng * crewsIn (fun r => r.quad == q))) ++
  (List.range 4).flatMap (fun k => let n := crewsIn (fun r => r.quad / 64 == k); if n = 0 then [] else slots .die k d.bdie (d.ng * n)) ++
  slots .pkg 0 d.bpkg (d.ng * crewsIn (fun _ => true)) ++ slots .pod 0 d.bpod d.podgangs

/-- Whether the slots fit their pools. -/
def State.barsFitNow (s : State) (bars : List (BarKey × BarSlot)) : Bool :=
  bars.all (fun b =>
    s.barsHeld b.1.scope b.1.inst + (bars.filter (fun x => x.1.scope == b.1.scope && x.1.inst == b.1.inst)).length ≤
      (match b.1.scope with | .quad | .pod => 64 | _ => 256))

/-- A waiting co-resident grid that can be placed now: nothing earlier is handed to its quads, and it fits. -/
def State.gridReady (s : State) (p : Nat) (i : Item) : Bool :=
  i.desc.cor && !i.quads.any (s.queueAhead p i) && s.barsFitNow (gridBars i i.ranges) && (placeGrid i p i.ranges s).isSome

/-! ## Stealing (R342) -/

def QRange.left (r : QRange) : Nat := r.hi - r.lo

/-- What a quad holds of an item. -/
def quadLeft (l : List QRange) (quad : Nat) : Nat := sumOf QRange.left (l.filter (fun r => r.quad == quad))

/-- The first of some numbers for which `f` is largest. -/
def largest (f : Nat → Nat) (b : Nat) (l : List Nat) : Nat := l.foldl (fun b x => if f b < f x then x else b) b

/-- The quad of a die that holds the largest remainder, ties to the lowest. -/
def largestQuad (l : List QRange) (die : Nat) : Nat := largest (quadLeft l) (64 * die) (rangeFrom (64 * die) 64)

/-- The die with the largest total remainder, ties to the lowest. -/
def largestDie (l : List QRange) : Nat := largest (fun d => sumOf QRange.left (l.filter (fun r => r.quad / 64 == d))) 0 (List.range 4)

/-- The quad that a quad steals from: of its own die while a quad there holds a remainder. -/
def victimQuad (l : List QRange) (quad : Nat) : Option Nat :=
  [largestQuad l (quad / 64), largestQuad l (largestDie l)].find? (fun q => quadLeft l q != 0)

/-- A range put into its place in a list that falls by crew number. -/
def QRange.into (r : QRange) : List QRange → List QRange
  | [] => [r]
  | x :: l => if x.lo < r.lo then r :: x :: l else x :: r.into l

/-- The upper `k` crews of ranges that fall by crew number: what is taken, and what stays. -/
def takeUpper : Nat → List QRange → List QRange × List QRange
  | _, [] => ([], [])
  | k, r :: l =>
    let n := min k r.left
    let x := takeUpper (k - n) l
    (⟨r.quad, r.hi - n, r.hi⟩ :: x.1, ⟨r.quad, r.lo, r.hi - n⟩ :: x.2)

/-- The ranges of an item once `quad` has taken the upper half of what quad `v` holds. -/
def stolen (l : List QRange) (quad v : Nat) : List QRange :=
  let x := takeUpper (ceilDiv (quadLeft l v) 2) ((l.filter (fun r => r.quad == v)).foldr QRange.into [])
  (l.filter (fun r => r.quad != v) ++ x.2 ++ x.1.map (fun r => (⟨quad, r.lo, r.hi⟩ : QRange))).filter (fun r => r.lo < r.hi)

/-- The quad from which an item steals for `quad` now: its range there is empty, and its next crew would fit and be admitted. -/
def State.stealFrom (s : State) (p : Nat) (i : Item) (quad : Nat) : Option Nat :=
  if i.desc.cor || i.split != some (s.partQuads p) || !(s.partQuads p).contains quad || (i.rangeAt quad).isSome then none
  else match victimQuad i.ranges quad with
    | some v => if (s.spotFor i quad).isSome then some v else none
    | none => none

/-- Whether the order of service keeps item `i` from being placed on some quads (R340, R345): a co-resident grid at the head of the partition's order; an earlier crew handed to one of the quads, or free to be stolen for it; an earlier grid that can be placed now. -/
def State.heldBack (s : State) (p : Nat) (i : Item) (quads : List Nat) : Bool :=
  let w := s.waiting p
  (match firstServed w with
   | some t => t.desc.cor && t.id != i.id
   | none => false) ||
  quads.any (s.queueAhead p i) ||
  w.any (fun j => j.id != i.id && servedBefore j i && (s.gridReady p j || quads.any (fun q => (s.stealFrom p j q).isSome)))

/-- A co-resident grid is placed whole or not at all. -/
def State.placeCor (s : State) (i : Item) (p : Nat) : State :=
  let bars := gridBars i i.ranges
  if !s.barsFitNow bars then s
  else
    match placeGrid i p i.ranges s with
    | none => s
    | some t => (t.putItem { i with placed := i.total, tested := true, bars := bars, ranges := [] }).joinPods

/-- A grid that its partition cannot hold is discarded (R335). -/
def State.dropGrid (s : State) (i : Item) : State :=
  ({ s with items := s.items.filter (fun j => j.id != i.id) }).discardRecord cResource i.ctx
    (match i.queue with | some q => q | none => 2 ^ 6) i.addr 0

/-- The next crew of an item on a quad, or the whole of a co-resident grid, where the order of service allows it. -/
def State.placeItem (s : State) (p : Nat) (i : Item) (quad : Nat) : State :=
  if i.total ≤ i.placed || !(s.partQuads p).contains quad then s
  else if i.desc.cor then (if s.heldBack p i i.quads then s else s.placeCor i p)
  else
    match i.rangeAt quad with
    | none => s
    | some r =>
      if s.heldBack p i [quad] then s
      else
        match s.spotFor i quad with
        | some x => s.placeNext i r x p
        | none => s

/-- A waiting item meets its partition: a grid not tested at issue is tested, then crews are placed. -/
def State.placeStep (s : State) (iid quad : Nat) : State :=
  match s.item? iid with
  | none => s
  | some i0 =>
    match s.partOfCtx i0.ctx with
    | none => s
    | some p =>
      if (s.part p).st != .running then s
      else if !i0.tested && i0.desc.cor && !gridFits s p i0.ctx i0.total i0.desc then s.dropGrid i0
      else
        let s := (if i0.desc.cor then s.putItem { i0 with tested := true } else s).splitAll p
        match s.item? iid with
        | none => s
        | some i => s.placeItem p i quad

def execCrewPlacement (item quad : Nat) (s : State) : Host.Outcome State Fault Refusal := event (fun s => s.placeStep item quad) s

def State.stealStep (s : State) (iid quad : Nat) : State :=
  match s.item? iid with
  | none => s
  | some i =>
    match s.partOfCtx i.ctx with
    | none => s
    | some p =>
      match (if (s.part p).st == .running then s.stealFrom p i quad else none) with
      | some v => s.putItem { i with ranges := stolen i.ranges quad v }
      | none => s

def execQuadSteal (item quad : Nat) (s : State) : Host.Outcome State Fault Refusal := event (fun s => s.stealStep item quad) s

/-! ## Release (R210, R343, R372, R373) -/

/-- Slots above .crew whose quad, die or package no crew of the item occupies any more. -/
def State.barsKept (s : State) (i : Item) : List (BarKey × BarSlot) :=
  let mine := s.crews.filter (fun c => c.item == i.id)
  i.bars.filter (fun b => match b.1.scope with
    | .quad => mine.any (fun c => quadOf c.coreIx == b.1.inst)
    | .die => mine.any (fun c => coreDie c.coreIx == b.1.inst)
    | _ => !mine.isEmpty)

def State.freeCrew (s : State) (c : Crew) : State :=
  let s := { s with crews := s.crews.filter (fun x => x.id != c.id), gangs := s.gangs.filter (fun g => g.crew != some c.id),
                    sems := s.sems.filter (fun n => !c.sems.contains n.1), tokenReqs := s.tokenReqs.filter (fun g => !c.gangs.contains g),
                    reqs := s.reqs.filter (fun r => r.crew != c.id || !r.kind.isRd) }
  let s := match s.item? c.item with
    | none => s
    | some i =>
      let i := { i with released := i.released + 1, bars := s.barsKept i }
      if i.total ≤ i.released then { s with items := s.items.filter (fun j => j.id != i.id) } else s.putItem i
  if c.succ = 0 then s else { s with hub := s.hub ++ [.decrement c.succ c.ctx false] }

/-- A crew with nothing left to wait for is released, once its records are in the fault queue (R210, R372). -/
def State.releaseStep (s : State) (cid : Nat) : State :=
  match s.crew? cid with
  | none => s
  | some c =>
    if !s.crewDone c then s
    else
      let s := s.crewExit c
      if s.fq.waiting.any (fun r => r.1 == cid + 1) then s else s.freeCrew c

def execCrewRelease (crew : Nat) (s : State) : Host.Outcome State Fault Refusal := event (fun s => s.releaseStep crew) s

end Sys2Proof.Machine
end

