-- ==== Sys2Proof/Machine/Sched.lean ====
section
/-! DEFINITION. Issue selection (R347 to R349), the ends of stalls, the stroke's choice of a chunk (R112) and of the token's holder (R116). -/

namespace Sys2Proof.Machine

/-! ## Issue selection -/

/-- Whether a sub-gang may issue: ready, its gang running and not waiting for the token (R116 keeps a gang that gave it up from issuing from the end of its stall on, when it waits for it again), its last chunk's effects released (log entry 95), its chunk not waiting to commit, a member of its explicit chunk. -/
def State.groupReady (s : State) (g : Gang) (x : SubGang) : Bool :=
  x.isReady && x.lanes != 0 && s.gangRuns g && g.token != .wanted && g.releases.isEmpty &&
  (match g.chunk with
   | none => true
   | some c => !c.closed && (match c.expl with | some e => x.lanes &&& e.members != 0 | none => true))

/-- Classes of Table 15.8. -/
def issueClass (opc : Nat) : Option Nat :=
  if opc = 0x40 then some 0
  else if 0x38 ≤ opc ∧ opc ≤ 0x3A then some 1
  else if opc = 0x49 then some 2
  else if (0x80 ≤ opc ∧ opc ≤ 0x83) ∨ opc = 0x98 ∨ opc = 0x99 then some 3
  else if (0x90 ≤ opc ∧ opc ≤ 0x97) ∨ (0xA2 ≤ opc ∧ opc ≤ 0xA9) ∨ opc = 0xAB ∨ opc = 0xB0 ∨ opc = 0xB1 then some 4
  else if (0x60 ≤ opc ∧ opc ≤ 0x6F) ∨ (0xE0 ≤ opc ∧ opc ≤ 0xEF) then some 5
  else none

/-- A ready issuing group as the core ranks it. -/
structure Cand where
  gang : Nat
  lead : Nat
  waited : Nat
  prio : Nat
  place : Nat
  low : Bool
  high : Bool
  cls : List Nat
deriving DecidableEq, Repr

/-- The ranking of R347. -/
def Cand.before (a b : Cand) : Bool :=
  let sa := 4096 ≤ a.waited
  let sb := 4096 ≤ b.waited
  if sa != sb then sa
  else if !sa && a.prio != b.prio then b.prio < a.prio
  else if a.waited != b.waited then b.waited < a.waited
  else if a.place != b.place then a.place < b.place
  else a.lead < b.lead

def bestCand : List Cand → Option Cand
  | [] => none
  | a :: r => match bestCand r with
    | none => some a
    | some b => some (if b.before a then b else a)

/-- Cores are numbered by index; cox core k is 1024 + k. -/
def State.coreGangs (s : State) (core : Nat) : List Gang :=
  s.gangs.filter (fun g => match s.crewOf g with
    | some c => c.live && c.coreIx == core
    | none => g.isCox && g.id + 1024 == core)

/-- The halves that a group occupies (R35). -/
def halvesOf (width half : Nat) (m : LaneMask) : Bool × Bool :=
  if width = 64 then (m &&& allLanes 32 != 0, m &&& ~~~(allLanes 32) != 0) else (half == 0, half != 0)

def State.cands (s : State) (core : Nat) : List Cand :=
  (s.coreGangs core).flatMap (fun g =>
    let prio := match s.crewOf g with | some c => c.desc.prio | none => 0
    (g.core.subs.filter (s.groupReady g)).map (fun x =>
      let h := halvesOf (s.widthOf g) g.half x.lanes
      ⟨g.id, lowestLane x.lanes, x.waited, prio, g.place, h.1, h.2, (s.peekOpcs g x).filterMap issueClass⟩))

/-- A group that may issue beside `x` in the same cycle: in the other half, and of no class of Table 15.8 that `x` may have (log entry 48). -/
def Cand.beside (y x : Cand) : Bool :=
  (x.low != x.high) && y.low == x.high && y.high == x.low && !y.cls.any (fun a => x.cls.contains a)

/-- The highest-ranked group, and one beside it in the other half, in the order of R35. -/
def chooseTwo (cs : List Cand) : List Cand :=
  match bestCand cs with
  | none => []
  | some x =>
    match bestCand (cs.filter (fun y => y.beside x)) with
    | some y => if x.low then [x, y] else [y, x]
    | none => [x]

/-- One cycle of a core: one or two groups are chosen; a ready group counts the cycle, and a group that is not ready counts from 0 again. Those chosen issue in this cycle, and their count is 0 from their issue on (R347). -/
def State.cycle (s : State) (core : Nat) : State :=
  let cs := s.cands core
  let pair := chooseTwo cs
  let ready : Gang → Nat → Bool := fun g l => cs.any (fun c => c.gang == g.id && c.lead == l)
  let tick (g : Gang) (y : SubGang) : SubGang := { y with waited := if ready g (lowestLane y.lanes) then y.waited + 1 else 0 }
  { s with gangs := s.gangs.map (fun g => if (s.coreGangs core).any (fun c => c.id == g.id) then g.mapCore (fun c => { c with subs := c.subs.map (tick g) }) else g),
           issue := s.issue ++ pair.map (fun c => ⟨c.gang, toLane c.lead⟩) }

def execIssueCycle (core : Nat) (s : State) : Host.Outcome State Fault Refusal := event (fun s => s.cycle core) s

/-! ## The stroke -/

/-- The stroke takes a closed chunk; a gang without a chunk that cannot go on traps (R38). `victims` are further open chunks that the signatures report (R113); the last `later` deferred effects are left for later steps (R121). A gang that has such effects releases them, again but the last `later`. -/
def State.chunkStep (s : State) (gang : Nat) (victims : List Nat) (later : Nat) : State :=
  match s.gang? gang with
  | none => s
  | some g =>
    match g.chunk with
    | none => if g.releases.isEmpty then s.stuckTrap gang else s.releaseMore g later
    | some c => if c.closed then s.commitChunk gang victims later else s

def execChunkCommit (gang : Nat) (x : CommitChoice) (s : State) : Host.Outcome State Fault Refusal :=
  event (fun s => s.chunkStep gang x.victims x.later) s

/-- Whether a gang waits for the token and runs. -/
def State.wantsToken (s : State) (gid : Nat) : Bool :=
  match s.gang? gid with | some g => g.token == .wanted && s.gangRuns g | none => false

/-- The oldest request of a running gang is granted when the token is free (R116). -/
def State.grantToken (s : State) : State :=
  match s.tokenHolder with
  | some _ => s
  | none =>
    match s.tokenReqs.find? s.wantsToken with
    | none => s
    | some gid =>
      let s := match s.gang? gid with | some g => if g.isCox then s else s.count (ctrToken (s.dieOf g)) 1 | none => s
      { s.mapGang gid (fun g => { g with token := .granted }) with tokenHolder := some gid, tokenReqs := s.tokenReqs.erase gid }

def execStrokeTokenGrant (s : State) : Host.Outcome State Fault Refusal := event State.grantToken s

/-! ## The ends of stalls -/

def pathNo : PathClass → Nat | .lane => 0 | .copy => 1 | .gather => 2 | .matrix => 3 | .nmr => 4

/-- Whether every released access of a class made for a gang, by a command or request named below `upTo`, has been performed (R126). -/
def State.classDone (s : State) (gid : Nat) (x : PathClass) (upTo : Nat) : Bool :=
  !s.cmds.any (fun c => c.gang == gid && c.id < upTo && c.kind.cls == pathNo x) &&
  (x != .matrix || !s.reqs.any (fun r => r.gang == gid && r.id < upTo && !r.kind.isRd))

/-- The accumulator tile a request names. -/
def ReqKind.tileNo : ReqKind → Option Nat
  | .mma t .. | .accZero t | .accLd t .. | .accSt t .. | .epi t .. => some t
  | _ => none

/-- An epilogue that waits in its translation phase: it holds its tile by the pending mark (R297, R384). -/
def Req.pending (r : Req) : Bool := match r.kind, r.st with | .epi .., .pageWait _ => true | _, _ => false

/-- No entry of a quad's table names a tile but an epilogue pending translation (R328, R384). -/
def State.tileQuiet (s : State) (quad t : Nat) : Bool :=
  !s.reqs.any (fun r => r.quad == quad && r.inTable && r.kind.tileNo == some t && !r.pending) &&
  !s.gangs.any (fun g => g.heldReqs.any (fun r => r.quad == quad && r.kind.tileNo == some t))

def State.quadOfGang (s : State) (g : Gang) : Nat := match s.crewOf g with | some c => quadOf c.coreIx | none => 256

/-- The gang's chunk has ended, and has yet to commit or to release all its effects. -/
def Gang.closing (g : Gang) : Bool := !g.releases.isEmpty || g.chunk.any (·.closed)

/-- Whether the reason of a stall has passed. A fence waits for the chunk that it ended, not for a later one. -/
def State.stallOver (s : State) (g : Gang) (x : SubGang) : Stall → Bool
  | .mbx m => !s.mbxFull m
  | .queue q => !s.queueFull q
  | .counters ld st cp tl => g.core.within ld st cp tl
  | .fence c n => !g.closing && s.classDone g.id c n
  | .table q => s.tableHeld q < 256 && s.gangHeld g < 32
  | .credit => (match s.crewOf g with | some c => s.legacyOut (coreDie c.coreIx) c.coreIx < 8 | none => true)
  | .funit cv => s.inFlight g (if cv then .convert else .special) < 32
  | .interlock => true
  | .accRd t => s.accRdReady g.id (s.ctxOf g) (s.quadOfGang g) t x.pc.toNat
  | .tile q t => if g.isCox then s.tileQuiet q t else !s.tileAwaited q t
  | .inv => !s.invals.any (fun i => i.core == some g.id)
  | .halted p _ => (s.part p).st == .halted
  | .swap .. => true

/-- Stalls whose instruction has retired: the group stands after it. -/
def Stall.past : Stall → Bool
  | .fence .. | .halted .. | .swap .. => true
  | _ => false

/-- What a gang's open chunk itself has raised its counters by: stores, commands, matrix requests. -/
def Chunk.raised (c : Chunk) : Nat × Nat × Nat :=
  (c.stores, (c.defer.filter (fun d => match d with | .cmd _ => true | _ => false)).length,
   (c.defer.filter (fun d => match d with | .req _ => true | _ => false)).length)

/-- A group stalled at a wait meets only what its gang's own open chunk has raised since: that chunk ends, so that it can be released (R123, log entry 71). So does a chunk that holds unreleased matrix requests while a group of its gang stalls for a reservation-table entry (Table 5.1). -/
def Gang.endsFor (g : Gang) (w : Stall) : Bool :=
  match g.chunk, w with
  | some c, .counters ld st cp tl =>
    !c.closed && c.expl.isNone && ({ g.core with st := g.core.st - c.raised.1, cp := g.core.cp - c.raised.2.1, tl := g.core.tl - c.raised.2.2 }).within ld st cp tl
  | some c, .table _ => !c.closed && c.expl.isNone && !g.heldReqs.isEmpty
  | _, _ => false

/-- The group of a stall goes on: it issues its instruction again, or stands after it. A gang that gave the token up at a full mailbox or queue asks for it again once it stalls at none (R116). -/
def State.endStall (s : State) (gid lead : Nat) (w : Stall) : State :=
  let s := s.mapGang gid (fun g => (g.mapCore (fun c =>
    if w.past then c.wake (fun x => lowestLane x.lanes == lead && x.wait == .stall w) (fun x => x.pc)
    else { c with subs := mapIf (fun x => lowestLane x.lanes == lead && x.wait == .stall w) (fun x => { x with wait := .ready, waited := 0 }) c.subs })).closeIdle)
  match s.gang? gid with
  | some g => if g.token == .lost && !g.postStalled then { s.putGang { g with token := .wanted } with tokenReqs := s.tokenReqs ++ [gid] } else s
  | none => s

end Sys2Proof.Machine
end

