-- ==== Sys2Proof/Machine/Migrate.lean ====
section
/-! DEFINITION. Page migration between packages (16 R366, R367, 19 R402). -/

namespace Sys2Proof.Machine

/-! ## Invalidation (R322, R323, R366) -/

/-- Squash every open chunk that `p` picks; the token's holder too (R116). -/
def State.strikeIf (s : State) (p : Chunk → Bool) : State :=
  s.squashAll ((s.gangs.filter (fun g => g.chunk.any p)).map (·.id))

/-- The chunk holds a line reached through one of some translations (R322). -/
def Chunk.reachedBy (c : Chunk) (hit : TlbEnt → Bool) : Bool := c.pages.any (fun p => hit p.1)

def State.strike (s : State) (hit : TlbEnt → Bool) : State := s.strikeIf (fun c => c.reachedBy hit)

/-- Whether a fetch block at a location was reached through a translation at an address of a span. -/
def TlbEnt.fetched (t : TlbEnt) (lo : Nat) (size : Option Nat) (la : Nat) : Bool :=
  match t.vaOf la with | some v => spanMeets lo size (v % 2 ^ 57) 32 | none => false

/-- Whether a cached fetch block was fetched at an address of a span of a context, 0xFFF for any. -/
def CodeBlock.inSpan (b : CodeBlock) (ctx lo : Nat) (size : Option Nat) : Bool :=
  (ctx == 0xFFF || b.ctx == ctx) && spanMeets lo size (b.va % 2 ^ 57) 32

/-- Whether the fetch block at a location holds bytes of a span: it was fetched there, or a cached translation of the span leads to it. -/
def State.spanCode (s : State) (ctx lo : Nat) (size : Option Nat) (la : Nat) : Bool :=
  s.code.any (fun b => b.la == la && b.inSpan ctx lo size) || s.tlb.any (fun t => invalMatches ctx lo size t && t.fetched lo size la)

/-- The caches drop translations `hit`, pointers `lead`, cached code `gone`, and blocks of loop buffers `drop`. -/
def State.forget (s : State) (hit : TlbEnt → Bool) (lead : PtrEnt → Bool) (gone : CodeBlock → Bool) (drop : Gang → LoopBlock → Bool) : State :=
  { s with tlb := s.tlb.filter (fun t => !hit t), ptrs := s.ptrs.filter (fun p => !lead p), code := s.code.filter (fun b => !gone b),
           gangs := s.gangs.map (fun g => { g with lbuf := g.lbuf.filter (fun b => !drop g b) }) }

/-- Translations of one page of a context, and those of its leaf in every context that reaches it: a global leaf, or one in a table that contexts share. -/
def pageHits (ctx va leaf : Nat) (t : TlbEnt) : Bool :=
  t.leaf == leaf || ((t.ctx == ctx || peG leaf) && invalMatches 0xFFF (va % 2 ^ 57 / 4096 * 4096) (some 4096) t)

/-- The chunk holds a line of the page at a location. -/
def Chunk.holdsPage (c : Chunk) (la : Nat) : Bool :=
  (c.rset ++ c.wset ++ c.qset).any (fun l => match l with | .glob n => n / 64 == la / 4096 | _ => false)

/-- Invalidate a page in the whole package at once, as tlbinv and tlbsync do: chunks that hold its lines run again, no cached translation or code of it is left (R366 steps 3 and 5). `page` is its location where it has been one of this package's. -/
def State.dropPage (s : State) (ctx va leaf : Nat) (page : Option Nat) : State :=
  let lo := va % 2 ^ 57 / 4096 * 4096
  let at' (la : Nat) : Bool := page.any (fun p => p / 4096 == la / 4096)
  let s := s.strikeIf (fun c => c.reachedBy (pageHits ctx va leaf) || page.any c.holdsPage)
  s.forget (pageHits ctx va leaf) (fun p => (p.ctx == ctx || peG leaf) && p.spanned 0xFFF lo (some 4096))
    (fun b => at' b.la || s.spanCode (if peG leaf then 0xFFF else ctx) lo (some 4096) b.la)
    (fun g b => at' b.la || ((peG leaf || s.ctxOf g == ctx) && spanMeets lo (some 4096) (b.va % 2 ^ 57) 32))

/-! ## The package that asks -/

/-- Step 1: walk the page here; a leaf other than PS = 1, O = 0 ends the migration with CAUSE 0x18, else the owner is asked. -/
def State.startMigration (s : State) (m : Migration) : State :=
  match walk s m.ctx m.va with
  | .ok w =>
    if pePS w.leaf && !peO w.leaf then
      { s with migration := some { m with entry := w.entryLa }, podOut := s.podOut ++ [.pageAsk m.pkg m.ctx m.va] }
    else { s with migration := some m }.addDue .migrationTimeout
  | .error _ => { s with migration := some m }.addDue .migrationTimeout

/-- A record of R263 about a migration: it names the object, and no path class (log entry 79). -/
def State.migRecord (s : State) (m : Migration) (cause va : Nat) : State := s.kindRecord 0x02 cause 0 m.ctx 0 va m.cmp 0 0 0

/-- Step 6: the completion object at MGCMP, as a supervisor access of context 0, by R263, and BUSY. -/
def State.endMigration (s : State) (m : Migration) (failed : Option Cause) : State :=
  let waiting := match m.st with | .ended _ w => w | _ => false
  let told (s : State) : State := match failed with | some k => s.migRecord m k m.va | none => s
  match engXlat s ⟨0, true, none⟩ .store .engine m.cmp with
  | (.error (.wait va acc), s) => { (if waiting then s else s.waitRecord 0 0 va acc) with migration := some { m with st := .ended failed true } }
  | (.error (.fail k va), s) => { (told s).migRecord m k va with migration := none }
  | (.error .delay, s) => { s with migration := some { m with st := .ended failed waiting } }
  | (.ok l, s) =>
    if s.holderHit none [.glob (lineOf l.la)] [] then { s with migration := some { m with st := .ended failed waiting } }
    else
      let s := s.pieceWrite l.la (bytesLE 8 (objectAfter (s.loadNat l.la 8) failed))
      { told (s.latchComp l.la) with migration := none }

/-- The leaf that step 5 leaves: ADDR and O set, the rest as it was. -/
def takenLeaf (e frm : Nat) : Nat := (BitVec.ofNat 64 e &&& ~~~(BitVec.ofNat 64 ((2 ^ 40 - 1) * 2 ^ 12)) ||| BitVec.ofNat 64 (bitsAt frm 12 40 * 2 ^ 12 + 2 ^ 54)).toNat

/-- Step 5: the page goes into its frame, then the leaf, then the caches; all of it waits while the token's holder has one of the lines. -/
def State.installPage (s : State) (m : Migration) (data : List Byte) : State :=
  let e := s.loadNat m.entry 8
  let la := frameToLoc e m.frm
  let lines := (rangeFrom (lineOf la) 64).map Line.glob
  if s.holderHit none (.glob (lineOf m.entry) :: lines) [] then { s with migration := some { m with st := .got data } }
  else
    let s := (List.range 64).foldl (fun s i => s.pieceWrite (la + 64 * i) ((List.range 64).map (fun j => data.getD (64 * i + j) 0))) s
    let s := s.pieceWrite m.entry (bytesLE 8 (takenLeaf e m.frm))
    (s.dropPage m.ctx m.va e none).endMigration m none

/-- Go on with a migration whose page has come or that has ended. -/
def State.goMigration (s : State) (m : Migration) : State :=
  match m.st with
  | .asked => s
  | .got d => s.installPage m d
  | .ended f _ => s.endMigration m f

/-- The owner's answer arrives. -/
def State.pageAnswer (s : State) (a : PageAnswer) : State :=
  match s.migration with
  | none => s
  | some m =>
    if m.st != .asked then s
    else match a with
      | .page d => s.installPage m d
      | .refused => s.endMigration m (some cOwnership)

def execMigrationReceive (a : PageAnswer) (s : State) : Host.Outcome State Fault Refusal := event (fun s => s.pageAnswer a) s

/-- A migration that has been asked for ends with CAUSE 0x18; one that waits for a line or for its completion object tries again. -/
def State.migrationTimeout (s : State) : State :=
  match s.migration with
  | none => s
  | some m => if m.st == .asked then s.endMigration m (some cEngineFault) else s.goMigration m

def execMigrationTimeout (s : State) : Host.Outcome State Fault Refusal := event State.migrationTimeout s

/-! ## The package that owns -/

/-- Engine pieces translated through the old entry that are still to come: output pages of epilogues of any context that lead to the page's location (R297), lanes of redg that wait for their base die. -/
def State.oldPieces (s : State) (la : Nat) : Bool :=
  s.reqs.any (fun q => (q.st == .translated || q.st == .captured) && q.pages.any (fun p => p.2 / 4096 == la / 4096)) ||
  s.cmds.any (fun c => c.kind.redgs.any (fun x => x.la / 4096 == la / 4096))

/-- Step 4: the 4 KiB leave, and the frame is reported to the supervisor by a record of kind 0x06. -/
def State.sendPage (s : State) (r : PageRequest) (la frame : Nat) : State :=
  let data := (List.range 64).flatMap (fun i => (s.readBytes (la + 64 * i) 64).map (·.1))
  ({ s with podOut := s.podOut ++ [.page r.pkg r.ctx r.va data] } : State).kindRecord 0x06 cOwnership 0 r.ctx 0 frame (r.va / 4096 * 4096) 0 0 0

/-- Steps 2 to 4 of one request: the state afterwards, and what is left of the request. -/
def State.giveUp (s : State) (x : GivingUp) : State × Option GivingUp :=
  match x.frame with
  | some (la, f) => if s.oldPieces la then (s, some x) else (s.sendPage x.req la f, none)
  | none =>
    match walk s x.req.ctx x.req.va with
    | .error _ => ({ s with podOut := s.podOut ++ [.pageRefused x.req.pkg x.req.ctx x.req.va] }, none)
    | .ok w =>
      if !(pePS w.leaf && peO w.leaf) then ({ s with podOut := s.podOut ++ [.pageRefused x.req.pkg x.req.ctx x.req.va] }, none)
      else if s.holderHit none [.glob (lineOf w.entryLa)] [] then (s, some x)
      else
        let s := s.pieceWrite w.entryLa (bytesLE 8 (w.leaf - 2 ^ 54))
        let f := peFrame w.leaf
        let la := frameToLoc w.leaf f
        let s := s.dropPage x.req.ctx x.req.va w.leaf (some la)
        if s.oldPieces la then (s, some { x with frame := some (la, f) }) else (s.sendPage x.req la f, none)

/-- Serve requests in the order of their arrival; one that must wait keeps the later ones waiting. -/
def serveRequests : List GivingUp → State → State
  | [], s => { s with givingUp := [] }
  | x :: r, s =>
    match s.giveUp x with
    | (s, none) => serveRequests r s
    | (s, some y) => { s with givingUp := y :: r }

/-- A request of another package arrives, or one that waits is tried again. -/
def State.ownerRelease (s : State) (r : PageRequest) : State :=
  serveRequests (if s.givingUp.any (fun x => x.req == r) then s.givingUp else s.givingUp ++ [⟨r, none⟩]) s

def execMigrationOwnerRelease (r : PageRequest) (s : State) : Host.Outcome State Fault Refusal := event (fun s => s.ownerRelease r) s

end Sys2Proof.Machine
end

