-- ==== Sys2Proof/Machine/System.lean ====
section
/-! DEFINITION. The system instructions (14): trap, sysc, escapes, eret, the control and status registers, translation and code invalidation. -/

namespace Sys2Proof.Machine

/-! ## trap, sysc, escape, eret (R317 to R319) -/

/-- TRAP_INSTR or SYSCALL with its code in INFO or, sign-extended, in STVAL. -/
def codeTrap (c : Cause) (imm : Word32) : Trap := ⟨c, 0, 0xFF, 0, imm.toNat, (imm.signExtend 64).toNat⟩

def execTrap (o : ImmOps) (s : State) : Host.Outcome State Fault Refusal :=
  issue 12 o.g (fun _ => { guard := o.g }) (fun _ s _ => .trap s (codeTrap cTrapInstr o.imm)) s

def execSysc (o : ImmOps) (s : State) : Host.Outcome State Fault Refusal :=
  issue 12 o.g (fun _ => { guard := o.g }) (fun _ s _ => .trap s (codeTrap cSyscall o.imm)) s

/-- An escape is taken whatever its other fields hold; its guard is not evaluated (R156). -/
def execEscape (_ : Word64) (s : State) : Host.Outcome State Fault Refusal :=
  match s.env 8 .always with
  | none => .fault .noIssuingGroup
  | some e => .next (e.raise s (Trap.plain cEscape))

def execEret (g : Guard) (s : State) : Host.Outcome State Fault Refusal :=
  issue 8 g (fun _ => { guard := g, priv := true, chunk := .own })
    (fun e s g =>
      let c := s.coxOf g.id
      match targetTrap [(0, c.sepc.toNat)] with
      | some t => .trap s t
      | none => .ok (s.setCox g.id c.ret) g (e.allTo c.sepc .ready)) s

/-! ## THRSN (R417) -/

def bitIf (b : Bool) (k : Nat) : Nat := if b then 2 ^ k else 0

def State.thrsnOf (s : State) (die : Nat) : Nat :=
  let d := s.diePower die
  bitIf (s.fuses.dclk.getD die 850 < 850) 5 + bitIf (d.refr < 1000) 4 + bitIf (d.qlim < 12000 || d.dlim < 640000) 3 +
    bitIf s.powerLimited 2 + bitIf (d.tsteps != 0) 1 + bitIf d.sag 0

def State.thrsnAll (s : State) : Nat := (List.range 4).foldl (fun x d => x ||| s.thrsnOf d) 0

/-! ## Reading registers (R309) -/

def PartSt.code : PartSt → Nat | .running => 0 | .stopping => 1 | .halted => 2 | .swapping => 3

/-- The selected partition (PSEL). -/
def State.selPart (s : State) : Nat := s.psel.toNat % 32

/-- The resource key that a GRSEL value names; none where its KIND or INDEX is illegal (Table 14.7). -/
def grselKey (v : Nat) : Option Nat :=
  let i := bitsAt v 0 14
  match bitsAt v 60 4 with
  | 1 => if i < 2 ^ 12 then some (mboxKey i) else none
  | 2 => some (semKey i)
  | 3 => if i < 64 then some (queueKey i) else none
  | _ => none

def Grant.bits (x : Grant) : Nat := bitIf x.pod 13 + bitIf x.v 12 + x.owner

/-- A register's value; reading GROWN with no selection traps (R331). -/
def csrGet (e : Env) (s : State) (g : Gang) (c : Csr) : Except Trap Nat :=
  let k := s.coxOf g.id
  let p := s.part s.selPart
  match c with
  | .fpmode => .ok g.core.fpmode.toNat
  | .fpflags => .ok g.core.fpflags.toNat
  | .uevec => .ok g.core.uevec.toNat
  | .ef n => .ok (g.core.ef.getD n.val 0).toNat
  | .lc n => .ok (g.core.loop n.val).lc.toNat
  | .thrsn => .ok (if e.cox then s.thrsnAll else s.thrsnOf (s.dieOf g))
  | .ctx => .ok e.ctx
  | .sstatus => .ok k.sstatus.toNat
  | .stvec => .ok k.stvec.toNat
  | .sepc => .ok k.sepc.toNat
  | .scause => .ok k.scause.toNat
  | .stval => .ok k.stval.toNat
  | .sinsn0 => .ok k.sinsn0.toNat
  | .sinsn1 => .ok k.sinsn1.toNat
  | .sscratch => .ok k.sscratch.toNat
  | .cctx => .ok k.cctx.toNat
  | .fqbase => .ok s.fq.base.toNat
  | .fqcap => .ok s.fq.cap.toNat
  | .fqhead => .ok s.fq.head.toNat
  | .fqtail => .ok s.fq.tail.toNat
  | .fqsem => .ok s.fq.sem.toNat
  | .grsel => .ok s.grsel.toNat
  | .grown => (match grselKey s.grsel.toNat with | some k => .ok (s.grant k).bits | none => .error (Trap.plain cIllegalEncoding))
  | .psel => .ok s.psel.toNat
  | .pblk => .ok p.blk.toNat
  | .plive => .ok p.live
  | .pshad => .ok p.shad
  | .pstate => .ok p.st.code
  | .puev => .ok p.puev.toNat
  | .ctxtab => .ok s.ctxtab.toNat
  | .lreq d => .ok (s.lreq.getD d.val 0).toNat
  | .rreq d => .ok (s.rreq.getD d.val 0).toNat
  | .mgva => .ok s.mgva.toNat
  | .mgctl => .ok s.mgctl.toNat
  | .mgfrm => .ok s.mgfrm.toNat
  | .mgcmp => .ok s.mgcmp.toNat
  | .mgstat => .ok (bitIf s.migration.isSome 0)

/-! ## Writing registers -/

/-- FPMODE's map: reserved bits read zero (Table 4.2). -/
def fpmodeMask : Nat := 0xF03F7
def fpmodeLegal (v : Nat) : Bool := 1 ≤ v % 8 && v % 8 ≤ 5 && bitsAt v 18 2 != 3

/-- The bits of `v` that a mask lets through. -/
def w64 (v mask : Nat) : Word64 := BitVec.ofNat 64 (v &&& mask)

/-- Clear the bits below 2^k. -/
def clearLow (v k : Nat) : Nat := v / 2 ^ k * 2 ^ k

/-- A refused head is tried again at a write of its semaphore's GROWN that passes the check (R339). -/
def State.retestGates (s : State) (key : Nat) : State :=
  { s with queues := (List.range s.queues.length).zip s.queues |>.map (fun x =>
      if x.2.head == .refused && semKey (x.2.sem % 2 ^ 14) == key && s.gateGranted x.1 then { x.2 with head := .idle } else x.2) }

def State.setSelPart (s : State) (f : Partition → Partition) : State := s.setPart s.selPart (f (s.part s.selPart))

/-- Whether the shadow image of a partition holds a crew. -/
def State.shadowCrews (s : State) (p : Nat) : Bool :=
  s.crews.any (fun c => !c.live && (s.part p).blk.getLsbD (quadOf c.coreIx / 8))

/-- A write of PLIVE or PSHAD that R380 refuses. -/
def State.badContext (s : State) (shad : Bool) (v : Nat) : Bool :=
  let p := s.part s.selPart
  p.st != .halted || v == (if shad then p.live else p.shad) || (v == 0 && !(shad && !s.shadowCrews s.selPart))

/-- A write of MGCTL; GO starts a migration (Table 16.10). -/
def mgctlSet (s : State) (v : Nat) : Except Trap State :=
  let pkg := bitsAt v 24 10
  let ctx := bitsAt v 0 12
  let s1 := { s with mgctl := BitVec.ofNat 64 (pkg * 2 ^ 24 + ctx) }
  if bitsAt v 63 1 = 0 then .ok s1
  else if s.migration.isSome then .error (Trap.plain cResource)
  else if ctx = 0 ∨ pkg = s.pkgNo then .error (Trap.plain cIllegalEncoding)
  else .ok (s1.startMigration ⟨s.mgva.toNat, s.mgfrm.toNat, s.mgcmp.toNat, ctx, pkg, 0, .asked⟩)

/-- A write of a register through its map: the package and the gang afterwards, or the trap that leaves everything as it was. -/
def csrSet (s : State) (g : Gang) (c : Csr) (v : Nat) : Except Trap (State × Gang) :=
  let k := s.coxOf g.id
  let cox (x : Cox) : Except Trap (State × Gang) := .ok (s.setCox g.id x, g)
  let pkg (x : State) : Except Trap (State × Gang) := .ok (x, g)
  let ill : Except Trap (State × Gang) := .error (Trap.plain cIllegalEncoding)
  let res : Except Trap (State × Gang) := .error (Trap.plain cResource)
  match c with
  | .fpmode => if fpmodeLegal v then .ok (s, g.mapCore (fun x => { x with fpmode := BitVec.ofNat 32 (v &&& fpmodeMask) })) else ill
  | .fpflags => .ok (s, g.mapCore (fun x => { x with fpflags := BitVec.ofNat 32 (v % 64) }))
  | .uevec =>
    if canonical (clearLow v 2) then .ok (s, g.mapCore (fun x => { x with uevec := w64 v 0xFFFFFFFFFFFFFFFD })) else .error (Trap.plain cPermission)
  | .sstatus => cox { k with sstatus := BitVec.ofNat 64 (v &&& 0x14 ||| k.sstatus.toNat % 2) }
  | .stvec => cox { k with stvec := BitVec.ofNat 64 (clearLow v 2) }
  | .sepc => cox { k with sepc := BitVec.ofNat 64 v }
  | .scause => cox { k with scause := BitVec.ofNat 64 (v % 2 ^ 11) }
  | .stval => cox { k with stval := BitVec.ofNat 64 v }
  | .sinsn0 => cox { k with sinsn0 := BitVec.ofNat 64 v }
  | .sinsn1 => cox { k with sinsn1 := BitVec.ofNat 64 v }
  | .sscratch => cox { k with sscratch := BitVec.ofNat 64 v }
  | .cctx => cox { k with cctx := BitVec.ofNat 64 (v % 2 ^ 12) }
  | .fqbase =>
    if v % 4096 ≠ 0 then ill
    else if s.fq.head ≠ s.fq.tail then res
    else pkg { s with fq := { s.fq with base := BitVec.ofNat 64 v, configured := true } }
  | .fqcap =>
    if v < 5 ∨ 16 < v then ill
    else if s.fq.head ≠ s.fq.tail then res
    else pkg { s with fq := { s.fq with cap := BitVec.ofNat 64 v } }
  | .fqhead =>
    let x := BitVec.ofNat 64 v
    let x := if (s.fq.tail - s.fq.head).toNat < (x - s.fq.head).toNat then s.fq.tail else x
    pkg { s with fq := { s.fq with head := x } }
  | .fqsem => pkg { s with fq := { s.fq with sem := BitVec.ofNat 64 v } }
  | .grsel => if (grselKey v).isSome then pkg { s with grsel := BitVec.ofNat 64 (bitsAt v 60 4 * 2 ^ 60 + bitsAt v 0 14) } else ill
  | .grown =>
    (match grselKey s.grsel.toNat with
     | some key =>
       pkg (State.retestGates { s with grants := spPut ⟨false, false, 0⟩ key ⟨bitsAt v 13 1 == 1, bitsAt v 12 1 == 1, bitsAt v 0 12⟩ s.grants } key)
     | none => ill)
  | .psel => pkg { s with psel := BitVec.ofNat 64 (v % 32) }
  | .pblk =>
    let b := BitVec.ofNat 32 v
    if (s.part s.selPart).st ≠ .halted ∨ (List.range 32).any (fun q => q != s.selPart && (s.part q).blk &&& b != 0) then res
    else pkg (s.setSelPart (fun p => { p with blk := b })).saveRecords
  | .plive => if s.badContext false (v % 4096) then res else pkg (s.setSelPart (fun p => { p with live := v % 4096 })).saveRecords
  | .pshad => if s.badContext true (v % 4096) then res else pkg (s.setSelPart (fun p => { p with shad := v % 4096 }))
  | .puev =>
    if canonical (clearLow v 2) then pkg (s.setSelPart (fun p => { p with puev := w64 v 0xFFFFFFFFFFFFFFFD })) else .error (Trap.plain cPermission)
  | .ctxtab => pkg { s with ctxtab := w64 v 0xFFFFFFFFF8001 }
  | .lreq d => pkg { s with lreq := setAt d.val (BitVec.ofNat 64 v) s.lreq }
  | .rreq d => pkg { s with rreq := setAt d.val (BitVec.ofNat 64 v) s.rreq }
  | .mgva => pkg { s with mgva := BitVec.ofNat 64 (clearLow v 12) }
  | .mgctl => (mgctlSet s v).map (fun x => (x, g))
  | .mgfrm => pkg { s with mgfrm := BitVec.ofNat 64 (clearLow v 12) }
  | .mgcmp => pkg { s with mgcmp := BitVec.ofNat 64 (clearLow v 3) }
  | .ef _ | .lc _ | .thrsn | .ctx | .fqtail | .pstate | .mgstat => .ok (s, g)

/-! ## csrr, csrw, csrx (R309, R311) -/

/-- Registers that only gangs hold. -/
def csrGangOnly : Csr → Bool
  | .uevec | .ef _ | .lc _ => true
  | _ => false

/-- Operand width of a register's value. -/
def csrRd : Csr → Rd
  | .fpmode | .fpflags | .lc _ | .thrsn | .ctx => .w32
  | _ => .w64

def csrSpec (g : Guard) (c : Csr) (wr : Bool) (uses : List Use) (e : Env) : Spec :=
  { guard := g, privReg := !e.sup && csrPriv wr c, fieldsOk := !(e.cox && csrGangOnly c), uses := uses, chunk := .own }

def execCsrr (o : CsrrOps) (s : State) : Host.Outcome State Fault Refusal :=
  issue 12 o.g (csrSpec o.g o.csr false [.dstS o.d])
    (fun e s g =>
      match csrGet e s g o.csr with
      | .error t => .trap s t
      | .ok v => .ok s (g.mapCore (fun c => c.putS o.d (BitVec.ofNat 64 v))) e.through) s

/-- Write a register, and D with its old value. -/
def csrWrite (c : Csr) (d : Option Dst) (new : Nat → Nat) (e : Env) (s : State) (g : Gang) : Res :=
  match csrGet e s g c with
  | .error t => .trap s t
  | .ok old =>
    match csrSet s g c (new old) with
    | .error t => .trap s t
    | .ok (s, g) =>
      .ok s (match d with | some d => g.mapCore (fun k => k.putS d (BitVec.ofNat 64 old)) | none => g) e.through

/-- csrw and csrx of one register. -/
def csrPutRun (c : Csr) (p : CsrPut) (s : State) : Host.Outcome State Fault Refusal :=
  match p with
  | .w g a =>
    issue 12 g (csrSpec g c true [.uni 1 a]) (fun e s k => csrWrite c none (fun _ => e.uni (csrRd c) a) e s k) s
  | .x g d a b =>
    issue 12 g (csrSpec g c true [.dstS d, .uni 1 a, .uni 2 b])
      (fun e s k =>
        let x := e.uni (csrRd c) a
        let y := e.uni (csrRd c) b
        csrWrite c (some d) (fun old => (old &&& (2 ^ 64 - 1 - y)) ||| (x &&& y)) e s k) s

def execCsrw (o : CsrwOps) (s : State) : Host.Outcome State Fault Refusal := csrPutRun o.csr (.w o.g o.a) s
def execCsrx (o : CsrxOps) (s : State) : Host.Outcome State Fault Refusal := csrPutRun o.csr (.x o.g o.d o.a o.b) s
def execFpmodeWrite (o : CsrPut) (s : State) : Host.Outcome State Fault Refusal := csrPutRun .fpmode o s
def execUevecWrite (o : CsrPut) (s : State) : Host.Outcome State Fault Refusal := csrPutRun .uevec o s
def execFqbaseWrite (o : CsrPut) (s : State) : Host.Outcome State Fault Refusal := csrPutRun .fqbase o s
def execFqcapWrite (o : CsrPut) (s : State) : Host.Outcome State Fault Refusal := csrPutRun .fqcap o s
def execFqheadWrite (o : CsrPut) (s : State) : Host.Outcome State Fault Refusal := csrPutRun .fqhead o s
def execGrselWrite (o : CsrPut) (s : State) : Host.Outcome State Fault Refusal := csrPutRun .grsel o s
def execGrownWrite (o : CsrPut) (s : State) : Host.Outcome State Fault Refusal := csrPutRun .grown o s
def execPblkWrite (o : CsrPut) (s : State) : Host.Outcome State Fault Refusal := csrPutRun .pblk o s
def execPliveWrite (o : CsrPut) (s : State) : Host.Outcome State Fault Refusal := csrPutRun .plive o s
def execPshadWrite (o : CsrPut) (s : State) : Host.Outcome State Fault Refusal := csrPutRun .pshad o s
def execPuevWrite (o : CsrPut) (s : State) : Host.Outcome State Fault Refusal := csrPutRun .puev o s
def execCtxtabWrite (o : CsrPut) (s : State) : Host.Outcome State Fault Refusal := csrPutRun .ctxtab o s
def execMigrationGo (o : CsrPut) (s : State) : Host.Outcome State Fault Refusal := csrPutRun .mgctl o s

/-! ## tlbinv and tlbsync (R322, R323) -/

/-- Bytes of a span code. -/
def spanBytes (k : Nat) : Nat := [2 ^ 12, 2 ^ 16, 2 ^ 21, 2 ^ 25, 2 ^ 29, 2 ^ 30, 2 ^ 34].getD k (2 ^ 12)

/-- Post an invalidation to every translation cache: open chunks that hold a line reached through an invalidated translation run again. -/
def State.postInval (s : State) (core : Option Nat) (ctx lo : Nat) (size : Option Nat) : State :=
  let s := s.strike (invalMatches ctx lo size)
  { s with invals := s.invals ++ [⟨s.nextId, core, ctx, lo, size⟩], nextId := s.nextId + 1 }

/-- tlbinv (R322). Of a b that is no canonical address the low 57 bits count (the model's choice, log entry 103: the spec names no trap for it). -/
def execTlbinv (o : GABC) (s : State) : Host.Outcome State Fault Refusal :=
  issue 8 o.g (fun _ => { guard := o.g, priv := true, uses := [.uni 1 o.a, .uni 2 o.b, .uni 3 o.c], chunk := .own })
    (fun e s g =>
      let ctx := e.uni .w64 o.a
      let va := e.uni .w64 o.b
      let k := e.uni .w64 o.c
      if 4096 ≤ ctx ∨ 8 ≤ k then .trap s (Trap.plain cIllegalEncoding)
      else
        let n := spanBytes k
        let size := if k = 7 then none else some n
        .ok (s.postInval (some g.id) ctx (va % 2 ^ 57 / n * n) size) g e.through) s

def execTlbsync (g : Guard) (s : State) : Host.Outcome State Fault Refusal :=
  issue 8 g (fun _ => { guard := g, priv := true, chunk := .own })
    (fun e s g => if s.invals.any (fun i => i.core == some g.id) then .stall s .inv else .ok s g e.through) s

/-- An epilogue has translated an output page of the span and has not finished (R297), or a redg translated through it waits for its base die (R394). -/
def State.invalHeld (s : State) (i : Inval) : Bool :=
  s.cmds.any (fun c => c.kind.redgs.any (fun x => invalMatches i.ctx i.lo i.size x.ent)) ||
  s.reqs.any (fun r => (i.ctx == 0xFFF || i.ctx == r.ctx) && (r.st == .translated || r.st == .captured) &&
    r.pages.any (fun p => match i.size with
      | none => true
      | some n => i.lo ≤ p.1 % 2 ^ 45 * 4096 && p.1 % 2 ^ 45 * 4096 < i.lo + n))

/-- Gangs whose context an invalidation names. -/
def State.usesCtx (s : State) (ctx : Nat) (g : Gang) : Bool := ctx == 0xFFF || s.ctxOf g == ctx

/-- The translation caches drop the span, and the code bytes fetched through it are discarded; a chunk that has come to hold a line through an old translation runs again. -/
def State.finishInval (s : State) (id : Nat) : State :=
  match s.invals.find? (fun i => i.id == id) with
  | none => s
  | some i =>
    if s.invalHeld i then s
    else
      let hit := invalMatches i.ctx i.lo i.size
      let s := s.strike (fun t => hit t && s.staleEnt t)
      { s.forget hit (PtrEnt.spanned i.ctx i.lo i.size) (fun b => s.spanCode i.ctx i.lo i.size b.la)
          (fun g b => s.usesCtx i.ctx g && spanMeets i.lo i.size (b.va % 2 ^ 57) 32) with invals := s.invals.filter (fun j => j.id != id) }

def execTlbInvalidationDone (id : Nat) (s : State) : Host.Outcome State Fault Refusal := event (fun s => s.finishInval id) s

/-! ## icinv (R324, R134) -/

/-- Whether the range [a, a + b) of a context meets a fetch block: one of the addresses at which the context reaches it. -/
def State.rangeMeets (s : State) (ctx a b la : Nat) : Bool := (addressesOf s ctx la).any (fun v => decide (v < a + b) && decide (a < v + 32))

/-- A gang whose loop-buffer copies of some blocks are discarded at its next chunk end (R217). -/
def Gang.markStale (g : Gang) (met : Nat → Bool) : Gang := { g with lbuf := mapIf (fun b => met b.la) (fun b => { b with stale := true }) g.lbuf }

/-- Discard the cached code that a range meets: a gang that has yet to pass a chunk end may still execute it until then (R134). -/
def State.dropCode (s : State) (me : Nat) (met : Nat → Bool) : State :=
  let keep (b : CodeBlock) : List CodeBlock :=
    if !met b.la || !b.stale.isEmpty then [b]
    else
      let l := (s.gangs.filter (fun g => g.id != me && !g.exited && s.codeQuad g == b.quad)).map (·.id)
      if l.isEmpty then [] else [{ b with stale := l }]
  { s with code := s.code.flatMap keep, gangs := s.gangs.map (fun g => g.markStale met) }

def State.icinv (s : State) (me ctx a b : Nat) : State := if b = 0 then s else s.dropCode me (s.rangeMeets ctx a b)

/-- The issuing gang's own copies go with the others'; its chunk ends here. -/
def Gang.icinv (g : Gang) (s : State) (ctx a b : Nat) : Gang := if b = 0 then g else g.markStale (s.rangeMeets ctx a b)

def execIcinv (o : GAB) (s : State) : Host.Outcome State Fault Refusal :=
  issue 8 o.g (fun _ => { guard := o.g, uses := [.uni 1 o.a, .uni 2 o.b], chunk := .own })
    (fun e s g =>
      let a := e.uni .w64 o.a
      let b := e.uni .w64 o.b
      .ok (s.icinv g.id e.ctx a b) (g.icinv s e.ctx a b) e.through) s

end Sys2Proof.Machine
end

