-- ==== Sys2Proof/Machine/Partition.lean ====
section
/-! DEFINITION. Stopping, running and swapping partitions (14 R325 to R327, 17 R375 to R382), fltres (R320), the accumulator handover (R328 to R330), the ends of stalls. -/

namespace Sys2Proof.Machine

/-! ## Which gangs -/

/-- The gangs of a partition's live context in its live image. -/
def State.liveGangs (s : State) (p : Nat) : List Gang :=
  s.gangs.filter (fun g => match s.crewOf g with
    | some c => c.live && c.ctx == (s.part p).live && s.partOfQuad (quadOf c.coreIx) == some p
    | none => false)

/-! ## Stopping (R376 to R378) -/

/-- A group that stalled on a full object issues its instruction again (Table 17.5). No group of a stopped gang is ready, and so each counts its wait from 0 (R347). -/
def SubGang.stopped (x : SubGang) : SubGang :=
  let x := { x with waited := 0 }
  match x.wait with
  | .stall (.counters ..) => x
  | .stall w => if w.past then x else { x with wait := .ready }
  | _ => x

/-- Stop one gang: an explicit chunk is discarded as from before its chk.begin, an implicit one ends, the token goes (R377, R221). -/
def State.stopGang (s : State) (gid : Nat) : State :=
  match s.gang? gid with
  | none => s
  | some g =>
    let s := { s.dropToken gid with tokenReqs := s.tokenReqs.filter (· != gid) }
    let g := { g with token := .none }
    let g : Gang := match g.chunk with
      | some c => (match c.expl with
        | some e => { s.undoExplicit g c e with squashes := 0 }
        | none => { g with chunk := some { c with closed := true } })
      | none => g
    s.putGang (g.mapCore (fun c => { c with subs := c.subs.map SubGang.stopped }))

/-- Queue heads of a context complete their admission, and leave the semaphore FIFOs (Table 17.4, R339). -/
def State.stopQueue (s : State) (ctx q : Nat) : State :=
  if s.headCtx q != ctx then s
  else match (s.queue q).head with
    | .served => s.admitHead q ctx
    | .inFifo => (s.leaveFifos (fun w => w == .queue q)).setQueue q { s.queue q with head := .idle }
    | _ => s

def State.stopPart (s : State) (p : Nat) : State :=
  let ctx := (s.part p).live
  let s := if ctx = 0 then s else (List.range 64).foldl (fun s q => s.stopQueue ctx q) s
  let ids := (s.liveGangs p).map (·.id)
  let s := s.leaveFifos (fun w => match w with | .group g _ => ids.contains g | .queue _ => false)
  let s := s.setPart p { s.part p with st := .stopping }
  ids.foldl State.stopGang s

/-- A gang stands at its boundary: no chunk, nothing left to release, no result in flight. -/
def Gang.quiet (g : Gang) : Bool := g.between && g.core.pend.isEmpty && g.core.ld == 0

/-- Whether a matrix request stands at the stop boundary: not at work, and not free to start. -/
def State.reqQuiet (s : State) (r : Req) : Bool :=
  !(r.st == .granted || r.st == .translated || r.st == .captured || s.eligible r)

/-- Every engine of a partition has reached its boundary (Table 17.4). -/
def State.partQuiet (s : State) (p : Nat) : Bool :=
  (s.liveGangs p).all Gang.quiet &&
  s.cmds.all (fun c => !(s.cmdStopping c && (match c.crew.bind s.crew? with | some k => s.partOfQuad (quadOf k.coreIx) == some p | none => false))) &&
  s.reqs.all (fun r => s.partOfQuad r.quad != some p || s.reqQuiet r)

/-! ## Resuming held groups (R320, R379) -/

def Back.toWait : Back → Wait
  | .issue => .ready
  | .join m n => .join m n
  | .loopEnd n => .loopEnd n
  | .coll n => .coll n
  | .bar k => .bar k
  | .fence x n => .stall (.fence x n)

def SubGang.heldSeq (x : SubGang) (seq : Nat) : Bool := match x.wait with | .held h => h.seq == seq | _ => false
def SubGang.heldMain (x : SubGang) (seq : Nat) : Bool := match x.wait with | .held h => h.seq == seq && h.main | _ => false

/-- Release a held group: the trapped sub-gang goes on at the PC `f` gives it, the others held with it return to what they did. -/
def GangCore.unhold (c : GangCore) (seq : Nat) (f : SubGang → Word64) : GangCore :=
  let c := { c with subs := c.subs.map (fun (x : SubGang) => match x.wait with
    | .held h => if h.seq == seq && !h.main then { x with wait := h.back.toWait, waited := 0 } else x
    | _ => x) }
  (c.wake (fun x => x.heldMain seq) f).settle

/-- TERMINATE: every lane held with the token is quarantined. -/
def GangCore.terminate (c : GangCore) (seq : Nat) : GangCore :=
  let m := c.subs.foldl (fun m x => if x.heldSeq seq then m ||| x.lanes else m) 0
  { (c.dropLanes m) with quarantined := c.quarantined ||| m, fmask := c.fmask ||| m }.settle

def skipBy (x : SubGang) : Nat := match x.wait with | .held h => h.skip | _ => 0

/-- What an action of fltres does to a gang: 0 RETRY, 1 SKIP, 2 REDIRECT, 3 TERMINATE. -/
def GangCore.resumeHeld (c : GangCore) (seq act : Nat) (target : Word64) : GangCore :=
  match act with
  | 0 => c.unhold seq (fun x => x.pc)
  | 1 => c.unhold seq (fun x => x.pc + BitVec.ofNat 64 (skipBy x))
  | 2 => c.unhold seq (fun _ => target)
  | _ => c.terminate seq

/-- Act on a held group; a gang left with no thread exits, one that cannot go on traps. -/
def State.resumeGroup (s : State) (gid seq act : Nat) (target : Word64) : State :=
  let s := s.mapGang gid (fun g => (g.mapBoth (fun c => c.resumeHeld seq act target)).closeIdle)
  match s.gang? gid with
  | some g => if !g.between then s else if g.core.subs.isEmpty then s.gangExit gid else s.stuckTrap gid
  | none => s

/-- Gangs at a gang place of a core. -/
def State.gangsAt (s : State) (core place : Nat) : List (Gang × Crew) :=
  s.gangs.filterMap (fun g => match s.crewOf g with
    | some c => if c.coreIx == core && g.place == place then some (g, c) else none
    | none => none)

/-- What a TOKEN names: a running gang of its context; a gang of it that is not resident; or neither. -/
inductive TokenFor
  | gang (g : Nat)
  | away
  | stale
deriving DecidableEq, Repr

/-- Whether the partition of a quad is RUNNING. -/
def State.quadRuns (s : State) (quad : Nat) : Bool := match s.partOfQuad quad with | some p => (s.part p).st == .running | none => false

/-- The gang at a TOKEN's place, of the two images the one with the TOKEN's context if there is one (R382), else the live image's: away while it does not run, or, where no gang is, while the partition does not (log entry 43). -/
def State.tokenFor (s : State) (tok : Nat) : TokenFor :=
  let core := bitsAt tok 22 2 * 256 + bitsAt tok 16 6 * 4 + bitsAt tok 14 2
  let here := s.gangsAt core (bitsAt tok 6 8)
  let mine := here.filter (fun x => x.2.ctx == bitsAt tok 52 12)
  let live := here.filter (fun x => x.2.live)
  match mine.find? (fun x => s.crewRuns x.2), mine, live, here with
  | some x, _, _, _ => .gang x.1.id
  | none, _ :: _, _, _ => .away
  | none, [], x :: _, _ => if s.crewRuns x.2 then .stale else .away
  | none, [], [], _ :: _ => .away
  | none, [], [], [] => if s.quadRuns (quadOf core) then .stale else .away

/-- fltres. A C that is not 0x3C0 where the action is not REDIRECT is ignored (the model's choice, log entry 100: R320 gives no outcome for it). -/
def execFltres (o : GDABC) (s : State) : Host.Outcome State Fault Refusal :=
  issue 8 o.g (fun _ => { guard := o.g, priv := true, uses := [.dstS o.d, .uni 1 o.a, .uni 2 o.b, .uni 3 o.c], chunk := .own })
    (fun e s g =>
      let tok := e.uni .w64 o.a
      let act := e.uni .w64 o.b
      let tgt := e.uni .w64 o.c
      let seq := bitsAt tok 32 20
      let ret (s : State) (n : Nat) : Res := .ok s (g.mapCore (fun c => c.putS o.d (BitVec.ofNat 64 n))) e.through
      if 4 ≤ act then .trap s (Trap.plain cIllegalEncoding)
      else
        match s.tokenFor tok with
        | .away => ret s 2
        | .stale => ret s 1
        | .gang id =>
          match s.gang? id with
          | none => ret s 1
          | some h =>
            if !h.core.subs.any (fun x => x.heldSeq seq) then ret s 1
            else if act = 2 && (targetTrap [(0, tgt)]).isSome then ret s 3
            else ret (s.resumeGroup id seq act (BitVec.ofNat 64 tgt)) 0) s

/-! ## Resumption of a partition (R379) -/

/-- Set RESTORED in a record. -/
def restoredRecord (r : List Byte) : List Byte := setAt 2 ((r.getD 2 0) ||| 1) r

/-- Groups held on PAGE_NOT_PRESENT re-issue; the records of the others are entered again, in their order. -/
def State.restoreHeld (s : State) (gid : Nat) : State :=
  match s.gang? gid with
  | none => s
  | some g =>
    let hs : List Held := g.core.subs.filterMap (fun (x : SubGang) => match x.wait with | .held h => some h | _ => none)
    let pages := (hs.filter (fun h => h.cause == cPageNotPresent)).map (·.seq)
    let others := (hs.filter (fun h => h.cause != cPageNotPresent)).foldl (fun l h => if l.any (fun k : Held => k.seq == h.seq) then l else l ++ [h]) []
    let s := s.mapGang gid (fun g => g.mapCore (fun c => pages.foldl (fun c q => c.unhold q (fun x => x.pc)) c))
    others.foldl (fun s h => s.addRecord 0 (restoredRecord h.record)) s

/-- A gang whose saved record was uncorrectable is held whole, with one record (Table 17.2): groups held before are held anew, and go back to issuing where fltres lets them. The record carries PC and INSN of the gang's first sub-gang; where the gang has several, none of them is the one that SKIP and REDIRECT move (the model's choices, log entry 89). -/
def State.restoreBroken (s : State) (g : Gang) : State :=
  match g.core.subs with
  | [] => s
  | x :: _ =>
    let half := s.halfAt g x.pc.toNat
    let y : SubGang := { x with lanes := g.core.liveLanes }
    let g := g.mapCore (fun c => { c with subs := c.subs.map (fun z => match z.wait with | .held _ => { z with wait := .ready } | _ => z) })
    s.holdAll g y ⟨x.pc.toNat, half, ofBytesLE ((half.drop (x.pc.toNat % 16)).take 8)⟩ (Trap.plain cUncorrectable) 1

/-- The held groups of a gang at a resumption (R379, Table 17.2). -/
def State.restoreGang (s : State) (gid : Nat) : State :=
  match s.gang? gid with
  | none => s
  | some g => if g.record == .saved then s.restoreBroken g else s.restoreHeld gid

/-- A waiter of a semaphore joins its FIFO again, or is served. -/
def State.rejoin (s : State) (gid : Nat) : State :=
  match s.gang? gid with
  | none => s
  | some g =>
    g.core.subs.foldl (fun (s : State) (x : SubGang) => match x.wait with
      | .sem n thr =>
        let w : SemWaiter := .group gid (toLane (lowestLane x.lanes))
        if (s.sem n).serves thr then (s.semTake n thr).wakeWaiter n w
        else s.setSem n { s.sem n with fifo := (s.sem n).fifo ++ [(w, thr)] }
      | _ => s) s

/-- What a gang meets at a resumption before any of its groups issues. -/
def State.resumeGang (s : State) (gid : Nat) : State :=
  let s := s.restoreGang gid
  let s := match s.gang? gid with
    | none => s
    | some g =>
      let core := (g.core.expireRegs (s.regCode g) s.tick).expireSpaces (s.thrCode g) s.tick
      let g := { g with core := s.reeval (~~~core.rearm) core }
      let g := g.core.subs.foldl s.barMeet g
      let s := s.putGang g
      if g.core.waitsEvents then s.addDue (.eventDelivery gid) else s
  s.rejoin gid

/-- Allocations whose tick has passed. -/
def Crew.expireAllocs (c : Crew) (tick : Nat) : Crew :=
  { c with allocs := c.allocs.map (fun a => if isOver a.code a.exp tick then a.expire else a) }

/-- Enter RUNNING. Gangs that waited at one semaphore join its FIFO again in the order of placement, the groups of a gang in theirs (the model's choice, log entry 93: neither R244 nor R379 gives one). -/
def State.resumePart (s : State) (p : Nat) : State :=
  let s := s.setPart p { s.part p with st := .running }
  let gs := s.liveGangs p
  let crews := (gs.filterMap (·.crew)).eraseDups
  let s := { s with crews := mapIf (fun c => crews.contains c.id) (fun c => c.expireAllocs s.tick) s.crews }
  let s := (gs.map (·.id)).foldl State.resumeGang s
  (s.reqs.filter (fun r => s.partOfQuad r.quad == some p && r.pending)).foldl (fun s r => s.addDue (.pageWaitRetry r.id)) s

/-- The halts that wait for a partition. -/
def State.haltsOf (s : State) (p : Nat) : List (Nat × Nat × Bool) :=
  s.gangs.flatMap (fun g => g.core.subs.filterMap (fun x => match x.wait with
    | .stall (.halted q run) => if q = p then some (g.id, lowestLane x.lanes, run) else none
    | _ => none))

/-- HALTED is reached: every halt that waits for it goes on, and a RUN among them then sets RUNNING (R326). -/
def State.endHalts (s : State) (p : Nat) : State :=
  let l := s.haltsOf p
  let s := l.foldl (fun s x => s.endStall x.1 x.2.1 (.halted p x.2.2)) s
  if l.any (fun x => x.2.2) then s.resumePart p else s

/-- The last acknowledgement: HALTED. Squash counts restart (R49). -/
def State.setHalted (s : State) (p : Nat) : State :=
  let ids := (s.liveGangs p).map (·.id)
  let s := { s with gangs := mapIf (fun g => ids.contains g.id) (fun g => { g with squashes := 0, token := .none }) s.gangs,
                    tokenReqs := s.tokenReqs.filter (fun i => !ids.contains i) }
  s.setPart p { s.part p with st := .halted }

def State.stopAck (s : State) (p : Nat) : State :=
  if (s.part p).st == .stopping && s.partQuiet p then (s.setHalted p).endHalts p else s

def execEngineStopAck (part : Fin 32) (s : State) : Host.Outcome State Fault Refusal := event (fun s => s.stopAck part.val) s

/-! ## halt (R326) -/

/-- halt found in each state: STOP of a running partition starts the stop; a stop or swap in progress is waited for, and a RUN follows it. -/
def haltBody (o : GDAB) (e : Env) (s : State) (g : Gang) : Res :=
  let p := e.uni .w64 o.a
  let act := e.uni .w64 o.b
  if 32 ≤ p ∨ 2 ≤ act then .trap s (Trap.plain cIllegalEncoding)
  else
    let st := (s.part p).st
    let g := g.mapCore (fun c => c.putS o.d (BitVec.ofNat 64 st.code))
    let waits : After := e.allTo e.nextPc (.stall (.halted p (act == 1)))
    match st with
    | .running => if act = 0 then .ok (s.stopPart p) g waits else .ok s g e.through
    | .halted => .ok (if act = 0 then s else s.resumePart p) g e.through
    | _ => .ok s g waits

def haltSpec (o : GDAB) (_ : Env) : Spec := { guard := o.g, priv := true, uses := [.dstS o.d, .uni 1 o.a, .uni 2 o.b], chunk := .own }

def execHaltStop (o : GDAB) (s : State) : Host.Outcome State Fault Refusal := issue 8 o.g (haltSpec o) (haltBody o) s
def execHaltRun (o : GDAB) (s : State) : Host.Outcome State Fault Refusal := issue 8 o.g (haltSpec o) (haltBody o) s

/-! ## pswap (R327, R381) -/

/-- pswap of a halted partition: SWAPPING, until the exchange ends. -/
def execPswap (o : GDA) (s : State) : Host.Outcome State Fault Refusal :=
  issue 8 o.g (fun _ => { guard := o.g, priv := true, uses := [.dstS o.d, .uni 1 o.a], chunk := .own })
    (fun e s g =>
      let p := e.uni .w64 o.a
      if 32 ≤ p then .trap s (Trap.plain cIllegalEncoding)
      else
        match (s.part p).st, o.d with
        | .halted, .s d => .ok (s.setPart p { s.part p with st := .swapping }) g (e.allTo e.nextPc (.stall (.swap p d)))
        | _, _ => .ok s (g.mapCore (fun c => c.putS o.d 1)) e.through) s

/-- Exchange the live and shadow accumulator banks of some quads. -/
def swapBanks (quads : Nat → Bool) (a b : Sparse AccTile) : Sparse AccTile :=
  (b.filter (fun x => quads (x.1 / 64))).foldl (fun m x => spPut AccTile.zero x.1 x.2 m) (a.filter (fun x => !quads (x.1 / 64)))

/-- The exchange of a partition's images, and HALTED. -/
def State.swapPart (s : State) (p : Nat) : State :=
  let x := s.part p
  let mine (q : Nat) : Bool := x.blk.getLsbD (q / 8)
  let s := { s with crews := mapIf (fun c => mine (quadOf c.coreIx)) (fun c => { c with live := !c.live }) s.crews,
                    accLive := swapBanks mine s.accLive s.accShad, accShad := swapBanks mine s.accShad s.accLive }
  (s.setPart p { x with st := .halted, live := x.shad, shad := x.live, puev := x.puevShad, puevShad := x.puev }).saveRecords

/-! ## Accumulator handover (R328 to R330) -/

/-- The quad and tile of a selector; none where another bit is set. -/
def selTile (a : Nat) : Option (Nat × Nat) :=
  if bitsAt a 6 2 = 0 ∧ bitsAt a 14 2 = 0 ∧ a < 2 ^ 18 then some (bitsAt a 16 2 * 64 + bitsAt a 8 6, bitsAt a 0 6) else none

/-- Where each page of a spill area lies, as the cox core's access finds it. -/
def spillPages (e : Env) (s : State) (k : AccKind) (b : Nat) : Except Trap (Loc × Loc) × State :=
  let acc := if k = .load then accRead else accWrite
  if !canonical b then (.error (Trap.atAddr cPermission b 0 acc), s)
  else if b % 4096 ≠ 0 then (.error (Trap.atAddr cAlignment b 0 acc), s)
  else
    match s.xlat e.ctx e.sup k .lane b with
    | (.error c, s) => (.error (Trap.atAddr c b 0 acc), s)
    | (.ok l, s) =>
      let b2 := (b + 4096) % 2 ^ 64
      if !canonical b2 then (.error (Trap.atAddr cPermission b2 0 acc), s)
      else
        match s.xlat e.ctx e.sup k .lane b2 with
        | (.error c, s) => (.error (Trap.atAddr c b2 0 acc), s)
        | (.ok l2, s) => (.ok (l, l2), s)

/-- Pages and lines of a spill area enter the chunk. -/
def spillNote (l l2 : Loc) (wr : Bool) (c : Chunk) : Chunk :=
  let ls := (List.range 64).map (fun i => (l.ent, Line.glob (l.la / 64 + i))) ++ (List.range 4).map (fun i => (l2.ent, Line.glob (l2.la / 64 + i)))
  ls.foldl (fun c x => let c := if wr then c.addW x.2 else c.addR x.2; { c with pages := addNew x c.pages }) c

/-- The pending epilogue of a tile of the live bank: the tile carries the mark, and its owner's request waits (R297, R384). -/
def State.pendingOf (s : State) (q t : Nat) : Option Req :=
  let x := s.acc q t
  if x.pending then s.reqs.find? (fun r => r.quad == q && r.kind.tileNo == some t && r.pending && r.ctx == x.owner) else none

/-- ECREW of a crew (Table 14.15). -/
def ecrewOf (c : Crew) : Nat := c.base + coreCore c.coreIx * 2 ^ 24 + coreQuad c.coreIx * 2 ^ 26 + coreDie c.coreIx * 2 ^ 32

/-- The 4,352 bytes of a spill area. -/
def spillBytes (s : State) (q t : Nat) : List Byte :=
  let x := s.acc q t
  let vals := (List.range 1024).flatMap (fun i => bytesLE 4 (x.cell i).data.toNat)
  let pb := bytesLE 128 (x.pois.foldl (fun n i => n ||| 2 ^ i) 0)
  let epi : List Byte := match s.pendingOf q t with
    | some r =>
      (match r.kind with
       | .epi _ o a b bias w0 eng =>
         bytesLE 2 1 ++ bytesLE 4 0 ++ bytesLE 8 w0 ++ bytesLE 8 eng ++ bytesLE 8 a ++ bytesLE 8 b ++ bytesLE 8 (bias.getD 0) ++
           bytesLE 8 (if o.crew then (match s.crew? r.crew with | some c => ecrewOf c | none => 0) else 0)
       | _ => List.replicate 54 0)
    | none => List.replicate 54 0
  vals ++ pb ++ bytesLE 2 x.owner ++ epi ++ List.replicate 72 0

/-- Hold bytes as the chunk's global stores. -/
def Chunk.holdBytes (c : Chunk) (la : Nat) (bs : List Byte) : Chunk :=
  { c with gst := ((rangeFrom la bs.length).zip bs).foldl (fun m x => spSet x.1 x.2 m) c.gst }

/-- The tile passes to its new owner: a pending epilogue has been taken into the area, or is discarded. -/
def State.handOver (s : State) (q t owner : Nat) (discard : Bool) : State :=
  let s := match s.pendingOf q t with
    | some r => if discard then s.retireReq r else s.putReq { r with st := .spilled }
    | none => s
  s.mapAcc q t (fun x => { x with owner := owner, pending := false })

def execAccspill (o : GABC) (s : State) : Host.Outcome State Fault Refusal :=
  issue 8 o.g (fun _ => { guard := o.g, priv := true, uses := [.uni 1 o.a, .uni 2 o.b, .uni 3 o.c], chunk := .own })
    (fun e s g =>
      let owner := e.uni .w64 o.c
      match selTile (e.uni .w64 o.a) with
      | none => .trap s (Trap.plain cIllegalEncoding)
      | some (q, t) =>
        if 4096 ≤ owner then .trap s (Trap.plain cIllegalEncoding)
        else if o.b = .spec .zero then
          if s.tileQuiet q t then .ok (s.handOver q t owner true) g e.through else .stall s (.tile q t)
        else
          let b := e.uni .w64 o.b
          match spillPages e s .store b with
          | (.error x, s) => .trap s x
          | (.ok (l, l2), s) =>
            if !s.tileQuiet q t then .stall s (.tile q t)
            else
              let bs := spillBytes s q t
              .ok (s.handOver q t owner false)
                (g.mapChunk (fun c => ((spillNote l l2 true c).holdBytes l.la (bs.take 4096)).holdBytes l2.la (bs.drop 4096))) e.through) s

/-- What a spill area describes as a pending epilogue. -/
def epiOf (ew0 eeng : Nat) : Option AccEpiOps :=
  match decode (bytesLE 8 ew0 ++ bytesLE 8 eeng) with
  | .ok (.accEpi o, _) => some o
  | _ => none

/-- The operands of a replayed epilogue: C names a bias unless it is %zero. -/
def epiKind (t : Nat) (o : AccEpiOps) (a b c w0 eng : Nat) : ReqKind :=
  .epi t o a b (match o.c with | .spec .zero => none | _ => some c) w0 eng

/-- The epilogue of a filled tile waits again, as the request it was, or as a new one where that request is not known. -/
def State.replay (s : State) (q t ctx ecrew : Nat) (o : AccEpiOps) (k : ReqKind) (insn : List Byte) : State :=
  let crewOf : Option Crew := s.crews.find? (fun c => c.ctx == ctx && ecrewOf c == ecrew)
  match s.reqs.find? (fun r => r.st == .spilled && r.quad == q && r.ctx == ctx && r.kind.tileNo == some t) with
  | some r =>
    let crew := if o.crew then (match crewOf with | some c => c.id | none => r.crew) else r.crew
    (s.putReq { r with kind := k, crew := crew, st := .pageWait (2 ^ 64), done := [], bias := [], pages := [] }).addDue (.pageWaitRetry r.id)
  | none =>
    let r : Req :=
      { id := s.nextId, gang := 2 ^ 64, crew := (match crewOf with | some c => c.id | none => 2 ^ 64), ctx := ctx, quad := q, prio := 0, kind := k,
        st := .pageWait (2 ^ 64), done := [], bias := [], data := [], pages := [], passed := 0, insn := insn, corrupt := false }
    State.addDue { s with reqs := s.reqs ++ [r], nextId := s.nextId + 1 } (.pageWaitRetry s.nextId)

def execAccfill (o : GAB) (s : State) : Host.Outcome State Fault Refusal :=
  issue 8 o.g (fun _ => { guard := o.g, priv := true, uses := [.uni 1 o.a, .uni 2 o.b], chunk := .own })
    (fun e s g =>
      match selTile (e.uni .w64 o.a) with
      | none => .trap s (Trap.plain cIllegalEncoding)
      | some (q, t) =>
        let b := e.uni .w64 o.b
        match spillPages e s .load b with
        | (.error x, s) => .trap s x
        | (.ok (l, l2), s) =>
          let la := l.la
          let la2 := l2.la
          if !s.tileQuiet q t then .stall s (.tile q t)
          else if (List.range 4).any (fun i => s.linePoisoned (la2 + 64 * i)) then .trap s (Trap.atAddr cUncorrectable (b + 4096) 0 accRead)
          else
            let rd (off n : Nat) : Nat := s.loadNat (la2 + off - 4096) n
            let owner := rd 4224 2
            let efl := rd 4226 2
            let epi := epiOf (rd 4232 8) (rd 4240 8)
            let ecrew := rd 4272 8
            let crewSide : Bool := match epi with | some x => x.crew | none => false
            if 4096 ≤ owner || 2 ≤ efl || rd 4228 4 != 0 || 2 ^ 34 ≤ ecrew || rd 4280 72 != 0 ||
                (efl == 1 && (epi.isNone || (crewSide && q != bitsAt ecrew 32 2 * 64 + bitsAt ecrew 26 6)))
            then .trap s (Trap.plain cIllegalEncoding)
            else
              let vals := (List.range 1024).foldl (fun m i => spPut 0 i (BitVec.ofNat 32 (s.loadNat (la + 4 * i) 4)) m) []
              let pb := rd 4096 128
              let pois := (List.range 1024).filter (fun i => pb.testBit i || s.linePoisoned (la + 4 * i))
              let s := s.setAcc q t ⟨vals, pois, owner, efl == 1⟩
              let s := match epi with
                | some x =>
                  if efl = 1 && s.quadPresent q then
                    s.replay q t owner ecrew x (epiKind t x (rd 4248 8) (rd 4256 8) (rd 4264 8) (rd 4232 8) (rd 4240 8)) (bytesLE 8 (rd 4232 8) ++ bytesLE 8 (rd 4240 8))
                  else s
                | none => s
              .ok s (g.mapChunk (spillNote l l2 false)) e.through) s

/-! ## The ends of stalls (R347, R326, R327) -/

def State.releaseStall (s : State) (gid lead : Nat) : State :=
  match s.gang? gid with
  | none => s
  | some g =>
    match g.sub? lead with
    | none => s
    | some x =>
      match x.wait with
      | .stall w =>
        if !s.stallOver g x w then
          (if g.endsFor w then s.putGang { g with chunk := g.chunk.map (fun c => { c with closed := true }) } else s)
        else
          (match w with
           | .halted p _ => s.endHalts p
           | .swap p d => (((s.swapPart p).mapGang gid (fun g => g.mapCore (fun c => c.setSreg d.val 0))).endStall gid lead w).endHalts p
           | w => s.endStall gid lead w)
      | _ => s

def execStallRelease (gang : Nat) (lead : Lane) (s : State) : Host.Outcome State Fault Refusal :=
  event (fun s => s.releaseStall gang lead.val) s

end Sys2Proof.Machine
end

