-- ==== Sys2Proof/Machine/Ticks.lean ====
section
/-! DEFINITION. The retention tick and what it brings (R62 to R69, R234, R374), the entry of fault records (R371, R372), errors of cells (R369), traffic of the pod transport that arrives here (R402). -/

namespace Sys2Proof.Machine

/-! ## Expiry (R63, R64) -/

/-- Whether a gang holds a register whose expiry tick has come. -/
def GangCore.regsOver (c : GangCore) (code tick : Nat) : Bool :=
  code % 8 != 0 && ((c.regFill.st != .poison && c.regFill.exp == tick) || c.regs.any (fun r => r.2.st != .poison && r.2.exp == tick))

/-- The allocation units whose expiry tick is the present one. -/
def State.expiringUnits (s : State) : List AllocUnit :=
  (s.gangs.filter (fun g => g.core.regsOver (s.regCode g) s.tick)).map (fun g => .regs g.id) ++
  s.gangs.flatMap (fun g =>
    if s.thrCode g % 8 = 0 then [] else (g.core.spaces.filter (fun a => a.exp == s.tick)).map (fun a => .thr g.id (toLane a.lane))) ++
  s.crews.flatMap (fun c =>
    (c.freed.filter (fun f => f.block.code % 8 != 0 && f.block.exp == s.tick)).map (fun f => .block c.id f.block.start) ++
    (c.allocs.zip (List.range c.allocs.length)).filterMap (fun a =>
      if a.1.code % 8 != 0 && a.1.exp == s.tick then some (if a.2 = 0 then .static c.id else .block c.id a.1.start) else none))

/-- An allocation at the present tick: lapsed when its own has come. -/
def Alloc.atTick (a : Alloc) (tick : Nat) : Alloc := if isOver a.code a.exp tick then a.expire else a

/-- Every value of a unit whose tick has come becomes POISON or EXPIRED at once; a freed block still in use lapses like a live one (R256). -/
def State.expireUnit (s : State) (u : AllocUnit) : State :=
  match u with
  | .regs gid => s.mapGang gid (fun g => g.mapCore (fun c => c.expireRegs (s.regCode g) s.tick))
  | .thr gid l => s.mapGang gid (fun g => g.mapCore (fun c =>
      { c with spaces := mapIf (fun a => a.lane == l.val && isOver (s.thrCode g) a.exp s.tick) (fun a => a.expire (s.thrCode g)) c.spaces }))
  | .static cid => s.mapCrew cid (fun c => { c with allocs := match c.allocs with
      | a :: r => a.atTick s.tick :: r
      | [] => [] })
  | .block cid st => s.mapCrew cid (fun c =>
      { c with allocs := (match c.allocs with
                 | a :: r => a :: mapIf (fun b => b.start == st) (fun b => b.atTick s.tick) r
                 | [] => []),
               freed := mapIf (fun f => f.block.start == st) (fun f => { f with block := f.block.atTick s.tick }) c.freed })

def execAllocationExpiry (u : AllocUnit) (s : State) : Host.Outcome State Fault Refusal := event (fun s => s.expireUnit u) s

/-! ## The PMC's records (R413, Table 20.5) -/

/-- `n` bytes with fields given by offset, size and value; every other byte is zero. -/
def fieldBytes (n : Nat) (fields : List (Nat × Nat × Nat)) : List Byte :=
  (List.range n).map (fun i =>
    match fields.find? (fun f => f.1 ≤ i && i < f.1 + f.2.1) with
    | some f => BitVec.ofNat 8 (f.2.2 / 256 ^ (i - f.1))
    | none => 0)

/-- The record of a die. -/
def State.dieRecord (s : State) (d : Nat) : List Byte :=
  let x := s.diePower d
  fieldBytes 32 [(0, 2, x.clk), (2, 2, x.refr), (4, 4, x.qlim), (8, 4, x.dlim), (12, 4, x.wcrew), (16, 4, s.thrsnOf d)]

def devBase : Nat := 0x1000

def State.setDie (s : State) (d : Nat) (f : DiePower → DiePower) : State := { s with dies := setAt d (f (s.diePower d)) s.dies }

/-- Write one record that has changed, as one piece; the piece waits for the token's holder (R116, R413). -/
def State.writeRecord (s : State) (d : Nat) : State :=
  if !(s.diePower d).dirty || s.phase != .running then s
  else
    let la := devBase + 272 + 32 * d
    let ls := addNew (Line.glob (lineOf (la + 31))) [Line.glob (lineOf la)]
    if s.holderHit none ls [] then s
    else ((s.pieceSquash ls).store la (s.dieRecord d)).setDie d (fun x => { x with dirty := false })

def State.writeRecords (s : State) : State := (List.range 4).foldl State.writeRecord s

/-! ## The tick -/

/-- Slots whose timer's deadline is the present tick. -/
def State.dueTimers (s : State) : List (Nat × Nat) :=
  s.gangs.flatMap (fun g => (List.range 16).filterMap (fun j =>
    match g.core.binds.getD j none with
    | some b => (match b.src with | .timer t => if t = s.tick then some (g.id, j) else none | _ => none)
    | none => none))

/-- Commands, requests and queues that wait for a page. -/
def State.pageWaiters (s : State) : List Nat :=
  (s.cmds.filter (fun c => c.waitVa.isSome)).map (·.id) ++
  (s.reqs.filter (fun r => match r.st with | .pageWait _ => true | _ => false)).map (·.id) ++
  (List.range 64).filter (fun q => match (s.queue q).head with | .page _ => true | _ => false)

def HubJob.waits : HubJob → Bool | .decrement _ _ w => w | .enqueue .. => false

/-- Bands of the second counters of Table 20.9. -/
def refrBand (r : Nat) : Nat := if 1000 ≤ r then 0 else if r = 500 then 1 else 2
def tempBand (t : Nat) : Nat := if t < 40 then 0 else if 125 ≤ t then 18 else (t - 40) / 5 + 1

/-- Once a second the PMC counts each die's refresh interval and temperature band. -/
def State.secondCounts (s : State) : State :=
  (List.range 4).foldl (fun s d => (s.count (ctrRefr d (refrBand (s.diePower d).refr)) 1).count (ctrTemp d (tempBand (s.diePower d).temp)) 1) s

/-- The retention tick count rises by one; what falls due at the new count follows. -/
def State.tickUp (s : State) : State :=
  let s : State := { s with tick := (s.tick + 1) % 2 ^ 64 }
  let s := s.writeRecords
  let s := if s.tick % 10 ^ 6 = 0 then s.secondCounts else s
  let hub := (List.range s.hub.length).filter (fun i => match s.hub[i]? with | some j => j.waits | none => false)
  { s with due := s.due ++ s.expiringUnits.map .allocationExpiry ++ s.dueTimers.map (fun t => .timerExpiry t.1 (Fin.ofNat 16 t.2)) ++
      s.pageWaiters.map .pageWaitRetry ++ (if s.fq.waiting.isEmpty then [] else [.faultRecordEntry]) ++ hub.reverse.map .joinBlockDecrement ++
      (match s.migration with | some m => if m.st == .asked then [] else [.migrationTimeout] | none => []) ++
      (s.givingUp.take 1).map (fun x => .migrationOwnerRelease x.req) ++
      (if s.tick % (60 * 10 ^ 6) = 0 then [.counterStoreWrite] else []) }

def execRetentionTick (s : State) : Host.Outcome State Fault Refusal := event State.tickUp s

/-- The lifetime counters go to the non-volatile store (R418). -/
def execCounterStoreWrite (s : State) : Host.Outcome State Fault Refusal := event (fun s => { s with countsNv := s.counts }) s

/-- A refresh changes no value, expiry tick or result (R69). -/
def execOperandStoreRefresh (_ : Fin 4) (s : State) : Host.Outcome State Fault Refusal := .next s

/-- A bank refresh delays accesses and changes no value (R395). -/
def execHbmRefresh (_ : Fin 8) (_ : Nat) (s : State) : Host.Outcome State Fault Refusal := .next s

/-! ## Waits for pages (R374) -/

/-- A walk of a waiting page no longer ends in PAGE_NOT_PRESENT. -/
def State.pageEnds (s : State) (ctx va : Nat) : Bool := match walk s ctx va with | .error c => c != cPageNotPresent | .ok _ => true

def State.retryCmd (s : State) (c : Cmd) (va : Nat) : State :=
  if s.cmdRuns c && s.pageEnds c.ctx va then
    let s := s.putCmd { c with waitVa := none }
    if s.cmdComplete c then s.addDue (.commandCompletion c.id) else s
  else s

def State.retryQueue (s : State) (q : Nat) : State :=
  match (s.queue q).head with
  | .page va => if s.ctxRuns (s.headCtx q) && s.pageEnds (s.headCtx q) va then s.setQueue q { s.queue q with head := .served } else s
  | _ => s

def State.retryPage (s : State) (id : Nat) : State :=
  if id < 64 then s.retryQueue id
  else
    match s.cmd? id, s.req? id with
    | some c, _ => (match c.waitVa with | some va => s.retryCmd c va | none => s)
    | none, some r => s.retryReq r
    | none, none => s

def execPageWaitRetry (id : Nat) (s : State) : Host.Outcome State Fault Refusal := event (fun s => s.retryPage id) s

/-! ## The fault queue (R371, R372) -/

/-- The index distance of FQTAIL from FQHEAD has reached the capacity. -/
def FaultQueue.full (q : FaultQueue) : Bool := 2 ^ q.cap.toNat ≤ (q.tail - q.head).toNat

/-- Where the next record goes. -/
def FaultQueue.place (q : FaultQueue) : Nat := (q.base.toNat + 128 * (q.tail.toNat % 2 ^ q.cap.toNat)) % 2 ^ 64

/-- FQSEM is signalled without a grant check when its name has SPACE 1 (R310). -/
def State.signalName (s : State) (name : Nat) : State := if semSpace name = 1 then s.semSignal (semIndex name) 1 else s

/-- A record as it is entered: TICK of the kinds of Table 17.3 is the tick count at entry, a gang trap's that of its trap. -/
def stampTick (tick : Nat) (r : List Byte) : List Byte :=
  if r.getD 1 0 == 1 then r else r.take 88 ++ bytesLE 8 tick ++ r.drop 96

/-- Enter the oldest waiting record, if the queue is configured and not full and its place can be written. -/
def State.enterRecord (s : State) : State :=
  match s.fq.waiting with
  | [] => s
  | (tag, bytes) :: rest =>
    if !s.fq.configured || s.fq.full then s
    else
      match engXlat s ⟨0, true, none⟩ .store .engine s.fq.place with
      | (.error _, s) => s
      | (.ok l, s) =>
        let ls := [Line.glob (lineOf l.la), Line.glob (lineOf l.la + 1)]
        if s.holderHit none ls [] then s
        else
          let bytes := stampTick s.tick bytes
          let s := ((s.pieceSquash ls).storePiece l.la (bytes.take 64)).storePiece (l.la + 64) (bytes.drop 64)
          let s := { s with fq := { s.fq with tail := s.fq.tail + 1, waiting := rest } }
          let s := s.signalName s.fq.sem.toNat
          if tag = 0 then s else s.addDue (.crewRelease (tag - 1))

def execFaultRecordEntry (s : State) : Host.Outcome State Fault Refusal := event State.enterRecord s

/-! ## Errors (R369, Table 17.2) -/

/-- The data bits of a value with an uncorrectable error: as read, which nothing fixes (log entry 5). -/
def State.badBits (s : State) : Word32 × State := (BitVec.ofNat 32 (Config.choice s.freeCtr), { s with freeCtr := s.freeCtr + 1 })

/-- The counters of Table 20.9 that a corrected error can belong to (log entry 80): for a value, code byte, record or engine state of a die, one of its five tiers, which layout no rule gives; for the hub's own, a tier of any die; for a line, its stack; for a copy of the remote-data cache, one of the die's two stacks. A value that no gang or crew of the package has is counted nowhere. -/
def State.correctedAt (s : State) (x : ErrorSite) : List (Option Nat) :=
  let tiers (d : Nat) : List (Option Nat) := (List.range 5).map (fun k => some (ctrCorrected d k))
  let gangDie (g : Nat) : Option Nat := (s.gang? g).bind (fun g => if g.isCox then none else some (s.dieOf g))
  let other (d : Option Nat) : List (Option Nat) := match d with | some d => tiers d | none => (List.range 4).flatMap tiers
  match x with
  | .reg g _ _ | .thrWord g _ _ => (match gangDie g with | some d => tiers d | none => [none])
  | .crewWord c _ | .tileWord c _ _ => (match s.crew? c with | some c => tiers (coreDie c.coreIx) | none => [none])
  | .line la => [some (ctrCorrectedStack (la / 2 ^ 36 % 8))]
  | .remoteCopy d _ => [some (ctrCorrectedStack (2 * d.val)), some (ctrCorrectedStack (2 * d.val + 1))]
  | .accValue q _ _ _ => other (some (q / 64))
  | .codeBytes q _ => other (if q < 256 then some (q / 64) else none)
  | .loopBytes g _ => other (gangDie g)
  | .gangRecord g => other (gangDie g)
  | .crewRecord c => other ((s.crew? c).map (fun c => coreDie c.coreIx))
  | .command c => other ((s.cmd? c).map (·.die))
  | .request r => other ((s.req? r).map (fun r => r.quad / 64))

/-- The counters of uncorrectable errors: a die's operand store, a stack; the rest of Table 17.2 has none. -/
def State.uncorrectableAt (s : State) (x : ErrorSite) : List (Option Nat) :=
  match x with
  | .reg g _ _ | .thrWord g _ _ => (match s.gang? g with | some g => [if g.isCox then none else some (ctrUncorrDie (s.dieOf g))] | none => [])
  | .crewWord c _ | .tileWord c _ _ => (match s.crew? c with | some c => [some (ctrUncorrDie (coreDie c.coreIx))] | none => [])
  | .line la => [some (ctrUncorrStack (la / 2 ^ 36 % 8))]
  | .remoteCopy d _ => [some (ctrUncorrStack (2 * d.val)), some (ctrUncorrStack (2 * d.val + 1))]
  | _ => []

/-- An error is counted in one of its counters. -/
def State.countError (s : State) (x : ErrorSite) (corrected : Bool) : State :=
  let l := if corrected then s.correctedAt x else s.uncorrectableAt x
  let c := s.choose l.length
  match l.getD c.1 none with
  | some k => c.2.count k 1
  | none => c.2

/-- A fixed record of a gang is struck: of the live image of a live context, or a saved one (Table 17.2, R77). -/
def State.strikeRecord (s : State) (g : Gang) : Gang := { g with record := if s.recordLive g then .live else .saved }

/-- A word of a run of bytes. -/
def putWord (m : Sparse Byte) (w : Nat) (x : Word32) : Sparse Byte :=
  ((rangeFrom (4 * w) 4).zip (bytesLE 4 x.toNat)).foldl (fun m p => spPut 0 p.1 p.2 m) m

/-- An uncorrectable word of a tile register: elements, then scales. -/
def TileReg.strike (t : TileReg) (w : Nat) (x : Word32) : TileReg :=
  if w < 512 then { t with elems := putWord t.elems w x, epois := setAdd w t.epois }
  else if w < 608 then { t with scales := putWord t.scales (w - 512) x, spois := setAdd (w - 512) t.spois }
  else t

/-- An uncorrectable accumulator value. -/
def AccTile.strike (t : AccTile) (i : Nat) (x : Word32) : AccTile :=
  if i < 1024 then { t with vals := spPut 0 i x t.vals, pois := setAdd i t.pois } else t

/-- An uncorrectable word of a run of crew bytes. -/
def Alloc.strike (x : Alloc) (a : Nat) (b : Word32) : Alloc := { x with cells := spPut x.fill (a / 4) ⟨b, .poison⟩ x.cells }

/-- Change a tile of the live or of the shadow bank; a fused-off quad has none (R414). -/
def State.mapBank (s : State) (shadow : Bool) (quad t : Nat) (f : AccTile → AccTile) : State :=
  if !shadow then s.mapAcc quad t f
  else if s.quadPresent quad then { s with accShad := spPut AccTile.zero (accKey quad t) (f (spGet AccTile.zero s.accShad (accKey quad t))) s.accShad } else s

/-- The loop buffer of a gang has lost the block at an address, and with it go the cached copies of that block, so that it is fetched again from memory (Table 17.2). -/
def State.dropLoop (s : State) (g : Gang) (va : Nat) : State :=
  let l := g.lbuf.filter (fun b => b.va == va - va % 32)
  let code := s.code.filter (fun b => !(b.quad == s.codeQuad g && l.any (fun x => x.la == b.la)))
  ({ s with code := code } : State).putGang { g with lbuf := g.lbuf.filter (fun b => b.va != va - va % 32) }

/-- What an uncorrectable error leaves: a value becomes POISON, with the data bits that are read; those of a register that was dead are free then too (the model's choice, log entry 63: Table 3.6 names no priority of its rows). -/
def State.strikeError (s : State) (x : ErrorSite) : State :=
  match x with
  | .reg gid l r =>
    let b := s.badBits
    b.2.mapGang gid (fun g => g.mapBoth (fun c => c.setReg r l.val ⟨b.1, .poison, (c.reg r l.val).exp⟩))
  | .thrWord gid l a =>
    let b := s.badBits
    b.2.mapGang gid (fun g => g.mapBoth (fun c => { c with spaces := mapIf (fun x => x.lane == l.val) (fun x =>
      { x with cells := spPut x.fill (a / 4) ⟨b.1, .poison⟩ x.cells }) c.spaces }))
  | .crewWord cid a =>
    let b := s.badBits
    b.2.mapCrew cid (fun c => { c with
      allocs := mapIf (fun x => x.holds a 1) (fun x => x.strike a b.1) c.allocs,
      freed := mapIf (fun f => f.block.holds a 1) (fun f => { f with block := f.block.strike a b.1 }) c.freed })
  | .tileWord cid m w =>
    let b := s.badBits
    b.2.mapTile cid m.val (fun t => t.strike w b.1)
  | .accValue q t i sh =>
    let b := s.badBits
    b.2.mapBank sh q t.val (fun x => x.strike i b.1)
  | .line la => s.poisonLine la
  | .remoteCopy .. => s
  | .codeBytes q b => { s with code := s.code.filter (fun x => !(x.quad == q && x.la == b)) }
  | .loopBytes gid va => (match s.gang? gid with | some g => s.dropLoop g va | none => s)
  | .gangRecord gid => s.mapGang gid s.strikeRecord
  | .crewRecord cid => { s with gangs := mapIf (fun g => g.crew == some cid) s.strikeRecord s.gangs }
  | .command c => (match s.cmd? c with | some x => s.putCmd { x with corrupt := true } | none => s)
  | .request r => (match s.req? r with | some x => s.putReq { x with corrupt := true } | none => s)

def execSoftError (x : SoftErrorArg) (s : State) : Host.Outcome State Fault Refusal :=
  event (fun s => let s := s.countError x.site x.corrected; if x.corrected then s else s.strikeError x.site) s

/-! ## From the pod transport (R402) -/

/-- A signal is applied if the semaphore's grant accepts the sending context's pod signals, else discarded and counted at the port it came by, which the transport chooses (log entry 5). -/
def State.podSignal (s : State) (x : PodSignal) : State :=
  let n := semIndex x.name.toNat
  let g := s.grant (semKey n)
  if g.v && g.pod && g.owner == x.ctx then s.semSignal n x.amount.toNat
  else
    let k := s.choose 12
    { k.2 with discarded := setAt k.1 (k.2.discarded.getD k.1 0 + 1) k.2.discarded }

def execPodSignalReceive (x : PodSignal) (s : State) : Host.Outcome State Fault Refusal := event (fun s => s.podSignal x) s

def execPodBarrierArrivalReceive (x : PodArrival) (s : State) : Host.Outcome State Fault Refusal := event (fun s => s.joinPod x) s

/-- A link of a scale-out port goes down or comes up: only the paths of the pod transport change. -/
def execScaleOutLinkChange (port : Fin 12) (up : Bool) (s : State) : Host.Outcome State Fault Refusal :=
  event (fun s => { s with portUp := setAt port.val up s.portUp }) s

end Sys2Proof.Machine
end

