-- ==== Sys2Proof/Machine/Power.lean ====
section
/-! DEFINITION. Reset and boot (R407 to R411), the device information block (R413), supply, temperature and power (R415 to R418). -/

namespace Sys2Proof.Machine

/-! ## The device information block (R413, Table 20.5) -/

def State.devBlock (s : State) (fwver : Nat) : List Byte :=
  fieldBytes 272
    ([(0, 2, 1), (2, 2, bitIf s.updfail 0), (4, 4, s.pkg.toNat), (52, 1, s.fuses.bridge), (60, 4, fwver),
      (64, 16, ofBytesLE (s.fuses.order.take 16))] ++
     (List.range 4).flatMap (fun d => [(8 + 8 * d, 8, (s.fuses.qpres.getD d 0).toNat), (40 + 2 * d, 2, s.fuses.dclk.getD d 850),
      (48 + d, 1, s.rclsOf d), (56 + d, 1, s.fuses.ceng.getD d 24)])) ++
  (List.range 4).flatMap s.dieRecord ++ List.replicate 112 0

/-! ## The PMC -/

/-- Whether a bit other than FUSED has risen on some die. -/
def risen (old new : State) : Bool :=
  (List.range 4).any (fun d => (List.range 5).any (fun k => (new.thrsnOf d).testBit k && !(old.thrsnOf d).testBit k))

/-- What follows a change of the PMC's figures: the records, then the throttle event (R417). -/
def State.pmc (old new : State) : State :=
  let s := (List.range 4).foldl (fun s d => if s.dieRecord d != old.dieRecord d then s.setDie d (fun x => { x with dirty := true }) else s) new
  let s := s.writeRecords
  if risen old new then s.signalName (s.loadNat (devBase + 256) 4) else s

/-- The clock under the steps that hold it down. -/
def State.setClk (s : State) (d : Nat) : State :=
  s.setDie d (fun x => { x with clk := s.fuses.dclk.getD d 850 - 25 * (x.tsteps + x.psteps) })

def execSupplySag (die : Fin 4) (s : State) : Host.Outcome State Fault Refusal :=
  event (fun s =>
    if (s.diePower die.val).sag then s
    else s.pmc ((s.setDie die.val (fun x => { x with sag := true })).count (ctrSag die.val) 1)) s

def execSagRecovery (die : Fin 4) (s : State) : Host.Outcome State Fault Refusal :=
  event (fun s => s.pmc (s.setDie die.val (fun x => { x with sag := false }))) s

/-- The rows of Table 20.7 for one die's hottest junction; how many steps of 25 MHz a hot die gives up is not fixed. -/
def State.heat (s : State) (d t : Nat) : State :=
  let n := min 5 ((t - 95) / 2)
  let most := (s.fuses.dclk.getD d 850 - 425) / 25
  let k := s.choose most
  let steps := if 105 < t ∧ 0 < most then k.1 + 1 else 0
  (k.2.setDie d (fun x =>
    { x with temp := t, qlim := 1200 * (10 - n), dlim := 64000 * (10 - n), wcrew := 4000,
             refr := min (if 105 < t then 500 else 1000) (s.refCeilOf d), tsteps := steps })).setClk d

def execTemperatureChange (die : Fin 4) (celsius : Nat) (s : State) : Host.Outcome State Fault Refusal :=
  event (fun s =>
    let s1 := s.pmc (s.heat die.val celsius)
    if 125 < celsius then s1.addDue (.thermalTrip die) else s1) s

/-- Every die gives up some steps while the package draws more than 2,400 W, and none afterwards. -/
def State.limitPower (s : State) (watts : Nat) : State :=
  if 2400 < watts then
    (List.range 4).foldl (fun s d =>
      let k := s.choose ((s.diePower d).clk / 25)
      ((k.2.setDie d (fun x => { x with psteps := x.psteps + (if 25 ≤ x.clk then k.1 + 1 else 0) })).setClk d))
      { s with powerLimited := true }
  else (List.range 4).foldl (fun s d => (s.setDie d (fun x => { x with psteps := 0 })).setClk d) { s with powerLimited := false }

def execPackagePowerLimit (watts : Nat) (s : State) : Host.Outcome State Fault Refusal :=
  event (fun s => s.pmc (s.limitPower watts)) s

/-! ## The firmware image (R410, Table 20.3) -/

def flashField (img : List Byte) (off n : Nat) : Nat := ofBytesLE ((img.drop off).take n)
def imageLen (img : List Byte) : Nat := flashField img 8 8
def imageEntry (img : List Byte) : Nat := flashField img 16 8
def zeroRun (img : List Byte) (off n : Nat) : Bool := ((img.drop off).take n).all (· == 0)
def imageBody (img : List Byte) : List Byte := (img.drop 512).take (imageLen img)

/-- The checks of R410. -/
def imageOk (keyHash img : List Byte) : Bool :=
  let len := imageLen img
  let key := (img.drop 128).take 97
  decide (512 ≤ img.length) && flashField img 0 4 == 0x57464C4E && zeroRun img 24 104 && zeroRun img 225 31 && zeroRun img 352 160 &&
  decide (4096 ≤ len) && decide (len ≤ 16777216) && len % 4096 == 0 && decide (512 + len ≤ img.length) &&
  imageEntry img % 32 == 0 && decide (imageEntry img < len) && sha384 key == keyHash && key.headD 0 == 4 &&
  ecdsaOk (ofBytesBE ((key.drop 1).take 48)) (ofBytesBE ((key.drop 49).take 48)) (ofBytesBE ((img.drop 256).take 48))
    (ofBytesBE ((img.drop 304).take 48)) (sha384 (img.take 256 ++ imageBody img))

/-! ## Boot (R408, R409) -/

def bodyBase : Nat := 0x1000000
def stageBase : Nat := 0x2000000
def requestAddr : Nat := 0xF00000

/-- Zero a range of memory that starts and ends on a line, check bits included. -/
def State.zeroRange (s : State) (lo hi : Nat) : State :=
  { s with mem := s.mem.filter (fun c => !(lo ≤ c.1 && c.1 < hi)), poisoned := s.poisoned.filter (fun l => !(lo ≤ 64 * l && 64 * l < hi)) }

/-- Overwrite whole lines of memory. -/
def State.fillRange (s : State) (lo : Nat) (bs : List Byte) : State := (s.zeroRange lo (lo + bs.length)).store lo bs

/-- The boot tables: one leaf of 2 MiB for each of the first 32 ranges (Table 20.2). -/
def bootLeaf (i : Nat) : Nat := 2 ^ 61 + i * 2 ^ 21 + 3 + (if 8 ≤ i ∧ i < 16 then 8 else 4)

def State.writeEntry (s : State) (la e : Nat) : State := s.store la (bytesLE 8 e)

def State.bootTables (s : State) : State :=
  let s := s.zeroRange 0x8000 0x14000
  let s := (((s.writeEntry 0x8000 0x10001).writeEntry 0x10000 0x11001).writeEntry 0x11000 0x12001).writeEntry 0x12000 0x13001
  (List.range 32).foldl (fun s i => s.writeEntry (0x13000 + 8 * i) (bootLeaf i)) s

/-- A cox core at its first instruction (step 7). -/
def startCox (entry k : Nat) : Gang :=
  let g := Gang.coxReset k
  { g with core := { g.core with
      subs := [⟨1, BitVec.ofNat 64 (bodyBase + entry), .ready, 0⟩], sregs := spPut 0 1 0x1000 (spPut 0 0 (BitVec.ofNat 64 k) []) } }

/-- A step of Table 20.1 that fails on this part. -/
def State.fails (s : State) (step : Nat) : Bool := s.fuses.broken.contains step

/-- A step that fails sends the part into recovery mode, in which no cox core runs (R408, R412). -/
def State.recover (s : State) : State := { s with phase := .recovery }

/-- Step 3: every die's intervals, by its measured retention (R414) and its present temperature (R416). -/
def State.measure (s : State) : State := (List.range 4).foldl (fun s d => s.heat d (s.diePower d).temp) s

/-- The steps before step 4 that this reset performs, step 3 their last, then the rest. -/
def State.prepare (s : State) (steps : List Nat) (rest : State → State) : State :=
  if steps.any s.fails then s.recover else rest s.measure

/-- Steps 5 to 7: without a good flash image the part comes up in recovery mode. -/
def State.start (s : State) : State :=
  if s.fails 5 || !imageOk s.fuses.keyHash s.flash then s.recover
  else
    let s := s.fillRange bodyBase (imageBody s.flash)
    if s.fails 6 then s.recover
    else
      let v := flashField s.flash 4 4
      let s : State := { s.bootTables.fillRange devBase (s.devBlock v) with ctxtab := 0x8001, fwver := v }
      if s.fails 7 then s.recover
      else { s with phase := .running, gangs := (List.range 24).map (startCox (imageEntry s.flash)),
                    cox := List.replicate 24 { Cox.reset with started := true } }

/-- The epoch after one more reset (R405). -/
def nextEpoch (e : Nat) : Nat := min (e + 1) 0xFFFFFFFF

/-- Every register at its Reset value, no clock above the die's limit; what no reset touches is kept: fuses, flash, the non-volatile store, answers and traffic already sent, the discarded signals, and the model's own counters. -/
def State.cleared (s : State) : State :=
  { State.reset with
    fuses := s.fuses, flash := s.flash, epoch := nextEpoch s.epoch, countsNv := s.countsNv, agenda := s.agenda, freeCtr := s.freeCtr,
    nextId := s.nextId, podOut := s.podOut, answers := s.answers, portUp := s.portUp, discarded := s.discarded,
    dies := (List.range 4).map (fun d => { DiePower.reset with clk := s.fuses.dclk.getD d 850, temp := (s.diePower d).temp, sag := (s.diePower d).sag }) }

/-- Power-on reset and boot (R407, R408). -/
def State.powerOn (s : State) : State := ({ s.cleared with counts := s.countsNv } : State).prepare [1, 2, 3] State.start

def execPowerOnReset (s : State) : Host.Outcome State Fault Refusal := event State.powerOn s

/-- A trip keeps the counters, which do not lose their power (R416). -/
def State.trip (s : State) : State :=
  let c := (s.count ctrTrip 1).counts
  ({ s with countsNv := c }).powerOn

def execThermalTrip (_ : Fin 4) (s : State) : Host.Outcome State Fault Refusal := event State.trip s

/-- What a warm reset clears and keeps (R407); the counters are stored (R418). No command is left, so extents that one was still reading are freed. -/
def State.warmCleared (s : State) : State :=
  { s.cleared with mem := s.mem, poisoned := s.poisoned, deep := s.deep,
                   unitsUsed := sumOf (fun x => x.2.units) s.deep, tick := s.tick, counts := s.counts, countsNv := s.counts }

/-- Step 4 (R411): the staged image is checked, the request word cleared; a valid image is put where the flash write takes it from. -/
def State.takeUpdate (s : State) : State :=
  let asked := s.loadNat requestAddr 8 == 1 && !s.linePoisoned requestAddr
  let s1 := s.store requestAddr (List.replicate 8 0)
  if !asked then s
  else
    let img := memRead s.mem stageBase (512 + imageLen (memRead s.mem stageBase 16))
    if imageLen img ≤ 16777216 && imageOk s.fuses.keyHash img then { s1 with phase := .updating, updateImage := img }
    else { s1 with updfail := true }

/-- The flash write of an update ends; a flash whose read-back fails holds no image (R411). -/
def State.finishUpdate (s : State) : State :=
  { s with flash := if s.fails 4 then [] else s.updateImage, updateImage := [], phase := .booting }

/-- A warm reset. While a valid staged image is being written the step after it ends the update. -/
def State.warm (s : State) : State :=
  match s.phase with
  | .updating => s.finishUpdate.start
  | _ => s.warmCleared.prepare [1, 3] (fun s =>
      let s := s.takeUpdate
      if s.phase == .updating then s else s.start)

def execWarmReset (s : State) : Host.Outcome State Fault Refusal := event State.warm s

/-- Power goes: what is not in a non-volatile store is lost, and a flash write under way leaves no image (R411, R418). -/
def State.powerOff (s : State) : State :=
  { State.reset with
    fuses := s.fuses, flash := (if s.phase == .updating then [] else s.flash), epoch := s.epoch, counts := s.countsNv, countsNv := s.countsNv,
    agenda := s.agenda, freeCtr := s.freeCtr, nextId := s.nextId, podOut := s.podOut, answers := s.answers, portUp := s.portUp,
    dies := s.dies.map (fun d => { DiePower.reset with temp := d.temp }), phase := .off }

def execPowerLoss (s : State) : Host.Outcome State Fault Refusal := event State.powerOff s

end Sys2Proof.Machine
end

