-- ==== Sys2Proof/Machine/Manage.lean ====
section
/-! DEFINITION. The management port (19 R404 to R406) and its operations (20 R412, R413, R418, R419). -/

namespace Sys2Proof.Machine

/-! ## Requests and answers (R404, R405) -/

/-- The header with TAG zero and the payload, as the TAG covers them; header fields are little-endian. -/
def coveredBytes (ver op len seq : Nat) (payload : List Byte) : List Byte :=
  bytesLE 2 ver ++ bytesLE 2 op ++ bytesLE 4 len ++ bytesLE 8 seq ++ List.replicate 16 0 ++ payload

/-- The TAG of a header and its payload. -/
def State.tagOf (s : State) (ver op len seq : Nat) (payload : List Byte) : List Byte :=
  (hmac384 s.fuses.mgmtKey (coveredBytes ver op len seq payload)).take 16

def State.tagOk (s : State) (op : Nat) (x : Datagram) : Bool := x.tag == s.tagOf x.ver op x.len x.seq x.payload

/-- SEQ is acceptable: the present epoch, not the last one, and a number above the last accepted. -/
def State.seqOk (s : State) (x : Datagram) : Bool :=
  s.epoch != 0xFFFFFFFF && x.seq / 2 ^ 32 == s.epoch && decide (s.lastSeq < x.seq % 2 ^ 32)

/-- Whether the port answers: not before a reset has stored its new boot epoch (R405). -/
def State.portAnswers (s : State) : Bool := s.phase != .off && s.phase != .booting

def State.accepted (s : State) (op : Nat) (x : Datagram) : Bool := s.portAnswers && x.ver == 1 && s.tagOk op x && s.seqOk x

/-- A number for each mode, for the answers that name one. -/
def BootPhase.code : BootPhase → Nat | .off => 0 | .booting => 1 | .running => 2 | .recovery => 3 | .updating => 4

/-- The bytes of an answer's payload: its status, then its body, whose layout R419 gives for debug reads, R413 for the device information block, and no rule for the others (log entry 82). -/
def payloadBytes (status : Nat) : MgmtBody → List Byte
  | .none => bytesLE 4 status
  | .info b => bytesLE 4 status ++ b
  | .words w st => bytesLE 4 status ++ w.flatMap (fun x => bytesLE 4 x.toNat) ++ st.map (fun x => BitVec.ofNat 8 x)
  | .ident order pkg fwver mode epoch =>
    bytesLE 4 status ++ Config.answerBytes (order ++ bytesLE 4 pkg ++ bytesLE 4 fwver ++ [BitVec.ofNat 8 mode.code] ++ bytesLE 4 epoch)
  | .ports pkg addrs => bytesLE 4 status ++ Config.answerBytes (bytesLE 4 pkg ++ addrs.flatten)
  | .stats up fec discarded => bytesLE 4 status ++ Config.answerBytes (up.map (fun b => if b then 1 else 0) ++
      fec.flatMap (fun f => bytesLE 8 f.1 ++ bytesLE 8 f.2) ++ discarded.flatMap (bytesLE 8))
  | .counts c => bytesLE 4 status ++ Config.answerBytes (c.flatMap (fun x => bytesLE 4 x.1 ++ bytesLE 8 x.2))

/-- An answer: the request's OP with bit 15 set, its SEQ, a TAG over its own header and payload. -/
def State.reply (s : State) (op : Nat) (x : Datagram) (status : Nat) (body : MgmtBody) : State :=
  let o := op % 2 ^ 15 + 0x8000
  let p := payloadBytes status body
  { s with answers := s.answers ++ [⟨1, o, p.length, x.seq, s.tagOf 1 o p.length x.seq p, status, body⟩] }

/-- A payload that is as long as LEN says, and at most 8,192 bytes. -/
def lenOk (x : Datagram) : Bool := x.len == x.payload.length && decide (x.len ≤ 8192)

/-- An accepted request: its SEQ is noted, a phase that `ok` does not take is refused, a bad length is malformed; `f` does the rest. -/
def mgmt (op : Nat) (ok : BootPhase → Bool) (f : Datagram → State → State) (x : Datagram) (s : State) : Host.Outcome State Fault Refusal :=
  event (fun s =>
    if !s.accepted op x then s
    else
      let s := { s with lastSeq := x.seq % 2 ^ 32 }
      if !ok s.phase then s.reply op x 1 .none
      else if !lenOk x then s.reply op x 2 .none
      else f x s) s

def whenRunning (p : BootPhase) : Bool := p == .running

def payloadNat (x : Datagram) (off n : Nat) : Nat := flashField x.payload off n

/-! ## The operations (Table 19.4) -/

/-- IDENT needs no TAG and no SEQ and answers version 1 in every mode; which firmware version it gives while none runs is open (log entry 5). -/
def execIdent (x : Datagram) (s : State) : Host.Outcome State Fault Refusal :=
  event (fun s =>
    if !s.portAnswers || x.ver != 1 then s
    else
      let v := if s.phase == .running then (s.fwver, s) else (Config.choice s.freeCtr % 2 ^ 32, { s with freeCtr := s.freeCtr + 1 })
      v.2.reply 1 x 0 (.ident s.fuses.order s.pkg.toNat v.1 s.phase s.epoch)) s

/-- The port configuration: an empty payload reads it, 4 bytes of package number and twelve addresses set it. PKG of the device information block follows. -/
def State.portConfig (s : State) (x : Datagram) : State :=
  let n := payloadNat x 0 4
  if x.payload.isEmpty then s.reply 0x10 x 0 (.ports s.pkg.toNat s.portAddrs)
  else if x.payload.length ≠ 196 ∨ 1024 ≤ n then s.reply 0x10 x 2 .none
  else
    let s : State := { s with pkg := BitVec.ofNat 32 n, portAddrs := runs 16 12 (x.payload.drop 4) }
    (s.pieceWrite (devBase + 4) (bytesLE 4 n)).reply 0x10 x 0 (.ports n s.portAddrs)

def execPortcfg (x : Datagram) (s : State) : Host.Outcome State Fault Refusal := mgmt 0x10 whenRunning (fun x s => s.portConfig x) x s

/-- Codeword counts come from the ports' own error correction, which nothing here fixes (log entry 5). -/
def State.portStats (s : State) (x : Datagram) : State :=
  let fec := (List.range 12).map (fun i => (Config.choice (s.freeCtr + 2 * i), Config.choice (s.freeCtr + 2 * i + 1)))
  State.reply { s with freeCtr := s.freeCtr + 24 } 0x11 x 0 (.stats s.portUp fec s.discarded)

def execPortstat (x : Datagram) (s : State) : Host.Outcome State Fault Refusal := mgmt 0x11 whenRunning (fun x s => s.portStats x) x s

def execCounters (x : Datagram) (s : State) : Host.Outcome State Fault Refusal :=
  mgmt 0x20 whenRunning (fun x s => s.reply 0x20 x 0 (.counts s.counts)) x s

def execDevinfo (x : Datagram) (s : State) : Host.Outcome State Fault Refusal :=
  mgmt 0x21 whenRunning (fun x s => s.reply 0x21 x 0 (.info (memRead s.mem devBase 512))) x s

/-- Image data land in the staging area; at LAST the image is checked, and a valid one goes to the flash (R412). -/
def State.recoverBlock (s : State) (x : Datagram) : State :=
  let off := payloadNat x 0 8
  let flags := payloadNat x 8 4
  let data := x.payload.drop 12
  if x.payload.length < 12 ∨ 8176 < data.length ∨ 2 ≤ flags ∨ 0x2000000 < off + data.length then s.reply 0x30 x 2 .none
  else
    let s := s.store (stageBase + off) data
    let whole (l : Nat) : Bool := decide (stageBase + off ≤ 64 * l) && decide (64 * l + 64 ≤ stageBase + off + data.length)
    let s : State := { s with poisoned := s.poisoned.filter (fun l => !whole l) }
    if flags = 0 then s.reply 0x30 x 0 .none
    else
      let img := memRead s.mem stageBase (off + data.length)
      if imageOk s.fuses.keyHash img then State.warm (({ s with flash := img } : State).reply 0x30 x 0 .none)
      else s.reply 0x30 x 1 .none

def execRecover (x : Datagram) (s : State) : Host.Outcome State Fault Refusal :=
  mgmt 0x30 (fun p => p == .recovery) (fun x s => s.recoverBlock x) x s

/-- RESET: MODE 0 resets the part, MODE 1 resets it into recovery mode (R412); an update's flash write under way ends first (log entry 59). -/
def State.resetRequest (s : State) (x : Datagram) : State :=
  match x.payload with
  | [] => s.reply 0x31 x 2 .none
  | m :: _ =>
    let done (s : State) : State := if s.phase == .updating then s.finishUpdate else s
    if m = 0 then (done (s.reply 0x31 x 0 .none)).warm
    else if m = 1 then (done (s.reply 0x31 x 0 .none)).warmCleared.prepare [1, 3] State.recover
    else s.reply 0x31 x 2 .none

def execReset (x : Datagram) (s : State) : Host.Outcome State Fault Refusal := mgmt 0x31 (fun _ => true) (fun x s => s.resetRequest x) x s

/-! ## Debug reads (R419) -/

/-- What a read shows of a value: its data and state. -/
def Cell.shown (x : Cell) : Word32 × Nat :=
  match x.st with
  | .live => (x.data, 0)
  | .poison => (x.data, 1)
  | .expired => (0, 2)

/-- What a read shows of bytes that nothing holds. -/
def shownFree : Word32 × Nat := (0, 3)

/-- A word of a crew's space at the present tick: data and state of Table 3.6, nothing renewed. -/
def Alloc.look (a : Alloc) (tick off : Nat) : Word32 × Nat := (cellAt (a.atTick tick).fill (a.atTick tick).cells (off / 4)).shown

/-- The word at an offset of a crew's space; FREE where no live block lies (R54). -/
def Crew.look (c : Crew) (tick off : Nat) : Word32 × Nat :=
  match c.allocs.find? (fun a => a.holds off 4) with
  | some a => a.look tick off
  | none => shownFree

/-- The crews of a core in an image. -/
def State.crewsOn (s : State) (core : Nat) (live : Bool) : List Crew := s.crews.filter (fun c => c.coreIx == core && c.live == live)

/-- The word of crew space at a core-relative address of an image, where a crew's range holds the address (R53). -/
def State.crewWordAt (s : State) (core : Nat) (live : Bool) (addr : Nat) : Option (Word32 × Nat) :=
  ((s.crewsOn core live).find? (fun c => decide (c.base ≤ addr) && decide (addr < c.base + c.desc.crewBytes))).map (fun c => c.look s.tick (addr - c.base))

/-- The element of a list that a number picks, and what is left of the number. -/
def pickOf {α : Type} (l : List α) (k : Nat) : Option (α × Nat) := (l[k % l.length]?).map (fun x => (x, k / l.length))

/-- A register of a gang in a lane, as the present tick finds it; a dead one holds POISON of all ones. -/
def State.regShown (s : State) (g : Gang) (k : Nat) : Word32 × Nat :=
  if s.regsOf g = 0 then shownFree
  else
    let x := (g.core.expireRegs (s.regCode g) s.tick).reg (k % s.regsOf g) (k / s.regsOf g % s.widthOf g)
    Cell.shown ⟨x.data, x.st⟩

/-- A word of a gang's private spaces, as the present tick finds it. -/
def State.privShown (s : State) (g : Gang) (c : Crew) (k : Nat) : Word32 × Nat :=
  match pickOf (g.core.expireSpaces (s.thrCode g) s.tick).spaces k with
  | some (a, j) => if c.desc.np = 0 then shownFree else (cellAt a.fill a.cells (j % (4 * c.desc.np))).shown
  | none => shownFree

/-- A word of a crew's tile registers: elements, then scales. -/
def Crew.tileShown (c : Crew) (k : Nat) : Word32 × Nat :=
  if c.desc.nk = 0 then shownFree
  else
    let t := c.tileReg (k % c.desc.nk)
    let w := k / c.desc.nk % 608
    let word (m : Sparse Byte) (p : List Nat) (w : Nat) : Cell :=
      ⟨BitVec.ofNat 32 (ofBytesLE ((rangeFrom (4 * w) 4).map (spGet 0 m))), if p.contains w then .poison else .live⟩
    (if w < 512 then word t.elems t.epois w else word t.scales t.spois (w - 512)).shown

/-- The word `k` of what a core's crews hold beside their spaces: none, a register, a private word, a word of a tile register. -/
def State.unitShown (s : State) (core : Nat) (live : Bool) (k : Nat) : Word32 × Nat :=
  match pickOf (s.crewsOn core live) (k / 4) with
  | none => shownFree
  | some (c, j) =>
    match k % 4, pickOf (c.gangs.filterMap s.gang?) j with
    | 1, some (g, i) => s.regShown g i
    | 2, some (g, i) => s.privShown g c i
    | 3, _ => c.tileShown j
    | _, _ => shownFree

/-- A word outside the crews' spaces: no rule says where in a core's memory registers, private spaces and tile registers lie, so it is FREE or any word of theirs, as it stands (log entry 81). -/
def State.otherWord (s : State) (core : Nat) (live : Bool) : (Word32 × Nat) × State :=
  (s.unitShown core live (Config.choice s.freeCtr), { s with freeCtr := s.freeCtr + 1 })

/-- `n` words from a core-relative address; beyond the 12 MiB of a core nothing is allocated. -/
def State.debugWords (s : State) (core : Nat) (live : Bool) : Nat → Nat → List (Word32 × Nat) × State
  | 0, _ => ([], s)
  | n + 1, addr =>
    let r := match s.crewWordAt core live addr with
      | some w => (w, s)
      | none => if 12582912 ≤ addr then (shownFree, s) else s.otherWord core live
    let q := r.2.debugWords core live n (addr + 4)
    (r.1 :: q.1, q.2)

def State.debugRead (s : State) (x : Datagram) : State :=
  let die := payloadNat x 0 1
  let quad := payloadNat x 1 1
  let core := payloadNat x 2 1
  let img := payloadNat x 3 1
  let addr := payloadNat x 4 4
  let n := payloadNat x 8 4
  if x.payload.length ≠ 12 ∨ 2 ≤ img ∨ addr % 4 ≠ 0 ∨ 12582912 ≤ addr ∨ n = 0 ∨ 1024 < n then s.reply 0x40 x 2 .none
  else
    let q := die * 64 + quad
    let there := decide (die < 4) && decide (quad < 64) && decide (core < 4) && s.quadPresent q
    let still := match s.partOfQuad q with | some p => (s.part p).st == .halted | none => false
    if !(there && still) then s.reply 0x40 x 1 .none
    else
      let ws := s.debugWords (4 * q + core) (img == 0) n addr
      ws.2.reply 0x40 x 0 (.words (ws.1.map (·.1)) (ws.1.map (·.2)))

def execDbgread (x : Datagram) (s : State) : Host.Outcome State Fault Refusal := mgmt 0x40 whenRunning (fun x s => s.debugRead x) x s

/-- Operations of Table 19.4. -/
def assignedOps : List Nat := [0x01, 0x10, 0x11, 0x20, 0x21, 0x30, 0x31, 0x40]

/-- Every other OP is answered with status 2 (R406), in every mode: R408's refusals with status 1 are of operations that there are (log entry 61). -/
def execMgmtOtherOp (op : Nat) (x : Datagram) (s : State) : Host.Outcome State Fault Refusal :=
  if assignedOps.contains (op % 2 ^ 16) then .next s
  else mgmt (op % 2 ^ 16) (fun _ => true) (fun x s => s.reply (op % 2 ^ 16) x 2 .none) x s

end Sys2Proof.Machine
end

