-- ==== Sys2Proof/Machine/Dispatch.lean ====
section
/-! DEFINITION. One arm for each constructor of Instr: the direct call of its meaning. -/

namespace Sys2Proof.Machine

def exec (i : Instr) (s : State) : Host.Outcome State Fault Refusal :=
  match i with
  | .iadd o => Sys2Proof.Machine.execIadd o s
  | .isub o => Sys2Proof.Machine.execIsub o s
  | .iaddc o => Sys2Proof.Machine.execIaddc o s
  | .isubb o => Sys2Proof.Machine.execIsubb o s
  | .imul o => Sys2Proof.Machine.execImul o s
  | .imulhi o => Sys2Proof.Machine.execImulhi o s
  | .imad o => Sys2Proof.Machine.execImad o s
  | .imin o => Sys2Proof.Machine.execImin o s
  | .imax o => Sys2Proof.Machine.execImax o s
  | .iabs o => Sys2Proof.Machine.execIabs o s
  | .lea o => Sys2Proof.Machine.execLea o s
  | .idp4 o => Sys2Proof.Machine.execIdp4 o s
  | .mov o => Sys2Proof.Machine.execMov o s
  | .movi o => Sys2Proof.Machine.execMovi o s
  | .movxRd o => Sys2Proof.Machine.execMovxRd o s
  | .movxWr o => Sys2Proof.Machine.execMovxWr o s
  | .sel o => Sys2Proof.Machine.execSel o s
  | .and o => Sys2Proof.Machine.execAnd o s
  | .or o => Sys2Proof.Machine.execOr o s
  | .xor o => Sys2Proof.Machine.execXor o s
  | .andn o => Sys2Proof.Machine.execAndn o s
  | .not o => Sys2Proof.Machine.execNot o s
  | .lanf o => Sys2Proof.Machine.execLanf o s
  | .shl o => Sys2Proof.Machine.execShl o s
  | .shr o => Sys2Proof.Machine.execShr o s
  | .sar o => Sys2Proof.Machine.execSar o s
  | .fshL o => Sys2Proof.Machine.execFshL o s
  | .fshR o => Sys2Proof.Machine.execFshR o s
  | .popc o => Sys2Proof.Machine.execPopc o s
  | .clz o => Sys2Proof.Machine.execClz o s
  | .ctz o => Sys2Proof.Machine.execCtz o s
  | .brev o => Sys2Proof.Machine.execBrev o s
  | .bfe o => Sys2Proof.Machine.execBfe o s
  | .bfi o => Sys2Proof.Machine.execBfi o s
  | .bpick o => Sys2Proof.Machine.execBpick o s
  | .icmp o => Sys2Proof.Machine.execIcmp o s
  | .fcmp o => Sys2Proof.Machine.execFcmp o s
  | .fadd o => Sys2Proof.Machine.execFadd o s
  | .fsub o => Sys2Proof.Machine.execFsub o s
  | .fmul o => Sys2Proof.Machine.execFmul o s
  | .ffma o => Sys2Proof.Machine.execFfma o s
  | .fmin o => Sys2Proof.Machine.execFmin o s
  | .fmax o => Sys2Proof.Machine.execFmax o s
  | .fabs o => Sys2Proof.Machine.execFabs o s
  | .frnd o => Sys2Proof.Machine.execFrnd o s
  | .fclass o => Sys2Proof.Machine.execFclass o s
  | .fscale o => Sys2Proof.Machine.execFscale o s
  | .hadd2 o => Sys2Proof.Machine.execHadd2 o s
  | .hmul2 o => Sys2Proof.Machine.execHmul2 o s
  | .hfma2 o => Sys2Proof.Machine.execHfma2 o s
  | .hmin2 o => Sys2Proof.Machine.execHmin2 o s
  | .hmax2 o => Sys2Proof.Machine.execHmax2 o s
  | .cvt o => Sys2Proof.Machine.execCvt o s
  | .cvtpk o => Sys2Proof.Machine.execCvtpk o s
  | .cvtscToe8 o => Sys2Proof.Machine.execCvtscToe8 o s
  | .cvtscTos24 o => Sys2Proof.Machine.execCvtscTos24 o s
  | .cvtscFrome8 o => Sys2Proof.Machine.execCvtscFrome8 o s
  | .cvtscFroms24 o => Sys2Proof.Machine.execCvtscFroms24 o s
  | .frcp o => Sys2Proof.Machine.execFrcp o s
  | .frsq o => Sys2Proof.Machine.execFrsq o s
  | .fsqrt o => Sys2Proof.Machine.execFsqrt o s
  | .fexp2 o => Sys2Proof.Machine.execFexp2 o s
  | .flog2 o => Sys2Proof.Machine.execFlog2 o s
  | .fsin o => Sys2Proof.Machine.execFsin o s
  | .fcos o => Sys2Proof.Machine.execFcos o s
  | .ftanh o => Sys2Proof.Machine.execFtanh o s
  | .queuedResultWrite gang id => Sys2Proof.Machine.execQueuedResultWrite gang id s
  | .pand o => Sys2Proof.Machine.execPand o s
  | .por o => Sys2Proof.Machine.execPor o s
  | .pxor o => Sys2Proof.Machine.execPxor o s
  | .pnot o => Sys2Proof.Machine.execPnot o s
  | .pmov o => Sys2Proof.Machine.execPmov o s
  | .shflIdx o => Sys2Proof.Machine.execShflIdx o s
  | .shflUp o => Sys2Proof.Machine.execShflUp o s
  | .shflDown o => Sys2Proof.Machine.execShflDown o s
  | .shflXor o => Sys2Proof.Machine.execShflXor o s
  | .quorumGe o => Sys2Proof.Machine.execQuorumGe o s
  | .quorumLt o => Sys2Proof.Machine.execQuorumLt o s
  | .quorumSame o => Sys2Proof.Machine.execQuorumSame o s
  | .ballot o => Sys2Proof.Machine.execBallot o s
  | .redux o => Sys2Proof.Machine.execRedux o s
  | .scan o => Sys2Proof.Machine.execScan o s
  | .lgcDiv o => Sys2Proof.Machine.execLgcDiv o s
  | .lgcRem o => Sys2Proof.Machine.execLgcRem o s
  | .lgcRcp o => Sys2Proof.Machine.execLgcRcp o s
  | .lgcRsq o => Sys2Proof.Machine.execLgcRsq o s
  | .lgcSin o => Sys2Proof.Machine.execLgcSin o s
  | .lgcCos o => Sys2Proof.Machine.execLgcCos o s
  | .lgcEx2 o => Sys2Proof.Machine.execLgcEx2 o s
  | .lgcLg2 o => Sys2Proof.Machine.execLgcLg2 o s
  | .lgcMin o => Sys2Proof.Machine.execLgcMin o s
  | .lgcMax o => Sys2Proof.Machine.execLgcMax o s
  | .legacyRequestService die => Sys2Proof.Machine.execLegacyRequestService die s
  | .bra o => Sys2Proof.Machine.execBra o s
  | .call o => Sys2Proof.Machine.execCall o s
  | .brx o => Sys2Proof.Machine.execBrx o s
  | .callx o => Sys2Proof.Machine.execCallx o s
  | .ret o => Sys2Proof.Machine.execRet o s
  | .exit g => Sys2Proof.Machine.execExit g s
  | .nop g => Sys2Proof.Machine.execNop g s
  | .nopL g => Sys2Proof.Machine.execNopL g s
  | .lp o => Sys2Proof.Machine.execLp o s
  | .lpbrk g => Sys2Proof.Machine.execLpbrk g s
  | .join o => Sys2Proof.Machine.execJoin o s
  | .chkBegin o => Sys2Proof.Machine.execChkBegin o s
  | .chkEnd g => Sys2Proof.Machine.execChkEnd g s
  | .chkAbort o => Sys2Proof.Machine.execChkAbort o s
  | .chkCut g => Sys2Proof.Machine.execChkCut g s
  | .barArrive o => Sys2Proof.Machine.execBarArrive o s
  | .barWait o => Sys2Proof.Machine.execBarWait o s
  | .barSync o => Sys2Proof.Machine.execBarSync o s
  | .fence o => Sys2Proof.Machine.execFence o s
  | .fenceX o => Sys2Proof.Machine.execFenceX o s
  | .wait o => Sys2Proof.Machine.execWait o s
  | .stallRelease gang lead => Sys2Proof.Machine.execStallRelease gang lead s
  | .evbind o => Sys2Proof.Machine.execEvbind o s
  | .evunbind o => Sys2Proof.Machine.execEvunbind o s
  | .evmask o => Sys2Proof.Machine.execEvmask o s
  | .evpoll o => Sys2Proof.Machine.execEvpoll o s
  | .waitany o => Sys2Proof.Machine.execWaitany o s
  | .eventDelivery gang => Sys2Proof.Machine.execEventDelivery gang s
  | .timerExpiry gang slot => Sys2Proof.Machine.execTimerExpiry gang slot s
  | .mbxPost o => Sys2Proof.Machine.execMbxPost o s
  | .mbxTake o => Sys2Proof.Machine.execMbxTake o s
  | .semSig o => Sys2Proof.Machine.execSemSig o s
  | .semTry o => Sys2Proof.Machine.execSemTry o s
  | .semWait o => Sys2Proof.Machine.execSemWait o s
  | .ldo o => Sys2Proof.Machine.execLdo o s
  | .sto o => Sys2Proof.Machine.execSto o s
  | .ldg o => Sys2Proof.Machine.execLdg o s
  | .stg o => Sys2Proof.Machine.execStg o s
  | .loadDataArrival gang id => Sys2Proof.Machine.execLoadDataArrival gang id s
  | .atomo o => Sys2Proof.Machine.execAtomo o s
  | .atomg o => Sys2Proof.Machine.execAtomg o s
  | .redg o => Sys2Proof.Machine.execRedg o s
  | .oalloc o => Sys2Proof.Machine.execOalloc o s
  | .ofree o => Sys2Proof.Machine.execOfree o s
  | .orenew o => Sys2Proof.Machine.execOrenew o s
  | .oqueryBase o => Sys2Proof.Machine.execOqueryBase o s
  | .oqueryFmask o => Sys2Proof.Machine.execOqueryFmask o s
  | .oqueryCode o => Sys2Proof.Machine.execOqueryCode o s
  | .oqueryExpiry o => Sys2Proof.Machine.execOqueryExpiry o s
  | .cpLin o => Sys2Proof.Machine.execCpLin o s
  | .cpTen o => Sys2Proof.Machine.execCpTen o s
  | .cpGat o => Sys2Proof.Machine.execCpGat o s
  | .cpSct o => Sys2Proof.Machine.execCpSct o s
  | .cpCmpEnc o => Sys2Proof.Machine.execCpCmpEnc o s
  | .cpCmpDec o => Sys2Proof.Machine.execCpCmpDec o s
  | .nmrCmd o => Sys2Proof.Machine.execNmrCmd o s
  | .nmrCmdShaped o => Sys2Proof.Machine.execNmrCmdShaped o s
  | .nmrFlush o => Sys2Proof.Machine.execNmrFlush o s
  | .enginePiece id choice => Sys2Proof.Machine.execEnginePiece id choice s
  | .commandCompletion cmd => Sys2Proof.Machine.execCommandCompletion cmd s
  | .cmpRd o => Sys2Proof.Machine.execCmpRd o s
  | .cmpSet o => Sys2Proof.Machine.execCmpSet o s
  | .tskEnq o => Sys2Proof.Machine.execTskEnq o s
  | .launch o => Sys2Proof.Machine.execLaunch o s
  | .joinBlockDecrement id => Sys2Proof.Machine.execJoinBlockDecrement id s
  | .tcfg o => Sys2Proof.Machine.execTcfg o s
  | .tcfgr o => Sys2Proof.Machine.execTcfgr o s
  | .tld o => Sys2Proof.Machine.execTld o s
  | .tst o => Sys2Proof.Machine.execTst o s
  | .tzero o => Sys2Proof.Machine.execTzero o s
  | .mma o => Sys2Proof.Machine.execMma o s
  | .mmasE8 o => Sys2Proof.Machine.execMmasE8 o s
  | .mmasS24 o => Sys2Proof.Machine.execMmasS24 o s
  | .accZero o => Sys2Proof.Machine.execAccZero o s
  | .accLd o => Sys2Proof.Machine.execAccLd o s
  | .accSt o => Sys2Proof.Machine.execAccSt o s
  | .accRd o => Sys2Proof.Machine.execAccRd o s
  | .accEpi o => Sys2Proof.Machine.execAccEpi o s
  | .accwin o => Sys2Proof.Machine.execAccwin o s
  | .matrixGrant quad dataPort => Sys2Proof.Machine.execMatrixGrant quad dataPort s
  | .matrixRequestComplete req => Sys2Proof.Machine.execMatrixRequestComplete req s
  | .epilogueCaptureWrite req => Sys2Proof.Machine.execEpilogueCaptureWrite req s
  | .trap o => Sys2Proof.Machine.execTrap o s
  | .sysc o => Sys2Proof.Machine.execSysc o s
  | .escape w0 => Sys2Proof.Machine.execEscape w0 s
  | .eret g => Sys2Proof.Machine.execEret g s
  | .csrr o => Sys2Proof.Machine.execCsrr o s
  | .csrw o => Sys2Proof.Machine.execCsrw o s
  | .csrx o => Sys2Proof.Machine.execCsrx o s
  | .fpmodeWrite o => Sys2Proof.Machine.execFpmodeWrite o s
  | .uevecWrite o => Sys2Proof.Machine.execUevecWrite o s
  | .fqbaseWrite o => Sys2Proof.Machine.execFqbaseWrite o s
  | .fqcapWrite o => Sys2Proof.Machine.execFqcapWrite o s
  | .fqheadWrite o => Sys2Proof.Machine.execFqheadWrite o s
  | .grselWrite o => Sys2Proof.Machine.execGrselWrite o s
  | .grownWrite o => Sys2Proof.Machine.execGrownWrite o s
  | .pblkWrite o => Sys2Proof.Machine.execPblkWrite o s
  | .pliveWrite o => Sys2Proof.Machine.execPliveWrite o s
  | .pshadWrite o => Sys2Proof.Machine.execPshadWrite o s
  | .puevWrite o => Sys2Proof.Machine.execPuevWrite o s
  | .ctxtabWrite o => Sys2Proof.Machine.execCtxtabWrite o s
  | .migrationGo o => Sys2Proof.Machine.execMigrationGo o s
  | .migrationOwnerRelease r => Sys2Proof.Machine.execMigrationOwnerRelease r s
  | .migrationReceive a => Sys2Proof.Machine.execMigrationReceive a s
  | .migrationTimeout => Sys2Proof.Machine.execMigrationTimeout s
  | .tlbinv o => Sys2Proof.Machine.execTlbinv o s
  | .tlbsync g => Sys2Proof.Machine.execTlbsync g s
  | .icinv o => Sys2Proof.Machine.execIcinv o s
  | .pswap o => Sys2Proof.Machine.execPswap o s
  | .haltStop o => Sys2Proof.Machine.execHaltStop o s
  | .haltRun o => Sys2Proof.Machine.execHaltRun o s
  | .engineStopAck part => Sys2Proof.Machine.execEngineStopAck part s
  | .accspill o => Sys2Proof.Machine.execAccspill o s
  | .accfill o => Sys2Proof.Machine.execAccfill o s
  | .fltres o => Sys2Proof.Machine.execFltres o s
  | .chunkCommit gang choice => Sys2Proof.Machine.execChunkCommit gang choice s
  | .strokeTokenGrant => Sys2Proof.Machine.execStrokeTokenGrant s
  | .issueCycle core => Sys2Proof.Machine.execIssueCycle core s
  | .retentionTick => Sys2Proof.Machine.execRetentionTick s
  | .allocationExpiry u => Sys2Proof.Machine.execAllocationExpiry u s
  | .operandStoreRefresh die => Sys2Proof.Machine.execOperandStoreRefresh die s
  | .hbmRefresh stack bank => Sys2Proof.Machine.execHbmRefresh stack bank s
  | .pageWaitRetry id => Sys2Proof.Machine.execPageWaitRetry id s
  | .faultRecordEntry => Sys2Proof.Machine.execFaultRecordEntry s
  | .taskQueueAdmission q => Sys2Proof.Machine.execTaskQueueAdmission q s
  | .crewPlacement item quad => Sys2Proof.Machine.execCrewPlacement item quad s
  | .quadSteal item quad => Sys2Proof.Machine.execQuadSteal item quad s
  | .crewRelease crew => Sys2Proof.Machine.execCrewRelease crew s
  | .podSignalReceive x => Sys2Proof.Machine.execPodSignalReceive x s
  | .podBarrierArrivalReceive x => Sys2Proof.Machine.execPodBarrierArrivalReceive x s
  | .supplySag die => Sys2Proof.Machine.execSupplySag die s
  | .sagRecovery die => Sys2Proof.Machine.execSagRecovery die s
  | .temperatureChange die celsius => Sys2Proof.Machine.execTemperatureChange die celsius s
  | .packagePowerLimit watts => Sys2Proof.Machine.execPackagePowerLimit watts s
  | .thermalTrip die => Sys2Proof.Machine.execThermalTrip die s
  | .powerOnReset => Sys2Proof.Machine.execPowerOnReset s
  | .warmReset => Sys2Proof.Machine.execWarmReset s
  | .counterStoreWrite => Sys2Proof.Machine.execCounterStoreWrite s
  | .ident x => Sys2Proof.Machine.execIdent x s
  | .portcfg x => Sys2Proof.Machine.execPortcfg x s
  | .portstat x => Sys2Proof.Machine.execPortstat x s
  | .counters x => Sys2Proof.Machine.execCounters x s
  | .devinfo x => Sys2Proof.Machine.execDevinfo x s
  | .recover x => Sys2Proof.Machine.execRecover x s
  | .reset x => Sys2Proof.Machine.execReset x s
  | .dbgread x => Sys2Proof.Machine.execDbgread x s
  | .powerLoss => Sys2Proof.Machine.execPowerLoss s
  | .softError x => Sys2Proof.Machine.execSoftError x s
  | .scaleOutLinkChange port up => Sys2Proof.Machine.execScaleOutLinkChange port up s
  | .tlbInvalidationDone id => Sys2Proof.Machine.execTlbInvalidationDone id s
  | .mgmtOtherOp op x => Sys2Proof.Machine.execMgmtOtherOp op x s

end Sys2Proof.Machine
end

