-- ==== Sys2Proof/Machine/Next.lean ====
section
/-! DEFINITION. What the machine does next: a chosen group issues the instruction at its PC (R154, R347); a step of the agenda; or, with nothing listed, a step that the state calls for (log entry 1). -/

namespace Sys2Proof.Machine

/-! ## A chosen group -/

/-- A trap at a group's PC before its instruction executes, with the bytes fetched so far. -/
def State.raiseAt (s : State) (g : Gang) (x : SubGang) (blk : List Byte) (t : Trap) : State :=
  let pc := x.pc.toNat
  s.raise g x ⟨pc, (blk.drop (pc % 32 / 16 * 16)).take 16, ofBytesLE ((blk.drop (pc % 32)).take 8)⟩ t

/-- The instruction of a fetched block is read and executed; a gang record with an uncorrectable error traps in its place (R77). -/
def State.issueFrom (s : State) (g : Gang) (x : SubGang) (blk : List Byte) : Host.Outcome State Fault Refusal :=
  if g.record != .sound then .next (s.raiseAt g x blk (Trap.plain cUncorrectable))
  else
    match readInstr g.isCox (s.supOf g) (x.pc.toNat % 32) blk with
    | .error t => .next (s.raiseAt g x blk t)
    | .ok i => exec i (s.setCur (some ⟨g.id, toLane (lowestLane x.lanes)⟩) blk)

/-- A group chosen to issue fetches and issues its instruction, if it still stands ready. -/
def State.issueGroup (s : State) (r : GroupRef) : Host.Outcome State Fault Refusal :=
  match s.gang? r.gang with
  | none => .next s
  | some g =>
    match g.sub? r.lead.val with
    | none => .next s
    | some x =>
      if !s.groupReady g x then .next s
      else
        match s.fetchBlock g x with
        | (.error t, s) => .next (s.raiseAt ((s.gang? r.gang).getD g) x [] t)
        | (.ok blk, s) => s.issueFrom ((s.gang? r.gang).getD g) x blk

/-- A gang's chunk has ended before the instruction of a group, which still stands at it: `g` before the group was let issue, `h` after. -/
def endedBefore (g h : Gang) (lead : Nat) : Bool :=
  match g.sub? lead, h.sub? lead with
  | some x, some y => y.isReady && y.pc == x.pc && !g.closing && h.closing && g.chunk.map (·.count) == h.chunk.map (·.count)
  | _, _ => false

/-- A group stands ready behind a chunk of its gang that has ended. -/
def State.groupBehind (s : State) (g : Gang) (lead : Nat) : Bool :=
  g.closing && s.gangRuns g && (match g.sub? lead with | some x => x.isReady | none => false)

/-- A group that a cycle chose keeps its place in front, where its gang's chunk has only ended before its instruction. -/
def State.keepChosen (s : State) (r : GroupRef) (t : State) : State :=
  match s.gang? r.gang, t.gang? r.gang with
  | some g, some h => if endedBefore g h r.lead.val then t.setIssue (r :: t.issue) else t
  | _, _ => t

/-- A group that a cycle chose issues in it (R347, R349): where a chunk of its gang has ended before its instruction, by the other group chosen or by the instruction's own rule, that chunk is taken first, and the group then issues with its WAIT as it stood (log entry 83). -/
def State.issueChosen (s : State) (r : GroupRef) : Host.Outcome State Fault Refusal :=
  match s.gang? r.gang with
  | none => .next s
  | some g =>
    if s.groupBehind g r.lead.val then .next ((s.setIssue (r :: s.issue)).chunkStep r.gang [] 0)
    else
      match s.issueGroup r with
      | .next t => .next (s.keepChosen r t)
      | o => o

/-! ## Groups whose next instruction would stall (R347) -/

/-- Whether a group that issued `g` to `h` came to nothing: it stalls at issue, enters a semaphore FIFO, waits at a collective, or its chunk has ended before the instruction. -/
def stoppedAt (g h : Gang) (lead : Nat) : Bool :=
  match g.sub? lead, h.sub? lead with
  | some _, some y =>
    (match y.wait with
     | .stall w => !w.past
     | .sem .. | .coll _ => true
     | .ready => endedBefore g h lead
     | _ => false)
  | _, _ => false

/-- Whether a group's next instruction would stall at issue now. -/
def State.wouldStall (s : State) (r : GroupRef) : Bool :=
  match s.gang? r.gang, s.issueGroup r with
  | some g, .next t => (match t.gang? r.gang with | some h => stoppedAt g h r.lead.val | none => false)
  | _, _ => false

/-- The groups a core would rank. -/
def State.ranked (s : State) (core : Nat) : List GroupRef := (s.cands core).map (fun c => ⟨c.gang, toLane c.lead⟩)

/-- Before a core's cycle, a group whose next instruction would stall meets its stall, so that the cycle ranks only groups that can issue and loses no slot (R347 to R349, log entry 83). -/
def State.beforeCycle (s : State) : Instr → Option GroupRef
  | .issueCycle core => (s.ranked core).find? s.wouldStall
  | _ => none

/-- A listed step is performed on the state without it; a core's cycle first lets a group that would stall meet its stall. -/
def State.takeStep (s : State) (i : Instr) (rest : State) : Host.Outcome State Fault Refusal :=
  match s.beforeCycle i with
  | some x => s.issueGroup x
  | none => exec i rest

/-! ## The agenda -/

/-- Steps that no word encodes: what engines, schedulers, links and the world outside do. -/
def isEvent (i : Instr) : Bool := (encode i).isEmpty

/-- With the power gone only its return acts (R407). -/
def State.allows (s : State) (i : Instr) : Bool := isEvent i && (s.phase != .off || i == .powerOnReset)

/-! ## Steps that the state calls for -/

def State.gangSteps (s : State) : List Instr :=
  s.gangs.flatMap (fun g =>
    g.core.pend.map (fun p => if p.kind == .load then .loadDataArrival g.id p.id else .queuedResultWrite g.id p.id) ++
    [.chunkCommit g.id ⟨[], 0⟩, .eventDelivery g.id])

def State.stallSteps (s : State) : List Instr :=
  s.gangs.flatMap (fun g => (g.core.subs.filter (fun (x : SubGang) => match x.wait with | .stall _ => true | _ => false)).map (fun x =>
    .stallRelease g.id (toLane (lowestLane x.lanes))))

def State.engineSteps (s : State) : List Instr :=
  s.cmds.map (fun c => .commandCompletion c.id) ++ s.cmds.map (fun c => .enginePiece c.id 0) ++
  s.reqs.map (fun r => .matrixRequestComplete r.id) ++ s.reqs.map (fun r => .epilogueCaptureWrite r.id) ++
  s.reqs.map (fun r => .enginePiece r.id 0) ++ s.reqs.flatMap (fun r => [.matrixGrant r.quad true, .matrixGrant r.quad false])

def State.workSteps (s : State) : List Instr :=
  (List.range s.hub.length).map .joinBlockDecrement ++
  ((List.range 64).filter (fun q => !(s.queue q).entries.isEmpty)).map (fun q => .taskQueueAdmission (Fin.ofNat 64 q)) ++
  s.crews.map (fun c => .crewRelease c.id) ++
  (s.items.filter (fun i => i.placed < i.total)).flatMap (fun i => match s.partOfCtx i.ctx with
    | some p => (if (s.partQuads p).isEmpty then [0] else s.partQuads p).map (fun q => .crewPlacement i.id q) ++ (s.partQuads p).map (fun q => .quadSteal i.id q)
    | none => [])

def State.hubSteps (s : State) : List Instr :=
  (if s.fq.waiting.isEmpty then [] else [.faultRecordEntry]) ++ s.invals.map (fun i => .tlbInvalidationDone i.id) ++
  ((List.range 32).filter (fun p => (s.part p).st == .stopping)).map (fun p => .engineStopAck (Fin.ofNat 32 p)) ++ [.strokeTokenGrant]

/-- Cores that hold a group ready to issue, or one that has stopped being ready and counts as such from the next cycle on, in increasing number (R204), the cox cores first. -/
def State.coreSteps (s : State) : List Instr :=
  (((List.range 24).map (· + 1024) ++ (s.crews.map Crew.coreIx).foldl (fun l k => setAdd k l) []).filter (fun k => !(s.cands k).isEmpty || (s.coreGangs k).any (fun g => g.core.subs.any (fun x => x.waited != 0)))).map .issueCycle

/-- Whether a step does more than look at translations and take open choices. -/
def State.moves (s : State) (i : Instr) : Bool :=
  match exec i s with
  | .next t => { t with freeCtr := s.freeCtr, tlb := s.tlb, ptrs := s.ptrs } != s
  | _ => false

/-- The steps that follow when nothing is listed: boot and update first, then work at hand, then a cycle of every core that has something to issue, then the next retention tick. -/
def State.auto (s : State) : List Instr :=
  match s.phase with
  | .off | .booting => [.powerOnReset]
  | .updating => [.warmReset]
  | .recovery => [.retentionTick]
  | .running =>
    match (s.gangSteps ++ (List.range 4).map (fun d => Instr.legacyRequestService (Fin.ofNat 4 d)) ++ s.engineSteps ++ s.hubSteps ++ s.workSteps ++
        s.stallSteps).find? s.moves with
    | some i => [i]
    | none => s.coreSteps

end Sys2Proof.Machine
end

