-- ==== Sys2Proof/Machine/Load.lean ====
section
/-! DEFINITION. Placing one instruction where the machine issues it next (log entry 60): a running part with a small address space, and either cox core 0 at S or a crew of one gang, whose PC is the instruction's block. -/

namespace Sys2Proof.Machine

/-- Virtual and location address of the block: the second gibibyte of the space below. -/
def loadAt : Nat := 0x40000000

/-- Contexts 0 and 1 over one set of tables: the first gibibyte R and W, the second R and X, both for user accesses, DIE-LOCAL on die 0. -/
def loadTables (m : List Host.Cell) : List Host.Cell :=
  let e (m : List Host.Cell) (la x : Nat) : List Host.Cell := memWrite m la (bytesLE 8 x)
  e (e (e (e (e (e m 0x8000 0x10001) 0x8008 0x10001) 0x10000 0x11001) 0x11000 0x12001) 0x12000 (2 ^ 61 + 23)) 0x12008 (2 ^ 61 + loadAt + 27)

/-- Whether an instruction's word 0 and IMM32 name what only a cox core at S has. -/
def loadSys (w : Nat) : Bool := let opc := bitsAt w 2 8; sysOnly opc || csrBreaks opc (bitsAt w 64 32)

/-- A launch of one crew with one gang and generous resources. -/
def loadDesc : Desc :=
  { entry := loadAt, args := 0, cx := 1, cy := 1, cz := 1, tx := 32, ty := 1, tz := 1, gw := 0, ng := 1, nv := 128, np := 4, nc := 16, ns := 16,
    nk := 16, na := 64, ne := 0, nm := 4, ret0 := 0, ret1 := 0, bcrew := 4, bquad := 0, bdie := 0, bpkg := 0, bpod := 0, mode := 0, power := 0,
    tq := 0, podjob := 0, podgangs := 0 }

def loadItem : Item :=
  { id := 64, ctx := 1, desc := loadDesc, task := none, queue := none, addr := 0, tested := false, split := some (List.range 8), ranges := [⟨0, 1, 1⟩],
    placed := 1, released := 0, bars := [] }

def loadCrew : Crew :=
  { id := 65, item := 64, ctx := 1, coreIx := 0, live := true, place := 0, num := 0, desc := loadDesc, args := 0, tile := (0, 0, 0), succ := 0,
    base := 0, power := 4000, gangs := [66], allocs := [⟨0, loadDesc.staticBytes, 0, 0, ⟨0, .live⟩, []⟩], freed := [], tiles := [], tcfg := [],
    accbase := 0, acclim := 64, rb := 0, sems := List.range 4, bars := List.replicate 4 ⟨1, 0, 0, [], []⟩, exitRecords := false }

def loadGang : Gang :=
  { id := 66, crew := some 65, num := 0, place := 0, half := 0,
    core := GangCore.start [⟨allLanes 32, BitVec.ofNat 64 loadAt, .ready, 0⟩] ⟨0, .live, 0⟩ 0
      ((List.range 32).map (fun l => (⟨l, 0, ⟨0, .live⟩, []⟩ : LaneSpace))),
    chunk := none, squashes := 0, token := .none, seq := 0, bpend := [], record := .sound, releases := [], lbody := [], lbuf := [] }

/-- The running part with the bytes in place. -/
def State.loaded (s : State) (bs : List Byte) : State :=
  { s with due := [], issue := [], agenda := [], mem := memWrite (loadTables s.mem) loadAt bs, ctxtab := 0x8001, phase := .running }

def State.loadWord (s : State) (w : Nat) : State :=
  let s := s.loaded (bytesLE 32 w)
  if loadSys w then
    let g := Gang.coxReset 0
    { s.putGang { g with core := { g.core with subs := [⟨1, BitVec.ofNat 64 loadAt, .ready, 0⟩] } } with
      cox := setAt 0 { Cox.reset with started := true } s.cox, issue := [⟨0, 0⟩] }
  else
    { s with parts := setAt 0 { s.part 0 with blk := 1, live := 1, st := .running } s.parts, items := [loadItem], crews := [loadCrew],
             gangs := s.gangs ++ [loadGang], nextId := 67, issue := [⟨66, 0⟩] }

end Sys2Proof.Machine
end

