-- ==== Sys2Proof/Machine/Step.lean ====
section
/-! DEFINITION. One step of the machine. -/

namespace Sys2Proof.Machine

/-- One step (log entry 1): what follows at once from the last step; else the group chosen to issue; else the next step of the agenda, which stutters where it is no event; else what the state calls for. -/
def step (s : State) : Host.Outcome State Fault Refusal :=
  match s.due with
  | i :: r => s.takeStep i (s.setDue r)
  | [] =>
    match s.issue with
    | x :: r => (s.setIssue r).issueChosen x
    | [] =>
      match s.agenda with
      | i :: r => if s.allows i then s.takeStep i (s.setAgenda r) else .next (s.setAgenda r)
      | [] =>
        match s.auto with
        | i :: r => s.takeStep i (s.setDue r)
        | [] => exec .retentionTick s

/-- An instruction placed where the next step fetches it (log entry 60). -/
def State.withFetchWord (s : State) (nbits w : Nat) : State := s.loadWord (w % 2 ^ nbits)

end Sys2Proof.Machine
end

