-- ==== Sys2Proof/Safety.lean ====
section
/-! DEFINITION. The terms that claims are stated in: when a step is safe; when a group executes an instruction; that a step changes one gang and nothing else; what a lane-by-lane instruction writes. -/

namespace Sys2Proof

/-- The step from `s` neither faults nor refuses. -/
def SafeStep (s : Machine.State) : Prop := ∃ t, Machine.step s = .next t

namespace Machine

/-! ## When a group executes an instruction -/

/-- The gang has no chunk open, or an implicit one that holds no instruction yet. -/
def Env.chunkEmpty (e : Env) : Bool :=
  match e.g.chunk with
  | none => true
  | some c => c.expl.isNone && c.count == 0

/-- An instruction of this kind joins the gang's chunk, which is implicit, without ending it first (Table 5.1): the chunk is empty, or it is within its line limits and the instruction may follow others. -/
def Env.chunkRoom (e : Env) (sp : Spec) : Bool :=
  match e.g.chunk with
  | none => true
  | some c => c.expl.isNone && (c.count == 0 || (sp.chunk != .before && sp.chunk != .own && !overLimit c))

/-- The issuing group executes an instruction of behaviour `sp` now: the checks of R154 pass, some lane's guard holds (R29), a collective finds the whole gang (R46), its counter has room (R229), no register it names is in flight (R175, R246), and its chunk takes it. -/
def Env.executes (e : Env) (sp : Spec) : Bool :=
  e.check sp == none && e.on != 0 && (!sp.coll || e.collWay == .go) && !e.core.ctrFull sp.ctr && !e.interlocked sp && !e.awaits sp && e.chunkRoom sp

/-- The environment with the gang's chunk open, as an instruction executes. -/
def Env.opened (e : Env) : Env := { e with g := { e.g with chunk := some e.g.openChunk } }

/-! ## What a step changes -/

/-- The instruction takes the trap `t` at its own PC. -/
def TrapStep (i : Instr) (s : State) (e : Env) (t : Trap) : Prop := exec i s = .next (s.raise e.g e.x e.site t)

/-- `exec i s` answers a next state that is `s'` but for its list of gangs, in which the issuing gang alone differs from `s`: in its core state, of which `P` speaks, and in its open chunk, of which `Q` speaks. -/
def GangStep (i : Instr) (s s' : State) (e : Env) (P : GangCore → Prop) (Q : Chunk → Prop) : Prop :=
  ∃ t h c, exec i s = .next t ∧ t = s'.setGangs t.gangs ∧ (∀ k, k ≠ e.g.id → t.gang? k = s.gang? k) ∧
    t.gang? e.g.id = some h ∧ h = { e.g with core := h.core, chunk := some c } ∧ P h.core ∧ Q c

/-- The chunk holds one instruction more and is otherwise as it was. -/
def Env.OneMore (e : Env) (c : Chunk) : Prop :=
  c = { e.g.openChunk with count := e.g.openChunk.count + 1, closed := c.closed }

/-- Where the lanes of a gang stand: its sub-gangs, its fault families and its loops. Every other part of `b` is that of `a`. -/
def SamePlaceless (a b : GangCore) : Prop := b = { a with subs := b.subs, fams := b.fams, loops := b.loops, ldepth := b.ldepth }

/-- A gang in no loop keeps its loop levels. -/
def LoopsKept (a b : GangCore) : Prop := a.ldepth = 0 → b.loops = a.loops ∧ b.ldepth = 0

/-! ## Where lanes go -/

/-- The gang is one sub-gang of no fault family. -/
def Env.whole (e : Env) : Bool := e.core.subs == [e.x] && e.core.fams == []

/-- The gang is one sub-gang, in no loop and of no fault family: nothing but the instruction decides where its lanes go. -/
def Env.alone (e : Env) : Bool := e.core.subs == [e.x] && e.core.ldepth == 0 && e.core.fams == []

/-- Lane `l` stands at `pc` and waits as `w` says. -/
def LaneAt (c : GangCore) (l : Nat) (pc : Word64) (w : Wait) : Prop := ∃ x ∈ c.subs, x.lanes.getLsbD l = true ∧ x.pc = pc ∧ x.wait = w

/-- The lanes of `m` stand where `next` sends each, those that meet at one PC together (R31), all waiting as `w` says. -/
def MovedTo (b : GangCore) (m : LaneMask) (w : Wait) (next : Nat → Word64) : Prop :=
  (∀ x ∈ b.subs, x.wait = w ∧ ∀ l, l < 64 → x.lanes.getLsbD l = (m.getLsbD l && x.pc == next l)) ∧
  ∀ l, l < 64 → m.getLsbD l = true → ∃ x ∈ b.subs, x.pc = next l

/-- The lanes go on at the next instruction, where nothing but the instruction decides that (R29, R133). -/
def Env.goesOn (e : Env) (b : GangCore) : Prop := e.alone = true → MovedTo b e.act .ready (fun _ => e.nextPc)

/-! ## What a lane-by-lane instruction writes (R172) -/

/-- Vector register `r` is one of the `w` that a destination names. -/
def dstHas (d : Dst) (w r : Nat) : Bool :=
  match d with
  | .v n => n.val ≤ r && r < n.val + w
  | .s _ => false

/-- The first vector register of a destination. -/
def dstBase (d : Dst) : Nat := match d with | .v n => n.val | .s _ => 0

/-- Scalar register `k` is the destination. -/
def dstIs (d : Dst) (k : Nat) : Bool := match d with | .s n => k == n.val | .v _ => false

/-- Vector register `r` of lane `l` is read for the last time (R72). -/
def Env.lastRead (e : Env) (sp : Spec) (r l : Nat) : Bool :=
  e.lanes.contains l && sp.marks.any (fun k => k.1 ≤ r && r < k.1 + k.2)

/-- The vector registers of a gang after an instruction that writes none at once: one read for the last time and no destination is dead (R72, R73), every other is as it was. -/
def KeptRegs (e : Env) (sp : Spec) (b : GangCore) : Prop :=
  ∀ r l, l < 64 → b.reg r l =
    if e.lastRead sp r l && !(sp.uses.flatMap Use.dregs).contains r then ⟨0xFFFFFFFF, .poison, (e.core.reg r l).exp⟩ else e.core.reg r l

/-- The registers of a gang after a lane-by-lane instruction with destination `d` of `w` registers whose lanes compute `f`: the destination holds the results, each written register is renewed (R63), a register read for the last time is dead (R72, R73), every other register is as it was. -/
def WroteLanes (s : State) (e : Env) (sp : Spec) (d : Dst) (w : Nat) (f : Nat → LaneRes) (b : GangCore) : Prop :=
  (∀ r l, l < 64 → b.reg r l =
    if dstHas d w r && e.lanes.contains l then
      ⟨BitVec.ofNat 32 ((f l).bits / 2 ^ (32 * (r - dstBase d))), (f l).st, expiryTick (s.regCode e.g) s.tick⟩
    else if e.lastRead sp r l && !dstHas d w r then ⟨0xFFFFFFFF, .poison, (e.core.reg r l).exp⟩
    else e.core.reg r l) ∧
  (∀ k, b.sreg k = if dstIs d k then BitVec.ofNat 64 ((f (lowestLane e.on)).bits % 2 ^ (32 * w)) else e.core.sreg k)

/-- What FPFLAGS holds after the computing lanes raised their flags (R93, R101). -/
def flagsAfter (e : Env) (d : Dst) (f : Nat → LaneRes) : Word32 :=
  e.core.fpflags ||| joinFlags ((e.computing d).map (fun l => ((f l).st, (f l).flags)))

/-- The step writes the results `f` of the lanes to the destination, reads marked registers for the last time, and leaves the gang's core as `k` but for its registers and place, and sends the lanes on to the next instruction; the package is then `s'`. -/
def WriteStep (i : Instr) (s s' : State) (e : Env) (sp : Spec) (k : GangCore) (d : Dst) (w : Nat) (f : Nat → LaneRes) (Q : Chunk → Prop) : Prop :=
  GangStep i s s' e
    (fun b => SamePlaceless { k with regs := b.regs, sregs := b.sregs } b ∧ LoopsKept e.core b ∧ e.goesOn b ∧ WroteLanes s e sp d w f b) Q

/-- The step writes the results of the lanes and raises their flags, and nothing else. -/
def LaneStep (i : Instr) (s s' : State) (e : Env) (sp : Spec) (d : Dst) (w : Nat) (f : Nat → LaneRes) : Prop :=
  WriteStep i s s' e sp { e.core with fpflags := flagsAfter e d f } d w f e.OneMore

/-- A lane-by-lane instruction completes, whatever its operands, wherever its group executes it and no lane reads an EXPIRED value. -/
def LaneOp (i : Instr) (n : Nat) (g : Guard) (sp : Env → Spec) (d : Dst) (w : Nat) (f : Env → Nat → LaneRes) : Prop :=
  ∀ s e, s.env n g = some e → e.executes (sp e) = true → anyExpired (e.results d (f e)) = false →
    LaneStep i s s e (sp e) d w (f e)

/-! ## Other effects on a gang -/

/-- The step leaves the gang's core as `k` but for its place, its vector registers being as they were or dead by a last read, and the lanes go on to the next instruction; the package is then `s'`. -/
def CoreStep (i : Instr) (s s' : State) (e : Env) (sp : Spec) (k : GangCore) (Q : Chunk → Prop) : Prop :=
  GangStep i s s' e (fun b => SamePlaceless { k with regs := b.regs } b ∧ LoopsKept e.core b ∧ e.goesOn b ∧ KeptRegs e sp b) Q

/-! ## Shapes of lane-by-lane instructions: which slots they read, how wide -/

/-- Two modified sources of the operation's integer type, result of the same type. -/
def IntOp {S : Type} (c : AluM IntTy MSrc Unit S Unit Unit → Instr) (f : AluM IntTy MSrc Unit S Unit Unit → Nat → Int → Int → Nat) : Prop :=
  ∀ o, let n := intBits o.ty; let w := regsFor n
    LaneOp (c o) 12 o.g (aluSpec o.g (.dst o.d w) [(1, o.a, w), (2, o.b, w)] []) o.d w
      (fun e l => lane2 (e.msrc (rdN n) (.int n) l o.a) (e.msrc (rdN n) (.int n) l o.b)
        (fun a b => f o n (intOf n (intSigned o.ty) a) (intOf n (intSigned o.ty) b)))

/-- Two sources of 32 or 64 bits whose modifiers complement, result as wide. -/
def BitOp (c : AluM NTy MSrc Unit Unit Unit Unit → Instr) (f : Nat → Nat → Nat → Nat) : Prop :=
  ∀ o, let n := nBits o.ty; let w := regsFor n
    LaneOp (c o) 12 o.g (aluSpec o.g (.dst o.d w) [(1, o.a, w), (2, o.b, w)] []) o.d w
      (fun e l => lane2 (e.msrc (rdN n) (.logic n) l o.a) (e.msrc (rdN n) (.logic n) l o.b) (f n))

/-- A value of `n` bits and a 32-bit control word, result of `n` bits. -/
def ShiftOp (i : Instr) (g : Guard) (d : Dst) (a b : MSrc) (n : Nat) (f : Nat → Nat → Nat) : Prop :=
  LaneOp i 12 g (aluSpec g (.dst d (regsFor n)) [(1, a, regsFor n), (2, b, 1)] []) d (regsFor n)
    (fun e l => lane2 (e.msrc (rdN n) (.logic n) l a) (e.msrc .w32 (.logic 32) l b) f)

/-- Form B: one unmodified source of `n` bits, a result of `dw` registers. -/
def UnaryOp (i : Instr) (g : Guard) (d : Dst) (a : RSrc) (n dw : Nat) (f : Nat → Nat) : Prop :=
  LaneOp i 8 g (aluSpec g (.dst d dw) [] [(1, a, regsFor n)]) d dw (fun e l => lane1 (e.rsrc (rdN n) l a) f)

/-- Three 32-bit sources. -/
def Word3Op (c : AluM Unit MSrc RSrc Unit Unit Unit → Instr) (k : NegK) (f : Nat → Nat → Nat → Nat) : Prop :=
  ∀ o, LaneOp (c o) 12 o.g (aluSpec o.g (.dst o.d 1) [(1, o.a, 1), (2, o.b, 1)] [(3, o.c, 1)]) o.d 1
    (fun e l => lane3 (e.msrc .w32 k l o.a) (e.msrc .w32 k l o.b) (e.rsrc .w32 l o.c) f)

/-- Two floating-point sources in FP32 or FP64, under a rounding field and SAT. -/
def FltOp {S R : Type} (c : AluM FltTy MSrc Unit S R Unit → Instr) (rnd : AluM FltTy MSrc Unit S R Unit → Rnd) (sat : AluM FltTy MSrc Unit S R Unit → Bool)
    (f : FpEnv → Fmt → Nat → Nat → Nat × Flags) : Prop :=
  ∀ o, let k := fltFmt o.ty; let w := regsFor k.width
    LaneOp (c o) 12 o.g (aluSpec o.g (.dst o.d w) [(1, o.a, w), (2, o.b, w)] []) o.d w
      (fun e l => laneF2 (e.msrc (.flt k) (.flt k) l o.a) (e.msrc (.flt k) (.flt k) l o.b)
        (fun a b => satF k (sat o) (f (fpEnv e.core.fpmode (rnd o)) k a b)))

/-- Two packed pairs of 16-bit elements. -/
def PackedOp {S R : Type} (c : AluM HTy MSrc Unit S R Bool → Instr) (rnd : AluM HTy MSrc Unit S R Bool → Rnd) (sat : AluM HTy MSrc Unit S R Bool → Bool)
    (f : FpEnv → Fmt → Nat → Nat → Nat × Flags) : Prop :=
  ∀ o, let k := hFmt o.ty
    LaneOp (c o) 12 o.g (aluSpec o.g (.dst o.d 1) [(1, o.a, 1), (2, o.b, 1)] []) o.d 1
      (fun e l => laneF2 (e.msrc (.pk k) (.pk k) l o.a) (e.msrc (.pk k) (.pk k) l o.b)
        (fun a b => packed o.xf (fun j => satF k (sat o) (f (fpEnv e.core.fpmode (rnd o)) k (half16 a j) (half16 b j)))))

/-- A result goes through a queue of `kind` (R175): it is computed at issue and put in flight under a new number; flags are raised at once. -/
def queuedCore (s : State) (e : Env) (kind : PendKind) (d : Dst) (w : Nat) (f : Nat → LaneRes) : GangCore :=
  { e.core with pend := e.core.pend ++ [pendOf s.nextId kind d w (e.results d f)], fpflags := flagsAfter e d f }

/-- A conversion or special function completes wherever its group executes it, its queue has room and no lane reads an EXPIRED value. -/
def QueueOp (i : Instr) (g : Guard) (kind : PendKind) (d : Dst) (w : Nat) (ms : List (Nat × MSrc × Nat)) (rs : List (Nat × RSrc × Nat))
    (f : Env → Nat → LaneRes) : Prop :=
  ∀ s e, s.env 12 g = some e → e.executes (aluSpec g (.dst d w) ms rs e) = true → s.inFlight e.g kind < 32 →
    anyExpired (e.results d (f e)) = false →
    CoreStep i s { s with nextId := s.nextId + 1 } e (aluSpec g (.dst d w) ms rs e) (queuedCore s e kind d w (f e)) e.OneMore

/-- A special function in FP32, in round to nearest of FPMODE. -/
def SfuOp32 (c : AluM Unit Unit Unit Bool Unit Unit → Instr) (op : SfuOp) : Prop :=
  ∀ o, QueueOp (c o) o.g .special o.d 1 [(1, o.a, 1)] []
    (fun e l => laneF1 (e.msrc (.flt fp32) (.flt fp32) l o.a) (fun a => satF fp32 o.sat (sfu (fpEnv e.core.fpmode .dyn) fp32 op a)))

/-- A conversion of a scale (R195). -/
def ScaleOp {R : Type} (c : AluM Unit Unit Unit Unit R Unit → Instr) (rnd : AluM Unit Unit Unit Unit R Unit → Rnd) (rd : Rd) (neg : NegK)
    (f : FpEnv → Nat → Nat × Flags) : Prop :=
  ∀ o, QueueOp (c o) o.g .convert o.d 1 [(1, o.a, 1)] [] (fun e l => laneF1 (e.msrc rd neg l o.a) (f (fpEnv e.core.fpmode (rnd o))))

/-- A compare completes wherever its group executes it and no lane reads an EXPIRED or a POISON value: the condition goes to p(2k), its complement to p(2k+1). -/
def CompareOp (i : Instr) (g : Guard) (k : Fin 6) (sp : Spec) (f : Env → Nat → LaneRes) : Prop :=
  ∀ s e, s.env 8 g = some e → e.executes sp = true →
    ((∀ l ∈ e.lanes, (f e l).st = .live ∧ .expired ∉ (f e l).reads) → CoreStep i s s e sp
      { e.core.setPredPair k.val e.on (maskOf (e.lanes.filter (fun l => (f e l).bits != 0))) with
        fpflags := e.core.fpflags ||| joinFlags (e.lanes.map (fun l => ((f e l).st, (f e l).flags))) } e.OneMore) ∧
    ((∃ l ∈ e.lanes, .expired ∈ (f e l).reads) → TrapStep i s e (Trap.plain cExpiredRead)) ∧
    ((∃ l ∈ e.lanes, (f e l).st = .poison) → (∀ l ∈ e.lanes, .expired ∉ (f e l).reads) → TrapStep i s e (Trap.plain cPoisonConsumed))

/-- Whatever core and privilege reads an instruction of OPC `opc` and form `f` that lies within its fetch block, one whose fields meet `bad` traps ILLEGAL_ENCODING (R154 step 7). -/
def RefusesFields (opc : Nat) (f : Form) (bad : Raw → Prop) : Prop :=
  ∀ (cox sup : Bool) (blk : List Byte) (off : Nat), blk.length = 32 → off + f.bytes ≤ 32 → bitsAt (word0At (blk.drop off)) 2 8 = opc →
    bitsAt (word0At (blk.drop off)) 0 2 = f.lenField → bad (rawOf f (blk.drop off)) → readInstr cox sup off blk = .error (Trap.plain cIllegalEncoding)

/-- A code that names no predicate source: 12 to 14, or a reserved bit. -/
def noPred (n : Nat) : Prop := 12 ≤ n ∧ n ≠ 15

/-- No explicit chunk is open. -/
def Env.noExplicit (e : Env) : Prop := ∀ c, e.g.chunk = some c → c.expl = none

/-- A predicate instruction completes wherever its group executes it. -/
def PredOp (i : Instr) (g : Guard) (d : PReg) (f : GangCore → LaneMask) : Prop :=
  ∀ s e, s.env 8 g = some e → e.executes { guard := g } = true →
    CoreStep i s s e { guard := g } (e.core.setPred d.val e.on (f e.core)) e.OneMore

/-- The behaviour of shfl at issue. -/
def shflSpec (o : ShflOps) (e : Env) : Spec :=
  let w := regsFor (nBits o.ty)
  { guard := o.g, noCox := true, coll := true, fieldsOk := e.width == 64 || o.q.val != 5,
    uses := [.dst o.d w, useR 1 o.a w, useR 2 o.b 1], marks := markOf o.a.src o.a.last w ++ markOf o.b.src o.b.last 1 }

/-- shfl completes wherever its group executes it and no value read is EXPIRED or POISON: each lane takes A of the lane that `f` gives. An EXPIRED value takes EXPIRED_READ, else a POISON one POISON_CONSUMED; a segment of 64 in a 32-wide gang is ILLEGAL_ENCODING. -/
def ShuffleOp (c : ShflOps → Instr) (f : Nat → Nat → Nat → Nat) : Prop :=
  ∀ o s e, let n := nBits o.ty
    let r := fun l =>
      let b := e.rsrc .w32 l o.b
      let a := e.rsrc (rdN n) (f (2 ^ (o.q.val + 1)) l b.bits) o.a
      (⟨[a.st, b.st], a.bits, joinSt a.st b.st, 0⟩ : LaneRes)
    s.env 12 o.g = some e →
    (e.executes (shflSpec o e) = true →
      ((∀ l ∈ e.computing o.d, (r l).st = .live) → WriteStep (c o) s s e (shflSpec o e) e.core o.d (regsFor n) r e.OneMore) ∧
      ((∃ l ∈ e.computing o.d, .expired ∈ (r l).reads) → TrapStep (c o) s e (Trap.plain cExpiredRead)) ∧
      ((∃ l ∈ e.computing o.d, (r l).st = .poison) → (∀ l ∈ e.computing o.d, .expired ∉ (r l).reads) → TrapStep (c o) s e (Trap.plain cPoisonConsumed))) ∧
    (o.q.val = 5 → e.width ≠ 64 → e.noExplicit → TrapStep (c o) s e (Trap.plain cIllegalEncoding))

/-- A quorum completes wherever its group executes it: the test of the number of active lanes whose predicate is set, the same in every lane. A threshold that is no uniform operand is ILLEGAL_REGISTER. -/
def QuorumOp (i : Instr) (g : Guard) (k : Fin 6) (q : PReg) (uses : List Use) (test : Env → Nat → Bool) : Prop :=
  ∀ s e, let sp : Spec := { guard := g, noCox := true, coll := true, uses := uses }
    s.env 8 g = some e →
    (e.executes sp = true → CoreStep i s s e sp
      (e.core.setPredPair k.val e.on (if test e (countLanes (e.act &&& e.core.pred q.val)) then BitVec.allOnes 64 else 0)) e.OneMore) ∧
    (∀ t, uses = [.uni 1 t] → perGang t = false → e.cox = false → e.noExplicit → TrapStep i s e (Trap.withInfo cIllegalRegister (2 ^ 10 + fSrc.enc t)))

/-- A request of the legacy unit completes wherever its group executes it, its core has a credit and no lane reads an EXPIRED value: the result is in flight and the die's unit has the request. -/
def LegacyOp (i : Instr) (g : Guard) (d : Dst) (w : Nat) (ms : List (Nat × MSrc × Nat)) (f : Env → Nat → LaneRes) : Prop :=
  ∀ s e c, s.env 12 g = some e → e.crew = some c → e.executes (lgcSpec g d w ms e) = true →
    s.legacyOut (coreDie c.coreIx) c.coreIx < 8 → anyExpired (e.results d (f e)) = false →
    CoreStep i s { s with nextId := s.nextId + 1, legacy := s.legacy ++ [(coreDie c.coreIx, c.coreIx, e.g.id, s.nextId)] } e (lgcSpec g d w ms e)
      (queuedCore s e .legacy d w (f e)) e.OneMore

/-! ## Jumps -/

/-- Executing lanes go where `f` says, the others fall through (R29, R31). -/
def Env.goes (e : Env) (f : Nat → Word64) (l : Nat) : Word64 := if e.on.getLsbD l then f l else e.nextPc

/-- The step moves the lanes of its gang, takes last reads, and changes nothing else. -/
def JumpStep (i : Instr) (s : State) (e : Env) (sp : Spec) (f : Nat → Word64) : Prop :=
  GangStep i s s e (fun b => SamePlaceless { e.core with regs := b.regs } b ∧ LoopsKept e.core b ∧ KeptRegs e sp b ∧
    MovedTo b e.act .ready (e.goes f)) e.OneMore

/-- The step writes the address after it to the link pair `d` of each lane and moves the lanes. -/
def CallStep (i : Instr) (s : State) (e : Env) (sp : Spec) (d : Dst) (f : Nat → Word64) : Prop :=
  GangStep i s s e (fun b => SamePlaceless { e.core with regs := b.regs, sregs := b.sregs } b ∧ LoopsKept e.core b ∧
    WroteLanes s e sp d 2 (fun _ => ⟨[], e.nextPc.toNat, .live, 0⟩) b ∧ MovedTo b e.act .ready (e.goes f)) e.OneMore

/-- A transfer target that R25 and R208 accept. -/
def goodTarget (t : Nat) : Prop := t % 4 = 0 ∧ canonical t = true

/-- The sub-gangs of a gang after its issuing group stalled. -/
def Env.stalled (e : Env) (w : Stall) : List SubGang :=
  mapIf (fun y => y.lanes == e.x.lanes) (fun y => { y with wait := .stall w, waited := 0 }) e.core.subs

/-- The group stalls (R347): nothing of the instruction has happened but what `s'` says; the group will issue it again. -/
def StallStep (i : Instr) (s s' : State) (e : Env) (w : Stall) : Prop :=
  exec i s = .next (s'.putGang { e.g with core := { e.core with subs := e.stalled w } })

/-- The chunk holds one instruction more and is closed (Table 5.1). -/
def Env.Closed (e : Env) (c : Chunk) : Prop := c = { e.g.openChunk with count := e.g.openChunk.count + 1, closed := true }

/-- The chunk holds one instruction more, one deferred effect more, and is otherwise as it was. -/
def Env.Defers (e : Env) (d : Deferred) (c : Chunk) : Prop :=
  c = { e.g.openChunk with count := e.g.openChunk.count + 1, closed := c.closed, defer := e.g.openChunk.defer ++ [d] }

/-! ## Instructions that are a chunk of their own (R110) -/

/-- The blocks of the loop buffer that outlive a chunk's end: those that no icinv has discarded (R217). -/
def Gang.blocksKept (g : Gang) : List LoopBlock := g.lbuf.filter (fun b => !b.stale)

/-- The package after the commit of a chunk of one instruction that touched no line: the token goes back, old code bytes held for the gang are gone, a commit is counted for a gang (R116, R134, R418). -/
def Env.ownEnd (e : Env) (s : State) : State :=
  ((if e.cox then s else s.count (ctrCommit (s.dieOf e.g) e.g.squashes) 1).dropToken e.g.id).endStale e.g.id

/-- The instruction executes and commits at one point: the package is `s'` after the commit but for the issuing gang, whose core `P` describes and which has no chunk, no squash counted and no token. -/
def OwnStep (i : Instr) (s s' : State) (e : Env) (P : GangCore → Prop) : Prop :=
  ∃ t h, exec i s = .next t ∧ t = (e.ownEnd s').setGangs t.gangs ∧ (∀ k, k ≠ e.g.id → t.gang? k = s'.gang? k) ∧
    t.gang? e.g.id = some h ∧ h = { e.g with core := h.core, chunk := none, squashes := 0, token := .none, lbuf := e.g.blocksKept } ∧ P h.core

/-- A chunk of its own that leaves the core as `k`, its lanes standing where `next` sends them in the wait `w`. -/
def OwnCore (i : Instr) (s s' : State) (e : Env) (k : GangCore) (w : Wait) (next : Nat → Word64) : Prop :=
  OwnStep i s s' e (fun b => b = { k with subs := b.subs } ∧ MovedTo b e.act w next)

/-- Latches that reach the gang while its instruction acts are its own (R234). -/
def Env.latched (e : Env) (s' : State) (k b : GangCore) : Prop :=
  ∃ h, s'.gang? e.g.id = some h ∧ b = { k with subs := b.subs, evpend := h.core.evpend }

/-- The gang's open chunk ends before the instruction, of which nothing has happened (Table 5.1). -/
def CloseStep (i : Instr) (s s' : State) (e : Env) : Prop :=
  exec i s = .next (s'.putGang { e.g with chunk := e.g.chunk.map (fun c => { c with closed := true }) })

/-- The implied wait of R229 before an instruction that would raise a counter to 64, outside an explicit chunk: the open chunk ends before it, and with none the group stalls until 62 or fewer of that class are left. -/
def WaitsForRoom (i : Instr) (n : Nat) (gd : Guard) (sp : Env → Spec) : Prop :=
  ∀ s e, s.env n gd = some e → e.awaits (sp e) = false → e.check (sp e) = none → e.on ≠ 0 → e.noExplicit →
    ((sp e).coll = true → e.collWay = .go) → ∀ w : Stall,
    (((sp e).ctr = .ld ∧ 63 ≤ e.core.ld ∧ w = .counters 62 63 63 63) ∨ ((sp e).ctr = .st ∧ 63 ≤ e.core.st ∧ w = .counters 63 62 63 63) ∨
     ((sp e).ctr = .cp ∧ 63 ≤ e.core.cp ∧ w = .counters 63 63 62 63) ∨ ((sp e).ctr = .tl ∧ 63 ≤ e.core.tl ∧ w = .counters 63 63 63 62)) →
    (e.g.openChunk.count = 0 → StallStep i s s e w) ∧ (e.g.openChunk.count ≠ 0 → CloseStep i s s e)

/-- A chunk of instructions that touched nothing. -/
def Chunk.bare (c : Chunk) : Prop :=
  c.stores = 0 ∧ c.rset = [] ∧ c.wset = [] ∧ c.qset = [] ∧ c.gst = [] ∧ c.cst = [] ∧ c.tst = [] ∧ c.ops = [] ∧ c.defer = []

/-- A write of lines `w` and a reduction of lines `q` do not squash the gang's open chunk (R113). -/
def Gang.spared (g : Gang) (w q : List Line) : Prop := ∀ c, g.chunk = some c → c.hitBy w q = false

/-- The slot `j` of a gang is bound to a completion object at `la` with a threshold of at most `v` (R231, R234). -/
def Gang.awaitsObject (g : Gang) (j la v : Nat) : Prop :=
  ∃ b ctx sup va thr, g.core.binds.getD j none = some b ∧ b.src = .comp ctx sup va la thr ∧ thr ≤ v

/-! ## Explicit chunks (R117 to R120) -/

/-- The group meets the instruction inside the explicit chunk `c` opened by `x`, within its limits. -/
def Env.Inside (e : Env) (sp : Spec) (c : Chunk) (x : Expl) : Prop :=
  e.g.chunk = some c ∧ c.expl = some x ∧ e.check sp = none ∧ e.on ≠ 0 ∧ e.core.ctrFull sp.ctr = false ∧ e.interlocked sp = false ∧ e.awaits sp = false ∧
    c.count < 256 ∧ c.rCount ≤ 64 ∧ c.wCount ≤ 32

/-- The explicit chunk of a gang that was one sub-gang in no loop aborts (R119): the gang is as before its chk.begin, the status register holds the word of Table 5.4, the members stand at the fallback. -/
def AbortStep (i : Instr) (s : State) (e : Env) (c : Chunk) (x : Expl) (user cause status : Nat) : Prop :=
  ∀ y, x.before.subs = [y] → y.lanes = x.members → x.before.fams = [] → x.before.ldepth = 0 →
    let g := s.undoExplicit e.g c x
    let off := (e.pc + 2 ^ 64 - x.pc.toNat) % 2 ^ 32
    exec i s = .next (((s.dropToken e.g.id).endStale e.g.id).putGang { g with
      squashes := 0, token := .none, lbuf := g.blocksKept,
      core := { g.core.setSreg x.status.val (BitVec.ofNat 64 (off * 2 ^ 32 + user * 2 ^ 16 + cause * 2 ^ 8 + status)) with
        subs := [{ y with pc := x.fallback, wait := .ready, waited := 0 }] } })

/-- An instruction that no explicit chunk may hold takes trap `t`. Inside an explicit chunk it aborts it instead: with UNSUPPORTED, whose code is lower than FAULT's, with LENGTH as the 257th instruction, and where its guard holds in no lane, so that it is not executed, with FAULT and the cause (R119, Table 5.3). -/
def TrapOrAbort (i : Instr) (s : State) (e : Env) (t : Trap) : Prop :=
  (e.noExplicit → TrapStep i s e t) ∧
  (∀ c x, e.g.chunk = some c → c.expl = some x →
    (e.on = 0 → AbortStep i s e c x 0 t.cause stFault) ∧
    (e.on ≠ 0 → AbortStep i s e c x 0 0 (if 256 ≤ c.count then stLength else stUnsupported)))

/-! ## Lane accesses to memory -/

/-- The lanes' addresses translate one after the other, to the locations `loc`; the package is then `s'`, which may cache more translations. -/
def Env.walks (e : Env) (k : AccKind) (ea : Nat → Nat) (loc : Nat → Loc) : List Nat → State → State → Prop
  | [], s, s' => s' = s
  | l :: r, s, s' => ∃ s1, s.xlat e.ctx e.sup k .lane (ea l) = (.ok (loc l), s1) ∧ e.walks k ea loc r s1 s'

/-- The same where a lane's page may be missing. -/
def Env.walksSome (e : Env) (k : AccKind) (ea : Nat → Nat) (loc : Nat → Option Loc) : List Nat → State → State → Prop
  | [], s, s' => s' = s
  | l :: r, s, s' => ∃ s1, s.xlat e.ctx e.sup k .lane (ea l) = ((match loc l with | some x => .ok x | none => .error cPageNotPresent), s1) ∧
      e.walksSome k ea loc r s1 s'

/-- Every executing lane of an operand-store access finds its place (R78, R82): address LIVE and aligned, in range. -/
def Env.finds (e : Env) (s : State) (own : Crew) (sp : Space) (n : Nat) (ea : Nat → VSt × Nat) (p : Nat → Place) : Prop :=
  ∀ l ∈ e.lanes, (ea l).1 = .live ∧ (ea l).2 % n = 0 ∧ s.storePlace e.opened.g own sp l (ea l).2 n = some (p l)

/-- Every executing lane of a global access finds its location (R248): address LIVE, canonical and aligned, translated. -/
def Env.reaches (e : Env) (s s' : State) (k : AccKind) (n : Nat) (ea : Nat → VSt × Nat) (loc : Nat → Loc) : Prop :=
  (∀ l ∈ e.lanes, (ea l).1 = .live ∧ canonical (ea l).2 = true ∧ (ea l).2 % n = 0) ∧ e.walks k (fun l => (ea l).2) loc e.lanes s s'

/-- No lane's line is one that the chunk reduces (R125). -/
def Env.noQ (e : Env) (p : Nat → Place) : Prop := ∀ l ∈ e.lanes, e.g.openChunk.inQ (p l) = false

/-- The open chunk with the lanes' lines read, and with the lanes' bytes stored, lane after lane (R109). -/
def Env.readChunk (e : Env) (p : Nat → Place) : Chunk := e.lanes.foldl (fun c l => c.readsAt (p l)) e.g.openChunk
def Env.storeChunk (e : Env) (p : Nat → Place) (bs : Nat → List Byte) : Chunk :=
  e.lanes.foldl (fun c l => (c.writesAt (p l)).hold (p l) (bs l)) e.g.openChunk

/-- A chunk that an instruction leaves within its limits, or in which it is the first (Table 5.1). -/
def Env.fits (e : Env) (c : Chunk) : Prop := e.g.openChunk.count = 0 ∨ overLimit c = false

/-- The chunk is `c` with one instruction more, but for its pages and whether it is closed. -/
def OneMoreOf (c k : Chunk) : Prop := k = { c with count := c.count + 1, pages := k.pages, closed := k.closed }

/-! ## Commands and matrix requests -/

/-- The command that the instruction queues (R259). -/
def Env.command (e : Env) (s : State) (kind : CmdKind) (obj : Option Nat) : Cmd :=
  { id := s.nextId, gang := e.g.id, crew := e.g.crew, ctx := e.ctx, sup := e.sup,
    die := (match e.crew with | some c => coreDie c.coreIx | none => 0), engine := 0, kind := kind, obj := obj, insn := e.insn s,
    prog := Progress.start, waitVa := none, failed := none, finished := false, corrupt := false }

/-- Checks 3 to 6 of R260 pass: global addresses canonical, every address aligned, the object translated as a store's address, every range of crew space in one live block. The package is then `s'`, which may cache a translation more. -/
def Env.mayCommand (e : Env) (s s' : State) (obj : Option Nat) (addrs : List EAddr) : Prop :=
  (∀ x ∈ addrs, x.a % x.align = 0 ∧
    (match x.sp with
     | .glob => canonical x.a = true
     | .crew => ∃ c, e.crew = some c ∧ (s.crewView e.opened.g c).covers x.a x.len = true)) ∧
  (match obj with
   | none => s' = s
   | some a => canonical a = true ∧ a % 8 = 0 ∧ ∃ l, s.xlat e.ctx e.sup .store .lane a = (.ok l, s'))

/-- The open chunk with a command more; one with a crew side reads the map line (R254). -/
def Env.commandChunk (e : Env) (c : Cmd) (addrs : List EAddr) : Chunk :=
  let k := { e.g.openChunk with defer := e.g.openChunk.defer ++ [.cmd c] }
  match e.crew with
  | some w => if addrs.any (fun x => x.sp == .crew) then k.addR (.map w.id) else k
  | none => k

/-- A command instruction completes wherever its group executes it and its operands pass the checks: CP rises and the command waits for its chunk's commit. -/
def CommandOp (i : Instr) (n : Nat) (g : Guard) (sp : Env → Spec) (kind : Env → CmdKind) (k : Src) (addrs : Env → List EAddr) : Prop :=
  ∀ s s' e, let c := e.command s' (kind e) (objOf e k)
    s.env n g = some e → e.executes (sp e) = true → e.mayCommand s s' (objOf e k) (addrs e) → e.fits (e.commandChunk c (addrs e)) →
    CoreStep i s { s' with nextId := s'.nextId + 1 } e (sp e) { e.core with cp := e.core.cp + 1 } (OneMoreOf (e.commandChunk c (addrs e)))

/-- An access of `n` bytes by the lowest executing lane finds its location (R248), outside the lines that the chunk reduces. -/
def Env.oneAt (e : Env) (s s' : State) (k : AccKind) (n a : Nat) (l : Loc) : Prop :=
  canonical a = true ∧ a % n = 0 ∧ s.xlat e.ctx e.sup k .lane a = (.ok l, s') ∧ e.g.openChunk.inQ (.glob l.la) = false

/-- The bytes at `p` as the gang's chunk sees them are LIVE and are `bs`. -/
def Env.sees (e : Env) (s : State) (p : Place) (bs : List Byte) : Prop := s.seeBytes e.opened.g p bs.length = bs.map (fun b => (b, .live))

/-- The shape of tile register `m` as the gang's chunk sees it. -/
def Env.tileShape (e : Env) (s : State) (m : Nat) : Nat := match e.view s e.opened.g with | some c => c.shape m | none => 0

/-- Step 6 of R289 passes for an address: canonical in global space, aligned, its whole span in one live block in crew space. -/
def Env.mayMove (e : Env) (s : State) (crew : Bool) (a : Nat) (aligned : Prop) (span : Nat) : Prop :=
  (crew = false → canonical a = true) ∧ aligned ∧ (crew = true → ∃ c, e.view s e.opened.g = some c ∧ c.covers a span = true)

/-- Accumulator tile `n`, at offset `t` of the crew's window, is the context's or free (R287, R289). -/
def Env.ownsTile (e : Env) (s : State) (t n : Nat) : Prop :=
  ∃ c, e.view s e.opened.g = some c ∧ n = c.accbase + t ∧ n < c.acclim ∧
    ((s.acc (quadOf c.coreIx) n).owner = 0 ∨ (s.acc (quadOf c.coreIx) n).owner = e.ctx)

/-- The matrix request that the instruction makes (R282). -/
def Env.request (e : Env) (s : State) (c : Crew) (kind : ReqKind) : Req :=
  { id := s.nextId, gang := e.g.id, crew := c.id, ctx := e.ctx, quad := quadOf c.coreIx, prio := c.desc.prio, kind := kind, st := .queued,
    done := [], bias := [], data := [], pages := [], passed := 0, insn := e.insn s, corrupt := false }

/-- A request instruction whose operands pass completes where the quad's table and the gang have room: TL rises, the request waits for its chunk's commit, a free accumulator tile becomes the context's. -/
def RequestStep (i : Instr) (s : State) (e : Env) (sp : Spec) (kind : ReqKind) (tile : Option Nat) (crew : Bool) : Prop :=
  ∀ c, e.crew = some c → let q := quadOf c.coreIx
    let k := ({ e.g.openChunk with defer := e.g.openChunk.defer ++ [.req (e.request s c kind)] } : Chunk).addR (.cfg c.id)
    let k := if crew then k.addR (.map c.id) else k
    (∀ t, tile = some t → s.tileAwaited q t = false) → s.tableHeld q < 256 → s.gangHeld e.opened.g < 32 → e.fits k →
    CoreStep i s (({ s with nextId := s.nextId + 1 } : State).claim e.ctx q tile) e sp { e.core with tl := e.core.tl + 1 } (OneMoreOf k)

/-! ## Taking a trap -/

/-- The gang is held whole on a trap (R313, R314): one record more waits for the fault queue, SEQ rises, the only sub-gang is held at the trap's PC and no chunk is open; nothing else of the gang, no other gang and no byte of memory changes. -/
def HeldAt (s : State) (g : Gang) (x : SubGang) (st : Site) (t : Trap) (u : State) : Prop :=
  let seq := (g.seq + 1) % 2 ^ 20
  let r := gangRecord s g st t 0 seq x.lanes x.lanes
  u.fq.waiting = s.fq.waiting ++ [(0, r)] ∧ u.mem = s.mem ∧ (∀ k, k ≠ g.id → u.gang? k = s.gang? k) ∧
  u.gang? g.id = some { g with seq := seq, chunk := none, squashes := 0, token := .none, lbuf := g.blocksKept, core := { g.core with
    subs := [⟨x.lanes, BitVec.ofNat 64 st.pc, .held ⟨t.cause, seq, skipOf st.w0, true, .issue, r⟩, 0⟩] } }

/-- The lanes `m` of the gang's only sub-gang are held (R249, R313): one record more waits for the fault queue, SEQ rises, no chunk is open; the other lanes stay where they are and make a fault family with those held (R34). -/
def ParkedAt (s : State) (g : Gang) (x : SubGang) (st : Site) (t : Trap) (m : LaneMask) (u : State) : Prop :=
  let seq := (g.seq + 1) % 2 ^ 20
  let r := gangRecord s g st t 0 seq x.lanes m
  let rest := x.lanes &&& ~~~m
  let p : SubGang := ⟨m, BitVec.ofNat 64 st.pc, .held ⟨t.cause, seq, skipOf st.w0, true, .issue, r⟩, 0⟩
  u.fq.waiting = s.fq.waiting ++ [(0, r)] ∧ u.mem = s.mem ∧ (∀ k, k ≠ g.id → u.gang? k = s.gang? k) ∧
  u.gang? g.id = some { g with seq := seq, chunk := none, squashes := 0, token := .none, lbuf := g.blocksKept, core := { g.core with
    subs := if rest = 0 then [p] else [{ x with lanes := rest, waited := 0 }, p], fams := if rest = 0 then g.core.fams else g.core.fams ++ [⟨rest, m⟩] } }

/-- A cox core's state after a trap (R316): PC, cause, value and instruction bytes saved; at S, with TIP set and the old level in PPRIV. -/
def Cox.trapped (c : Cox) (st : Site) (t : Trap) : Cox :=
  { c with
    sepc := BitVec.ofNat 64 st.pc, scause := BitVec.ofNat 64 (bitsAt t.access 0 3 * 2 ^ 8 + t.cause), stval := BitVec.ofNat 64 t.tval,
    sinsn0 := BitVec.ofNat 64 (ofBytesLE (st.half.take 8)), sinsn1 := BitVec.ofNat 64 (ofBytesLE (st.half.drop 8)),
    sstatus := if c.sstatus.getLsbD 0 then 21 else 17 }

/-- `t` is `s` but for its list of gangs, in which one gang alone differs: it is now `g`. -/
def Became (s t : State) (g : Gang) : Prop :=
  t = s.setGangs t.gangs ∧ (∀ k, k ≠ g.id → t.gang? k = s.gang? k) ∧ t.gang? g.id = some g

/-! ## Writes of control registers -/

def putGuard : CsrPut → Guard
  | .w g _ => g
  | .x g _ _ _ => g

/-- The behaviour at issue of a write of register `c`. -/
def putSpec (p : CsrPut) (c : Csr) (e : Env) : Spec :=
  match p with
  | .w g a => csrSpec g c true [.uni 1 a] e
  | .x g d a b => csrSpec g c true [.dstS d, .uni 1 a, .uni 2 b] e

/-- The value that a write offers the register: A, or the old value with the bits of B replaced by those of A (R309). -/
def putValue (p : CsrPut) (c : Csr) (e : Env) (old : Nat) : Nat :=
  match p with
  | .w _ a => e.uni (csrRd c) a
  | .x _ _ a b => (old &&& (2 ^ 64 - 1 - e.uni (csrRd c) b)) ||| (e.uni (csrRd c) a &&& e.uni (csrRd c) b)

/-- csrx leaves the old value in D. -/
def putKeeps (p : CsrPut) (old : Nat) (k : GangCore) : GangCore :=
  match p with
  | .w .. => k
  | .x _ d _ _ => k.putS d (BitVec.ofNat 64 old)

/-- The group executes the write now. -/
def putReady (p : CsrPut) (s : State) (e : Env) (c : Csr) : Prop :=
  s.env 12 (putGuard p) = some e ∧ e.executes (putSpec p c e) = true ∧ e.alone = true ∧ e.g.chunk = none

/-- The write is done: the package is `s'`, the gang's core `k` but for D, the lanes after the instruction. -/
def putDone (p : CsrPut) (i : Instr) (s s' : State) (e : Env) (old : Nat) (k : GangCore) : Prop :=
  OwnCore i s s' e (putKeeps p old k) .ready (fun _ => e.nextPc)

end Machine

end Sys2Proof
end

