-- ==== Sys2Proof/Certificates/Slice0/Obligations.lean ====
section
/-! DEFINITION. The statements for the provers. -/

open Sys2Proof Sys2Proof.Machine

/-- iadd, isub, imul, imulhi, imad, imin, imax, iabs, lea and idp4 (R176, R178, R179): wherever the issuing group executes the instruction and no value read is EXPIRED, the destination of every executing lane holds the exact result in range form (modulo 2^n, or clamped under SAT), LIVE or POISON as the operands are, renewed; the other registers, flags, predicates and counters and all of memory are as they were; in a gang of one sub-gang, in no loop, the lanes go on to the next instruction. That B of lea.n64 names a register pair is DEDUCED (log entry 46); that NEG of idp4 negates the 32-bit word is the model's choice (log entry 97). -/
def Obligations.IntegerArithmetic : Prop :=
  IntOp .iadd (fun o n a b => intResult n (intSigned o.ty) o.sat (a + b)) ∧
  IntOp .isub (fun o n a b => intResult n (intSigned o.ty) o.sat (a - b)) ∧
  IntOp .imul (fun o n a b => intResult n (intSigned o.ty) o.sat (a * b)) ∧
  IntOp .imulhi (fun _ n a b => wrapInt n (a * b / (2 ^ n : Int))) ∧
  IntOp .imin (fun _ n a b => wrapInt n (if a ≤ b then a else b)) ∧
  IntOp .imax (fun _ n a b => wrapInt n (if a ≤ b then b else a)) ∧
  (∀ o : AluM IntTy MSrc RSrc Bool Unit Unit, let n := intBits o.ty; let w := regsFor n; let sg := intSigned o.ty
    LaneOp (.imad o) 12 o.g (aluSpec o.g (.dst o.d w) [(1, o.a, w), (2, o.b, w)] [(3, o.c, w)]) o.d w
      (fun e l => lane3 (e.msrc (rdN n) (.int n) l o.a) (e.msrc (rdN n) (.int n) l o.b) (e.rsrc (rdN n) l o.c)
        (fun a b c => intResult n sg o.sat (intOf n sg a * intOf n sg b + intOf n sg c)))) ∧
  (∀ o : AluM SIntTy Unit Unit Bool Unit Unit, let n := sBits o.ty; let w := regsFor n
    LaneOp (.iabs o) 12 o.g (aluSpec o.g (.dst o.d w) [(1, o.a, w)] []) o.d w
      (fun e l => lane1 (e.msrc (rdN n) (.int n) l o.a) (fun a => intResult n true o.sat (intOf n true a).natAbs))) ∧
  (∀ o : AluM LeaTy MSrc Unit Unit Unit Unit, let n := nBits o.ty.ty; let w := regsFor n
    LaneOp (.lea o) 12 o.g (aluSpec o.g (.dst o.d w) [(1, o.a, 1), (2, o.b, w)] []) o.d w
      (fun e l => lane2 (e.msrc .w32 (.int 32) l o.a) (e.msrc (rdN n) (.int n) l o.b) (fun a b => (a * 2 ^ o.ty.k.val + b) % 2 ^ n))) ∧
  (∀ o : AluM IdpTy MSrc RSrc Bool Unit Unit,
    LaneOp (.idp4 o) 12 o.g (aluSpec o.g (.dst o.d 1) [(1, o.a, 1), (2, o.b, 1)] [(3, o.c, 1)]) o.d 1
      (fun e l => lane3 (e.msrc .bytes (.int 32) l o.a) (e.msrc .bytes (.int 32) l o.b) (e.rsrc .w32 l o.c)
        (fun a b c => intResult 32 true o.sat (intOf 32 true c + (List.range 4).foldl (fun x j =>
          x + intOf 8 o.ty.aSigned (a / 256 ^ j) * intOf 8 o.ty.bSigned (b / 256 ^ j)) 0))))

/-- and, or, xor, andn, not, lanf, the shifts, the bit counts and the bit fields (Tables 8.2 and 8.3, R180 to R185): the destination holds the result, and the frame is that of integer arithmetic. A source that the control value makes unused (a bfi or bfe of length 0 or past the width, a shift count at or past it) still joins its state into the result's: the model's choice (log entry 90). -/
def Obligations.LogicAndShifts : Prop :=
  BitOp .and (fun _ a b => a &&& b) ∧ BitOp .or (fun _ a b => a ||| b) ∧ BitOp .xor (fun _ a b => a ^^^ b) ∧
  BitOp .andn (fun n a b => a &&& notBits n b) ∧
  (∀ o : AluM NTy MSrc Unit Unit Unit Unit, ShiftOp (.shl o) o.g o.d o.a o.b (nBits o.ty) (shlBits (nBits o.ty))) ∧
  (∀ o : AluM NTy MSrc Unit Unit Unit Unit, ShiftOp (.shr o) o.g o.d o.a o.b (nBits o.ty) (shrBits (nBits o.ty))) ∧
  (∀ o : AluM SIntTy MSrc Unit Unit Unit Unit, ShiftOp (.sar o) o.g o.d o.a o.b (sBits o.ty) (sarBits (sBits o.ty))) ∧
  (∀ o : AluM IntTy MSrc Unit Unit Unit Unit, ShiftOp (.bfe o) o.g o.d o.a o.b (intBits o.ty) (bfeBits (intBits o.ty) (intSigned o.ty))) ∧
  (∀ o : AluM NTy MSrc RSrc Unit Unit Unit, let n := nBits o.ty; let w := regsFor n
    LaneOp (.bfi o) 12 o.g (aluSpec o.g (.dst o.d w) [(1, o.a, w), (2, o.b, 1)] [(3, o.c, w)]) o.d w
      (fun e l => lane3 (e.msrc (rdN n) (.logic n) l o.a) (e.msrc .w32 (.logic 32) l o.b) (e.rsrc (rdN n) l o.c) (bfiBits n))) ∧
  (∀ o : AluB NTy, UnaryOp (.not o) o.g o.d o.a (nBits o.ty) (regsFor (nBits o.ty)) (notBits (nBits o.ty))) ∧
  (∀ o : AluB NTy, UnaryOp (.popc o) o.g o.d o.a (nBits o.ty) 1 (popCount (nBits o.ty))) ∧
  (∀ o : AluB NTy, UnaryOp (.clz o) o.g o.d o.a (nBits o.ty) 1 (leadZeros (nBits o.ty))) ∧
  (∀ o : AluB NTy, UnaryOp (.ctz o) o.g o.d o.a (nBits o.ty) 1 (trailZeros (nBits o.ty))) ∧
  (∀ o : AluB NTy, UnaryOp (.brev o) o.g o.d o.a (nBits o.ty) (regsFor (nBits o.ty)) (revBits (nBits o.ty))) ∧
  Word3Op .fshL (.logic 32) (fun a b c => (a * 2 ^ 32 + b) * 2 ^ (c % 32) / 2 ^ 32 % 2 ^ 32) ∧
  Word3Op .fshR (.logic 32) (fun a b c => (a * 2 ^ 32 + b) / 2 ^ (c % 32) % 2 ^ 32) ∧
  Word3Op .bpick (.int 32) (fun a b c => bpickByte a b c 0 + bpickByte a b c 1 * 2 ^ 8 + bpickByte a b c 2 * 2 ^ 16 + bpickByte a b c 3 * 2 ^ 24) ∧
  (∀ o : LanfOps, let n := nBits o.ty; let w := regsFor n
    LaneOp (.lanf o) 16 o.g (aluSpec o.g (.dst o.d w) [(1, o.a, w), (2, o.b, w)] [(3, o.c, w)]) o.d w
      (fun e l =>
        let a := e.msrc (rdN n) (.logic n) l o.a
        let b := e.msrc (rdN n) (.logic n) l o.b
        let c := e.rsrc (rdN n) l o.c
        let used (bit : Nat) (v : Val) : VSt := if lanfUses o.k bit then v.st else .live
        ⟨[a.st, b.st, c.st], lanfValue o.k n a.bits b.bits c.bits, joinSt (joinSt (used 2 a) (used 1 b)) (used 0 c), 0⟩))

/-- fadd, fsub, fmul, ffma, fmin, fmax, fabs, frnd, fclass and fscale (Table 8.7, R190, R191): exact, rounded once, flushed, with its flags; the frame is that of integer arithmetic. Whether 0 × infinity + quiet NaN raises NV in ffma is a free value (log entry 8); that NEG on B of fscale negates an integer is log entry 33's (DEDUCED), that the legacy compare-select of fmin and fmax leaves its result unflushed log entry 47's (DEDUCED). -/
def Obligations.FloatArithmetic : Prop :=
  FltOp .fadd (·.rnd) (·.sat) fAdd ∧ FltOp .fsub (·.rnd) (·.sat) fSub ∧ FltOp .fmul (·.rnd) (·.sat) fMul ∧
  FltOp .fmin (fun _ => .dyn) (fun _ => false) (fun p f => fMinMax p f false) ∧
  FltOp .fmax (fun _ => .dyn) (fun _ => false) (fun p f => fMinMax p f true) ∧
  (∀ o : AluM FltTy MSrc RSrc Bool Rnd Unit, let k := fltFmt o.ty; let w := regsFor k.width
    LaneOp (.ffma o) 12 o.g (aluSpec o.g (.dst o.d w) [(1, o.a, w), (2, o.b, w)] [(3, o.c, w)]) o.d w
      (fun e l => laneF3 (e.msrc (.flt k) (.flt k) l o.a) (e.msrc (.flt k) (.flt k) l o.b) (e.rsrc (.flt k) l o.c)
        (fun a b c => satF k o.sat (fFma (fpEnv e.core.fpmode o.rnd) k Config.fmaZeroInfNan a b c)))) ∧
  (∀ o : AluB FltTy, let k := fltFmt o.ty; let w := regsFor k.width
    LaneOp (.fabs o) 8 o.g (aluSpec o.g (.dst o.d w) [] [(1, o.a, w)]) o.d w (fun e l => lane1 (e.rsrc (.flt k) l o.a) (fun a => a % k.signBit))) ∧
  (∀ o : AluM FltTy Unit Unit Unit Rnd Unit, let k := fltFmt o.ty; let w := regsFor k.width
    LaneOp (.frnd o) 12 o.g (aluSpec o.g (.dst o.d w) [(1, o.a, w)] []) o.d w
      (fun e l => laneF1 (e.msrc (.flt k) (.flt k) l o.a) (fRnd (fpEnv e.core.fpmode o.rnd) k))) ∧
  (∀ o : AluB FltTy, let k := fltFmt o.ty
    LaneOp (.fclass o) 8 o.g (aluSpec o.g (.dst o.d 1) [] [(1, o.a, regsFor k.width)]) o.d 1
      (fun e l => lane1 (e.rsrc (.flt k) l o.a) (fun a => 2 ^ fClass k a))) ∧
  (∀ o : AluM FltTy MSrc Unit Bool Rnd Unit, let k := fltFmt o.ty; let w := regsFor k.width
    LaneOp (.fscale o) 12 o.g (aluSpec o.g (.dst o.d w) [(1, o.a, w), (2, o.b, 1)] []) o.d w
      (fun e l => laneF2 (e.msrc (.flt k) (.flt k) l o.a) (e.msrc .w32 (.int 32) l o.b)
        (fun a b => satF k o.sat (fScale (fpEnv e.core.fpmode o.rnd) k a (intOf 32 true b)))))

/-- hadd2, hmul2, hfma2, hmin2 and hmax2: both elements, or element 0 alone under `.lo` (R192). Whether 0 × infinity + quiet NaN raises NV in hfma2 is a free value (log entry 8); that the legacy compare-select of hmin2 and hmax2 leaves its result unflushed is log entry 47's (DEDUCED). -/
def Obligations.PackedArithmetic : Prop :=
  PackedOp .hadd2 (·.rnd) (·.sat) fAdd ∧ PackedOp .hmul2 (·.rnd) (·.sat) fMul ∧
  PackedOp .hmin2 (fun _ => .dyn) (fun _ => false) (fun p f => fMinMax p f false) ∧
  PackedOp .hmax2 (fun _ => .dyn) (fun _ => false) (fun p f => fMinMax p f true) ∧
  (∀ o : AluM HTy MSrc RSrc Bool Rnd Bool, let k := hFmt o.ty
    LaneOp (.hfma2 o) 12 o.g (aluSpec o.g (.dst o.d 1) [(1, o.a, 1), (2, o.b, 1)] [(3, o.c, 1)]) o.d 1
      (fun e l => laneF3 (e.msrc (.pk k) (.pk k) l o.a) (e.msrc (.pk k) (.pk k) l o.b) (e.rsrc (.pk k) l o.c)
        (fun a b c => packed o.xf (fun j =>
          satF k o.sat (fFma (fpEnv e.core.fpmode o.rnd) k Config.fmaZeroInfNan (half16 a j) (half16 b j) (half16 c j))))))

/-- mov, movi, movx and sel (R186 to R188). sel with a scalar destination takes the predicate of one executing lane, which one is open (log entry 10). -/
def Obligations.Moves : Prop :=
  (∀ o : AluB NTy, UnaryOp (.mov o) o.g o.d o.a (nBits o.ty) (regsFor (nBits o.ty)) (fun a => a)) ∧
  (∀ o : MoviOps, let n := intBits o.ty
    LaneOp (.movi o) 12 o.g (aluSpec o.g (.dst o.d (regsFor n)) [] []) o.d (regsFor n)
      (fun _ _ => ⟨[], wrapInt n (if intSigned o.ty then o.imm.toInt else o.imm.toNat), .live, 0⟩)) ∧
  (∀ (o : MovxOps) (s : State) (e : Env), let w := regsFor (nBits o.ty); let k := movxReg e (vcode o.a) w o.b
    let sp : Spec := { guard := o.g, noCox := true, uses := [.dstV o.d w, .vec 1 o.a w, .uni 2 o.b], more := rangeFrom (k % 1024) w }
    let f := fun l => lane1 (e.core.vval (w == 2) k l) (fun a => a)
    s.env 12 o.g = some e → e.executes sp = true → movxOk e k w = true → anyExpired (e.results o.d f) = false →
      LaneStep (.movxRd o) s s e sp o.d w f) ∧
  (∀ (o : MovxOps) (s : State) (e : Env) (k : Fin 768), let n := nBits o.ty; let w := regsFor n
    let sp : Spec := { guard := o.g, noCox := true, uses := [.dstV o.d w, .src 1 o.a w, .uni 2 o.b], more := rangeFrom (k.val % 1024) w }
    let f := fun l => lane1 (e.src (rdN n) l o.a) (fun a => a)
    s.env 12 o.g = some e → k.val = movxReg e (dcode o.d) w o.b → e.executes sp = true → movxOk e k.val w = true →
      anyExpired (e.results (.v k) f) = false → LaneStep (.movxWr o) s s e sp (.v k) w f) ∧
  (∀ (o : AluM NTy MSrc PReg Unit Unit Unit) (s : State) (e : Env), let n := nBits o.ty; let w := regsFor n
    let sp := aluSpec o.g (.dst o.d w) [(1, o.a, w), (2, o.b, w)] [] e
    let f (p : Nat → Nat) := fun l =>
      let a := e.msrc (rdN n) (.logic n) l o.a
      let b := e.msrc (rdN n) (.logic n) l o.b
      let v := if (e.core.pred o.c.val).getLsbD (p l) then a else b
      (⟨[a.st, b.st], v.bits, v.st, 0⟩ : LaneRes)
    s.env 12 o.g = some e → e.executes sp = true → anyExpired (e.results o.d (f id)) = false →
      match o.d with
      | .v _ => LaneStep (.sel o) s s e sp o.d w (f id)
      | .s _ => ∃ lp ∈ e.lanes, ∃ k, LaneStep (.sel o) s { s with freeCtr := k } e sp o.d w (f (fun _ => lp)))

/-- iaddc and isubb (R177): the carry joins the exact sum; the carry-out, where one is named, says that the exact result lies outside the type. A POISON operand takes POISON_CONSUMED in the form that writes a carry-out (R76). -/
def Obligations.CarryArithmetic : Prop :=
  ∀ (o : AluM W32Ty MSrc (Option PReg) Unit Unit (Option PReg)) (s : State) (e : Env),
    let sg := o.ty == .i32
    let sp := aluSpec o.g (.dstV o.d 1) [(1, o.a, 1), (2, o.b, 1)] [] e
    let a := fun l => e.msrc .w32 (.int 32) l o.a
    let b := fun l => e.msrc .w32 (.int 32) l o.b
    let cin : Nat → Int := fun l => match o.c with | some p => if (e.core.pred p.val).getLsbD l then 1 else 0 | none => 0
    let claim := fun (i : Instr) (exact : Nat → Int) =>
      let f := fun l => lane2 (a l) (b l) (fun _ _ => wrapInt 32 (exact l))
      s.env 12 o.g = some e → e.executes sp = true → anyExpired (e.results o.d f) = false →
        ((o.xf.isSome = true → ∀ l ∈ e.lanes, (f l).st ≠ .poison) → WriteStep i s s e sp
          (match o.xf with | some p => e.core.setPred p.val e.on (maskOf (e.lanes.filter (fun l => carryOut sg (exact l)))) | none => e.core)
          o.d 1 f e.OneMore) ∧
        (o.xf.isSome = true → (∃ l ∈ e.lanes, (f l).st = .poison) → TrapStep i s e (Trap.plain cPoisonConsumed))
    claim (.iaddc o) (fun l => intOf 32 sg (a l).bits + intOf 32 sg (b l).bits + cin l) ∧
    claim (.isubb o) (fun l => intOf 32 sg (a l).bits - intOf 32 sg (b l).bits - cin l)

/-- icmp and fcmp (R189, Table 8.5): the condition to the even predicate of the pair, its complement to the odd one; an EXPIRED operand takes EXPIRED_READ, else a POISON one POISON_CONSUMED (R66, R76). -/
def Obligations.Compares : Prop :=
  (∀ o : CmpOps IntTy ICond, let n := intBits o.ty; let sg := intSigned o.ty
    CompareOp (.icmp o) o.g o.k (cmpSpec o.g o.a o.b (regsFor n))
      (fun e l => lane2 (e.rsrc (rdN n) l o.a) (e.rsrc (rdN n) l o.b) (fun a b => (icondHolds o.cnd (intOf n sg a) (intOf n sg b)).toNat))) ∧
  (∀ o : CmpOps FcTy FCond, let k := fcFmt o.ty
    CompareOp (.fcmp o) o.g o.k (cmpSpec o.g o.a o.b (regsFor k.width))
      (fun e l => laneF2 (e.rsrc (.flt k) l o.a) (e.rsrc (.flt k) l o.b)
        (fun a b => let r := fCmp (fpEnv e.core.fpmode .dyn) k o.cnd (a % 2 ^ k.width) (b % 2 ^ k.width); (r.1.toNat, r.2))))

/-- cvt, cvtpk and the four cvtsc (R193 to R195): the result is computed at issue and put in flight for the destination, flags are raised at once. That NEG of cvtsc.frome8 and cvtsc.froms24 negates the code as an integer is DEDUCED (log entry 11); that a consumed subnormal input sets ID where R97 has NV alone is the model's choice (log entry 74). -/
def Obligations.Conversions : Prop :=
  (∀ o : AluM NumTy Unit Unit Bool Rnd NumTy, let k := numKind o.ty; let j := numKind o.xf
    QueueOp (.cvt o) o.g .convert o.d (regsFor k.width) [(1, o.a, regsFor j.width)] []
      (fun e l => laneF1 (e.msrc j.rd j.neg l o.a) (convert (fpEnv e.core.fpmode o.rnd) k j o.sat))) ∧
  (∀ o : AluM PkTy MSrc RSrc Bool Rnd Unit, let k := pkKind o.ty; let n := k.width
    QueueOp (.cvtpk o) o.g .convert o.d 1 [(1, o.a, 1), (2, o.b, 1)] (if n = 16 then [] else [(3, o.c, 1)])
      (fun e l => laneF3 (e.msrc (.flt fp32) (.flt fp32) l o.a) (e.msrc (.flt fp32) (.flt fp32) l o.b)
        (if n = 16 then Val.live 0 else e.rsrc .w32 l o.c) (fun a b c =>
          let r0 := convert (fpEnv e.core.fpmode o.rnd) k (.flt fp32) o.sat a
          let r1 := convert (fpEnv e.core.fpmode o.rnd) k (.flt fp32) o.sat b
          (packWord n r0.1 r1.1 c, r0.2 ||| r1.2)))) ∧
  ScaleOp .cvtscToe8 (·.rnd) (.flt fp32) (.flt fp32) toE8 ∧ ScaleOp .cvtscTos24 (·.rnd) (.flt fp32) (.flt fp32) toS24 ∧
  ScaleOp .cvtscFrome8 (fun _ => .dyn) .w32 (.int 32) fromE8 ∧ ScaleOp .cvtscFroms24 (fun _ => .dyn) .w32 (.int 32) (fun _ => fromS24)

/-- frcp, frsq, fsqrt, fexp2, flog2, fsin, fcos and ftanh (R102, R196): the result is computed at issue and put in flight for the destination. -/
def Obligations.SpecialFunctions : Prop :=
  SfuOp32 .frcp .rcp ∧ SfuOp32 .frsq .rsq ∧ SfuOp32 .fexp2 .exp2 ∧ SfuOp32 .flog2 .log2 ∧ SfuOp32 .fsin .sin ∧ SfuOp32 .fcos .cos ∧
  SfuOp32 .ftanh .tanh ∧
  (∀ o : AluM FltTy Unit Unit Bool Rnd Unit, let k := fltFmt o.ty
    QueueOp (.fsqrt o) o.g .special o.d (regsFor k.width) [(1, o.a, regsFor k.width)] []
      (fun e l => laneF1 (e.msrc (.flt k) (.flt k) l o.a) (fun a => satF k o.sat (sfu (fpEnv e.core.fpmode o.rnd) k .sqrt a))))

/-- pand, por, pxor, pnot and pmov (R197): in each executing lane the named predicate, and not its pair, takes the result; source 15 is true everywhere. A D of 12 to 15, a source of 12 to 14, a reserved bit, a B of pnot or pmov, and an S above 4 trap ILLEGAL_ENCODING. -/
def Obligations.Predicates : Prop :=
  (∀ o, PredOp (.pand o) o.g o.d (fun c => c.predSrc o.a &&& c.predSrc o.b)) ∧
  (∀ o, PredOp (.por o) o.g o.d (fun c => c.predSrc o.a ||| c.predSrc o.b)) ∧
  (∀ o, PredOp (.pxor o) o.g o.d (fun c => c.predSrc o.a ^^^ c.predSrc o.b)) ∧
  (∀ o, PredOp (.pnot o) o.g o.d (fun c => ~~~(c.predSrc o.a))) ∧
  (∀ o, PredOp (.pmov o) o.g o.d (fun c => c.predSrc o.a)) ∧
  (∀ (c : GangCore) (p : Option PReg), c.predSrc p = match p with | some q => c.pred q.val | none => BitVec.allOnes 64) ∧
  RefusesFields 0x42 .b (fun r => 5 ≤ r.fn ∨ 12 ≤ r.d ∨ noPred r.a ∨ (r.fn < 3 ∧ noPred r.b) ∨ (3 ≤ r.fn ∧ r.b ≠ 0))

/-- shfl, quorum and ballot (R198 to R200): each lane takes A of the lane its segment and B give, whether or not that lane is active; the member lanes in which a predicate holds are counted against a threshold or against none and all; ballot takes the predicate of every member lane into one scalar register. A POISON value that shfl reads takes POISON_CONSUMED; a field that the rules refuse takes ILLEGAL_ENCODING, a vector threshold or destination where none may stand ILLEGAL_REGISTER. -/
def Obligations.GangExchange : Prop :=
  ShuffleOp .shflIdx (fun seg l d => (l - l % seg) + d % seg) ∧
  ShuffleOp .shflUp (fun seg l d => if d ≤ l % seg then l - d else l) ∧
  ShuffleOp .shflDown (fun seg l d => if l % seg + d < seg then l + d else l) ∧
  ShuffleOp .shflXor (fun seg l d => l ^^^ (d % seg)) ∧
  (∀ o : QuorumT, QuorumOp (.quorumGe o) o.g o.k o.q [.uni 1 o.t] (fun e n => decide (e.uni .w32 o.t ≤ n))) ∧
  (∀ o : QuorumT, QuorumOp (.quorumLt o) o.g o.k o.q [.uni 1 o.t] (fun e n => decide (n < e.uni .w32 o.t))) ∧
  (∀ o : QuorumS, QuorumOp (.quorumSame o) o.g o.k o.q [] (fun e n => n == 0 || n == countLanes e.act)) ∧
  (∀ (o : BallotOps) (s : State) (e : Env) (n : Fin 128), let sp : Spec := { guard := o.g, noCox := true, coll := true, uses := [.dstS o.d] }
    s.env 8 o.g = some e → o.d = .s n → e.executes sp = true →
      CoreStep (.ballot o) s s e sp (e.core.setSreg n.val (e.act &&& e.core.predSrc o.q)) e.OneMore) ∧
  (∀ (o : BallotOps) (s : State) (e : Env) (n : Fin 768), s.env 8 o.g = some e → o.d = .v n → e.cox = false → e.noExplicit →
    TrapStep (.ballot o) s e (Trap.withInfo cIllegalRegister (fDst.enc o.d))) ∧
  RefusesFields 0x43 .m (fun r => ¬ (0x3C1 ≤ r.c ∧ r.c ≤ 0x3C6) ∨ r.e0 ≠ 0 ∨ (∀ k, k < 4 → r.fn ≠ 8 + k ∧ r.fn ≠ 24 + k)) ∧
  RefusesFields 0x44 .cmp (fun r => 3 ≤ r.fn ∨ 12 ≤ r.d / 8 ∨ (r.fn = 2 ∧ r.a ≠ 0) ∨ r.b ≠ 0 ∨ r.c ≠ 0 ∨ r.lr ≠ 0) ∧
  RefusesFields 0x45 .b (fun r => r.fn ≠ 0 ∨ noPred r.a ∨ r.b ≠ 0 ∨ r.c ≠ 0)

/-- redux and scan (R105, R106, R201, R202): every executing lane takes the root of the tree, or the nodes that cover the lanes up to it. That the legacy compare-select of min and max leaves its result unflushed is DEDUCED (log entry 47). -/
def Obligations.Reductions : Prop :=
  (∀ (o : AluM RedSel Unit Unit Unit Rnd Unit) (s : State) (e : Env), let k := redKind o.ty.ty; let w := regsFor k.width
    let root := ((treeLevels (redCombine (fpEnv e.core.fpmode o.rnd) k o.ty.op) 6 (redLeaves k e o.a)).getD 6 []).headD (none, 0)
    s.env 12 o.g = some e → e.executes (redSpec o.g (.dst o.d w) o.a w e) = true → redTrap k e o.a = none →
      WriteStep (.redux o) s s e (redSpec o.g (.dst o.d w) o.a w e) { e.core with fpflags := e.core.fpflags ||| root.2 } o.d w
        (fun _ => ⟨[], root.1.getD (redIdentity k o.ty.op), .live, root.2⟩) e.OneMore) ∧
  (∀ (o : AluM RedSel Unit Unit Unit Rnd Bool) (s : State) (e : Env), let k := redKind o.ty.ty; let w := regsFor k.width
    let op := redCombine (fpEnv e.core.fpmode o.rnd) k o.ty.op
    let node := fun l => foldNodes op (coverNodes (treeLevels op 6 (redLeaves k e o.a)) (if o.xf then l else l + 1))
    let f := fun l => (⟨[], (node l).1.getD (redIdentity k o.ty.op), .live, (node l).2⟩ : LaneRes)
    s.env 12 o.g = some e → e.executes (redSpec o.g (.dstV o.d w) o.a w e) = true → redTrap k e o.a = none →
      WriteStep (.scan o) s s e (redSpec o.g (.dstV o.d w) o.a w e) { e.core with fpflags := flagsAfter e o.d f } o.d w f e.OneMore)

/-- lgc.div, rem, rcp, rsq, sin, cos, ex2, lg2, min and max at issue (R203, R204). -/
def Obligations.LegacyRequests : Prop :=
  (∀ o, LegacyOp (.lgcDiv o) o.g o.d 1 [(1, o.a, 1), (2, o.b, 1)]
    (fun e l => lane2 (e.msrc .w32 (.int 32) l o.a) (e.msrc .w32 (.int 32) l o.b) (lgcDiv (o.ty == .i32)))) ∧
  (∀ o, LegacyOp (.lgcRem o) o.g o.d 1 [(1, o.a, 1), (2, o.b, 1)]
    (fun e l => lane2 (e.msrc .w32 (.int 32) l o.a) (e.msrc .w32 (.int 32) l o.b) (lgcRem (o.ty == .i32)))) ∧
  (∀ o, LegacyOp (.lgcRcp o) o.g o.d 1 [(1, o.a, 1)] (fun e l => laneF1 (e.msrc (.flt fp32) (.flt fp32) l o.a) (lgcFloat .rcp))) ∧
  (∀ o, LegacyOp (.lgcRsq o) o.g o.d 1 [(1, o.a, 1)] (fun e l => laneF1 (e.msrc (.flt fp32) (.flt fp32) l o.a) (lgcFloat .rsq))) ∧
  (∀ o, LegacyOp (.lgcSin o) o.g o.d 1 [(1, o.a, 1)] (fun e l => laneF1 (e.msrc (.flt fp32) (.flt fp32) l o.a) (lgcTrig .sin))) ∧
  (∀ o, LegacyOp (.lgcCos o) o.g o.d 1 [(1, o.a, 1)] (fun e l => laneF1 (e.msrc (.flt fp32) (.flt fp32) l o.a) (lgcTrig .cos))) ∧
  (∀ o, LegacyOp (.lgcEx2 o) o.g o.d 1 [(1, o.a, 1)] (fun e l => laneF1 (e.msrc (.flt fp32) (.flt fp32) l o.a) (lgcFloat .exp2))) ∧
  (∀ o, LegacyOp (.lgcLg2 o) o.g o.d 1 [(1, o.a, 1)] (fun e l => laneF1 (e.msrc (.flt fp32) (.flt fp32) l o.a) (lgcFloat .log2))) ∧
  (∀ o, LegacyOp (.lgcMin o) o.g o.d 2 [(1, o.a, 2), (2, o.b, 2)]
    (fun e l => lane2 (e.msrc .w64 (.int 64) l o.a) (e.msrc .w64 (.int 64) l o.b) (lgcHalves (o.ty == .i64) false))) ∧
  (∀ o, LegacyOp (.lgcMax o) o.g o.d 2 [(1, o.a, 2), (2, o.b, 2)]
    (fun e l => lane2 (e.msrc .w64 (.int 64) l o.a) (e.msrc .w64 (.int 64) l o.b) (lgcHalves (o.ty == .i64) true)))

/-- bra, call, brx, callx, ret, nop and exit of a gang that is one sub-gang in no loop (R133, R207 to R211): the executing lanes go to their targets, the others fall through; a call writes the address after it to its link pair; exiting lanes are gone. A target that is no multiple of 4 takes ALIGNMENT, one that is not canonical PERMISSION, of the lowest lane that has one, the address with it (R25, R208, R314), for calls and other transfers alike; ACCESS 0 is the model's (log entry 13), and so is reading a 32-bit special as a zero-extended target (log entry 12). An EXPIRED target takes EXPIRED_READ, else a POISON one POISON_CONSUMED (R66, R76). -/
def Obligations.Transfers : Prop :=
  ((∀ (o : BraOps) (s : State) (e : Env), let t := BitVec.ofNat 64 e.pc + 4 * o.off.signExtend 64
    s.env 8 o.g = some e → e.alone = true → e.executes { guard := o.g } = true → goodTarget t.toNat →
      JumpStep (.bra o) s e { guard := o.g } (fun _ => t)) ∧
  (∀ (o : CallOps) (s : State) (e : Env), let t := BitVec.ofNat 64 e.pc + 4 * o.off.signExtend 64
    let sp : Spec := { guard := o.g, uses := [.dstV o.d 2] }
    s.env 8 o.g = some e → e.alone = true → e.executes sp = true → goodTarget t.toNat → CallStep (.call o) s e sp o.d (fun _ => t)) ∧
  (∀ (o : BrxOps) (s : State) (e : Env), let v := fun l => e.rsrc .w64 l o.a
    s.env 8 o.g = some e → e.alone = true → e.executes (brxSpec o.g o.a) = true → (∀ l ∈ e.lanes, (v l).st = .live ∧ goodTarget (v l).bits) →
      JumpStep (.brx o) s e (brxSpec o.g o.a) (fun l => BitVec.ofNat 64 (v l).bits) ∧
      JumpStep (.ret o) s e (brxSpec o.g o.a) (fun l => BitVec.ofNat 64 (v l).bits)) ∧
  (∀ (o : CallxOps) (s : State) (e : Env), let v := fun l => e.rsrc .w64 l o.a
    let sp : Spec := { guard := o.g, uses := [.dstV o.d 2, useR 1 o.a 2], marks := markOf o.a.src o.a.last 2 }
    s.env 8 o.g = some e → e.alone = true → e.executes sp = true → (∀ l ∈ e.lanes, (v l).st = .live ∧ goodTarget (v l).bits) →
      CallStep (.callx o) s e sp o.d (fun l => BitVec.ofNat 64 (v l).bits)) ∧
  (∀ (g : Guard) (s : State) (e : Env), s.env 8 g = some e → e.alone = true → e.executes { guard := g } = true →
    JumpStep (.nop g) s e { guard := g } (fun _ => e.nextPc) ∧
    GangStep (.exit g) s s e (fun b => b = { e.core with subs := b.subs, exited := e.core.exited ||| e.on } ∧
      MovedTo b (e.act &&& ~~~e.on) .ready (fun _ => e.nextPc)) e.OneMore) ∧
  (∀ (g : Guard) (s : State) (e : Env), s.env 12 g = some e → e.alone = true → e.executes { guard := g } = true →
    JumpStep (.nopL g) s e { guard := g } (fun _ => e.nextPc))) ∧
  (∀ (s : State) (e : Env) (l0 : Nat) (before after : List Nat), e.lanes = before ++ l0 :: after →
    let cause := fun t : Nat => if t % 4 ≠ 0 then cAlignment else cPermission
    (∀ o : BraOps, let t := (BitVec.ofNat 64 e.pc + 4 * o.off.signExtend 64).toNat
      s.env 8 o.g = some e → e.executes { guard := o.g } = true → ¬ goodTarget t →
        TrapStep (.bra o) s e (Trap.atAddr (cause t) t (lowestLane e.on) 0)) ∧
    (∀ o : CallOps, let t := (BitVec.ofNat 64 e.pc + 4 * o.off.signExtend 64).toNat
      s.env 8 o.g = some e → e.executes { guard := o.g, uses := [.dstV o.d 2] } = true → ¬ goodTarget t →
        TrapStep (.call o) s e (Trap.atAddr (cause t) t (lowestLane e.on) 0)) ∧
    (∀ o : CallxOps, let v := fun l => e.rsrc .w64 l o.a
      let sp : Spec := { guard := o.g, uses := [.dstV o.d 2, useR 1 o.a 2], marks := markOf o.a.src o.a.last 2 }
      s.env 8 o.g = some e → e.executes sp = true →
      (¬ goodTarget (v l0).bits → (∀ l ∈ before, goodTarget (v l).bits) → (∀ l ∈ e.lanes, (v l).st = .live) →
        TrapStep (.callx o) s e (Trap.atAddr (cause (v l0).bits) (v l0).bits l0 0)) ∧
      ((v l0).st = .expired → TrapStep (.callx o) s e (Trap.plain cExpiredRead)) ∧
      ((v l0).st = .poison → (∀ l ∈ e.lanes, (v l).st ≠ .expired) → TrapStep (.callx o) s e (Trap.plain cPoisonConsumed))) ∧
    (∀ o : BrxOps, let v := fun l => e.rsrc .w64 l o.a
      s.env 8 o.g = some e → e.executes (brxSpec o.g o.a) = true → ¬ goodTarget (v l0).bits → (∀ l ∈ before, goodTarget (v l).bits) →
      (∀ l ∈ e.lanes, (v l).st = .live) →
        TrapStep (.brx o) s e (Trap.atAddr (cause (v l0).bits) (v l0).bits l0 0) ∧ TrapStep (.ret o) s e (Trap.atAddr (cause (v l0).bits) (v l0).bits l0 0)) ∧
    (∀ o : BrxOps, let v := fun l => e.rsrc .w64 l o.a
      s.env 8 o.g = some e → e.executes (brxSpec o.g o.a) = true → (v l0).st = .expired →
        TrapStep (.brx o) s e (Trap.plain cExpiredRead) ∧ TrapStep (.ret o) s e (Trap.plain cExpiredRead)) ∧
    (∀ o : BrxOps, let v := fun l => e.rsrc .w64 l o.a
      s.env 8 o.g = some e → e.executes (brxSpec o.g o.a) = true → (v l0).st = .poison → (∀ l ∈ e.lanes, (v l).st ≠ .expired) →
        TrapStep (.brx o) s e (Trap.plain cPoisonConsumed) ∧ TrapStep (.ret o) s e (Trap.plain cPoisonConsumed)))

/-- lp, lpbrk and the loop step (R213 to R215) of a gang that is one sub-gang: lp opens a level, or passes the body when its count is 0; lanes that break wait at the end, and the loop ends when no lane is left in it; at the end of the body LC falls by one and the lanes go back to the start, or the loop ends. An lp names the body that the loop buffer serves (R217; which of nested bodies is the model's choice, log entry 72). -/
def Obligations.Loops : Prop :=
  (∀ (o : LpOps) (s : State) (e : Env), let sp : Spec := { guard := o.g, uses := [.uni 1 o.a] }
    let stop := BitVec.ofNat 64 (e.pc + 4 * o.dist.toNat)
    s.env 12 o.g = some e → e.executes sp = true → e.on = e.act →
    (e.alone = true → e.uni .w32 o.a = 0 → JumpStep (.lp o) s e sp (fun _ => stop)) ∧
    (e.whole = true → e.uni .w32 o.a ≠ 0 → e.core.ldepth < 3 → stop ≠ e.nextPc →
      let k : GangCore := { e.core with ldepth := e.core.ldepth + 1, loops := setAt e.core.ldepth ⟨BitVec.ofNat 32 (e.uni .w32 o.a), e.nextPc, stop, e.act, 0⟩ e.core.loops }
      GangStep (.lp o) s s { e with g := ({ e.g with core := k } : Gang).keepBody (s.bodyShort e.g e.nextPc stop) ⟨e.core.ldepth, e.nextPc, stop⟩ }
        (fun b => b = { k with subs := b.subs } ∧ MovedTo b e.act .ready (fun _ => e.nextPc)) e.OneMore) ∧
    (e.whole = true → e.uni .w32 o.a ≠ 0 → 3 ≤ e.core.ldepth → TrapStep (.lp o) s e (Trap.plain cIllegalEncoding))) ∧
  (∀ (g : Guard) (s : State) (e : Env) (k : LoopLevel), s.env 8 g = some e → e.whole = true → e.executes { guard := g } = true →
    (e.core.ldepth = 0 → TrapStep (.lpbrk g) s e (Trap.plain cIllegalEncoding)) ∧
    (e.core.loops = [k, LoopLevel.zero, LoopLevel.zero] → e.core.ldepth = 1 → k.lmask = e.act → k.xmask = 0 → k.stop ≠ e.nextPc →
      (e.on = e.act → GangStep (.lpbrk g) s s e (fun b => b = { e.core with subs := b.subs, loops := b.loops, ldepth := 0 } ∧
        MovedTo b e.act .ready (fun _ => k.stop)) e.OneMore) ∧
      (e.on ≠ e.act → GangStep (.lpbrk g) s s e (fun b =>
        b = { e.core with subs := b.subs, loops := [{ k with lmask := e.act &&& ~~~e.on, xmask := e.on }, LoopLevel.zero, LoopLevel.zero] } ∧
        ∀ l, l < 64 → e.act.getLsbD l = true →
          if e.on.getLsbD l then LaneAt b l k.stop (.loopEnd e.core.nextOrder) else LaneAt b l e.nextPc .ready) e.OneMore))) ∧
  (∀ (g : Guard) (s : State) (e : Env) (k : LoopLevel), s.env 8 g = some e → e.whole = true → e.executes { guard := g } = true → e.on = e.act →
    e.core.loops = [k, LoopLevel.zero, LoopLevel.zero] → e.core.ldepth = 1 → k.lmask = e.act → k.xmask = 0 → k.stop = e.nextPc →
    (k.lc ≠ 1 → GangStep (.nop g) s s e (fun b => b = { e.core with subs := b.subs, loops := [{ k with lc := k.lc - 1 }, LoopLevel.zero, LoopLevel.zero] } ∧
      MovedTo b e.act .ready (fun _ => k.start)) e.OneMore) ∧
    (k.lc = 1 → GangStep (.nop g) s s e (fun b => b = { e.core with subs := b.subs, loops := [{ k with lc := 0 }, LoopLevel.zero, LoopLevel.zero], ldepth := 0 } ∧
      MovedTo b e.act .ready (fun _ => k.stop)) e.OneMore))

/-- join (R36, R218): lanes wait at it until every live lane of the mask has arrived; then all that wait there go on together. -/
def Obligations.Joins : Prop :=
  ∀ (o : GA) (s : State) (e : Env), let sp : Spec := { guard := o.g, uses := [.sreg 1 o.a] }
    let m := BitVec.ofNat 64 (e.uni .w64 o.a) &&& allLanes e.width
    s.env 8 o.g = some e → e.executes sp = true → e.core.ldepth = 0 → e.core.fams = [] →
    (e.core.subs = [e.x] → m &&& e.act &&& ~~~e.on ≠ 0 →
      GangStep (.join o) s s e (fun b => b = { e.core with subs := b.subs } ∧
        ∀ l, l < 64 → e.act.getLsbD l = true →
          if e.on.getLsbD l then LaneAt b l (BitVec.ofNat 64 e.pc) (.join m e.core.nextOrder) else LaneAt b l e.nextPc .ready) e.OneMore) ∧
    (e.core.subs = [e.x] → m &&& e.act &&& ~~~e.on = 0 →
      GangStep (.join o) s s e (fun b => b = { e.core with subs := b.subs } ∧
        ∀ l, l < 64 → e.act.getLsbD l = true → LaneAt b l e.nextPc .ready) e.OneMore) ∧
    (∀ (y : SubGang) (m' : LaneMask) (k : Nat), (e.core.subs = [e.x, y] ∨ e.core.subs = [y, e.x]) → y.lanes ≠ e.x.lanes → y.wait = .join m' k →
      y.pc = BitVec.ofNat 64 e.pc → e.on = e.act →
      GangStep (.join o) s s e (fun b => b = { e.core with subs := b.subs } ∧
        ∃ z, b.subs = [z] ∧ z.lanes = e.act ||| y.lanes ∧ z.pc = e.nextPc ∧ z.wait = .ready) e.OneMore)

/-- chk.begin opens an explicit chunk that keeps the gang as it was; chk.end closes it; chk.abort undoes it with SOFTWARE and the code of A; a guard that differs across the lanes aborts with GUARD; a chk.begin inside an explicit chunk aborts it with UNSUPPORTED (R117 to R120, R219, R220). What an abort undoes: registers, predicates, place, loops, counters, FPMODE and FPFLAGS are those of the chk.begin; latches stay as a squash leaves them (R237), slots that the chunk rebound standing as their level does; registers and per-thread spaces whose expiry tick has passed have lapsed (R70). Outside an explicit chunk chk.end, chk.abort and chk.cut end the implicit chunk. PERMISSION of a fallback that is not canonical carries no address (the model's choice, log entry 13), and chk.begin itself is not counted (DEDUCED, log entry 21). -/
def Obligations.ExplicitChunks : Prop :=
  (∀ (o : ChkBeginOps) (s : State) (e : Env) (n : Fin 128), let sp : Spec := { guard := o.g, uses := [.dstS o.d], chunk := .before }
    let fb := BitVec.ofNat 64 e.pc + 4 * o.off.signExtend 64
    let x : Expl := { pc := BitVec.ofNat 64 e.pc, fallback := fb, status := n, members := e.act, before := e.core, block := s.curBlk }
    let k : GangCore := { e.core.setSreg n.val 0 with subs := [⟨e.act, e.nextPc, .ready, 0⟩] }
    s.env 12 o.g = some e → e.alone = true → e.executes sp = true → o.d = .s n → canonical fb.toNat = true →
    (e.on = e.act → GangStep (.chkBegin o) s s e (fun b => b = k) (fun c => c = { Chunk.fresh k with expl := some x })) ∧
    (e.on ≠ e.act → AbortStep (.chkBegin o) s e (Chunk.fresh e.core) x 0 0 8)) ∧
  (∀ (o : ChkBeginOps) (s : State) (e : Env) (c : Chunk) (x : Expl), s.env 12 o.g = some e →
    e.Inside { guard := o.g, uses := [.dstS o.d], chunk := .before } c x → AbortStep (.chkBegin o) s e c x 0 0 4) ∧
  (∀ (o : ChkBeginOps) (s : State) (e : Env), let fb := BitVec.ofNat 64 e.pc + 4 * o.off.signExtend 64
    s.env 12 o.g = some e → e.executes { guard := o.g, uses := [.dstS o.d], chunk := .before } = true → canonical fb.toNat = false →
      TrapStep (.chkBegin o) s e (Trap.plain cPermission)) ∧
  (∀ (g : Guard) (s : State) (e : Env), s.env 8 g = some e →
    (e.executes { guard := g, chunk := .bracket } = true → CoreStep (.chkEnd g) s s e { guard := g, chunk := .bracket } e.core e.Closed) ∧
    (e.executes { guard := g, chunk := .after } = true → CoreStep (.chkCut g) s s e { guard := g, chunk := .after } e.core e.Closed) ∧
    (∀ c x, e.Inside { guard := g, chunk := .bracket } c x →
      (e.on = e.act → e.alone = true →
        GangStep (.chkEnd g) s s e (fun b => b = { e.core with subs := b.subs } ∧ MovedTo b e.act .ready (fun _ => e.nextPc))
          (fun k => k = { c with count := c.count + 1, closed := true })) ∧
      (e.on ≠ e.act → AbortStep (.chkEnd g) s e c x 0 0 8))) ∧
  (∀ (o : GA) (s : State) (e : Env), let sp : Spec := { guard := o.g, uses := [.uni 1 o.a], chunk := .bracket }
    s.env 8 o.g = some e →
    (e.executes sp = true → CoreStep (.chkAbort o) s s e sp e.core e.Closed) ∧
    (∀ c x, e.Inside sp c x → AbortStep (.chkAbort o) s e c x (e.uni .w32 o.a % 2 ^ 16) 0 5)) ∧
  (∀ (s : State) (g : Gang) (c : Chunk) (x : Expl), spWf x.before.regFill x.before.regs = true →
    let code := s.regCode g
    let sp := s.thrCode g
    ∃ k : GangCore, s.undoExplicit g c x = { g with core := k, chunk := none } ∧
      k = { x.before with evpend := k.evpend, regFill := k.regFill, regs := k.regs, spaces := k.spaces } ∧
      (∀ j, j < 16 → k.evpend.getLsbD j = if c.rebound.getLsbD j
        then c.snap.evpend.getLsbD j || (x.before.slotsOf (fun y => s.level y && (match y with | .timer _ => false | _ => true))).getLsbD j
        else g.core.evpend.getLsbD j || c.polled.getLsbD j) ∧
      (∀ r l, let y := x.before.reg r l
        k.reg r l = if code % 8 ≠ 0 ∧ y.st ≠ .poison ∧ y.exp ≤ s.tick then ⟨0xFFFFFFFF, if code / 8 % 2 = 1 then .expired else .poison, y.exp⟩ else y) ∧
      k.spaces = x.before.spaces.map (fun a => if sp % 8 ≠ 0 ∧ a.exp ≤ s.tick then a.expire sp else a))

/-- Inside an explicit chunk: a member's nop and iadd act as outside one; an instruction that cannot stand there aborts with UNSUPPORTED, the 257th with LENGTH, a trap with FAULT and its cause, OPERAND_RANGE with RANGE, lanes that go to two places with DIVERGE, the 65th line read with READ_CAP and the 33rd written with WRITE_CAP (R118, R119, Table 5.3). That the 257th is counted without chk.begin is DEDUCED (log entry 21). -/
def Obligations.InsideExplicitChunks : Prop :=
  (∀ (g : Guard) (s : State) (e : Env) (c : Chunk) (x : Expl), s.env 8 g = some e →
    (e.Inside { guard := g } c x → e.alone = true → e.act &&& x.members ≠ 0 →
      GangStep (.nop g) s s e (fun b => b = { e.core with subs := b.subs } ∧ MovedTo b e.act .ready (fun _ => e.nextPc))
        (fun k => k = { c with count := c.count + 1 })) ∧
    (e.Inside { guard := g } c x → AbortStep (.exit g) s e c x 0 0 4) ∧
    (e.Inside { guard := g, chunk := .after } c x → AbortStep (.chkCut g) s e c x 0 0 4) ∧
    (e.g.chunk = some c → c.expl = some x → e.check { guard := g } = none → e.on ≠ 0 → e.interlocked { guard := g } = false → c.count = 256 →
      c.rCount ≤ 64 → c.wCount ≤ 32 → AbortStep (.nop g) s e c x 0 0 3)) ∧
  (∀ (o : AluM IntTy MSrc Unit Bool Unit Unit) (s : State) (e : Env) (c : Chunk) (x : Expl), let n := intBits o.ty; let w := regsFor n
    let sp := aluSpec o.g (.dst o.d w) [(1, o.a, w), (2, o.b, w)] [] e
    let f := fun l => lane2 (e.msrc (rdN n) (.int n) l o.a) (e.msrc (rdN n) (.int n) l o.b)
      (fun a b => intResult n (intSigned o.ty) o.sat (intOf n (intSigned o.ty) a + intOf n (intSigned o.ty) b))
    s.env 12 o.g = some e → e.Inside sp c x → e.alone = true → e.act &&& x.members ≠ 0 →
    (anyExpired (e.results o.d f) = false →
      GangStep (.iadd o) s s e (fun b => b = { e.core with subs := b.subs, regs := b.regs, sregs := b.sregs, fpflags := b.fpflags } ∧
        WroteLanes s e sp o.d w f b ∧ MovedTo b e.act .ready (fun _ => e.nextPc)) (fun k => k = { c with count := c.count + 1 })) ∧
    (anyExpired (e.results o.d f) = true → AbortStep (.iadd o) s e c x 0 cExpiredRead 6)) ∧
  (∀ (o : BarOps) (s : State) (e : Env) (c : Chunk) (x : Expl), s.env 8 o.g = some e →
    e.Inside { guard := o.g, noCox := true, coll := true, uses := if o.scope = .gang then [] else [.uni 1 o.a], chunk := .after } c x →
      AbortStep (.barArrive o) s e c x 0 0 4 ∧ AbortStep (.barWait o) s e c x 0 0 4 ∧ AbortStep (.barSync o) s e c x 0 0 4) ∧
  (∀ (o : FenceXOps) (s : State) (e : Env) (c : Chunk) (x : Expl), s.env 8 o.g = some e →
    e.Inside { guard := o.g, chunk := .after } c x → AbortStep (.fenceX o) s e c x 0 0 4) ∧
  (∀ (o : BraOps) (s : State) (e : Env) (c : Chunk) (x : Expl), let t := BitVec.ofNat 64 e.pc + 4 * o.off.signExtend 64
    s.env 8 o.g = some e → e.Inside { guard := o.g } c x → e.alone = true → goodTarget t.toNat → t ≠ e.nextPc → e.on ≠ e.act →
      AbortStep (.bra o) s e c x 0 0 9) ∧
  (∀ (o : GA) (s : State) (e : Env) (c : Chunk) (x : Expl) (k : Crew), s.env 8 o.g = some e → e.crew = some k →
    e.Inside { guard := o.g, noCox := true, uses := [.uni 1 o.a] } c x → (∀ a ∈ (s.crewView e.g k).allocs, a.holds (e.uni .w32 o.a) 1 = false) →
      AbortStep (.orenew o) s e c x 0 0 7) ∧
  (∀ (o : LdOps Space) (s : State) (e : Env) (c : Chunk) (x : Expl) (own : Crew) (p : Nat → Place), let n := ldBytes o.sz
    let sp : Spec := { guard := o.g, noCox := true, uses := ldDst e o.d n :: addrUses e o.a o.b 1, marks := addrMarks o.a o.b 1, ctr := .ld }
    s.env 12 o.g = some e → e.Inside sp c x → e.crew = some own → e.finds s own o.sp n (eaOf e 32 o.a o.b o.imm) p → 64 < (e.readChunk p).rCount →
      AbortStep (.ldo o) s e c x 0 0 1) ∧
  (∀ (o : StOps Space) (s : State) (e : Env) (c : Chunk) (x : Expl) (own : Crew) (p : Nat → Place), let n := stBytes o.sz
    let sp : Spec := { guard := o.g, noCox := true, uses := addrUses e o.a o.b 1 ++ [stUse e n o.c],
                       marks := addrMarks o.a o.b 1 ++ markOf o.c.src o.c.last (memRegs n), ctr := .st }
    s.env 12 o.g = some e → e.Inside sp c x → e.crew = some own → e.finds s own o.sp n (eaOf e 32 o.a o.b o.imm) p →
      (∀ l ∈ e.lanes, (storeVal e n l o.c).st = .live) → 32 < (e.storeChunk p (fun l => bytesLE n (storeVal e n l o.c).bits)).wCount →
      AbortStep (.sto o) s e c x 0 0 2)

/-- The stroke's commit of a closed implicit chunk (R112 to R114, R116, R121): the held bytes are in memory, every other byte is as it was; the gang has no chunk and keeps its registers; its deferred effects are released in their order after the commit point, in this step or later ones, as the choice `later` says, and until the last of them is released no group of the gang is ready (log entry 95); open chunks that hold a written line, or a reduced one against another use, run again, others are as they were: this is the commit with no further squash, which R113 allows (the list of false conflicts is empty, log entry 22). A commit that would strike the token's holder is squashed itself, and so is one whose new block meets bytes that are still in use (log entry 70). -/
def Obligations.ChunkCommit : Prop :=
  (∀ (s : State) (gid : Nat) (g : Gang), s.gang? gid = some g → g.chunk = none → g.releases ≠ [] → ∀ vs later,
    let g0 := { g with releases := [] }
    let n := g.releases.length - later
    (n < g.releases.length → exec (.chunkCommit gid ⟨vs, later⟩) s =
      .next ((g.releases.take n).foldl (fun u d => u.release g0 d) (s.putGang { g with releases := g.releases.drop n }))) ∧
    (later = 0 → exec (.chunkCommit gid ⟨vs, later⟩) s = .next ((g.releases.foldl (fun u d => u.release g0 d) (s.putGang g0)).afterCommit gid))) ∧
  ∀ (s : State) (gid : Nat) (g : Gang) (c : Chunk), s.gang? gid = some g → g.chunk = some c → c.closed = true →
    (s.holderHit (some gid) c.wset c.qset = true ∨ s.allocClash g c = true → ∀ vs later, exec (.chunkCommit gid ⟨vs, later⟩) s = .next (s.squash gid)) ∧
    (s.holderHit (some gid) c.wset c.qset = false → s.allocClash g c = false → (c.gst.map (·.1)).Nodup → (s.gangs.map (·.id)).Nodup → ∀ later,
      (c.defer = [] ∧ (∀ x ∈ g.core.subs, (match x.wait with | .bar _ | .events .. => false | _ => true) = true) ∧ (∃ x ∈ g.core.subs, x.atMeeting = false)) ∨
        (c.defer ≠ [] ∧ c.defer.length ≤ later) →
      ∃ t h, exec (.chunkCommit gid ⟨[], later⟩) s = .next t ∧
        (∀ a, memByte t.mem a = match c.gst.find? (fun b => b.1 == a) with | some b => b.2 | none => memByte s.mem a) ∧
        t.gang? gid = some h ∧ h = { g with core := h.core, chunk := none, squashes := 0, token := .none, lbuf := g.blocksKept
                                            releases := if c.defer = [] then g.releases else c.defer } ∧
        (c.defer ≠ [] → ∀ x, t.groupReady h x = false) ∧
        h.core = { g.core with spaces := h.core.spaces, st := g.core.st - c.stores } ∧ (c.tst = [] → h.core.spaces = g.core.spaces) ∧
        t.tokenHolder ≠ some gid ∧
        ∀ v w, v ≠ gid → s.gang? v = some w → w.token = .none → w.squashes < 3 →
          match w.chunk with
          | none => t.gang? v = some w
          | some k => if k.hitBy c.wset c.qset && s.tokenHolder != some v then t.gang? v = some { s.discardChunk w with squashes := w.squashes + 1 }
              else t.gang? v = some w)

/-- A squash undoes its chunk: registers, place, counters and loops are as at the chunk's start, latches that have come since stay (R114, R237); an explicit chunk starts again after its chk.begin. A register or per-thread space of the chunk's start whose expiry tick has passed under the gang's retention code lapses with it (R70). The fourth squash asks for the token, which the stroke gives to the oldest request of a running gang when it is free (R116); a gang that holds the token or awaits it counts no more, and one that gave the token up at a full mailbox or queue asks for it again once none of its groups stalls at one. -/
def Obligations.SquashesAndToken : Prop :=
  (∀ (s : State) (g : Gang) (c : Chunk), g.chunk = some c → s.regCode g % 8 = 0 → s.thrCode g % 8 = 0 → c.rebound = 0 → c.polled = 0 →
    let k : GangCore := { c.snap with evpend := g.core.evpend, subs := c.snap.subs.map (fun x => { x with waited := 0 }) }
    s.discardChunk g = { g with core := k, chunk := c.expl.map (fun x => { Chunk.fresh k with expl := some x }) }) ∧
  (∀ (s : State) (g : Gang) (c : Chunk), g.chunk = some c → c.rebound = 0 → c.polled = 0 → spWf c.snap.regFill c.snap.regs = true →
    let code := s.regCode g
    let sp := s.thrCode g
    ∃ k : GangCore, s.discardChunk g = { g with core := k, chunk := c.expl.map (fun x => { Chunk.fresh k with expl := some x }) } ∧
      k = { c.snap with evpend := g.core.evpend, subs := c.snap.subs.map (fun x => { x with waited := 0 }), regFill := k.regFill, regs := k.regs, spaces := k.spaces } ∧
      (∀ r l, let x := c.snap.reg r l
        k.reg r l = if code % 8 ≠ 0 ∧ x.st ≠ .poison ∧ x.exp ≤ s.tick then ⟨0xFFFFFFFF, if code / 8 % 2 = 1 then .expired else .poison, x.exp⟩ else x) ∧
      k.spaces = c.snap.spaces.map (fun a => if sp % 8 ≠ 0 ∧ a.exp ≤ s.tick then a.expire sp else a)) ∧
  (∀ (a : LaneSpace) (code w : Nat), spWf a.fill a.cells = true → let b := a.expire code
    b.lane = a.lane ∧ b.exp = a.exp ∧ cellAt b.fill b.cells w =
      if (cellAt a.fill a.cells w).st = .poison then cellAt a.fill a.cells w else ⟨0xFFFFFFFF, if code / 8 % 2 = 1 then .expired else .poison⟩) ∧
  (∀ (s : State) (gid : Nat) (g : Gang), s.gang? gid = some g → g.chunk.isSome = true → let h := s.discardChunk g
    (g.token = .granted ∨ g.token = .wanted → s.squash gid = s.putGang h) ∧
    (g.token = .none → g.squashes < 3 → s.squash gid = s.putGang { h with squashes := g.squashes + 1 })) ∧
  (∀ (s : State) (g : Gang) (x : SubGang) (l : Lane) (w : Stall) (rest : List SubGang), s.gang? g.id = some g → g.token = .lost → g.chunk = none → g.core.subs = x :: rest →
    (∀ y ∈ rest, lowestLane y.lanes ≠ l.val) → lowestLane x.lanes = l.val → x.wait = .stall w → w.past = false → s.stallOver g x w = true →
    let k := { g with core := { g.core with subs := { x with wait := .ready, waited := 0 } :: rest } }
    let still : Prop := ∃ y ∈ rest, (∃ m, y.wait = .stall (.mbx m)) ∨ ∃ q, y.wait = .stall (.queue q)
    (still → ∃ t, exec (.stallRelease g.id l) s = .next t ∧ Became s t k) ∧
    (¬ still → ∃ t, exec (.stallRelease g.id l) s = .next t ∧ t.gang? g.id = some { k with token := .wanted } ∧ t.tokenReqs = s.tokenReqs ++ [g.id] ∧ t.mem = s.mem)) ∧
  (∀ (s : State) (gid : Nat) (g : Gang), s.gang? gid = some g → g.chunk.isSome = true → g.token = .none → 3 ≤ g.squashes →
    ∃ h, (s.squash gid).gang? gid = some h ∧ h.token = .wanted ∧ h.squashes = 4 ∧ (s.squash gid).tokenReqs = s.tokenReqs ++ [gid]) ∧
  (∀ (s : State) (gid : Nat) (g : Gang) (before after : List Nat), s.tokenHolder = none → s.tokenReqs = before ++ gid :: after →
    (∀ k ∈ before, s.wantsToken k = false) → s.gang? gid = some g → g.token = .wanted → s.gangRuns g = true →
    ∃ t, exec .strokeTokenGrant s = .next t ∧ t.tokenHolder = some gid ∧ t.gang? gid = some { g with token := .granted } ∧
      (∀ k, k ≠ gid → t.gang? k = s.gang? k) ∧ t.mem = s.mem) ∧
  (∀ (s : State) (k : Nat), s.tokenHolder = some k → exec .strokeTokenGrant s = .next s)

/-- bar.arrive, bar.wait and bar.sync (R222 to R224): an arrival takes effect when the chunk commits, a wait parks the gang after it; at .gang scope they end the chunk and do no more; a slot the crew did not reserve takes RESOURCE. An arrival at a barrier slot (R223): the count rises; when it reaches the expected number, exited gangs that did not arrive counted, the phase rises by one and the count returns to 0, and gangs that wait there with an earlier phase pending go on; until then the arriving gang's pending phase is the slot's. When the chunk of a bar.wait has committed, the gang goes on unless its pending phase is the slot's phase (R224). -/
def Obligations.Barriers : Prop :=
  (∀ (o : BarOps) (s : State) (e : Env),
    let sp : Spec := { guard := o.g, noCox := true, coll := true, uses := if o.scope = .gang then [] else [.uni 1 o.a], chunk := .after }
    let n := e.uni .w32 o.a
    s.env 8 o.g = some e → e.executes sp = true →
    (o.scope = .gang → CoreStep (.barArrive o) s s e sp e.core e.Closed ∧ CoreStep (.barWait o) s s e sp e.core e.Closed ∧
      CoreStep (.barSync o) s s e sp e.core e.Closed) ∧
    (∀ c, o.scope ≠ .gang → e.crew = some c → n < c.desc.barSlots o.scope → let k := c.barKey o.scope n
      let q : Chunk → Prop := fun x => x = { e.g.openChunk with count := e.g.openChunk.count + 1, closed := true, defer := e.g.openChunk.defer ++ [.arrive k] }
      let p : GangCore → Prop := fun b => b = { e.core with subs := b.subs } ∧ MovedTo b e.act (.bar k) (fun _ => e.nextPc)
      CoreStep (.barArrive o) s s e sp e.core q ∧
      (e.alone = true → GangStep (.barWait o) s s e p e.Closed ∧ GangStep (.barSync o) s s e p q)) ∧
    (∀ c, o.scope ≠ .gang → e.crew = some c → c.desc.barSlots o.scope ≤ n →
      TrapStep (.barArrive o) s e (Trap.plain cResource) ∧ TrapStep (.barWait o) s e (Trap.plain cResource) ∧
      TrapStep (.barSync o) s e (Trap.plain cResource))) ∧
  (∀ (s : State) (k : BarKey) (who : Nat) (b : BarSlot), s.barSlot k = some b →
    let arrived := addNew who b.arrived
    let x := (b.gone.filter (fun g => !arrived.contains g)).length
    (s.barArrive k who).barSlot k = some (if b.need ≤ b.count + 1 + x then { b with phase := b.phase + 1, count := 0, arrived := [] }
      else { b with count := b.count + 1, arrived := arrived }) ∧
    (¬ b.need ≤ b.count + 1 + x → (s.gangs.map (·.id)).Nodup →
      (∀ g, s.gang? who = some g → ∃ h, (s.barArrive k who).gang? who = some h ∧ h = { g with bpend := h.bpend } ∧ h.pendPhase k = some b.phase) ∧
      ∀ w, w ≠ who → (s.barArrive k who).gang? w = s.gang? w) ∧
    (b.need ≤ b.count + 1 + x → (s.gangs.map (·.id)).Nodup → ∀ w g y p, w ≠ who → s.gang? w = some g → g.chunk = none → g.releases = [] → g.core.subs = [y] →
      y.wait = .bar k → y.lanes ≠ 0 → g.core.fams = [] → g.core.ldepth = 0 → g.pendPhase k = some p → p ≠ b.phase + 1 →
      ∃ h, (s.barArrive k who).gang? w = some h ∧ h.pendPhase k = none ∧
        h = { g with bpend := h.bpend, core := { g.core with evpend := h.core.evpend, subs := [{ y with wait := .ready, waited := 0 }] } })) ∧
  (∀ (s : State) (gid : Nat) (g : Gang) (c : Chunk) (k : BarKey) (b : BarSlot) (y : SubGang), s.gang? gid = some g → g.chunk = some c → c.closed = true → c.bare →
    s.tokenHolder = none → (s.gangs.map (·.id)).Nodup → g.core.subs = [y] → y.wait = .bar k → y.lanes ≠ 0 → g.core.fams = [] → g.core.ldepth = 0 →
    s.barSlot k = some b →
    ∃ t h, exec (.chunkCommit gid ⟨[], 0⟩) s = .next t ∧ t.gang? gid = some h ∧ t.barSlot k = some b ∧
      h = { g with core := h.core, chunk := none, squashes := 0, token := .none, lbuf := g.blocksKept, bpend := h.bpend } ∧
      (g.pendPhase k = some b.phase → h.core = g.core ∧ h.bpend = g.bpend) ∧
      (g.pendPhase k ≠ some b.phase → h.core = { g.core with subs := [{ y with wait := .ready, waited := 0 }] } ∧ h.pendPhase k = none))

/-- fence ends the chunk; fence.x ends it and holds the group until the accesses of its class have been performed; wait passes once the counters are at or below its limits, else ends the chunk or stalls; an instruction that would raise a counter to 64 waits likewise before it, with 62 for its own class and 63 for the others (R126, R225 to R229). -/
def Obligations.FencesAndWaits : Prop :=
  (∀ (o : FenceOps) (s : State) (e : Env), let sp : Spec := { guard := o.g, chunk := .after }
    s.env 8 o.g = some e → e.executes sp = true → CoreStep (.fence o) s s e sp e.core e.Closed) ∧
  (∀ (o : FenceXOps) (s : State) (e : Env), s.env 8 o.g = some e → e.alone = true → e.executes { guard := o.g, chunk := .after } = true →
    GangStep (.fenceX o) s s e (fun b => b = { e.core with subs := b.subs } ∧ MovedTo b e.act (.stall (.fence o.x s.nextId)) (fun _ => e.nextPc)) e.Closed) ∧
  (∀ (o : WaitOps) (s : State) (e : Env), let sp : Spec := { guard := o.g }
    let fits := e.core.ld ≤ o.ld.toNat ∧ e.core.st ≤ o.st.toNat ∧ e.core.cp ≤ o.cp.toNat ∧ e.core.tl ≤ o.tl.toNat
    s.env 12 o.g = some e → e.executes sp = true →
    (fits → CoreStep (.wait o) s s e sp e.core e.OneMore) ∧
    (¬ fits → e.g.openChunk.count = 0 → StallStep (.wait o) s s e (.counters o.ld.toNat o.st.toNat o.cp.toNat o.tl.toNat)) ∧
    (¬ fits → e.g.openChunk.count ≠ 0 → CloseStep (.wait o) s s e)) ∧
  (∀ i n gd sp, (∃ body, ∀ s, exec i s = issue n gd sp body s) → WaitsForRoom i n gd sp) ∧
  (∀ o : LdOps Unit, WaitsForRoom (.ldg o) 12 o.g (fun e => { guard := o.g, uses := ldDst e o.d (ldBytes o.sz) :: addrUses e o.a o.b 2, marks := addrMarks o.a o.b 2, ctr := .ld })) ∧
  (∀ o : StOps Unit, WaitsForRoom (.stg o) 12 o.g (fun e =>
    { guard := o.g, uses := addrUses e o.a o.b 2 ++ [stUse e (stBytes o.sz) o.c],
      marks := addrMarks o.a o.b 2 ++ markOf o.c.src o.c.last (memRegs (stBytes o.sz)), ctr := .st })) ∧
  (∀ o : CpLinOps, WaitsForRoom (.cpLin o) 16 o.g (cmdSpec o.g [(1, o.a), (2, o.b), (3, o.c), (5, o.k)] (fun _ => true))) ∧
  (∀ o : MmaOps, WaitsForRoom (.mma o) 12 o.g (fun _ => { guard := o.g, noCox := true, coll := true, ctr := .tl, uses := [.tile 1 o.a.val, .tile 2 o.b.val] }))

/-- evbind, evunbind, evmask, evpoll and waitany (R230 to R238): a slot takes a source, a handler and one-shot or repeating form, and is latched at once by a level that stands; a slot the gang does not have takes RESOURCE, a malformed descriptor ILLEGAL_ENCODING; evpoll reads and clears latches; waitany parks the gang at its own PC. The delivery of an event to a gang that waits for it (R235, R236), and the tick of a timer's deadline (R233): the lowest latched and enabled slot of the mask; EVSLOT names it, the destination takes the address after the waitany, the gang goes to the handler; a one-shot slot is unbound. When the chunk of a waitany has committed, the re-armed slots whose level stands are latched again and the delivery follows (R235). Slot numbers are read as 32 bits (log entry 29); a completion object is bound by its location (log entry 27); timers are not re-evaluated (log entry 68). -/
def Obligations.Events : Prop :=
  ((∀ (o : EvbindOps) (s : State) (e : Env), let sp : Spec := { guard := o.g, uses := [.uni 1 o.a, .uni 2 o.b, .uni 3 o.c] }
    let j := e.uni .w32 o.a
    let d := e.uni .w64 o.b
    let arg := e.uni .w64 o.c
    let h := BitVec.ofNat 64 e.pc + 4 * o.off.signExtend 64
    s.env 12 o.g = some e → e.executes sp = true →
    (∀ src s', bindWellFormed d arg = true → j < e.evSlots → bindSrc e.opened s e.opened.g d arg = (.ok src, s') → canonical h.toNat = true →
      CoreStep (.evbind o) s s' e sp
        { e.core with binds := setAt j (some ⟨src, bitsAt d 59 1 == 1, h⟩) e.core.binds, rearm := e.core.rearm &&& ~~~(bit16 j)
                      evpend := if s'.level src then e.core.evpend &&& ~~~(bit16 j) ||| bit16 j else e.core.evpend &&& ~~~(bit16 j) }
        (fun c => c = { e.g.openChunk with count := e.g.openChunk.count + 1, closed := c.closed, rebound := e.g.openChunk.rebound ||| bit16 j })) ∧
    (bindWellFormed d arg = false → TrapStep (.evbind o) s e (Trap.plain cIllegalEncoding)) ∧
    (bindWellFormed d arg = true → e.evSlots ≤ j → TrapStep (.evbind o) s e (Trap.plain cResource))) ∧
  (∀ (o : GA) (s : State) (e : Env), let sp : Spec := { guard := o.g, uses := [.uni 1 o.a] }
    let j := e.uni .w32 o.a
    s.env 8 o.g = some e → e.executes sp = true →
    (j < e.evSlots → CoreStep (.evunbind o) s s e sp
      { e.core with binds := setAt j none e.core.binds, evpend := e.core.evpend &&& ~~~(bit16 j), rearm := e.core.rearm &&& ~~~(bit16 j) }
      (fun c => c = { e.g.openChunk with count := e.g.openChunk.count + 1, closed := c.closed, rebound := e.g.openChunk.rebound ||| bit16 j })) ∧
    (e.evSlots ≤ j → TrapStep (.evunbind o) s e (Trap.plain cResource))) ∧
  (∀ (o : GDA) (s : State) (e : Env) (n : Fin 128), let sp : Spec := { guard := o.g, uses := [.dstS o.d, .uni 1 o.a] }
    let m := BitVec.ofNat 16 (e.uni .w64 o.a)
    s.env 8 o.g = some e → o.d = .s n → e.executes sp = true →
    CoreStep (.evmask o) s s e sp { e.core.setSreg n.val (e.core.even.setWidth 64) with even := m } e.OneMore ∧
    (let stands (k : GangCore) := k.slotsOf (fun x => s.level x && (match x with | .timer _ => false | _ => true))
     let now := e.core.evpend ||| (e.core.rearm &&& stands e.core)
     CoreStep (.evpoll o) s s e sp
       { e.core.setSreg n.val (now.setWidth 64) with evpend := now &&& ~~~(now &&& m) ||| (now &&& m &&& stands e.core), rearm := 0 }
       (fun c => c = { e.g.openChunk with count := e.g.openChunk.count + 1, closed := c.closed, polled := e.g.openChunk.polled ||| (e.core.evpend &&& (now &&& m)) })) ∧
    (e.executes { sp with coll := true, chunk := .after } = true → e.alone = true →
      GangStep (.waitany o) s s e (fun b => b = { e.core with subs := b.subs } ∧
        MovedTo b e.act (.events (e.uni .w64 o.a % 2 ^ 16) n) (fun _ => BitVec.ofNat 64 e.pc)) e.Closed))) ∧
  ((∀ (s : State) (gid : Nat) (g : Gang) (x : SubGang) (m j : Nat) (d : Fin 128) (b : Binding), s.gang? gid = some g → g.chunk = none → g.releases = [] → s.gangRuns g = true →
    g.core.subs = [x] → x.wait = .events m d → g.core.fams = [] → x.lanes ≠ 0 → g.core.ldepth = 0 → j < 16 → g.core.binds.getD j none = some b →
    (g.core.evpend &&& g.core.even &&& BitVec.ofNat 16 m).getLsbD j = true →
    (∀ i, i < j → (g.core.evpend &&& g.core.even &&& BitVec.ofNat 16 m).getLsbD i = false) →
    exec (.eventDelivery gid) s = .next (s.putGang { g with core := { g.core.setSreg d.val (x.pc + 8) with
      evpend := g.core.evpend &&& ~~~(bit16 j), evslot := BitVec.ofNat 32 j
      binds := if b.one then setAt j none g.core.binds else g.core.binds
      rearm := if b.one then g.core.rearm else g.core.rearm ||| bit16 j
      subs := [{ x with wait := .ready, pc := b.handler, waited := 0 }] } })) ∧
  (∀ (s : State) (gid : Nat) (g : Gang), s.gang? gid = some g → g.chunk = none → (∀ j, j < 16 → g.core.evpend.getLsbD j = false) →
    exec (.eventDelivery gid) s = .next s) ∧
  (∀ (s : State) (gid : Nat) (g : Gang) (j : Fin 16) (b : Binding) (t : Nat), s.gang? gid = some g → g.core.binds.getD j.val none = some b → b.src = .timer t →
    (t ≤ s.tick → ∃ u, exec (.timerExpiry gid j) s = .next u ∧ u.gang? gid = some { g with core := { g.core with evpend := g.core.evpend ||| bit16 j.val } } ∧
      (∀ k, k ≠ gid → u.gang? k = s.gang? k) ∧ u.mem = s.mem ∧ (g.core.waitsEvents = true → u.due = s.due ++ [.eventDelivery gid])) ∧
    (s.tick < t → exec (.timerExpiry gid j) s = .next s)) ∧
  (∀ (s : State) (gid : Nat) (g : Gang) (c : Chunk) (y : SubGang) (m : Nat) (d : Fin 128), s.gang? gid = some g → g.chunk = some c → c.closed = true → c.bare →
    s.tokenHolder = none → (s.gangs.map (·.id)).Nodup → g.core.subs = [y] → y.wait = .events m d →
    ∃ t, exec (.chunkCommit gid ⟨[], 0⟩) s = .next t ∧ t.due = s.due ++ [.eventDelivery gid] ∧ t.gang? gid = some { g with
      core := { g.core with rearm := 0
                            evpend := g.core.evpend ||| (g.core.rearm &&& g.core.slotsOf (fun x => s.level x && (match x with | .timer _ => false | _ => true))) }
      chunk := none, squashes := 0, token := .none, lbuf := g.blocksKept }))

/-- mbx.post, mbx.take, sem.sig, sem.try and sem.wait (R239 to R244): a post or a signal is made when the chunk commits; a take or a try acts at once as a chunk of its own and says in its predicate whether it succeeded; a full mailbox stalls the post, and the token's holder gives the token up; a group that sem.wait does not serve joins the semaphore's FIFO at its own PC. A mailbox name with a bit above 11 set, and a semaphore name of SPACE 3 or with a reserved bit set, take ILLEGAL_ENCODING; a crew-relative index beyond the crew's semaphores takes RESOURCE; a name not granted takes PERMISSION, and so does sem.try or sem.wait of another package's semaphore, which sem.sig signals (R239, R242). That the form of a name is looked at before RESOURCE and PERMISSION is the model's choice (log entry 73), and so is a nonzero DIE of a crew-relative name as a reserved field (log entry 99). The effect of a post and of a signal when their chunk is released (R239, R243, R244): the message is last in the mailbox; a signal raises the value, at most to 2^32 - 1, and serves the FIFO from its head while thresholds are met. -/
def Obligations.MailboxesAndSemaphores : Prop :=
  ((∀ (o : GAB) (s : State) (e : Env), let sp : Spec := { guard := o.g, uses := [.uni 1 o.a, .uni 2 o.b] }
    s.env 8 o.g = some e → e.executes sp = true →
    (∀ m, mbxName s e.opened.g (e.uni .w32 o.a) = .ok m →
      (s.mbxFull m = false → CoreStep (.mbxPost o) s s e sp e.core (e.Defers (.post m (BitVec.ofNat 64 (e.uni .w64 o.b))))) ∧
      (s.mbxFull m = true → s.tokenHolder ≠ some e.g.id → StallStep (.mbxPost o) s s e (.mbx m)) ∧
      (s.mbxFull m = true → s.tokenHolder = some e.g.id → ∃ t, exec (.mbxPost o) s = .next t ∧ t.tokenHolder = none ∧
        t.gang? e.g.id = some { e.g with token := .lost, core := { e.core with subs := e.stalled (.mbx m) } })) ∧
    (∀ c, mbxName s e.opened.g (e.uni .w32 o.a) = .trap c → TrapStep (.mbxPost o) s e (Trap.plain c)) ∧
    ((∀ c, semName s e.opened.g (e.uni .w32 o.a) ≠ .trap c) →
      CoreStep (.semSig o) s s e sp e.core (e.Defers (.signal (e.uni .w32 o.a) (e.uni .w32 o.b)))) ∧
    (∀ c, semName s e.opened.g (e.uni .w32 o.a) = .trap c → TrapStep (.semSig o) s e (Trap.plain c))) ∧
  (∀ (s : State) (g : Gang) (x : Nat),
    let granted (k : Nat) : Prop := s.supOf g = true ∨ ((s.grant k).v = true ∧ (s.grant k).owner = s.ctxOf g)
    let may (k : Nat) (r : NameRes) (n : Nat) : Prop := (granted k → r = .ok n) ∧ (¬ granted k → r = .trap cPermission)
    let n := bitsAt x 0 14
    let idx := bitsAt x 0 12
    (2 ^ 12 ≤ x → mbxName s g x = .trap cIllegalEncoding) ∧ (x < 2 ^ 12 → may (2 ^ 14 + x) (mbxName s g x) x) ∧
    (bitsAt x 30 2 = 3 ∨ bitsAt x 24 6 ≠ 0 → semName s g x = .trap cIllegalEncoding) ∧
    (bitsAt x 30 2 = 0 → bitsAt x 24 6 = 0 →
      (bitsAt x 6 18 ≠ 0 → semName s g x = .trap cIllegalEncoding) ∧
      (bitsAt x 6 18 = 0 → (∀ c, s.crewOf g = some c → idx < c.sems.length → semName s g x = .ok (c.sems.getD idx 0)) ∧
        ((∀ c, s.crewOf g = some c → c.sems.length ≤ idx) → semName s g x = .trap cResource))) ∧
    (bitsAt x 30 2 = 1 → bitsAt x 24 6 = 0 → (bitsAt x 14 10 ≠ 0 → semName s g x = .trap cIllegalEncoding) ∧
      (bitsAt x 14 10 = 0 → may (2 * 2 ^ 14 + n) (semName s g x) n)) ∧
    (bitsAt x 30 2 = 2 → bitsAt x 24 6 = 0 → (bitsAt x 14 10 ≠ s.pkg.toNat % 1024 → semName s g x = .remote) ∧
      (bitsAt x 14 10 = s.pkg.toNat % 1024 → may (2 * 2 ^ 14 + n) (semName s g x) n))) ∧
  (∀ (o : MbxTakeOps) (s : State) (e : Env) (c : Cause), s.env 8 o.g = some e →
    e.executes { guard := o.g, uses := [.dstS o.d, .uni 1 o.a], chunk := .own } = true → mbxName s e.opened.g (e.uni .w32 o.a) = .trap c →
      TrapStep (.mbxTake o) s e (Trap.plain c)) ∧
  (∀ (o : SemTryOps) (s : State) (e : Env), s.env 8 o.g = some e → e.executes { guard := o.g, uses := [.uni 1 o.a, .uni 2 o.b], chunk := .own } = true →
    (∀ c, semName s e.opened.g (e.uni .w32 o.a) = .trap c → TrapStep (.semTry o) s e (Trap.plain c)) ∧
    (semName s e.opened.g (e.uni .w32 o.a) = .remote → TrapStep (.semTry o) s e (Trap.plain cPermission))) ∧
  (∀ (o : GAB) (s : State) (e : Env), s.env 8 o.g = some e → e.executes { guard := o.g, uses := [.uni 1 o.a, .uni 2 o.b], chunk := .own } = true →
    (∀ c, semName s e.opened.g (e.uni .w32 o.a) = .trap c → TrapStep (.semWait o) s e (Trap.plain c)) ∧
    (semName s e.opened.g (e.uni .w32 o.a) = .remote → TrapStep (.semWait o) s e (Trap.plain cPermission))) ∧
  (∀ (o : MbxTakeOps) (s : State) (e : Env) (n : Fin 128) (m : Nat), let sp : Spec := { guard := o.g, uses := [.dstS o.d, .uni 1 o.a], chunk := .own }
    s.env 8 o.g = some e → e.executes sp = true → e.alone = true → e.g.chunk = none → o.d = .s n → mbxName s e.opened.g (e.uni .w32 o.a) = .ok m →
    (∀ x r, s.mbox m = x :: r → OwnCore (.mbxTake o) s (s.setMbox m r) e ((e.core.setSreg n.val x).setPred o.k.val e.on (BitVec.allOnes 64)) .ready (fun _ => e.nextPc)) ∧
    (s.mbox m = [] → OwnCore (.mbxTake o) s s e (e.core.setPred o.k.val e.on 0) .ready (fun _ => e.nextPc))) ∧
  (∀ (o : SemTryOps) (s : State) (e : Env) (n : Nat), let sp : Spec := { guard := o.g, uses := [.uni 1 o.a, .uni 2 o.b], chunk := .own }
    let thr := e.uni .w32 o.b
    s.env 8 o.g = some e → e.executes sp = true → e.alone = true → e.g.chunk = none → semName s e.opened.g (e.uni .w32 o.a) = .ok n →
    ((s.sem n).serves thr = true → OwnStep (.semTry o) s (s.semTake n thr) e (fun b =>
      e.latched (s.semTake n thr) (e.core.setPred o.k.val e.on (BitVec.allOnes 64)) b ∧ MovedTo b e.act .ready (fun _ => e.nextPc))) ∧
    ((s.sem n).serves thr = false → OwnCore (.semTry o) s s e (e.core.setPred o.k.val e.on 0) .ready (fun _ => e.nextPc))) ∧
  (∀ (o : GAB) (s : State) (e : Env) (n : Nat), let sp : Spec := { guard := o.g, uses := [.uni 1 o.a, .uni 2 o.b], chunk := .own }
    let thr := e.uni .w32 o.b
    let x := s.sem n
    s.env 8 o.g = some e → e.executes sp = true → e.alone = true → e.g.chunk = none → semName s e.opened.g (e.uni .w32 o.a) = .ok n →
    (x.serves thr = true → OwnStep (.semWait o) s (s.semTake n thr) e (fun b =>
      e.latched (s.semTake n thr) e.core b ∧ MovedTo b e.act .ready (fun _ => e.nextPc))) ∧
    (x.serves thr = false → OwnCore (.semWait o) s (s.setSem n { x with fifo := x.fifo ++ [(.group e.g.id (toLane (lowestLane e.act)), thr)] }) e e.core
      (.sem n thr) (fun _ => BitVec.ofNat 64 e.pc)))) ∧
  ((∀ (s : State) (g : Gang) (m : Nat) (x : Word64), (s.release g (.post m x)).mbox m = s.mbox m ++ [x] ∧
    (∀ k, k ≠ m → (s.release g (.post m x)).mbox k = s.mbox k) ∧ (s.release g (.post m x)).mem = s.mem) ∧
  (∀ (s : State) (n a : Nat), (s.sem n).fifo = [] →
    ((s.semSignal n a).sem n).value = min ((s.sem n).value + a) 0xFFFFFFFF) ∧
  (∀ (s : State) (n a v gid thr : Nat) (l : Lane) (r : List (SemWaiter × Nat)), s.sem n = ⟨v, (.group gid l, thr) :: r⟩ → 0 < a → v + a ≤ 0xFFFFFFFF →
    (v + a < thr → (s.semSignal n a).sem n = ⟨v + a, (.group gid l, thr) :: r⟩) ∧
    (r = [] → thr ≤ v + a → (s.semSignal n a).sem n = ⟨v + a - thr, []⟩)))

/-- ldo and ldg at issue (R245 to R248, R109): each lane reads its bytes as the chunk sees them; the values are in flight for the destination, LD rises by one, the lines join the chunk's read set. That a 32-bit special may stand as a 64-bit address is DEDUCED (log entry 12), that the chunk's own bytes in a poisoned line read LIVE is the model's choice (log entry 75). -/
def Obligations.Loads : Prop :=
  (∀ (o : LdOps Space) (s : State) (e : Env) (own : Crew) (p : Nat → Place), let n := ldBytes o.sz
    let sp : Spec := { guard := o.g, noCox := true, uses := ldDst e o.d n :: addrUses e o.a o.b 1, marks := addrMarks o.a o.b 1, ctr := .ld }
    s.env 12 o.g = some e → e.crew = some own → e.executes sp = true → e.finds s own o.sp n (eaOf e 32 o.a o.b o.imm) p → e.noQ p → e.fits (e.readChunk p) →
    (∀ l ∈ e.lanes, (bytesVal (s.seeBytes e.opened.g (p l) n)).st ≠ .expired) →
    CoreStep (.ldo o) s { s with nextId := s.nextId + 1 } e sp
      { e.core with ld := e.core.ld + 1, pend := e.core.pend ++ [loadPend s.nextId false false o.sz o.d (e.lanes.map (fun l => (l, s.seeBytes e.opened.g (p l) n)))] }
      (OneMoreOf (e.readChunk p))) ∧
  (∀ (o : LdOps Unit) (s s' : State) (e : Env) (loc : Nat → Loc), let n := ldBytes o.sz
    let sp : Spec := { guard := o.g, uses := ldDst e o.d n :: addrUses e o.a o.b 2, marks := addrMarks o.a o.b 2, ctr := .ld }
    let p := fun l => Place.glob (loc l).la
    s.env 12 o.g = some e → e.executes sp = true → e.reaches s s' .load n (eaOf e 64 o.a o.b o.imm) loc → e.noQ p → e.fits (e.readChunk p) →
    (∀ l ∈ e.lanes, (bytesVal (s.seeBytes e.opened.g (p l) n)).st = .live ∨ e.cox = false) →
    CoreStep (.ldg o) s { s' with nextId := s.nextId + 1 } e sp
      { e.core with ld := e.core.ld + 1, pend := e.core.pend ++ [loadPend s.nextId e.cox true o.sz o.d (e.lanes.map (fun l => (l, s.seeBytes e.opened.g (p l) n)))] }
      (OneMoreOf (e.readChunk p)))

/-- sto and stg at issue (R245 to R248, R109): each lane's bytes are held with the chunk, a later lane's over an earlier one's; ST rises by one, the lines join the chunk's write set; memory itself is as it was. That a 32-bit special may stand as a 64-bit address is DEDUCED (log entry 12), that a special that differs across the lanes may be the data is the model's choice (log entry 76). -/
def Obligations.Stores : Prop :=
  (∀ (o : StOps Space) (s : State) (e : Env) (own : Crew) (p : Nat → Place), let n := stBytes o.sz
    let sp : Spec := { guard := o.g, noCox := true, uses := addrUses e o.a o.b 1 ++ [stUse e n o.c],
                       marks := addrMarks o.a o.b 1 ++ markOf o.c.src o.c.last (memRegs n), ctr := .st }
    let c := e.storeChunk p (fun l => bytesLE n (storeVal e n l o.c).bits)
    s.env 12 o.g = some e → e.crew = some own → e.executes sp = true → e.finds s own o.sp n (eaOf e 32 o.a o.b o.imm) p → e.noQ p → e.fits c →
    (∀ l ∈ e.lanes, (storeVal e n l o.c).st = .live) →
    CoreStep (.sto o) s s e sp { e.core with st := e.core.st + 1 } (OneMoreOf { c with stores := c.stores + 1 })) ∧
  (∀ (o : StOps Unit) (s s' : State) (e : Env) (loc : Nat → Loc), let n := stBytes o.sz
    let sp : Spec := { guard := o.g, uses := addrUses e o.a o.b 2 ++ [stUse e n o.c],
                       marks := addrMarks o.a o.b 2 ++ markOf o.c.src o.c.last (memRegs n), ctr := .st }
    let c := e.storeChunk (fun l => .glob (loc l).la) (fun l => bytesLE n (storeVal e n l o.c).bits)
    s.env 12 o.g = some e → e.executes sp = true → e.reaches s s' .store n (eaOf e 64 o.a o.b o.imm) loc → e.noQ (fun l => .glob (loc l).la) → e.fits c →
    (∀ l ∈ e.lanes, (storeVal e n l o.c).st = .live) →
    CoreStep (.stg o) s s' e sp { e.core with st := e.core.st + 1 } (OneMoreOf { c with stores := c.stores + 1 })) ∧
  (∀ (c : Chunk) (bs : List Byte) (x y a b : Nat),
    (c.hold (.glob a) bs).heldByte (.glob b) = (if a ≤ b ∧ b < a + bs.length then some (bs.getD (b - a) 0) else c.heldByte (.glob b)) ∧
    (a + bs.length ≤ 2 ^ 24 → b < 2 ^ 24 → (c.hold (.crew x a) bs).heldByte (.crew y b) =
      if x = y ∧ a ≤ b ∧ b < a + bs.length then some (bs.getD (b - a) 0) else c.heldByte (.crew y b)) ∧
    (a + bs.length ≤ 2 ^ 16 → b < 2 ^ 16 → (c.hold (.thr x a) bs).heldByte (.thr y b) =
      if x = y ∧ a ≤ b ∧ b < a + bs.length then some (bs.getD (b - a) 0) else c.heldByte (.thr y b)))

/-- A lane that finds no place (R79, R82, R248, R249): a misaligned address takes ALIGNMENT and a global address that is not canonical PERMISSION, with the address and the lowest such lane; an operand-store address out of range takes OPERAND_RANGE under a precise launch, and else quarantines its lane, which leaves the gang and joins its fault mask while the other lanes load; lanes of an ldg or stg whose page is not present are held with a record, while the others stay at the instruction and will execute it (R249). That the squash count and the token go with a chunk that is empty when its instruction traps is log entry 9's; that a 32-bit special may stand as a 64-bit address is DEDUCED (log entry 12), that a special that differs across the lanes may be a store's data is the model's choice (log entry 76). -/
def Obligations.AccessTraps : Prop :=
  (∀ (o : LdOps Space) (s : State) (e : Env) (own : Crew) (l0 : Nat) (r : List Nat), let n := ldBytes o.sz
    let sp : Spec := { guard := o.g, noCox := true, uses := ldDst e o.d n :: addrUses e o.a o.b 1, marks := addrMarks o.a o.b 1, ctr := .ld }
    let ea := eaOf e 32 o.a o.b o.imm
    s.env 12 o.g = some e → e.crew = some own → e.executes sp = true → e.lanes = l0 :: r → (∀ l ∈ e.lanes, (ea l).1 = .live) →
    ((ea l0).2 % n ≠ 0 → TrapStep (.ldo o) s e (Trap.atAddr cAlignment (ea l0).2 l0 1)) ∧
    ((∀ l ∈ e.lanes, (ea l).2 % n = 0) → s.storePlace e.opened.g own o.sp l0 (ea l0).2 n = none → own.desc.precise = true →
      TrapStep (.ldo o) s e (Trap.atAddr cOperandRange (ea l0).2 l0 1)) ∧
    ((∀ l ∈ e.lanes, (ea l).2 % n = 0) → own.desc.precise = false → e.alone = true →
      let p := fun l => s.storePlace e.opened.g own o.sp l (ea l).2 n
      let ok := e.lanes.filter (fun l => (p l).isSome)
      let q := maskOf (e.lanes.filter (fun l => (p l).isNone))
      let at' := fun l => (p l).getD (.glob 0)
      let c := ok.foldl (fun c l => c.readsAt (at' l)) e.g.openChunk
      (∀ l ∈ ok, e.g.openChunk.inQ (at' l) = false) → (∀ l ∈ ok, (bytesVal (s.seeBytes e.opened.g (at' l) n)).st ≠ .expired) → e.fits c →
      GangStep (.ldo o) s { s with nextId := s.nextId + 1 } e (fun b =>
        b = { e.core with subs := b.subs, regs := b.regs, quarantined := e.core.quarantined ||| q, fmask := e.core.fmask ||| q, ld := e.core.ld + 1
                          pend := e.core.pend ++ [loadPend s.nextId false false o.sz o.d (ok.map (fun l => (l, s.seeBytes e.opened.g (at' l) n)))] } ∧
        (∀ k l, l < 64 → b.reg k l = if ok.contains l && sp.marks.any (fun m => m.1 ≤ k && k < m.1 + m.2) && !(sp.uses.flatMap Use.dregs).contains k
          then ⟨0xFFFFFFFF, .poison, (e.core.reg k l).exp⟩ else e.core.reg k l) ∧
        MovedTo b (e.act &&& ~~~q) .ready (fun _ => e.nextPc)) (OneMoreOf c))) ∧
  (∀ (o : StOps Unit) (s : State) (e : Env) (l0 : Nat) (r : List Nat), let n := stBytes o.sz
    let sp : Spec := { guard := o.g, uses := addrUses e o.a o.b 2 ++ [stUse e n o.c],
                       marks := addrMarks o.a o.b 2 ++ markOf o.c.src o.c.last (memRegs n), ctr := .st }
    let ea := eaOf e 64 o.a o.b o.imm
    s.env 12 o.g = some e → e.executes sp = true → e.lanes = l0 :: r → (∀ l ∈ e.lanes, (ea l).1 = .live) →
    (canonical (ea l0).2 = false → ∃ t : State, exec (.stg o) s = .next (t.raise e.g e.x e.site (Trap.atAddr cPermission (ea l0).2 l0 2)) ∧ t.mem = s.mem ∧ t.gangs = s.gangs) ∧
    ((∀ l ∈ e.lanes, canonical (ea l).2 = true) → (ea l0).2 % n ≠ 0 →
      ∃ t : State, exec (.stg o) s = .next (t.raise e.g e.x e.site (Trap.atAddr cAlignment (ea l0).2 l0 2)) ∧ t.mem = s.mem ∧ t.gangs = s.gangs)) ∧
  (∀ (s s' : State) (e : Env) (loc : Nat → Option Loc) (l0 : Nat), e.g.chunk = none → e.cox = false → e.core.subs = [e.x] →
    l0 ∈ e.lanes → loc l0 = none → (∀ l ∈ e.lanes, l < l0 → (loc l).isSome = true) →
    let m := maskOf (e.lanes.filter (fun l => (loc l).isNone))
    (∀ o : LdOps Unit, let n := ldBytes o.sz
      let sp : Spec := { guard := o.g, uses := ldDst e o.d n :: addrUses e o.a o.b 2, marks := addrMarks o.a o.b 2, ctr := .ld }
      let ea := eaOf e 64 o.a o.b o.imm
      s.env 12 o.g = some e → e.executes sp = true → (∀ l ∈ e.lanes, (ea l).1 = .live ∧ canonical (ea l).2 = true ∧ (ea l).2 % n = 0) →
      e.walksSome .load (fun l => (ea l).2) loc e.lanes s s' →
      ∃ t, exec (.ldg o) s = .next t ∧ ParkedAt s e.g e.x e.site (Trap.atAddr cPageNotPresent (ea l0).2 l0 1) m t) ∧
    (∀ o : StOps Unit, let n := stBytes o.sz
      let sp : Spec := { guard := o.g, uses := addrUses e o.a o.b 2 ++ [stUse e n o.c],
                         marks := addrMarks o.a o.b 2 ++ markOf o.c.src o.c.last (memRegs n), ctr := .st }
      let ea := eaOf e 64 o.a o.b o.imm
      s.env 12 o.g = some e → e.executes sp = true → (∀ l ∈ e.lanes, (ea l).1 = .live ∧ canonical (ea l).2 = true ∧ (ea l).2 % n = 0) →
      (∀ l ∈ e.lanes, (storeVal e n l o.c).st = .live) → e.walksSome .store (fun l => (ea l).2) loc e.lanes s s' →
      ∃ t, exec (.stg o) s = .next t ∧ ParkedAt s e.g e.x e.site (Trap.atAddr cPageNotPresent (ea l0).2 l0 2) m t))

/-- atomo, atomg and redg at issue (R250 to R253): lane after lane the new value of Table 10.3 is held with the chunk, and the old values are in flight for the destination; an atomg that names a MEMSIDE page is a chunk of its own, which ends an open chunk first and commits as it executes (R252); a redg on MEMSIDE pages only enters the chunk's reduced lines and is performed when the chunk is released, or waits there, its ST kept, while its base die has no room, and is performed by a piece once it has (R394, DEDUCED, log entry 25). That a 32-bit special may stand as a 64-bit address is DEDUCED (log entry 12), that the chunk's own bytes in a poisoned line read LIVE is the model's choice (log entry 75). -/
def Obligations.Atomics : Prop :=
  (∀ (o : AtomOps Space) (s : State) (e : Env) (own : Crew) (p : Nat → Place) (v : Nat → VSt × Nat),
    let sp : Spec := { guard := o.g, noCox := true, uses := atomUses e o.sel o.d o.a o.b o.c 1, marks := atomMarks o.sel o.a o.b o.c 1, ctr := .ld }
    let n := atomBits o.sel.ty / 8
    let r := atomLanes e.opened s o.sel o.b o.c (e.lanes.map (fun l => (l, p l, false, noEnt, (v l).2))) e.opened.g []
    s.env 12 o.g = some e → e.crew = some own → e.executes sp = true → v = (fun l => ((e.rsrc .w32 l o.a).st, (e.rsrc .w32 l o.a).bits)) →
    e.finds s own o.sp n v p → e.noQ p → (∀ l ∈ e.lanes, atomData e o.sel o.b o.c l = .live) → (∀ x ∈ r.2, (bytesVal x.2).st = .live) →
    ∀ k, r.1.chunk = some k → e.fits k →
      CoreStep (.atomo o) s { s with nextId := s.nextId + 1 } e sp
        { e.core with ld := e.core.ld + 1, pend := e.core.pend ++ [loadPend s.nextId false false (if n = 8 then .b64 else .b32) o.d r.2] } (OneMoreOf k)) ∧
  (∀ (o : AtomOps Scope) (s s' : State) (e : Env) (loc : Nat → Loc) (v : Nat → VSt × Nat),
    let sp : Spec := { guard := o.g, uses := atomUses e o.sel o.d o.a o.b o.c 2, marks := atomMarks o.sel o.a o.b o.c 2, ctr := .ld }
    let n := atomBits o.sel.ty / 8
    let r := atomLanes e.opened s' o.sel o.b o.c (e.lanes.map (fun l => (l, .glob (loc l).la, (loc l).memside, (loc l).ent, (v l).2))) e.opened.g []
    s.env 12 o.g = some e → e.executes sp = true → v = (fun l => ((e.rsrc .w64 l o.a).st, (e.rsrc .w64 l o.a).bits)) →
    e.reaches s s' .store n v loc → e.noQ (fun l => .glob (loc l).la) → (∀ l ∈ e.lanes, atomData e o.sel o.b o.c l = .live) → (∀ x ∈ r.2, (bytesVal x.2).st = .live) →
    ∀ k, r.1.chunk = some k → let p := loadPend s'.nextId e.cox false (if n = 8 then .b64 else .b32) o.d r.2
      ((∀ l ∈ e.lanes, (loc l).memside = false) → e.fits k →
        CoreStep (.atomg o) s { s' with nextId := s'.nextId + 1 } e sp { e.core with ld := e.core.ld + 1, pend := e.core.pend ++ [p] } (OneMoreOf k)) ∧
      ((∃ l ∈ e.lanes, (loc l).memside = true) → e.g.openChunk.count ≠ 0 → CloseStep (.atomg o) s s' e) ∧
      ((∃ l ∈ e.lanes, (loc l).memside = true) → e.g.chunk = none → s.tokenHolder = none → e.alone = true → (s.gangs.map (·.id)).Nodup → (k.gst.map (·.1)).Nodup →
        ∃ t h, exec (.atomg o) s = .next t ∧ (∀ a, memByte t.mem a = match k.gst.find? (fun b => b.1 == a) with | some b => b.2 | none => memByte s.mem a) ∧
          t.gang? e.g.id = some h ∧ h = { e.g with core := h.core, chunk := none, squashes := 0, token := .none, lbuf := e.g.blocksKept } ∧
          h.core.ld = e.core.ld + 1 ∧ h.core.pend = e.core.pend ++ [p] ∧ MovedTo h.core e.act .ready (fun _ => e.nextPc))) ∧
  (∀ (e : Env) (s : State) (sel : AtomSel) (b c : RSrc) (l : Nat) (p : Place) (g : Gang) (k : Chunk), g.chunk = some k →
    let n := atomBits sel.ty / 8
    let old := bytesVal (s.seeBytes g p n)
    old.st = .live →
    (atomLanes e s sel b c [(l, p, false, noEnt, 0)] g []).2 = [(l, s.seeBytes g p n)] ∧
    (atomLanes e s sel b c [(l, p, false, noEnt, 0)] g []).1.chunk = some
      (match atomApply sel.ty sel.op old.bits (e.rsrc (atomRd sel.ty) l b).bits (e.rsrc (atomRd sel.ty) l c).bits with
       | some x => ((k.readsAt p).writesAt p).hold p (bytesLE n x)
       | none => k.readsAt p)) ∧
  (∀ (o : RedgOps) (s s' : State) (e : Env) (loc : Nat → Loc) (v : Nat → VSt × Nat), let w := regsFor (atomBits o.ty)
    let sp : Spec := { guard := o.g, uses := if e.cox then [.uni 1 o.a.src, .uni 2 o.b.src] else [useR 1 o.a 2, useR 2 o.b w],
                       marks := markOf o.a.src o.a.last 2 ++ markOf o.b.src o.b.last w, ctr := .st }
    let b := fun l => e.rsrc (atomRd o.ty) l o.b
    s.env 12 o.g = some e → e.executes sp = true → v = (fun l => ((e.rsrc .w64 l o.a).st, (e.rsrc .w64 l o.a).bits)) →
    e.reaches s s' .store (atomBits o.ty / 8) v loc → (∀ l ∈ e.lanes, (b l).st = .live) →
    ((∀ l ∈ e.lanes, (loc l).memside = false) → e.noQ (fun l => .glob (loc l).la) →
      ∀ k, (redgLanes e.opened s' o.ty o.op o.b (e.lanes.map (fun l => (l, .glob (loc l).la, false, (loc l).ent, (v l).2))) e.opened.g).chunk = some k → e.fits k →
        CoreStep (.redg o) s { s' with nextId := s'.nextId + 1 } e sp { e.core with st := e.core.st + 1 } (OneMoreOf { k with stores := k.stores + 1 })) ∧
    ((∀ l ∈ e.lanes, (loc l).memside = true) →
      let k := e.lanes.foldl (fun c l => c.addQ (.glob ((loc l).la / 64))) e.g.openChunk
      e.fits k → CoreStep (.redg o) s { s' with nextId := s'.nextId + 1 } e sp { e.core with st := e.core.st + 1 }
        (OneMoreOf { k with stores := k.stores + 1, defer := k.defer ++ [.redg (e.redgCmd s' (e.lanes.map (fun l =>
          ⟨(loc l).la, o.ty, o.op, BitVec.ofNat 64 (b l).bits, (loc l).ent⟩)))] }))) ∧
  (∀ (s : State) (g : Gang) (c : Cmd) (x : RedgOp), c.kind = .redg [x] → let n := atomBits x.ty / 8
    let t := s.release g (.redg c)
    let done := fun (t : State) => memRead t.mem x.la n = bytesLE n (redApply x.ty x.op (s.loadNat x.la n) x.b.toNat) ∧
      ∀ a, (a < x.la ∨ x.la + n ≤ a) → memByte t.mem a = memByte s.mem a
    (s.roomAt (baseAt x.la) s.cmds = true → (s.linePoisoned x.la = true → t = s) ∧ (s.linePoisoned x.la = false → done t)) ∧
    (s.roomAt (baseAt x.la) s.cmds = false → t.mem = s.mem ∧ t.cmds = s.cmds ++ [c] ∧
      ∀ h, s.gang? c.gang = some h → ∃ k, t.gang? c.gang = some k ∧ k.core = { h.core with st := h.core.st + 1 }) ∧
    (∀ choice : Nat, s.cmd? c.id = some c → s.cmdReady c = true → c.corrupt = false → c.prog.checked = true → s.linePoisoned x.la = false →
      s.holderHit none [.glob (lineOf x.la)] [] = false →
      ∃ t k, exec (.enginePiece c.id choice) s = .next t ∧ done t ∧ t.cmd? c.id = some k ∧ k.finished = true ∧ .commandCompletion c.id ∈ t.due))

/-- The arrival of results in flight (R175, R204, R246): the destination registers take the values and are renewed, the result is no more in flight, LD falls with a load's data; the legacy unit serves its oldest request and gives the credit back; an arrival of a result that is not in flight does nothing. -/
def Obligations.Arrivals : Prop :=
  (∀ (s : State) (gid id : Nat) (g : Gang) (p : Pend), s.gang? gid = some g → g.core.pend.find? (fun q => q.id == id) = some p →
    let i : Instr := match p.kind with | .load => .loadDataArrival gid id | _ => .queuedResultWrite gid id
    (p.kind ≠ .legacy → ∃ t h, exec i s = .next t ∧ t = s.setGangs t.gangs ∧ (∀ k, k ≠ gid → t.gang? k = s.gang? k) ∧ t.gang? gid = some h ∧
      h = { g with core := h.core, chunk := h.chunk } ∧ h.core.pend = g.core.pend.filter (fun q => q.id != id) ∧
      h.core.ld = (if p.kind = .load then g.core.ld - 1 else g.core.ld) ∧ h.core.subs = g.core.subs ∧
      (∀ r l, l < 64 → (∀ k ∈ p.lanes, k.lane.val ≠ l ∨ r < p.reg ∨ p.reg + k.words.length ≤ r) → h.core.reg r l = g.core.reg r l) ∧
      (∀ x, p.lanes = [x] → ∀ j, j < x.words.length → h.core.reg (p.reg + j) x.lane.val =
        ⟨(x.words.getD j ⟨0, .live⟩).data, (x.words.getD j ⟨0, .live⟩).st, expiryTick (s.regCode g) s.tick⟩) ∧
      (∀ n v, p.scalars = [(n, v)] → n < 128 → h.core.sreg n = v) ∧ (p.scalars = [] → h.core.sregs = g.core.sregs))) ∧
  (∀ (s : State) (gid id : Nat), (∀ g, s.gang? gid = some g → ∀ p ∈ g.core.pend, p.id ≠ id) →
    exec (.queuedResultWrite gid id) s = .next s ∧ exec (.loadDataArrival gid id) s = .next s) ∧
  (∀ (s : State) (die : Fin 4) (before after : List (Nat × Nat × Nat × Nat)) (c gid id : Nat), s.legacy = before ++ (die.val, c, gid, id) :: after →
    (∀ r ∈ before, r.1 ≠ die.val) →
    ∃ t, exec (.legacyRequestService die) s = .next t ∧ t.legacy = before ++ after ∧ t.mem = s.mem ∧ (∀ k, k ≠ gid → t.gang? k = s.gang? k) ∧
      ∀ g h, s.gang? gid = some g → t.gang? gid = some h → h.core.pend = g.core.pend.filter (fun q => q.id != id))

/-- oalloc, ofree, orenew and the four oquery (R254 to R258): a block at the lowest free place, or all ones where none is left or the size is 0; a change of the map is held with the chunk and the map's line joins its sets; oquery reads the map as the chunk sees it, the expiry as last committed. That OPERAND_RANGE of ofree, orenew and oquery carries no ADDR is DEDUCED (log entry 30), and so is that commands and requests of the chunk before an ofree keep the block in use (log entry 17). -/
def Obligations.Allocation : Prop :=
  (∀ (o : GDAB) (s : State) (e : Env) (c : Crew) (n : Fin 128), let sp : Spec := { guard := o.g, noCox := true, uses := [.dstS o.d, .uni 1 o.a, .uni 2 o.b] }
    let a := e.uni .w32 o.a
    let code := e.uni .w64 o.b
    let sz := ceilDiv a 256 * 256
    let k := (e.g.openChunk.addR (.map c.id)).addW (.map c.id)
    let fit := (s.crewView e.opened.g c).firstFit sz
    s.env 8 o.g = some e → e.crew = some c → o.d = .s n → e.executes sp = true → e.fits k →
    (codeLegal code = true → (a = 0 ∨ fit = none) → CoreStep (.oalloc o) s s e sp (e.core.setSreg n.val (BitVec.allOnes 64)) (OneMoreOf k)) ∧
    (∀ x, codeLegal code = true → a ≠ 0 → fit = some x →
      CoreStep (.oalloc o) s s e sp (e.core.setSreg n.val (BitVec.ofNat 64 x)) (OneMoreOf { k with ops := k.ops ++ [.alloc x sz code] })) ∧
    (codeLegal code = false → TrapStep (.oalloc o) s e (Trap.plain cIllegalEncoding))) ∧
  (∀ (c : Crew) (sz x : Nat), c.firstFit sz = some x → c.desc.staticBytes ≤ x ∧ x + sz ≤ c.desc.crewBytes ∧
    (∀ t ∈ c.taken, x + sz ≤ t.1 ∨ t.2 ≤ x) ∧
    ∀ y, c.desc.staticBytes ≤ y → y + sz ≤ c.desc.crewBytes → 0 < sz → (∀ t ∈ c.taken, t.1 < t.2 → y + sz ≤ t.1 ∨ t.2 ≤ y) → (∀ t ∈ c.taken, t.1 < t.2) → x ≤ y) ∧
  (∀ (o : GA) (s : State) (e : Env) (c : Crew), let sp : Spec := { guard := o.g, noCox := true, uses := [.uni 1 o.a] }
    let a := e.uni .w32 o.a
    s.env 8 o.g = some e → e.crew = some c → e.executes sp = true →
    (∀ x k0, ((s.crewView e.opened.g c).allocs.drop 1).find? (fun x => x.start == a) = some x → (e.opened.g.flushBlock c.id a x.size).chunk = some k0 →
      let k := (({ k0 with ops := k0.ops ++ [.free a e.opened.g.ownUsers] } : Chunk).addR (.map c.id)).addW (.map c.id)
      e.fits k → CoreStep (.ofree o) s s e sp e.core (OneMoreOf k)) ∧
    ((∀ x ∈ (s.crewView e.opened.g c).allocs.drop 1, x.start ≠ a) → TrapStep (.ofree o) s e (Trap.plain cOperandRange)) ∧
    ((∃ x ∈ (s.crewView e.opened.g c).allocs, x.holds a 1 = true) →
      CoreStep (.orenew o) s s e sp e.core (OneMoreOf { e.g.openChunk with ops := e.g.openChunk.ops ++ [.renew a] })) ∧
    ((∀ x ∈ (s.crewView e.opened.g c).allocs, x.holds a 1 = false) → TrapStep (.orenew o) s e (Trap.plain cOperandRange))) ∧
  (∀ (o : GD) (s : State) (e : Env) (c : Crew) (n : Fin 128), let sp : Spec := { guard := o.g, noCox := true, uses := [.dstS o.d] }
    s.env 8 o.g = some e → e.crew = some c → o.d = .s n → e.executes sp = true →
    CoreStep (.oqueryBase o) s s e sp (e.core.setSreg n.val (BitVec.ofNat 64 (c.coreIx % 4 * 2 ^ 24 + c.base))) e.OneMore ∧
    CoreStep (.oqueryFmask o) s s e sp (e.core.setSreg n.val e.core.fmask) e.OneMore) ∧
  (∀ (o : GDA) (s : State) (e : Env) (c : Crew) (n : Fin 128), let sp : Spec := { guard := o.g, noCox := true, uses := [.dstS o.d, .uni 1 o.a] }
    let a := e.uni .w32 o.a
    s.env 8 o.g = some e → e.crew = some c → o.d = .s n → e.executes sp = true →
    (∀ x, (s.crewView e.opened.g c).allocs.find? (fun x => x.holds a 1) = some x →
      CoreStep (.oqueryCode o) s s e sp (e.core.setSreg n.val (BitVec.ofNat 64 x.code)) e.OneMore ∧
      (e.opened.g.allocated x.start = true → CoreStep (.oqueryExpiry o) s s e sp (e.core.setSreg n.val 0) e.OneMore) ∧
      (e.opened.g.allocated x.start = false → x.code % 8 = 0 → CoreStep (.oqueryExpiry o) s s e sp (e.core.setSreg n.val (BitVec.allOnes 64)) e.OneMore) ∧
      (∀ y, e.opened.g.allocated x.start = false → x.code % 8 ≠ 0 → c.allocs.find? (fun y => y.holds a 1) = some y →
        CoreStep (.oqueryExpiry o) s s e sp (e.core.setSreg n.val (BitVec.ofNat 64 y.exp)) e.OneMore)) ∧
    ((∀ x ∈ (s.crewView e.opened.g c).allocs, x.holds a 1 = false) →
      TrapStep (.oqueryCode o) s e (Trap.plain cOperandRange) ∧ TrapStep (.oqueryExpiry o) s e (Trap.plain cOperandRange)))

/-- The copy and near-memory reduction commands at issue (R259, R260, R266 to R273): each waits with its operands for its chunk's commit and raises CP; a global operand that is not canonical, a misaligned operand and a crew-space range outside one live block take their traps. That byte and row counts are read as 64 bits is DEDUCED (log entry 29), and so is that a range of length 0 passes the range check (log entry 24); that the size-record address of cp.cmp.enc needs no alignment is the model's choice (log entry 78). -/
def Obligations.EngineCommands : Prop :=
  (∀ o : CpLinOps, CommandOp (.cpLin o) 16 o.g (cmdSpec o.g [(1, o.a), (2, o.b), (3, o.c), (5, o.k)] (fun _ => true))
    (fun e => .lin (eAddrOf e o.dsp o.a) (eAddrOf e o.ssp o.b) (e.uni .w64 o.c) o.ssp o.dsp) o.k
    (fun e => [⟨o.dsp, eAddrOf e o.dsp o.a, e.uni .w64 o.c, 32, accWrite⟩, ⟨o.ssp, eAddrOf e o.ssp o.b, e.uni .w64 o.c, 32, accRead⟩])) ∧
  (∀ o : CpTenOps, CommandOp (.cpTen o) 32 o.g (shapedSpec o.g [(1, o.a), (2, o.b), (3, o.c), (5, o.k)] o.shape
      (fun e => shapeOk e o.shape 1 && (if bitsAt (e.shapeWord o.shape.q3) 4 1 == 1 then o.dsp == .glob else o.ssp == .glob)))
    (fun e => .ten (eAddrOf e o.dsp o.a) (eAddrOf e o.ssp o.b) (e.uni .w64 o.c) o.ssp o.dsp
      (e.shapeWord o.shape.q0) (e.shapeWord o.shape.q1) (e.shapeWord o.shape.q2) (e.shapeWord o.shape.q3)) o.k
    (fun e => [⟨o.dsp, eAddrOf e o.dsp o.a, e.uni .w64 o.c, 1, accWrite⟩, ⟨o.ssp, eAddrOf e o.ssp o.b, e.uni .w64 o.c, 1, accRead⟩])) ∧
  (∀ o : CpRowOps, CommandOp (.cpGat o) 16 o.g (cmdSpec o.g [(1, o.a), (2, o.b), (3, o.c), (4, o.x), (5, o.k)] (fun _ => true))
    (fun e => .gat (eAddrOf e o.sp o.a) (e.uni .w64 o.b) (e.uni .w64 o.c) (e.uni .w64 o.x) o.sp o.row.toNat o.stride.toNat) o.k
    (fun e => [⟨o.sp, eAddrOf e o.sp o.a, e.uni .w64 o.x * 4 * o.row.toNat, 4, accWrite⟩, ⟨.glob, e.uni .w64 o.b, 0, 4, accRead⟩,
      ⟨.glob, e.uni .w64 o.c, 0, 4, accRead⟩])) ∧
  (∀ o : CpRowOps, CommandOp (.cpSct o) 16 o.g (cmdSpec o.g [(1, o.a), (2, o.b), (3, o.c), (4, o.x), (5, o.k)] (fun _ => true))
    (fun e => .sct (e.uni .w64 o.a) (eAddrOf e o.sp o.b) (e.uni .w64 o.c) (e.uni .w64 o.x) o.sp o.row.toNat o.stride.toNat) o.k
    (fun e => [⟨.glob, e.uni .w64 o.a, 0, 4, accWrite⟩, ⟨o.sp, eAddrOf e o.sp o.b, e.uni .w64 o.x * 4 * o.row.toNat, 4, accRead⟩,
      ⟨.glob, e.uni .w64 o.c, 0, 4, accRead⟩])) ∧
  (∀ o : CpEncOps, CommandOp (.cpCmpEnc o) 16 o.g (cmdSpec o.g [(1, o.a), (2, o.b), (3, o.c), (4, o.x), (5, o.k)] (fun _ => true))
    (fun e => .enc (e.uni .w64 o.a) (e.uni .w64 o.b) (e.uni .w64 o.c) (objOf e o.x)) o.k
    (fun e => [⟨.glob, e.uni .w64 o.a, 0, 4096, accWrite⟩, ⟨.glob, e.uni .w64 o.b, 0, 4096, accRead⟩] ++
      (match objOf e o.x with | some x => [⟨.glob, x, 0, 1, accWrite⟩] | none => []))) ∧
  (∀ o : CpDecOps, CommandOp (.cpCmpDec o) 16 o.g (cmdSpec o.g [(1, o.a), (2, o.b), (3, o.c), (5, o.k)] (fun _ => true))
    (fun e => .dec (e.uni .w64 o.a) (e.uni .w64 o.b) (e.uni .w64 o.c)) o.k
    (fun e => [⟨.glob, e.uni .w64 o.a, 0, 4096, accWrite⟩, ⟨.glob, e.uni .w64 o.b, 0, 4096, accRead⟩])) ∧
  (∀ o : NmrOps, CommandOp (.nmrCmd o) 16 o.g (cmdSpec o.g [(1, o.a), (2, o.b), (3, o.c), (4, o.x), (5, o.k)] (fun _ => true))
    (fun e => .nmr o.sel (e.uni .w64 o.a) (e.uni .w64 o.b) (e.uni .w64 o.c) (e.uni .w64 o.x) o.acc o.row.toNat o.stride.toNat) o.k
    (fun e => [⟨.glob, e.uni .w64 o.a, 0, 4, accWrite⟩, ⟨.glob, e.uni .w64 o.b, 0, 4, accRead⟩, ⟨.glob, e.uni .w64 o.c, 0, 4, accRead⟩])) ∧
  (∀ o : NmrShapedOps, CommandOp (.nmrCmdShaped o) 32 o.g (shapedSpec o.g [(1, o.a), (2, o.b), (5, o.k)] o.shape (fun e => shapeOk e o.shape 0))
    (fun e => .nmrShaped o.sel (e.uni .w64 o.a) (e.uni .w64 o.b) o.acc
      (e.shapeWord o.shape.q0) (e.shapeWord o.shape.q1) (e.shapeWord o.shape.q2) (e.shapeWord o.shape.q3)) o.k
    (fun e => [⟨.glob, e.uni .w64 o.a, 0, 4, accWrite⟩, ⟨.glob, e.uni .w64 o.b, 0, 4, accRead⟩])) ∧
  (∀ o : GA, CommandOp (.nmrFlush o) 8 o.g (cmdSpec o.g [(1, o.a)] (fun _ => true)) (fun _ => .flush) o.a (fun _ => [])) ∧
  (∀ (o : CpLinOps) (s : State) (e : Env), let d := eAddrOf e o.dsp o.a
    let l := lowestLane e.on
    s.env 16 o.g = some e → e.executes (cmdSpec o.g [(1, o.a), (2, o.b), (3, o.c), (5, o.k)] (fun _ => true) e) = true →
    (o.dsp = .glob → canonical d = false → TrapStep (.cpLin o) s e (Trap.atAddr cPermission d l accWrite)) ∧
    (objOf e o.k = none → (o.dsp = .glob → canonical d = true) → (o.ssp = .glob → canonical (eAddrOf e o.ssp o.b) = true) → d % 32 ≠ 0 →
      TrapStep (.cpLin o) s e (Trap.atAddr cAlignment d l accWrite)) ∧
    (∀ c, e.crew = some c → objOf e o.k = none → o.dsp = .crew → (o.ssp = .glob → canonical (eAddrOf e o.ssp o.b) = true) →
      d % 32 = 0 → eAddrOf e o.ssp o.b % 32 = 0 → (s.crewView e.opened.g c).covers d (e.uni .w64 o.c) = false →
      TrapStep (.cpLin o) s e (Trap.atAddr cOperandRange d l accWrite)))

/-- An engine at work (R261, R266 to R270, R374): operands that R266 to R270 refuse fail the command with ENGINE_FAULT before any piece; a piece reads what stands in memory, POISON from a poisoned line, or writes bytes of one line, alone; a strided copy takes its elements at the offsets of the shape record, a gather or scatter its rows at the indices of the list, a codec command its block line by line and through the directory of deep blocks, by the steps of R397, other steps between them: units allocated, or the command failed where too few are free (R398); the bytes and the directory entry, at one point (log entry 23); the old extent freed once no command reads it; a reduction its rows in list order into one output line at a time, on MEMSIDE pages only; a piece that meets no page makes the command wait with one record, and it is tried again while the page is absent. An index entry on a poisoned line stands for the bits it reads as (the model's choice, log entry 77); how many units the codec takes is Config's (log entry 7). That the blocks of a codec command are the 4 KiB of its uncompressed side by offset, taken in any order (log entry 23), that a deep block keeps its poison line by line (log entry 14), and that an address past the end of its space wraps (log entry 101), are the model's choices. -/
def Obligations.EnginePieces : Prop :=
  (∀ (s : State) (c : Cmd) (choice : Nat), s.cmd? c.id = some c → s.cmdReady c = true → c.corrupt = false → c.prog.checked = false →
    (cmdBad c.kind = false → exec (.enginePiece c.id choice) s = .next (s.putCmd { c with prog := { c.prog with checked := true } })) ∧
    (cmdBad c.kind = true → exec (.enginePiece c.id choice) s =
      .next ((s.putCmd { c with failed := some (cEngineFault, 0), waitVa := none }).addDue (.commandCompletion c.id)))) ∧
  ((∀ (a b n : Nat) (ss ds : ESpace), cmdBad (.lin a b n ss ds) = true ↔ 2 ^ 40 ≤ n ∨ (ss = ds ∧ 0 < n ∧ a < b + n ∧ b < a + n)) ∧
    (∀ (a b x n row stride : Nat) (sp : ESpace) (sel : NmrSel) (acc : Bool), (cmdBad (.gat a b x n sp row stride) = true ↔ 2 ^ 24 < n) ∧
      (cmdBad (.sct a b x n sp row stride) = true ↔ 2 ^ 24 < n) ∧ (cmdBad (.nmr sel a b x n acc row stride) = true ↔ 2 ^ 24 < n)) ∧
    (∀ (a b n : Nat) (x : Option Nat), (cmdBad (.enc a b n x) = true ↔ n % 4096 ≠ 0 ∨ 2 ^ 40 ≤ n) ∧ (cmdBad (.dec a b n) = true ↔ n % 4096 ≠ 0 ∨ 2 ^ 40 ≤ n)) ∧
    (∀ (a b n q0 q1 q2 q3 : Nat) (ss ds : ESpace), q3 % 16 < 5 → let z := 2 ^ (q3 % 16)
      (cmdBad (.ten a b n ss ds q0 q1 q2 q3) = true ↔ n % z ≠ 0 ∨ bitsAt q0 0 16 * bitsAt q0 16 15 * bitsAt q2 24 7 < n / z ∨ a % z ≠ 0 ∨ b % z ≠ 0 ∨
        q1 % z ≠ 0 ∨ bitsAt q2 0 24 * 256 % z ≠ 0))) ∧
  (∀ (s : State) (ctx src va acc : Nat), let t := s.waitRecord ctx src va acc
    ∃ r : List Byte, t = { s with fq := { s.fq with waiting := s.fq.waiting ++ [(0, r)] } } ∧ r.length = 128 ∧ r.getD 0 0 = 0x10 ∧ r.getD 1 0 = 4 ∧
      fieldOf r 4 4 = ctx % 4096 ∧ fieldOf r 8 8 = src % 2 ^ 64 ∧ fieldOf r 16 8 = va % 2 ^ 64 ∧ fieldOf r 24 8 = acc % 2 ^ 64) ∧
  (∀ (s s' : State) (c : Cmd) (u : Nat), let m := unitAt c.kind c.prog u
    let atWork := s.cmd? c.id = some c ∧ s.cmdReady c = true ∧ c.corrupt = false ∧ c.prog.checked = true ∧ u < unitTotal c.kind ∧ 0 < unitsIn c.kind ∧
      c.prog.pos ≤ u / unitsIn c.kind ∧ u / unitsIn c.kind < s.cmdLimit c ∧ u ∉ c.prog.done
    (atWork → (∀ h ∈ c.prog.held, h.1 ≠ u) → (match c.kind with | .lin .. | .ten .. | .enc .. => true | _ => false) = true → srcSpace c.kind = .glob → canonical m.src = true →
      (∀ l, s.xlat c.ctx c.sup .load .engine m.src = (.ok l, s') → exec (.enginePiece c.id (4 * u + 1)) s =
        .next (s'.putCmd { c with waitVa := none, prog := { c.prog with held := c.prog.held ++ [(u, s'.readBytes l.la m.n)] } })) ∧
      (s.xlat c.ctx c.sup .load .engine m.src = (.error cPageNotPresent, s') → exec (.enginePiece c.id (4 * u + 1)) s =
        .next ((s'.waitRecord c.ctx (s'.cmdSrc c) m.src accRead).putCmd { c with waitVa := some m.src }))) ∧
    (∀ (bs : List BSt) (l : Loc), atWork → c.prog.held.find? (fun h => h.1 == u) = some (u, bs) → bs ≠ [] →
      (match c.kind with | .lin .. | .ten .. | .gat .. => true | _ => false) = true → dstSpace c.kind = .glob →
      canonical m.dst = true → s.xlat c.ctx c.sup .store .engine m.dst = (.ok l, s') → l.la % 64 = m.dst % 64 → m.dst % 64 + bs.length ≤ 64 →
      s'.holderHit none [.glob (lineOf l.la)] [] = false →
      ∃ t k, exec (.enginePiece c.id (4 * u + 2)) s = .next t ∧ t.cmd? c.id = some k ∧
        (k.finished = true ∨ u ∈ k.prog.done ∨ u / unitsIn c.kind < k.prog.pos) ∧ (k.finished = true → .commandCompletion c.id ∈ t.due) ∧
        (∀ i, i < bs.length → memByte t.mem (l.la + i) = (bs.getD i (0, .live)).1) ∧
        (∀ y, (y < l.la ∨ l.la + bs.length ≤ y) → memByte t.mem y = memByte s.mem y) ∧
        ((∃ y ∈ bs, y.2 ≠ .live) → t.linePoisoned l.la = true))) ∧
  (∀ (k : CmdKind) (p : Progress) (lim : Nat), (match k with | .lin .. | .ten .. => true | _ => false) = true → 0 < unitsIn k → p.pos < lim →
    p.left k p.pos ≠ [] → nextAct k p lim 0 ≠ none) ∧
  ((∀ (k : CmdKind) (j u : Nat), u ∈ blockUnits k j ↔ unitsIn k * j ≤ u ∧ u < unitsIn k * (j + 1) ∧ u < unitTotal k) ∧
    (∀ (a b n i : Nat) (ss ds : ESpace) (p : Progress), (i < unitTotal (.lin a b n ss ds) ↔ 32 * i < n) ∧
      unitAt (.lin a b n ss ds) p i = ⟨wrap ss (b + 32 * i), wrap ds (a + 32 * i), min 32 (n - 32 * i)⟩) ∧
    (∀ (a b n q0 q1 q2 q3 i : Nat) (ss ds : ESpace) (p : Progress), let z := (shapeElem q0 q3).1
      (0 < z → (i < unitTotal (.ten a b n ss ds q0 q1 q2 q3) ↔ (i + 1) * z ≤ n)) ∧
      unitAt (.ten a b n ss ds q0 q1 q2 q3) p i = if q3 / 16 % 2 = 0 then ⟨wrap ss (b + stridedOff q0 q1 q2 q3 i), wrap ds (a + i * z), z⟩
        else ⟨wrap ss (b + i * z), wrap ds (a + stridedOff q0 q1 q2 q3 i), z⟩) ∧
    (∀ q0 q1 q2 q3 i0 i1 i2 : Nat, let z := (shapeElem q0 q3).1
      let d0 := (shapeElem q0 q3).2
      let d1 := bitsAt q0 16 15
      i0 < d0 → i1 < d1 → stridedOff q0 q1 q2 q3 (i0 + d0 * (i1 + d1 * i2)) = i0 * z + i1 * q1 + i2 * (bitsAt q2 0 24 * 256)) ∧
    (∀ (a b x n row stride r i : Nat) (sp : ESpace) (p : Progress) (bs : List BSt), i < row → spFind p.list r = some bs →
      let off := ofBytesLE (bs.map (·.1)) * (4 * (if stride = 0 then row else stride))
      unitAt (.gat a b x n sp row stride) p (row * r + i) = ⟨(b + off + 4 * i) % 2 ^ 64, wrap sp (a + 4 * (row * r + i)), 4⟩ ∧
      unitAt (.sct a b x n sp row stride) p (row * r + i) = ⟨wrap sp (b + 4 * (row * r + i)), (a + off + 4 * i) % 2 ^ 64, 4⟩)) ∧
  (∀ (s s' : State) (c : Cmd) (a b x n row stride r : Nat) (sp : ESpace) (l : Loc), s.cmd? c.id = some c → s.cmdReady c = true → c.corrupt = false →
    c.prog.checked = true → (c.kind = .gat a b x n sp row stride ∨ c.kind = .sct a b x n sp row stride) → 0 < row → c.prog.pos ≤ r → r < n → r < s.cmdLimit c →
    (spFind c.prog.list r = none → c.prog.done = [] → let i := (x + 4 * r) % 2 ^ 64
      canonical i = true → s.xlat c.ctx c.sup .load .engine i = (.ok l, s') →
      exec (.enginePiece c.id (4 * r + 4)) s = .next (s'.putCmd { c with waitVa := none, prog := { c.prog with list := spSet r (s'.readBytes l.la 4) c.prog.list } })) ∧
    (∀ bs, spFind c.prog.list r = some bs → row * r ∉ c.prog.done →
      let t := ((match c.kind with | .gat .. => b | _ => a) + ofBytesLE (bs.map (·.1)) * (4 * (if stride = 0 then row else stride))) % 2 ^ 64
      let failed := .next ((s.putCmd { c with failed := some (cEngineFault, t), waitVa := none }).addDue (.commandCompletion c.id))
      canonical t = false →
      (c.kind = .gat a b x n sp row stride → (∀ h ∈ c.prog.held, h.1 ≠ row * r) → exec (.enginePiece c.id (4 * (row * r) + 1)) s = failed) ∧
      (c.kind = .sct a b x n sp row stride → r = c.prog.pos → c.prog.has (row * r) = true → exec (.enginePiece c.id (4 * (row * r) + 2)) s = failed)) ∧
    (∀ i, c.kind = .sct a b x n sp row stride → c.prog.pos ≤ i → i < r → (spFind c.prog.list i = none ∨ (c.prog.index i = c.prog.index r ∧ c.prog.left c.kind i ≠ [])) →
      nextAct c.kind c.prog (s.cmdLimit c) (4 * (row * r) + 2) = none)) ∧
  (∀ (s s' : State) (c : Cmd) (a b n j : Nat) (x : Option Nat) (l : Loc), s.cmd? c.id = some c → s.cmdReady c = true → c.corrupt = false →
    c.prog.checked = true → c.kind = .enc a b n x → c.prog.pos ≤ j → j < blockCount c.kind → j < s.cmdLimit c →
    (let d := (a + 4096 * j) % 2 ^ 64
     let bs := ((blockUnits c.kind j).flatMap (heldOf c.prog)).map (·.1)
     canonical d = true → s.xlat c.ctx c.sup .store .codec d = (.ok l, s') →
      ((∀ u ∈ blockUnits c.kind j, c.prog.has u = true) → c.prog.work j = none →
        (2 ^ 32 < s.unitsUsed + codecSize bs → exec (.enginePiece c.id (20 * j + 4)) s =
          .next ((s'.putCmd { c with failed := some (cEngineFault, d), waitVa := none }).addDue (.commandCompletion c.id))) ∧
        (s.unitsUsed + codecSize bs ≤ 2 ^ 32 → exec (.enginePiece c.id (20 * j + 4)) s =
          .next ({ s' with unitsUsed := s.unitsUsed + codecSize bs }.putCmd { c with waitVa := none, prog := c.prog.setWork j (some (.allocated (codecSize bs))) }))) ∧
      (∀ k, c.prog.work j = some (.allocated k) → ∃ t y, exec (.enginePiece c.id (20 * j + 8)) s = .next t ∧
        spFind t.deep (l.la / 4096) = some y ∧ y.ext = s.nextId ∧ y.units = k ∧ y.bytes = bs ∧
        (∀ i, i < (blockUnits c.kind j).length → (y.pois.contains i = (heldOf c.prog (64 * j + i)).any (fun y => y.2 != .live))) ∧
        (∀ m, m ≠ l.la / 4096 → spFind t.deep m = spFind s.deep m) ∧
        t.oldExtents = s.oldExtents ++ (match spFind s.deep (l.la / 4096) with | some o => [⟨o.ext, o.units, false⟩] | none => []) ∧
        t.unitsUsed = s.unitsUsed ∧ t.mem = s.mem ∧ t.gangs = s.gangs)) ∧
    (∀ (y k : Nat) (parts : List Nat) (old : Option Nat), x = some y → c.prog.work j = some (.stored k parts old) → 0 ∈ parts → let z := sizeRecordAt y j
      z % 64 < 63 → canonical z = true → s.xlat c.ctx c.sup .store .engine z = (.ok l, s') → l.la % 64 = z % 64 → s'.holderHit none [.glob (lineOf l.la)] [] = false →
      ∃ t, exec (.enginePiece c.id (20 * j + 12)) s = .next t ∧ t.loadNat l.la 2 = k % 2 ^ 16 ∧
        ∀ i, (i < l.la ∨ l.la + 2 ≤ i) → memByte t.mem i = memByte s.mem i) ∧
    (∀ (k o u : Nat) (parts : List Nat) (before after : List OldExtent), c.prog.work j = some (.stored k parts (some o)) → s.oldExtents = before ++ ⟨o, u, false⟩ :: after →
      (∀ y ∈ before ++ after, y.ext ≠ o ∧ y.asked = false) → ∃ t, exec (.enginePiece c.id (20 * j + 20)) s = .next t ∧ t.mem = s.mem ∧ t.deep = s.deep ∧
        ((∀ e ∈ s.cmds, ∀ y ∈ e.prog.deep, y.2 ≠ .reading o) → t.oldExtents = before ++ after ∧ t.unitsUsed = s.unitsUsed - u) ∧
        ((∃ e ∈ s.cmds, ∃ y ∈ e.prog.deep, y.2 = .reading o) → t.oldExtents = before ++ ⟨o, u, true⟩ :: after ∧ t.unitsUsed = s.unitsUsed)) ∧
    (∀ bs : List Byte, 1 ≤ codecSize bs ∧ codecSize bs ≤ 16 ∧ ((∀ y ∈ bs, y = 0) → codecSize bs = 1))) ∧
  (∀ (s s' : State) (c : Cmd) (a b n j : Nat) (d : DeepBlock) (l : Loc), s.cmd? c.id = some c → s.cmdReady c = true → c.corrupt = false →
    c.prog.checked = true → c.kind = .dec a b n → c.prog.pos ≤ j → j < blockCount c.kind → j < s.cmdLimit c →
    (∀ u ∈ blockUnits c.kind j, c.prog.has u = false ∧ u ∉ c.prog.done) → let u := (b + 4096 * j) % 2 ^ 64
    canonical u = true → s.xlat c.ctx c.sup .load .codec u = (.ok l, s') → spFind s.deep (l.la / 4096) = some d → d.bytes.length = 4096 →
    exec (.enginePiece c.id (4 * j + 1)) s = .next (s'.putCmd { c with waitVa := none, prog := { c.prog with
      deep := (c.prog.setWork j (some (.reading d.ext))).deep
      held := c.prog.held ++ (List.range 64).map (fun i => (64 * j + i, ((d.bytes.drop (64 * i)).take 64).map (fun y => (y, if d.pois.contains i then VSt.poison else VSt.live)))) } })) ∧
  (∀ (s : State) (c : Cmd) (a b n j o u : Nat) (before after : List OldExtent), s.cmd? c.id = some c → s.cmdReady c = true → c.corrupt = false →
    c.prog.checked = true → c.kind = .dec a b n → c.prog.deep = [(j, .reading o)] → s.oldExtents = before ++ ⟨o, u, true⟩ :: after →
    (∀ y ∈ before ++ after, y.asked = false) → (∀ e ∈ s.cmds, e.id ≠ c.id → ∀ y ∈ e.prog.deep, y.2 ≠ .reading o) →
    ∃ t, exec (.enginePiece c.id (4 * j + 4)) s = .next t ∧ t.oldExtents = before ++ after ∧ t.unitsUsed = s.unitsUsed - u ∧ t.mem = s.mem) ∧
  (∀ (s s' : State) (c : Cmd) (l : Loc), s.cmd? c.id = some c → s.cmdReady c = true → c.corrupt = false → c.prog.checked = true →
    (∀ (sel : NmrSel) (a b x n row stride r : Nat) (acc : Bool), c.kind = .nmr sel a b x n acc row stride → r < n → spFind c.prog.list r = none → c.prog.list.length < n →
      let i := (x + 4 * r) % 2 ^ 64
      canonical i = true → s.xlat c.ctx c.sup .load .engine i = (.ok l, s') →
      exec (.enginePiece c.id (r + 1)) s = .next (s'.putCmd { c with waitVa := none, prog := { c.prog with list := spSet r (s'.readBytes l.la 4) c.prog.list } })) ∧
    (let p := nmrPlan c.kind (c.prog.list.flatMap (·.2))
     (match c.kind with | .nmr .. | .nmrShaped .. => true | _ => false) = true → c.kind.listLeft c.prog = false →
      ∀ g off n : Nat, let d := (p.out + g * p.rowBytes + off) % 2 ^ 64
      (canonical d = true → s.xlat c.ctx c.sup .store .engine d = (.ok l, s') → c.prog.sub = 0 → p.parts = [(g, off, n)] → ∀ choice,
        (l.memside = false → exec (.enginePiece c.id choice) s =
          .next ((s'.putCmd { c with failed := some (cEngineFault, d), waitVa := none }).addDue (.commandCompletion c.id))) ∧
        (l.memside = true → exec (.enginePiece c.id choice) s = .next (s'.putCmd { c with waitVa := none, prog := { c.prog with sub := 1 } }))) ∧
      (∀ q i m x z, c.prog.sub ≠ 0 → p.parts[q]? = some (g, off, n) → c.prog.pos ≤ q → q ∉ c.prog.done → i < 2 ^ 25 → m < 2 → (i, m, x, z) ∈ p.reads (g, off, n) →
        c.prog.has (nmrKey q i m) = false → canonical x = true → s.xlat c.ctx c.sup .load .engine x = (.ok l, s') →
        exec (.enginePiece c.id (2 * nmrKey q i m + 1)) s = .next (s'.putCmd { c with waitVa := none, prog := { c.prog with held := c.prog.held ++ [(nmrKey q i m, s'.readBytes l.la z)] } })) ∧
      (∀ q, c.prog.sub ≠ 0 → p.parts[q]? = some (g, off, n) → c.prog.pos ≤ q → q ∉ c.prog.done → (∀ y ∈ p.reads (g, off, n), c.prog.has (nmrKey q y.1 y.2.1) = true) →
        canonical d = true → s.xlat c.ctx c.sup .store .engine d = (.ok l, s') → s'.holderHit none [.glob (lineOf l.la)] [] = false →
        let bs := nmrLine p.sel p.acc (s'.readBytes l.la n) (p.rows c.prog q (g, off, n))
        ∃ t, exec (.enginePiece c.id (2 * q + 2)) s = .next t ∧ (∀ i, i < bs.length → memByte t.mem (l.la + i) = (bs.getD i (0, .live)).1) ∧
          (∀ y, (y < l.la ∨ l.la + bs.length ≤ y) → memByte t.mem y = memByte s.mem y)))) ∧
  (∀ (sel : NmrSel) (a b q0 q1 q2 q3 : Nat) (acc : Bool) (list : List BSt), (nmrPlan (.nmrShaped sel a b acc q0 q1 q2 q3) list).bags =
    (List.range (bitsAt q2 24 7)).map (fun i2 => (List.range (bitsAt q0 16 15)).map (fun i1 => (b + i1 * q1 + i2 * (bitsAt q2 0 24 * 256)) % 2 ^ 64))) ∧
  (∀ (old row : List BSt) (n i : Nat), old.length = 4 * n → row.length = 4 * n → i < n →
    let num := fun (l : List BSt) => ofBytesLE (((l.drop (4 * i)).take 4).map (·.1))
    num (nmrLine ⟨.i32, .sum⟩ true old [row]) = (num old + num row) % 2 ^ 32 ∧
    num (nmrLine ⟨.n32, .max⟩ true old [row]) = max (num old) (num row) ∧ num (nmrLine ⟨.n32, .min⟩ false old [row]) = num row ∧
    ((∃ y ∈ row, y.2 ≠ .live) → ∀ y ∈ nmrLine ⟨.i32, .sum⟩ true old [row], y.2 = .poison)) ∧
  (∀ (s s' : State) (c : Cmd) (a b n : Nat) (l : Loc), s.cmd? c.id = some c → s.cmdReady c = true → c.corrupt = false → c.kind = .lin a b n .glob .glob →
    c.prog = { Progress.start with checked := true } → 0 < n → n ≤ 32 → b < 2 ^ 64 → canonical b = true → s.xlat c.ctx c.sup .load .engine b = (.ok l, s') → 0 < s.cmdLimit c →
    exec (.enginePiece c.id 0) s = .next (s'.putCmd { c with waitVa := none, prog := { c.prog with held := [(0, s'.readBytes l.la n)] } })) ∧
  (∀ (s s' : State) (c : Cmd) (a b n : Nat) (l : Loc) (bs : List BSt), s.cmd? c.id = some c → s.cmdReady c = true → c.corrupt = false →
    c.kind = .lin a b n .glob .glob → c.prog = { Progress.start with checked := true, held := [(0, bs)] } → 0 < s.cmdLimit c → bs.length = n → 0 < n → n ≤ 32 → a < 2 ^ 64 → a % 32 = 0 → canonical a = true →
    s.xlat c.ctx c.sup .store .engine a = (.ok l, s') → l.la % 64 = a % 64 → s'.holderHit none [.glob (lineOf l.la)] [] = false →
    ∃ t k, exec (.enginePiece c.id 0) s = .next t ∧ t.cmd? c.id = some k ∧ k.finished = true ∧ .commandCompletion c.id ∈ t.due ∧
      (∀ i, i < n → memByte t.mem (l.la + i) = (bs.getD i (0, .live)).1) ∧
      (∀ x, (x < l.la ∨ l.la + n ≤ x) → memByte t.mem x = memByte s.mem x) ∧
      ((∃ x ∈ bs, x.2 ≠ .live) → t.linePoisoned l.la = true) ∧ ((∀ x ∈ bs, x.2 = .live) → t.poisoned = s.poisoned)) ∧
  (∀ (s : State) (id va : Nat) (c : Cmd), 64 ≤ id → s.cmd? id = some c → c.waitVa = some va → s.cmdRuns c = true → c.failed = none → c.kind.noData = false → c.kind ≠ .flush →
    (∀ w, walk s c.ctx va = .ok w →
      (c.finished = false → exec (.pageWaitRetry id) s = .next (s.putCmd { c with waitVa := none })) ∧
      (c.finished = true → exec (.pageWaitRetry id) s = .next ((s.putCmd { c with waitVa := none }).addDue (.commandCompletion c.id)))) ∧
    (walk s c.ctx va = .error cPageNotPresent → exec (.pageWaitRetry id) s = .next s))

/-- The completion of a command (R263): its object's COUNT rises by one, modulo 2^48, or its F bit and the first CAUSE are set; events bound to the object whose threshold the new value reaches are latched (R234); CP falls by one; a failure leaves one record; a command without a data piece, and a flush once the reductions before it are done, complete likewise (R273). An object whose page is not present leaves one waiting record and the command counted; one that fails otherwise is not updated, and a record of kind 0x02 names it in AUX0. A command completes only where its context runs, or is being stopped and the command neither waits for a page nor is a queued flush (R375, R382). Which events a completion latches is read by the object's stored location (the model's choice, log entry 27), and the update of an object on a poisoned line leaves the line poisoned (the model's choice, log entry 34). -/
def Obligations.CommandCompletion : Prop :=
  (∀ (s : State) (c : Cmd), s.cmdMayEnd c = true ↔ s.cmdRuns c = true ∨ (s.cmdAtStop c = true ∧ c.waitVa = none ∧ c.kind ≠ .flush)) ∧
  (∀ (s : State) (c : Cmd), s.cmd? c.id = some c → s.cmdMayEnd c = false → exec (.commandCompletion c.id) s = .next s) ∧
  (∀ (s : State) (c : Cmd), s.cmd? c.id = some c → s.cmdMayEnd c = true → c.finished = true → c.failed = none → c.obj = none → c.kind.noData = false →
    exec (.commandCompletion c.id) s = .next (s.retireCmd c)) ∧
  (∀ (s s' : State) (c : Cmd) (a : Nat) (l : Loc), s.cmd? c.id = some c → s.cmdMayEnd c = true → c.finished = true → c.failed = none → c.obj = some a → c.kind.noData = false →
    (∀ ops, c.kind ≠ .redg ops) → canonical a = true → s.xlat c.ctx c.sup .store .engine a = (.ok l, s') → l.la % 8 = 0 → s'.holderHit none [.glob (lineOf l.la)] [] = false →
    ∃ t, exec (.commandCompletion c.id) s = .next t ∧ t.loadNat l.la 8 = objectAfter (s.loadNat l.la 8) none ∧
      (∀ x, (x < l.la ∨ l.la + 8 ≤ x) → memByte t.mem x = memByte s.mem x) ∧ t.cmd? c.id = none ∧ t.poisoned = s.poisoned ∧
      (∀ g, s.gang? c.gang = some g → g.spared [.glob (lineOf l.la)] [] → ∃ h, t.gang? c.gang = some h ∧ h.core.cp = g.core.cp - 1) ∧
      (∀ k g j, s.gang? k = some g → g.spared [.glob (lineOf l.la)] [] → j < 16 → g.awaitsObject j l.la (objectAfter (s.loadNat l.la 8) none) →
        ∃ h, t.gang? k = some h ∧ h.core.evpend.getLsbD j = true)) ∧
  (∀ (s s' : State) (c : Cmd) (a k va : Nat) (l : Loc), s.cmd? c.id = some c → s.cmdMayEnd c = true → c.failed = some (k, va) → k < 2 ^ 8 → c.obj = some a → c.kind.noData = false →
    (∀ ops, c.kind ≠ .redg ops) → canonical a = true → s.xlat c.ctx c.sup .store .engine a = (.ok l, s') → l.la % 8 = 0 → s'.holderHit none [.glob (lineOf l.la)] [] = false →
    ∃ t, exec (.commandCompletion c.id) s = .next t ∧ t.loadNat l.la 8 = objectAfter (s.loadNat l.la 8) (some k) ∧
      t.fq.waiting.length = s.fq.waiting.length + 1 ∧ t.cmd? c.id = none ∧
      (∀ g, s.gang? c.gang = some g → g.spared [.glob (lineOf l.la)] [] → ∃ h, t.gang? c.gang = some h ∧ h.core.cp = g.core.cp - 1) ∧
      (∀ x g j, s.gang? x = some g → g.spared [.glob (lineOf l.la)] [] → j < 16 → g.awaitsObject j l.la (objectAfter (s.loadNat l.la 8) (some k)) →
        ∃ h, t.gang? x = some h ∧ h.core.evpend.getLsbD j = true)) ∧
  (∀ (s s' : State) (c : Cmd) (a k : Nat), s.cmd? c.id = some c → s.cmdMayEnd c = true → c.finished = true → c.failed = none → c.obj = some a → c.kind.noData = false →
    canonical a = true → s.xlat c.ctx c.sup .store .engine a = (.error k, s') →
    (k = cPageNotPresent → c.waitVa = none → exec (.commandCompletion c.id) s = .next ((s'.waitRecord c.ctx (s'.cmdSrc c) a accWrite).putCmd { c with waitVa := some a })) ∧
    (k ≠ cPageNotPresent → exec (.commandCompletion c.id) s = .next ((s'.failRecord c k a).retireCmd c))) ∧
  (∀ (s : State) (c : Cmd) (k va : Nat), (s.failRecord c k va).mem = s.mem ∧
    (s.failRecord c k va).fq.waiting = s.fq.waiting ++ [(s.cmdToken c.gang, recordBytes [(0, 1, k), (1, 1, 0x02), (2, 2, 0), (4, 4, c.ctx % 4096), (8, 8, s.cmdSrc c), (16, 8, va),
      (24, 8, c.obj.getD 0), (32, 8, 0), (40, 16, ofBytesLE c.insn), (88, 8, s.tick)])]) ∧
  (∀ (s : State) (c : Cmd), s.cmd? c.id = some c → s.cmdMayEnd c = true → c.failed = none → c.finished = false → c.corrupt = false → c.obj = none →
    (c.kind.noData = true → cmdBad c.kind = false → exec (.commandCompletion c.id) s = .next (s.retireCmd c)) ∧
    (c.kind.noData = true → c.prog.checked = false → cmdBad c.kind = true → exec (.commandCompletion c.id) s = .next ((s.failRecord c cEngineFault 0).retireCmd c)) ∧
    (c.kind = .flush → s.baseTakes c = true → s.flushReady c = true → exec (.commandCompletion c.id) s = .next (s.retireCmd c)) ∧
    (c.kind.noData = false → c.kind ≠ .flush → exec (.commandCompletion c.id) s = .next s)) ∧
  (∀ (s : State) (c : Cmd) (g : Gang), s.gang? c.gang = some g →
    ((∀ ops, c.kind ≠ .redg ops) → (s.retireCmd c).gang? c.gang = some (g.mapBoth (fun k => { k with cp := k.cp - 1 }))) ∧
    (∀ ops, c.kind = .redg ops → (s.retireCmd c).gang? c.gang = some (g.mapBoth (fun k => { k with st := k.st - 1 }))) ∧
    (s.retireCmd c).mem = s.mem ∧ (∀ x, x ≠ c.id → (s.retireCmd c).cmd? x = s.cmd? x)) ∧
  (∀ old k : Nat, old < 2 ^ 64 → k < 2 ^ 8 →
    objectAfter old none % 2 ^ 48 = (old % 2 ^ 48 + 1) % 2 ^ 48 ∧ objectAfter old none / 2 ^ 48 = old / 2 ^ 48 ∧
    (objectAfter old (some k)).testBit 63 = true ∧ objectAfter old (some k) % 2 ^ 48 = old % 2 ^ 48 ∧
    (old.testBit 63 = false → objectAfter old (some k) / 2 ^ 48 % 2 ^ 8 = k) ∧ (old.testBit 63 = true → objectAfter old (some k) = old))

/-- cmp.rd and cmp.set (R264, R265): cmp.rd reads the object as an 8-byte load whose value is in flight for the destination, and its predicate says whether the value has reached B; cmp.set is performed at its chunk's commit, where it latches the events whose threshold it reaches. That events are latched by the location address is DEDUCED (log entry 27), and so is that the chunk itself does not see its cmp.set (log entry 28). -/
def Obligations.CompletionObjects : Prop :=
  (∀ (o : CmpRdOps) (s s' : State) (e : Env) (n : Fin 128) (l : Loc) (bs : List Byte), let sp : Spec := { guard := o.g, uses := [.dstS o.d, .uni 1 o.a, .uni 2 o.b], ctr := .ld }
    let c := e.g.openChunk.readsAt (.glob l.la)
    let v := ofBytesLE bs
    s.env 8 o.g = some e → e.executes sp = true → o.d = .s n → e.oneAt s s' .load 8 (e.uni .w64 o.a) l → bs.length = 8 → e.sees s' (.glob l.la) bs → e.fits c →
    CoreStep (.cmpRd o) s { s' with nextId := s'.nextId + 1 } e sp
      { e.core.setPred o.k.val e.on (if e.uni .w64 o.b ≤ v then BitVec.allOnes 64 else 0) with
        ld := e.core.ld + 1, pend := e.core.pend ++ [⟨s'.nextId, .load, 0, [], [(n.val, BitVec.ofNat 64 v)]⟩] } (OneMoreOf c)) ∧
  (∀ (o : GAB) (s s' : State) (e : Env) (l : Loc), let sp : Spec := { guard := o.g, uses := [.uni 1 o.a, .uni 2 o.b] }
    let a := e.uni .w64 o.a
    let c := e.g.openChunk.writesAt (.glob l.la)
    s.env 8 o.g = some e → e.executes sp = true → e.oneAt s s' .store 8 a l → e.fits c →
    CoreStep (.cmpSet o) s s' e sp e.core (OneMoreOf { c with defer := c.defer ++ [.cmpSet e.ctx a l.la (BitVec.ofNat 64 (e.uni .w64 o.b))] })) ∧
  (∀ (s : State) (g : Gang) (ctx va la : Nat) (v : Word64), let t := s.release g (.cmpSet ctx va la v)
    t.loadNat la 8 = v.toNat ∧ (∀ x, (x < la ∨ la + 8 ≤ x) → memByte t.mem x = memByte s.mem x) ∧
    (∀ (k : Gang) (j : Nat) (b : Binding) (c1 : Nat) (c2 : Bool) (c3 thr : Nat), s.gang? k.id = some k → j < 16 → k.core.binds.getD j none = some b → b.src = .comp c1 c2 c3 la thr →
      thr ≤ v.toNat → ∃ h, t.gang? k.id = some h ∧ h.core.evpend.getLsbD j = true))

/-- tsk.enq and launch (R274, R275, R277, R333 to R335): the record or descriptor is read as a chunked load, checked, and enters its queue or the dispatcher at the commit of the chunk, which ends after the instruction (R110); a queue number from 64 is ILLEGAL_ENCODING, a queue that is not granted PERMISSION, a full queue stalls the group, a grid that cannot be placed whole is RESOURCE. The queue number is read as 64 bits (log entry 29), and whether a grid can be placed whole counts the resources of R343 without the limits of R346 (log entry 52): the model's choices. -/
def Obligations.TasksAndLaunch : Prop :=
  (∀ (o : GAB) (s : State) (e : Env), let sp : Spec := { guard := o.g, uses := [.uni 1 o.a, .uni 2 o.b], chunk := .after }
    let q := e.uni .w64 o.a
    let a := e.uni .w64 o.b
    s.env 8 o.g = some e → e.executes sp = true →
    (64 ≤ q → TrapStep (.tskEnq o) s e (Trap.plain cIllegalEncoding)) ∧
    (q < 64 → s.granted e.opened.g (queueKey q) = false → TrapStep (.tskEnq o) s e (Trap.plain cPermission)) ∧
    (∀ (s' : State) (l : Loc) (bs : List Byte), q < 64 → s.granted e.opened.g (queueKey q) = true → e.oneAt s s' .load 64 a l → bs.length = 64 →
      e.sees s' (.glob l.la) bs → recordReserved bs = true → (recordOf a e.sup bs).aligned = true →
      let c := e.g.openChunk.readsAt (.glob l.la)
      (s'.queueFull q = false → e.fits c → CoreStep (.tskEnq o) s s' e sp e.core (fun k => k =
        { c with count := c.count + 1, closed := true, pages := k.pages, defer := c.defer ++ [.task q (recordOf a e.sup bs)] })) ∧
      (s'.queueFull q = true → s'.tokenHolder ≠ some e.g.id → StallStep (.tskEnq o) s s' e (.queue q)))) ∧
  (∀ (o : GA) (s s' : State) (e : Env) (l : Loc) (bs : List Byte), let sp : Spec := { guard := o.g, uses := [.uni 1 o.a], chunk := .after }
    let a := e.uni .w64 o.a
    let d := descOf bs
    let ctx := launchCtx e s
    let c := (e.g.openChunk.readsAt (.glob l.la)).readsAt (.glob (l.la + 64))
    s.env 8 o.g = some e → e.executes sp = true → e.oneAt s s' .load 128 a l → e.g.openChunk.inQ (.glob (l.la + 64)) = false → bs.length = 128 →
    e.sees s' (.glob l.la) bs → ctx ≠ 0 →
    (descTrap bs d (s'.granted e.opened.g (queueKey d.tqn)) = none → (d.cor = true → ∀ p, s'.partOfCtx ctx = some p → gridFits s' p ctx d.crewsN d = true) →
      (d.tqv = true → s'.queueFull d.tqn = false) → e.fits c →
      CoreStep (.launch o) s s' e sp e.core (fun k => k =
        { c with count := c.count + 1, closed := true, pages := k.pages, defer := c.defer ++ [.launch d a ctx (!d.cor || (s'.partOfCtx ctx).isSome)] })) ∧
    (∀ x, descTrap bs d (s'.granted e.opened.g (queueKey d.tqn)) = some x →
      exec (.launch o) s = .next (s'.raise e.g e.x e.site (Trap.plain x))) ∧
    (descTrap bs d (s'.granted e.opened.g (queueKey d.tqn)) = none →
      (∀ p, d.cor = true → s'.partOfCtx ctx = some p → gridFits s' p ctx d.crewsN d = false →
        exec (.launch o) s = .next (s'.raise e.g e.x e.site (Trap.plain cResource))) ∧
      (d.cor = false → d.tqv = true → s'.queueFull d.tqn = true → s'.tokenHolder ≠ some e.g.id → StallStep (.launch o) s s' e (.queue d.tqn)))) ∧
  (∀ (s : State) (g : Gang) (q : Nat) (r : TaskRec), q < s.queues.length → let t := s.release g (.task q r)
    (t.queue q).entries = (s.queue q).entries ++ [.task r] ∧ (∀ k, k ≠ q → t.queue k = s.queue k) ∧ t.mem = s.mem)

/-- The hub (R276; causes and contexts of discard records are DEDUCED, log entry 53): a decrement lowers the join block's COUNT as one piece, and the one that reaches 0 enters the block's successor in its queue; a block of poisoned bytes is dropped with a record. The head of a task queue (R336 to R339): a gate record opens or closes the queue's gate; a head whose gate is off, in a live running context, becomes a work item; one whose gate is on first takes its threshold from the gate's semaphore, at whose FIFO it waits; a gate whose semaphore is not the context's is refused with one record and keeps its head. The head of a task record reads its descriptor (R337): a good one becomes a work item, a bad one is dropped with a record, a missing page holds it with a record. -/
def Obligations.HubAndQueues : Prop :=
  ((∀ (s s' : State) (before after : List HubJob) (block ctx : Nat) (w : Bool) (l : Loc), s.hub = before ++ .decrement block ctx w :: after →
    canonical block = true → s.xlat ctx false .store .engine block = (.ok l, s') → s'.holderHit none [.glob (lineOf l.la)] [] = false →
    let u : State := { s' with hub := before ++ after }
    let n := s.loadNat l.la 8
    (s'.linePoisoned l.la = true → exec (.joinBlockDecrement before.length) s = .next (u.discardRecord cUncorrectable ctx 0 block 0)) ∧
    (s'.linePoisoned l.la = false → n ≠ 1 → exec (.joinBlockDecrement before.length) s = .next (u.pieceWrite l.la (bytesLE 8 ((n + 2 ^ 64 - 1) % 2 ^ 64)))) ∧
    (s'.linePoisoned l.la = false → n = 1 → l.la % 128 = 0 →
      let v := u.pieceWrite l.la (bytesLE 8 0)
      let q := s.loadNat (l.la + 8) 4
      let b := memRead s.mem (l.la + 64) 64
      v.linePoisoned (l.la + 64) = false → q < 64 → recordReserved b = true → (recordOf block false b).aligned = true →
      exec (.joinBlockDecrement before.length) s = .next (State.drain { v with hub := v.hub ++ [.enqueue q (recordOf block false b)] }))) ∧
  (∀ (s : State) (q : Nat) (r : TaskRec), s.hub = [.enqueue q r] → q < s.queues.length →
    (s.queueFull q = false → s.drain = { s.enqueue q (.task r) with hub := [] }) ∧ (s.queueFull q = true → s.drain = s)) ∧
  (∀ (s : State) (la : Nat) (bs : List Byte), memRead (s.pieceWrite la bs).mem la bs.length = bs ∧
    ∀ x, (x < la ∨ la + bs.length ≤ x) → memByte (s.pieceWrite la bs).mem x = memByte s.mem x)) ∧
  ((∀ (s : State) (q : Fin 64) (r : TaskRec) (rest : List QEntry), let x := s.queue q.val
    x.entries = .task r :: rest → x.head = .idle → r.desc = 0 → gateOk r = true → s.hub = [] → q.val < s.queues.length →
    ∃ t, exec (.taskQueueAdmission q) s = .next t ∧ t.mem = s.mem ∧ t.gangs = s.gangs ∧ (∀ k, k ≠ q.val → t.queue k = s.queue k) ∧
      (r.tz = 1 → t.queue q.val = { entries := rest, head := .idle, en := true, sem := r.tx, thr := r.ty }) ∧
      (r.tz = 0 → t.queue q.val = { x with entries := rest, head := .idle, en := false })) ∧
  (∀ (s : State) (q : Fin 64) (d : Desc) (a c : Nat) (tested : Bool) (rest : List QEntry), let x := s.queue q.val
    x.entries = .launch d a c tested :: rest → x.head = .idle → s.ctxRuns (s.headCtx q.val) = true →
    (x.en = false → exec (.taskQueueAdmission q) s = .next ((s.popHead q.val (.placing s.nextId)).takeItem d c none (some q.val) a tested)) ∧
    (x.en = true → s.gateGranted q.val = false → exec (.taskQueueAdmission q) s = .next (s.refuseHead q.val)) ∧
    (x.en = true → s.gateGranted q.val = true → x.thr ≠ 0 → let n := x.sem % 2 ^ 14
      ((s.sem n).fifo = [] → x.thr ≤ (s.sem n).value → exec (.taskQueueAdmission q) s = .next ((s.setQueue q.val { x with head := .served }).semTake n x.thr)) ∧
      ((s.sem n).value < x.thr → exec (.taskQueueAdmission q) s =
        .next ((s.setQueue q.val { x with head := .inFifo }).setSem n { s.sem n with fifo := (s.sem n).fifo ++ [(.queue q.val, x.thr)] })))) ∧
  (∀ (s s' : State) (q : Fin 64) (r : TaskRec) (rest : List QEntry) (l : Loc), let x := s.queue q.val
    let ctx := s.headCtx q.val
    x.entries = .task r :: rest → x.head = .idle → r.desc ≠ 0 → x.en = false → ctx ≠ 0 → s.ctxRuns ctx = true → canonical r.desc = true →
    (s.xlat ctx false .load .engine r.desc = (.ok l, s') → let b := memRead s.mem l.la 128
      let d := descOf b
      let bad := s'.linePoisoned l.la || s'.linePoisoned (l.la + 64)
      (bad = true → exec (.taskQueueAdmission q) s = .next ((s'.popHead q.val .idle).discardRecord cUncorrectable ctx q.val r.addr r.desc)) ∧
      (bad = false → descTrap b d (s'.ctxGranted ctx (queueKey d.tqn)) ≠ none →
        exec (.taskQueueAdmission q) s = .next ((s'.popHead q.val .idle).discardRecord cEngineFault ctx q.val r.addr r.desc)) ∧
      (bad = false → descTrap b d (s'.ctxGranted ctx (queueKey d.tqn)) = none → (d.cor = true → ∀ p, s'.partOfCtx ctx = some p → gridFits s' p ctx 1 d = true) →
        exec (.taskQueueAdmission q) s = .next ((s'.popHead q.val (.placing s.nextId)).takeItem d ctx (some r) (some q.val) r.addr true))) ∧
    (s.xlat ctx false .load .engine r.desc = (.error cPageNotPresent, s') → exec (.taskQueueAdmission q) s =
      .next ((s'.setQueue q.val { x with head := .page r.desc }).waitRecord ctx (2 ^ 18 + q.val) r.desc accRead))) ∧
  (∀ (s : State) (q : Nat) (h : QHead), s.hub = [] → s.popHead q h = s.setQueue q { s.queue q with entries := (s.queue q).entries.drop 1, head := h }) ∧
  (∀ (s : State) (q : Nat), q < s.queues.length → ∃ r : List Byte, r.getD 1 0 = 7 ∧ r.getD 0 0 = 0x11 ∧ fieldOf r 8 8 = q % 2 ^ 64 ∧
    (s.refuseHead q).queue q = { s.queue q with head := .refused } ∧ (∀ k, k ≠ q → (s.refuseHead q).queue k = s.queue k) ∧
    (s.refuseHead q).fq.waiting = s.fq.waiting ++ [(0, r)] ∧ (s.refuseHead q).sems = s.sems ∧ (s.refuseHead q).mem = s.mem) ∧
  (∀ (s : State) (d : Desc) (ctx a : Nat) (r : Option TaskRec) (q : Option Nat) (tested : Bool), ∃ i : Item,
    s.takeItem d ctx r q a tested = { s with items := s.items ++ [i], nextId := s.nextId + 1 } ∧ i.id = s.nextId ∧ i.ctx = ctx ∧ i.desc = d ∧ i.task = r ∧
    i.queue = q ∧ i.addr = a ∧ i.split = none ∧ i.ranges = [] ∧ i.placed = 0 ∧ i.released = 0 ∧ i.bars = []) ∧
  (∀ (s : State) (q : Fin 64), (s.queue q.val).entries = [] → (s.queue q.val).head = .idle → exec (.taskQueueAdmission q) s = .next s))

/-- tcfg, tcfgr and accwin (R278 to R281, R287): a legal shape is held with the chunk and takes effect at its commit, an illegal one is ILLEGAL_ENCODING; tcfgr reads the shape as the chunk sees it; the leader sets the crew's window within its reservation. -/
def Obligations.TileShapes : Prop :=
  (∀ (o : TcfgOps) (s : State) (e : Env) (c : Crew), let sp : Spec := { guard := o.g, noCox := true, uses := [.tile 0 o.m.val, .uni 1 o.a] }
    let v := e.uni .w64 o.a % 2 ^ 21
    let k := e.g.openChunk.addW (.cfg c.id)
    s.env 8 o.g = some e → e.crew = some c → e.executes sp = true →
    (tcfgLegal v = true → e.fits k → CoreStep (.tcfg o) s s e sp e.core (OneMoreOf { k with ops := k.ops ++ [.tcfg o.m.val v] })) ∧
    (tcfgLegal v = false → TrapStep (.tcfg o) s e (Trap.plain cIllegalEncoding))) ∧
  (∀ (o : TcfgrOps) (s : State) (e : Env) (c : Crew) (n : Fin 128), let sp : Spec := { guard := o.g, noCox := true, uses := [.dstS o.d, .tile 1 o.m.val] }
    let k := e.g.openChunk.addR (.cfg c.id)
    s.env 8 o.g = some e → e.crew = some c → e.executes sp = true → o.d = .s n → e.fits k →
    CoreStep (.tcfgr o) s s e sp (e.core.setSreg n.val (BitVec.ofNat 64 (e.tileShape s o.m.val))) (OneMoreOf k)) ∧
  (∀ (o : GAB) (s : State) (e : Env) (c : Crew), let sp : Spec := { guard := o.g, noCox := true, coll := true, uses := [.uni 1 o.a, .uni 2 o.b] }
    let a := e.uni .w32 o.a
    let b := e.uni .w32 o.b
    let k := e.g.openChunk.addW (.cfg c.id)
    s.env 8 o.g = some e → e.crew = some c → e.executes sp = true →
    (e.g.num ≠ 0 → TrapStep (.accwin o) s e (Trap.plain cAccWindow)) ∧
    (e.g.num = 0 → c.desc.na < a + b → TrapStep (.accwin o) s e (Trap.plain cResource)) ∧
    (e.g.num = 0 → a + b ≤ c.desc.na → e.fits k → CoreStep (.accwin o) s s e sp e.core (OneMoreOf { k with ops := k.ops ++ [.window (c.rb + a) (c.rb + a + b)] }))) ∧
  (∀ (c : Crew) (code : Nat → Nat) (tick : Nat) (us : List Nat) (m v j b l : Nat),
    (c.applyOp code tick us (.tcfg m v)).shape j = (if j = m then v else c.shape j) ∧
    (c.applyOp code tick us (.window b l)).accbase = b ∧ (c.applyOp code tick us (.window b l)).acclim = l) ∧
  (∀ v : Nat, v ≠ 0 → (tcfgLegal v = true ↔ etBits (tcType v) ≠ 0 ∧ 1 ≤ tcRows v ∧ tcRows v ≤ 128 ∧ 1 ≤ tcCols v ∧ tcCols v ≤ 128 ∧
    tcCols v * etBits (tcType v) % 32 = 0 ∧ tcRows v * tcCols v * etBits (tcType v) ≤ 16384))

/-- The tile and accumulator requests at issue (R282, R285 to R295): each waits in its chunk for the matrix engine with the shapes and addresses of issue; an offset beyond the window is ACC_WINDOW, another context's tile ACC_OWNER, an empty shape, shapes that do not fit a product and an output type that is none ILLEGAL_ENCODING; a full table stalls the group. -/
def Obligations.MatrixRequests : Prop :=
  (∀ (o : TileMoveOps) (s : State) (e : Env), let sp : Spec := { guard := o.g, noCox := true, ctr := .tl, uses := [.tile 0 o.m.val, .uni 1 o.a] ++ (if o.part.isNone then [.uni 2 o.b] else []) }
    let v := e.tileShape s o.m.val
    let a := e.uni (if o.crew then .w32 else .w64) o.a
    let b := if o.part.isNone then e.uni .w32 o.b else 0
    let r := tileRows v o.part
    s.env 12 o.g = some e → e.executes sp = true →
    (v ≠ 0 → (o.part.isSome = true → (if tcSaxis v = 0 then tcCols v else tcRows v) % 32 = 0) →
      (e.mayMove s o.crew a (a % 4 = 0 ∧ (o.part = none → b % 4 = 0)) ((r.1 - 1) * b + r.2) →
        RequestStep (.tld o) s e sp (.ld o.m.val v o.crew a b o.part) none o.crew) ∧
      (e.mayMove s o.crew a (a % 4 = 0 ∧ (o.part = none → b % 4 = 0 ∧ r.2 ≤ b)) ((r.1 - 1) * b + r.2) →
        RequestStep (.tst o) s e sp (.st o.m.val v o.crew a b o.part) none o.crew)) ∧
    (v = 0 → TrapStep (.tld o) s e (Trap.plain cIllegalEncoding) ∧ TrapStep (.tst o) s e (Trap.plain cIllegalEncoding))) ∧
  (∀ (o : TzeroOps) (s : State) (e : Env), let sp : Spec := { guard := o.g, noCox := true, ctr := .tl, uses := [.tile 0 o.m.val] }
    s.env 8 o.g = some e → e.executes sp = true → RequestStep (.tzero o) s e sp (.tzero o.m.val) none false ∧
    (∀ c, e.crew = some c → 256 ≤ s.tableHeld (quadOf c.coreIx) → e.opened.g.heldReqs = [] → StallStep (.tzero o) s s e (.table (quadOf c.coreIx)))) ∧
  (∀ (o : MmaOps) (s : State) (e : Env) (n : Nat), let sp : Spec := { guard := o.g, noCox := true, coll := true, ctr := .tl, uses := [.tile 1 o.a.val, .tile 2 o.b.val] }
    let ta := e.tileShape s o.a.val
    let tb := e.tileShape s o.b.val
    s.env 12 o.g = some e → e.executes sp = true →
    (e.ownsTile s o.t.val n →
      (mmaOk ta tb o.sat false = true → RequestStep (.mma o) s e sp (.mma n o.a.val o.b.val ta tb o.zero o.sat none) (some n) false) ∧
      (mmaOk ta tb o.sat true = true → RequestStep (.mmasE8 o) s e sp (.mma n o.a.val o.b.val ta tb o.zero o.sat (some false)) (some n) false ∧
        RequestStep (.mmasS24 o) s e sp (.mma n o.a.val o.b.val ta tb o.zero o.sat (some true)) (some n) false) ∧
      (mmaOk ta tb o.sat false = false → TrapStep (.mma o) s e (Trap.plain cIllegalEncoding)) ∧
      (mmaOk ta tb o.sat true = false → TrapStep (.mmasE8 o) s e (Trap.plain cIllegalEncoding) ∧ TrapStep (.mmasS24 o) s e (Trap.plain cIllegalEncoding)))) ∧
  (∀ (o : AccZeroOps) (s : State) (e : Env) (n : Nat), let sp : Spec := { guard := o.g, noCox := true, coll := true, ctr := .tl }
    s.env 8 o.g = some e → e.executes sp = true →
    (e.ownsTile s o.t.val n → RequestStep (.accZero o) s e sp (.accZero n) (some n) false) ∧
    (∀ c, e.view s e.opened.g = some c → c.acclim ≤ c.accbase + o.t.val → TrapStep (.accZero o) s e (Trap.withInfo cAccWindow o.t.val)) ∧
    (∀ c, e.view s e.opened.g = some c → let k := c.accbase + o.t.val
      let own := (s.acc (quadOf c.coreIx) k).owner
      k < c.acclim → own ≠ 0 → own ≠ e.ctx → TrapStep (.accZero o) s e (Trap.withInfo cAccOwner (own * 2 ^ 6 + k)))) ∧
  (∀ (o : AccMoveOps) (s : State) (e : Env) (n : Nat), let sp : Spec := { guard := o.g, noCox := true, coll := true, ctr := .tl, uses := [.uni 1 o.a, .uni 2 o.b] }
    let a := e.uni (if o.crew then .w32 else .w64) o.a
    let b := e.uni .w32 o.b
    s.env 12 o.g = some e → e.executes sp = true → e.ownsTile s o.t.val n →
    (e.mayMove s o.crew a (a % 4 = 0 ∧ b % 4 = 0) (31 * b + 128) → RequestStep (.accLd o) s e sp (.accLd n o.crew a b) (some n) o.crew) ∧
    (e.mayMove s o.crew a (a % 4 = 0 ∧ b % 4 = 0 ∧ 128 ≤ b) (31 * b + 128) → RequestStep (.accSt o) s e sp (.accSt n o.crew a b) (some n) o.crew)) ∧
  (∀ (o : AccEpiOps) (s : State) (e : Env) (n : Nat), let sp : Spec := { guard := o.g, noCox := true, coll := true, ctr := .tl, uses := [.uni 1 o.a, .uni 2 o.b, .uni 3 o.c] }
    let a := e.uni (if o.crew then .w32 else .w64) o.a
    let b := e.uni .w32 o.b
    let es := epiBytes o
    let nc := o.nc.val + 1
    s.env 16 o.g = some e → e.executes sp = true → e.ownsTile s o.t.val n →
    (epiLegal o = false → TrapStep (.accEpi o) s e (Trap.plain cIllegalEncoding)) ∧
    (epiLegal o = true → (∀ x, objOf e o.c = some x → canonical x = true ∧ x % 4 = 0) →
      e.mayMove s o.crew a (a % es = 0 ∧ b % es = 0 ∧ nc * es ≤ b) (o.nr.val * b + nc * es) →
      RequestStep (.accEpi o) s e sp (.epi n o a b (objOf e o.c) e.w0 (ofBytesLE ((s.curBlk.drop (e.pc % 32 + 8)).take 8))) (some n) o.crew))

/-- acc.rd (R294): it reads a row of the tile, two rows in a 64-wide gang, once no earlier request of the context has yet to write the tile, until when it stalls with its place in their order; a row number out of range is OPERAND_RANGE. That the first issue claims a free tile, and that the place in the order is kept by a mark, are DEDUCED (log entry 50). -/
def Obligations.AccumulatorRead : Prop :=
  ∀ (o : AccRdOps) (s : State) (e : Env) (c : Crew) (d : Fin 768) (n : Nat),
    let sp : Spec := { guard := o.g, noCox := true, coll := true, chunk := .before, uses := [.dstV o.d 1, .uni 2 o.b] }
    let r := e.uni .w32 o.b
    let q := quadOf c.coreIx
    let u := s.claim e.ctx q (some n)
    let inside := if e.width = 64 then r % 2 = 0 ∧ r ≤ 30 else r ≤ 31
    s.env 8 o.g = some e → e.crew = some c → e.executes sp = true → o.d = .v d → e.ownsTile s o.t.val n →
    (¬ inside → TrapStep (.accRd o) s e (Trap.plain cOperandRange)) ∧
    (inside → u.tileAwaited q n = true → StallStep (.accRd o) s u e (.tile q n)) ∧
    (inside → u.tileAwaited q n = false → u.accRdReady e.g.id e.ctx q n e.pc = true →
      WriteStep (.accRd o) s { u with reqs := u.reqs.filter (fun x => !x.marks e.g.id n e.pc) } e sp e.core o.d 1
        (fun l => let x := (u.acc q n).cell (32 * (r + (if e.width = 64 then l / 32 else 0)) + l % 32)
          ⟨[], x.data.toNat, x.st, 0⟩) (OneMoreOf (e.g.openChunk.addR (.cfg c.id)))) ∧
    (inside → u.tileAwaited q n = false → u.accRdReady e.g.id e.ctx q n e.pc = false → (∀ x ∈ u.reqs, x.marks e.g.id n e.pc = false) →
      StallStep (.accRd o) s { u with nextId := u.nextId + 1, reqs := u.reqs ++ [⟨u.nextId, e.g.id, c.id, e.ctx, q, 0, .rd n e.pc, .queued, [], [], [], [], 0, [], false⟩] } e (.accRd n))

/-- The matrix engine (R283, R284, R290 to R297, R350): a port that is free performs the best eligible request at once or grants it for its pieces; a request waits for every earlier one with which it shares an item; a sum adds the K-groups in order; an epilogue translates its output pages first, reads its bias line by line in any order (R125), captures its tile once both are at hand, and writes for each element the scaled and biased value, with negative values made 0 under RELU, in the output type (R295 to R297); a finished request leaves the table and lowers TL. A request that fails, in translation, at an EXPIRED value of crew space or for its own uncorrectable entry, stops with one record of kind 0x02; what it was to write to a tile or an accumulator and did not becomes POISON, and memory keeps what it wrote; a page that is not present delays it, with one record of kind 0x04, until the page is there; it is tried again only while its context runs (Table 17.4). Only requests of a crew in the live image move (R13). That each row's piece of a tld reads at its own point is the model's choice (log entry 102). That the bias is read between translation and capture is DEDUCED (log entry 50). -/
def Obligations.MatrixEngine : Prop :=
  (∀ (s : State) (r : Req), s.reqs = [r] → r.st = .queued → r.kind.isRd = false → s.reqMoves r = true → r.corrupt = false →
    (∀ t ma mb ta tb zero sat sc, r.kind = .mma t ma mb ta tb zero sat sc → exec (.matrixGrant r.quad false) s =
      .next ((s.mapAcc r.quad t (mmaTile (s.tileReg r.crew ma) (s.tileReg r.crew mb) ta tb zero sat sc)).reqDone r)) ∧
    (∀ t, r.kind = .accZero t → exec (.matrixGrant r.quad false) s = .next ((s.mapAcc r.quad t (fun x => { x with vals := [], pois := [] })).reqDone r)) ∧
    (∀ m, r.kind = .tzero m → exec (.matrixGrant r.quad true) s = .next ((s.mapTile r.crew m (fun _ => ⟨[], [], [], []⟩)).reqDone r)) ∧
    ((∃ m v c a b p, r.kind = .ld m v c a b p ∨ r.kind = .st m v c a b p) ∨ (∃ t c a b, r.kind = .accLd t c a b ∨ r.kind = .accSt t c a b) →
      exec (.matrixGrant r.quad true) s = .next (s.putReq { r with st := .granted })) ∧
    (∀ t o a b k w0 w1, r.kind = .epi t o a b k w0 w1 → exec (.matrixGrant r.quad true) s = .next (s.epiTranslate r))) ∧
  (∀ (s : State) (p r : Req), s.reqs = [p, r] → p.id ≠ r.id → s.standing p = true → s.reqLive p = true → p.conflicts r = true → s.eligible r = false) ∧
  (∀ (l : List Req) (r : Req), bestReq l = some r → r ∈ l ∧ ((∃ x ∈ l, 64 ≤ x.passed) → 64 ≤ r.passed) ∧
    ((∀ x ∈ l, x.passed < 64) → ∀ x ∈ l, x.prio ≤ r.prio)) ∧
  (∀ (x y : TileReg) (ta tb : Nat) (zero sat : Bool) (sc : Option Bool) (acc : AccTile) (i j : Nat), i < 32 → j < 32 → tcRows ta ≤ 32 → tcCols tb ≤ 32 →
    let old := if zero then ⟨0, .live⟩ else acc.cell (32 * i + j)
    let ps := (List.range (tcCols ta)).map (fun k => (mElem x ta sc i k, mElem y tb sc k j))
    (mmaTile x y ta tb zero sat sc acc).cell (32 * i + j) =
      if i < tcRows ta ∧ j < tcCols tb then
        ⟨BitVec.ofNat 32 (mmaElem ta tb sat (runs (kGroup (tcType ta) (tcType tb)) (tcCols ta) ps) old.data.toNat),
         if old.st ≠ .live ∨ (∃ p ∈ ps, joinSt p.1.st p.2.st ≠ .live) then .poison else .live⟩
      else old) ∧
  (∀ (s : State) (r : Req) (t : Nat) (o : AccEpiOps) (a b w0 w1 : Nat) (k : Option Nat), s.cmd? r.id = none → s.req? r.id = some r → s.reqMoves r = true → r.corrupt = false → r.kind = .epi t o a b k w0 w1 →
    (r.st = .translated → r.biasLeft = false → exec (.epilogueCaptureWrite r.id) s =
      .next ((s.setAcc r.quad t { s.acc r.quad t with pending := false }).putReq { r with st := .captured, data := (List.range 1024).map (s.acc r.quad t).cell })) ∧
    (∀ (v : Nat) (l : Loc) (s' : State) (c i : Nat), r.st = .translated → k = some v → v % 4 = 0 → i ≤ o.nc.val → r.biasTodo[c % r.biasTodo.length]? = some i →
      let beside (j : Nat) : Prop := j ≤ o.nc.val ∧ (v + 4 * j) / 64 = (v + 4 * i) / 64
      let lo := i - (v + 4 * i) % 64 / 4
      let d := (v + 4 * lo) % 2 ^ 64
      (∀ j, beside j → spFind r.bias j = none) → canonical d = true → s.xlat r.ctx false .load .engine d = (.ok l, s') →
      ∃ m, exec (.enginePiece r.id c) s = .next (s'.putReq { r with bias := m }) ∧ (∀ j, ¬ beside j → spFind m j = spFind r.bias j) ∧
        (s.linePoisoned l.la = true → ∀ j, beside j → ∃ x, spFind m j = some x ∧ x.st = .poison) ∧
        (s.linePoisoned l.la = false → ∀ j, beside j → spFind m j = some ⟨BitVec.ofNat 32 (s.loadNat (l.la + 4 * (j - lo)) 4), .live⟩)) ∧
    (∀ (x base : Nat), r.st = .captured → o.crew = false → r.done = [] → let es := epiBytes o
      let n := (o.nc.val + 1) * es
      r.kind.pieces = [(x, 0, n)] → r.pages = [(x / 4096, base)] → s.holderHit none [.glob (lineOf (base + x % 4096))] [] = false →
      ∃ u, exec (.epilogueCaptureWrite r.id) s = .next u ∧ .matrixRequestComplete r.id ∈ u.due ∧
        (∀ i j, i ≤ o.nc.val → j < es → memByte u.mem (base + x % 4096 + es * i + j) =
          (bytesLE es (epiValue o (r.data.getD i ⟨0, .live⟩).data.toNat ((spFind r.bias i).getD ⟨0, .live⟩).data.toNat)).getD j 0) ∧
        (∀ y, (y < base + x % 4096 ∨ base + x % 4096 + n ≤ y) → memByte u.mem y = memByte s.mem y)) ∧
    (r.st = .queued → exec (.epilogueCaptureWrite r.id) s = .next s)) ∧
  (∀ (s s' : State) (r : Req) (t : Nat) (o : AccEpiOps) (a b w0 w1 x : Nat) (k : Option Nat), s.reqs = [r] → r.kind = .epi t o a b k w0 w1 → r.st = .queued →
    (o.crew = true → s.epiTranslate r = s.putReq { r with st := .translated, bias := [], pages := [] }) ∧
    (∀ l : Loc, o.crew = false → r.kind.pieces.map (·.1) = [x] → x < 2 ^ 64 → canonical x = true → s.xlat r.ctx false .store .engine x = (.ok l, s') →
      s.epiTranslate r = (s'.mapAcc r.quad t (fun y => { y with pending := false })).putReq { r with st := .translated, bias := [], pages := [(x / 4096, l.la - x % 4096)] }) ∧
    (o.crew = false → r.kind.pieces.map (·.1) = [x] → x < 2 ^ 64 → canonical x = true → s.xlat r.ctx false .store .engine x = (.error cPageNotPresent, s') →
      s.epiTranslate r = ((s'.waitRecord r.ctx (reqSrc r.quad) x accWrite).mapAcc r.quad t (fun y => { y with pending := true })).putReq { r with st := .pageWait x }) ∧
    (∀ y, o.crew = false → r.kind.pieces.map (·.1) = [x] → x < 2 ^ 64 → canonical x = true → y ≠ cPageNotPresent → s.xlat r.ctx false .store .engine x = (.error y, s') →
      s.epiTranslate r = s'.reqFail r y x) ∧
    (o.crew = false → r.kind.pieces.map (·.1) = [x] → x < 2 ^ 64 → canonical x = false → s.epiTranslate r = s.reqFail r cPermission x)) ∧
  (∀ (s s' : State) (r : Req) (acc : AccKind) (i a off n c k : Nat), let todo := (List.range r.kind.pieces.length).filter (fun i => !r.done.contains i)
    s.cmd? r.id = none → s.req? r.id = some r → r.st = .granted → s.reqMoves r = true → r.corrupt = false →
    r.kind.pieces[i]? = some (a, off, n) → todo[c % todo.length]? = some i → 0 < n → a < 2 ^ 64 → r.pages = [] →
    (acc = .load ∧ ((∃ m v x y p, r.kind = .ld m v false x y p) ∨ (∃ t x y, r.kind = .accLd t false x y))) ∨
      (acc = .store ∧ ((∃ m v x y p, r.kind = .st m v false x y p) ∨ (∃ t x y, r.kind = .accSt t false x y))) →
    (canonical a = false → exec (.enginePiece r.id c) s = .next (s.reqFail r cPermission a)) ∧
    (canonical a = true → k ≠ cPageNotPresent → s.xlat r.ctx false acc .engine a = (.error k, s') → exec (.enginePiece r.id c) s = .next (s'.reqFail r k a)) ∧
    (canonical a = true → s.xlat r.ctx false acc .engine a = (.error cPageNotPresent, s') →
      exec (.enginePiece r.id c) s = .next ((s'.waitRecord r.ctx (reqSrc r.quad) a (if acc = .load then accRead else accWrite)).putReq { r with st := .pageWait a }))) ∧
  (∀ (s : State) (r : Req) (w : Crew) (i a off n c : Nat), let todo := (List.range r.kind.pieces.length).filter (fun i => !r.done.contains i)
    s.cmd? r.id = none → s.req? r.id = some r → r.st = .granted → s.reqMoves r = true → r.corrupt = false → s.crew? r.crew = some w →
    r.kind.pieces[i]? = some (a, off, n) → todo[c % todo.length]? = some i → a < 2 ^ 32 →
    (∃ m v x y p, r.kind = .ld m v true x y p) ∨ (∃ t x y, r.kind = .accLd t true x y) → (∃ j, j < n ∧ (w.readByte (a + j)).2 = .expired) →
    exec (.enginePiece r.id c) s = .next (s.reqFail r cExpiredRead 0)) ∧
  (∀ (s : State) (r : Req), r.corrupt = true →
    (s.reqs = [r] → r.st = .queued → r.kind.isRd = false → s.reqMoves r = true → exec (.matrixGrant r.quad r.kind.dataPort) s = .next (s.reqFail r cUncorrectable 0)) ∧
    (∀ c, s.cmd? r.id = none → s.req? r.id = some r → s.reqReady r = true → exec (.enginePiece r.id c) s = .next (s.reqFail r cUncorrectable 0)) ∧
    (s.req? r.id = some r → s.reqMoves r = true → r.st = .translated ∨ r.st = .captured → exec (.epilogueCaptureWrite r.id) s = .next (s.reqFail r cUncorrectable 0))) ∧
  (∀ (s : State) (r : Req) (w : Crew) (cause va : Nat), s.req? r.id = some r → s.crew? r.crew = some w → s.quadPresent r.quad = true →
    let t := s.reqFail r cause va
    let left (x : Nat) : Prop := ∃ i a off n, r.kind.pieces[i]? = some (a, off, n) ∧ i ∉ r.done ∧ x ∈ wordsIn off n
    let tile (m : Nat) := (t.tileReg r.crew m, w.tileReg m)
    let av (k : Nat) := (t.acc r.quad k, s.acc r.quad k)
    t.mem = s.mem ∧ t.poisoned = s.poisoned ∧ t.gangs = s.gangs ∧ t.req? r.id = some { r with st := .finished } ∧ .matrixRequestComplete r.id ∈ t.due ∧
    t.fq.waiting = s.fq.waiting ++ [(s.cmdToken r.gang, recordBytes [(0, 1, cause), (1, 1, 0x02), (2, 2, 0), (4, 4, r.ctx % 4096), (8, 8, reqSrc r.quad), (16, 8, va),
      (24, 8, 0), (32, 8, 0), (40, 16, ofBytesLE r.insn), (88, 8, s.tick)])] ∧
    (∀ m v c x y, r.kind = .ld m v c x y none → (tile m).1 = { (tile m).2 with epois := (tile m).1.epois } ∧ ∀ x, x ∈ (tile m).1.epois ↔ x ∈ (tile m).2.epois ∨ left x) ∧
    (∀ m v c x y p, r.kind = .ld m v c x y (some p) → (tile m).1 = { (tile m).2 with spois := (tile m).1.spois } ∧ ∀ x, x ∈ (tile m).1.spois ↔ x ∈ (tile m).2.spois ∨ left x) ∧
    (∀ m, r.kind = .tzero m → (tile m).1.epois = List.range 512 ∧ (tile m).1.spois = List.range 96) ∧
    (∀ k c x y, r.kind = .accLd k c x y → ∀ i, (left i → (av k).1.cell i = ⟨((av k).2.cell i).data, .poison⟩) ∧ (¬ left i → (av k).1.cell i = (av k).2.cell i)) ∧
    (∀ k i, i < 1024 → r.kind = .accZero k ∨ (∃ x y ta tb sat sc, r.kind = .mma k x y ta tb true sat sc) → ((av k).1.cell i).st = .poison) ∧
    (∀ k x y ta tb sat sc i j, r.kind = .mma k x y ta tb false sat sc → i < 32 → j < 32 → tcCols tb ≤ 32 →
      (av k).1.cell (32 * i + j) = ⟨((av k).2.cell (32 * i + j)).data, if i < tcRows ta ∧ j < tcCols tb then .poison else ((av k).2.cell (32 * i + j)).st⟩) ∧
    (∀ k o x y b w0 w1, r.kind = .epi k o x y b w0 w1 → (av k).1 = { (av k).2 with pending := false }) ∧
    ((∃ m v c x y p, r.kind = .st m v c x y p) ∨ (∃ k c x y, r.kind = .accSt k c x y) → t.crews = s.crews ∧ t.accLive = s.accLive)) ∧
  (∀ (s : State) (r : Req) (va : Nat), 64 ≤ r.id → s.cmd? r.id = none → s.req? r.id = some r → r.st = .pageWait va →
    (s.reqRuns r = true → (∀ t o a b k w0 w1, r.kind ≠ .epi t o a b k w0 w1) →
      (∀ w, walk s r.ctx va = .ok w → exec (.pageWaitRetry r.id) s = .next (s.putReq { r with st := .granted })) ∧
      (walk s r.ctx va = .error cPageNotPresent → exec (.pageWaitRetry r.id) s = .next s)) ∧
    (s.reqRuns r = false → exec (.pageWaitRetry r.id) s = .next s)) ∧
  (∀ (s : State) (r : Req), s.reqRuns r = true ↔ (∀ c, s.crew? r.crew = some c → c.live = true) ∧
    ∃ p, s.partOfQuad r.quad = some p ∧ (s.part p).st = .running ∧ (s.part p).live = r.ctx) ∧
  (∀ (o : AccEpiOps) (y : EpiTy) (x bias : Nat), epiTy o = some y →
    let v : Fv := if o.aint then .fin (decide (intOf 32 true x < 0)) (intOf 32 true x).natAbs 0 else fp32.decode x
    let z := (fmaV fpPlain fp32 false v (fp32.decode o.alpha.toNat) (fp32.decode bias)).1
    let z := if o.relu = true ∧ fp32.signBit ≤ z ∧ (fp32.decode z).isNan = false then 0 else z
    epiValue o x bias = (convert fpPlain (numKind (epiNum y)) (.flt fp32) o.sat z).1 % 2 ^ (numKind (epiNum y)).width) ∧
  (∀ (s : State) (r : Req) (g : Gang), s.req? r.id = some r → s.gang? r.gang = some g →
    (r.st = .finished → ∃ t, exec (.matrixRequestComplete r.id) s = .next t ∧ t.req? r.id = none ∧ (∀ k, k ≠ r.id → t.req? k = s.req? k) ∧
      t.gang? r.gang = some (g.mapBoth (fun k => { k with tl := k.tl - 1 })) ∧ t.mem = s.mem ∧ t.accLive = s.accLive) ∧
    (r.st ≠ .finished → exec (.matrixRequestComplete r.id) s = .next s))

/-- Gang traps (R313, R314, R318, R319): trap, sysc and escape take TRAP_INSTR, SYSCALL and ESCAPE; a trap holds the trapping group, whose record waits for the fault queue, and changes nothing else; in a chunk that holds instructions the chunk commits first; a missing page holds the group in the same way; ESCAPE with a user handler goes to it with the EF registers written. That SEQ rises by one at a record is DEDUCED (log entry 44), that the squash count and the token go with the empty chunk is log entry 9's, and that a uniform access holds the whole group at a missing page log entry 32's. -/
def Obligations.GangTraps : Prop :=
  (∀ (s : State) (g : Gang) (x : SubGang) (st : Site) (t : Trap), s.gang? g.id = some g → g.isCox = false → g.core.subs = [x] →
    t.cause ≠ cEscape → t.cause ≠ cUncorrectable →
    (g.chunk = none → HeldAt s g x st t (s.raise g x st t)) ∧
    (∀ c, g.chunk = some c → c.expl = none → c.count = 0 → HeldAt s g x st t (s.raise g x st t)) ∧
    (∀ c, g.chunk = some c → c.expl = none → c.count ≠ 0 → s.raise g x st t = s.putGang { g with chunk := some { c with closed := true } })) ∧
  (∀ (o : ImmOps) (s : State) (e : Env), s.env 12 o.g = some e → e.executes { guard := o.g } = true →
    TrapStep (.trap o) s e (codeTrap cTrapInstr o.imm) ∧ TrapStep (.sysc o) s e (codeTrap cSyscall o.imm) ∧
    (e.alone = true → e.cox = false → e.g.chunk = none →
      (∃ u, exec (.trap o) s = .next u ∧ HeldAt s e.g e.x e.site ⟨cTrapInstr, 0, 0xFF, 0, o.imm.toNat, (o.imm.signExtend 64).toNat⟩ u) ∧
      (∃ u, exec (.sysc o) s = .next u ∧ HeldAt s e.g e.x e.site ⟨cSyscall, 0, 0xFF, 0, o.imm.toNat, (o.imm.signExtend 64).toNat⟩ u))) ∧
  (∀ (w : Word64) (s : State) (e : Env), s.env 8 .always = some e → e.alone = true → e.cox = false → e.g.chunk = none →
    (e.core.uevec.getLsbD 0 = false → ∃ u, exec (.escape w) s = .next u ∧ HeldAt s e.g e.x e.site (Trap.plain cEscape) u) ∧
    (e.core.uevec.getLsbD 0 = true → e.x.wait = .ready →
      ∃ u, exec (.escape w) s = .next u ∧ u.mem = s.mem ∧ u.fq = s.fq ∧ (∀ k, k ≠ e.g.id → u.gang? k = s.gang? k) ∧
        u.gang? e.g.id = some { e.g with
          chunk := some { e.g.openChunk with count := 1 }
          core := { e.core with
            ef := [BitVec.ofNat 64 e.pc, BitVec.ofNat 64 (ofBytesLE (e.half.take 8)), BitVec.ofNat 64 (ofBytesLE (e.half.drop 8)),
              e.act, BitVec.ofNat 64 (2 * 2 ^ 32 + e.core.fpmode.toNat), BitVec.ofNat 64 (e.w0 / 2 ^ 10)]
            subs := [{ e.x with pc := e.core.uevec &&& ~~~3, waited := 0 }] } })) ∧
  (∀ (o : CmpRdOps) (s s' : State) (e : Env), let a := e.uni .w64 o.a
    s.env 8 o.g = some e → e.executes { guard := o.g, uses := [.dstS o.d, .uni 1 o.a, .uni 2 o.b], ctr := .ld } = true → e.alone = true → e.cox = false → e.g.chunk = none →
    canonical a = true → a % 8 = 0 → s.xlat e.ctx e.sup .load .lane a = (.error cPageNotPresent, s') →
    ∃ u, exec (.cmpRd o) s = .next u ∧ HeldAt s' e.g e.x e.site (Trap.atAddr cPageNotPresent a (lowestLane e.on) accRead) u)

/-- Traps of cox cores and eret (R316, R317): a trap saves PC, cause, value and bytes and goes to STVEC at S; a trap at S with TIP set stops the core; eret goes to SEPC with SSTATUS restored, and below S is PRIVILEGE, or inside an explicit chunk, which may not hold it, an abort with UNSUPPORTED (LENGTH as its 257th instruction; FAULT and the cause where its guard holds in no lane, R119). The squash count and the token go with the empty chunk (log entry 9), and the trap of eret on a bad SEPC has ACCESS 0 (log entry 13): the model's choices. -/
def Obligations.CoxTrapAndReturn : Prop :=
  (∀ (s : State) (g : Gang) (x : SubGang) (st : Site) (t : Trap), let c := s.coxOf g.id
    let u := s.raise g x st t
    s.gang? g.id = some g → g.isCox = true → g.chunk = none → g.id < s.cox.length →
    ((c.sstatus.getLsbD 4 && c.sstatus.getLsbD 0) = false → u.coxOf g.id = c.trapped st t ∧ (∀ k, k ≠ g.id → u.coxOf k = s.coxOf k) ∧ u.mem = s.mem ∧
      (∀ k, k ≠ g.id → u.gang? k = s.gang? k) ∧
      u.gang? g.id = some { g with record := .sound, squashes := 0, token := .none, lbuf := g.blocksKept, core := { g.core with
        subs := g.core.subs.map (fun y => { y with pc := c.stvec, wait := .ready, waited := 0 }) } }) ∧
    ((c.sstatus.getLsbD 4 && c.sstatus.getLsbD 0) = true → (u.coxOf g.id).stopped = true ∧ u.doubleTraps = s.doubleTraps ++ [g.id] ∧ u.mem = s.mem)) ∧
  (∀ (g : Guard) (s : State) (e : Env), let sp : Spec := { guard := g, priv := true, chunk := .own }
    let c := s.coxOf e.g.id
    s.env 8 g = some e →
    (e.executes sp = true → e.alone = true → e.g.chunk = none → goodTarget c.sepc.toNat →
      OwnCore (.eret g) s (s.setCox e.g.id { c with sstatus := if c.sstatus.getLsbD 2 then 5 else 0 }) e e.core .ready (e.goes (fun _ => c.sepc))) ∧
    (e.executes sp = true → e.alone = true → e.g.chunk = none → c.sepc.toNat % 4 ≠ 0 → TrapStep (.eret g) s e (Trap.atAddr cAlignment c.sepc.toNat 0 0)) ∧
    (e.executes sp = true → e.alone = true → e.g.chunk = none → c.sepc.toNat % 4 = 0 → canonical c.sepc.toNat = false →
      TrapStep (.eret g) s e (Trap.atAddr cPermission c.sepc.toNat 0 0)) ∧
    (e.sup = false → TrapOrAbort (.eret g) s e (Trap.plain cPrivilege)))

/-- csrr (R309, R311): D takes the register's value; one that only gangs hold is ILLEGAL_ENCODING on a cox core, where no explicit chunk is open; inside one the chunk aborts with UNSUPPORTED, the lower code, or with LENGTH as its 257th instruction, or, if the guard holds in no lane, with FAULT and the cause (R119). -/
def Obligations.ControlRegisterReads : Prop :=
  ∀ (o : CsrrOps) (s : State) (e : Env) (n : Fin 128), let sp := csrSpec o.g o.csr false [.dstS o.d] e
    let reads (v : Nat) : Prop := OwnCore (.csrr o) s s e (e.core.setSreg n.val (BitVec.ofNat 64 v)) .ready (fun _ => e.nextPc)
    s.env 12 o.g = some e →
    (e.cox = true → csrGangOnly o.csr = true → e.sup = true → TrapOrAbort (.csrr o) s e (Trap.plain cIllegalEncoding)) ∧
    (e.executes sp = true → e.alone = true → e.g.chunk = none → o.d = .s n →
      let c := s.coxOf e.g.id
      let p := s.part (s.psel.toNat % 32)
      (∀ v, csrGet e s e.opened.g o.csr = .ok v → reads v) ∧
      (o.csr = .fpmode → reads e.core.fpmode.toNat) ∧ (o.csr = .fpflags → reads e.core.fpflags.toNat) ∧ (o.csr = .uevec → reads e.core.uevec.toNat) ∧
      (∀ k, o.csr = .ef k → reads (e.core.ef.getD k.val 0).toNat) ∧ (∀ k, o.csr = .lc k → reads (e.core.loop k.val).lc.toNat) ∧
      (o.csr = .thrsn → e.cox = false → reads (s.thrsnOf (s.dieOf e.g))) ∧ (o.csr = .ctx → reads e.ctx) ∧
      (o.csr = .sstatus → reads c.sstatus.toNat) ∧ (o.csr = .stvec → reads c.stvec.toNat) ∧ (o.csr = .sepc → reads c.sepc.toNat) ∧
      (o.csr = .scause → reads c.scause.toNat) ∧ (o.csr = .stval → reads c.stval.toNat) ∧ (o.csr = .sinsn0 → reads c.sinsn0.toNat) ∧
      (o.csr = .sinsn1 → reads c.sinsn1.toNat) ∧ (o.csr = .sscratch → reads c.sscratch.toNat) ∧ (o.csr = .cctx → reads c.cctx.toNat) ∧
      (o.csr = .fqbase → reads s.fq.base.toNat) ∧ (o.csr = .fqcap → reads s.fq.cap.toNat) ∧ (o.csr = .fqhead → reads s.fq.head.toNat) ∧
      (o.csr = .fqtail → reads s.fq.tail.toNat) ∧ (o.csr = .fqsem → reads s.fq.sem.toNat) ∧ (o.csr = .grsel → reads s.grsel.toNat) ∧
      (∀ k, o.csr = .grown → grselKey s.grsel.toNat = some k → reads (s.grant k).bits) ∧
      (o.csr = .psel → reads s.psel.toNat) ∧ (o.csr = .pblk → reads p.blk.toNat) ∧ (o.csr = .plive → reads p.live) ∧ (o.csr = .pshad → reads p.shad) ∧
      (o.csr = .pstate → reads p.st.code) ∧ (o.csr = .puev → reads p.puev.toNat) ∧ (o.csr = .ctxtab → reads s.ctxtab.toNat) ∧
      (o.csr = .mgstat → reads (if s.migration.isSome then 1 else 0)))

/-- csrw and csrx, and the writes with an effect of their own (R309, R310, R312, R325, R331, R361, R366, R380): the register takes the bits its map lets through, csrx leaves the old value in D; an FQHEAD beyond FQTAIL becomes FQTAIL; a value that a rule refuses traps with nothing changed; a write of a register that is read-only at S changes nothing. The struck record of a gang whose context ceases to be live by a write of PBLK or PLIVE stands struck in its image (the model's choice, log entry 63). That a bad UEVEC or PUEV is PERMISSION without an address is log entry 13's, the widths of the operands are log entry 29's, the order of MGCTL's checks log entry 41's. -/
def Obligations.ControlRegisterWrites : Prop :=
  (∀ (g : Guard) (c : Csr) (a : Src) (s s' : State) (e : Env) (k : Gang) (old : Nat), let p := CsrPut.w g a
    putReady p s e c → csrGet e s e.opened.g c = .ok old → csrSet s e.opened.g c (putValue p c e old) = .ok (s', k) → putDone p (.csrw ⟨g, c, a⟩) s s' e old k.core) ∧
  (∀ (g : Guard) (c : Csr) (d : Dst) (a b : Src) (s s' : State) (e : Env) (k : Gang) (old : Nat), let p := CsrPut.x g d a b
    putReady p s e c → csrGet e s e.opened.g c = .ok old → csrSet s e.opened.g c (putValue p c e old) = .ok (s', k) → putDone p (.csrx ⟨g, c, d, a, b⟩) s s' e old k.core) ∧
  (∀ (p : CsrPut) (c : Csr) (s : State) (e : Env), putReady p s e c →
    let i : Instr := match p with | .w g a => .csrw ⟨g, c, a⟩ | .x g d a b => .csrx ⟨g, c, d, a, b⟩
    let k := s.coxOf e.g.id
    let pkg (old : Word64) (f : Nat → State) : Prop := putDone p i s (f (putValue p c e old.toNat)) e old.toNat e.core
    let cox (old : Word64) (f : Nat → Cox) : Prop := pkg old (fun v => s.setCox e.g.id (f v))
    let w (v : Nat) : Word64 := BitVec.ofNat 64 v
    (c = .fpflags → let old := e.core.fpflags.toNat
      putDone p i s s e old { e.core with fpflags := BitVec.ofNat 32 (putValue p c e old % 64) }) ∧
    (c = .sstatus → cox k.sstatus (fun v => { k with sstatus := w (v &&& 0x14 ||| k.sstatus.toNat % 2) })) ∧
    (c = .stvec → cox k.stvec (fun v => { k with stvec := w (v / 4 * 4) })) ∧ (c = .sepc → cox k.sepc (fun v => { k with sepc := w v })) ∧
    (c = .scause → cox k.scause (fun v => { k with scause := w (v % 2 ^ 11) })) ∧ (c = .stval → cox k.stval (fun v => { k with stval := w v })) ∧
    (c = .sinsn0 → cox k.sinsn0 (fun v => { k with sinsn0 := w v })) ∧ (c = .sinsn1 → cox k.sinsn1 (fun v => { k with sinsn1 := w v })) ∧
    (c = .sscratch → cox k.sscratch (fun v => { k with sscratch := w v })) ∧ (c = .cctx → cox k.cctx (fun v => { k with cctx := w (v % 2 ^ 12) })) ∧
    (c = .fqsem → pkg s.fq.sem (fun v => { s with fq := { s.fq with sem := w v } })) ∧ (c = .psel → pkg s.psel (fun v => { s with psel := w (v % 32) })) ∧
    (c = .mgva → pkg s.mgva (fun v => { s with mgva := w (v / 2 ^ 12 * 2 ^ 12) })) ∧ (c = .mgfrm → pkg s.mgfrm (fun v => { s with mgfrm := w (v / 2 ^ 12 * 2 ^ 12) })) ∧
    (c = .mgcmp → pkg s.mgcmp (fun v => { s with mgcmp := w (v / 8 * 8) })) ∧
    (∀ d, c = .lreq d → pkg (s.lreq.getD d.val 0) (fun v => { s with lreq := setAt d.val (w v) s.lreq })) ∧
    (∀ d, c = .rreq d → pkg (s.rreq.getD d.val 0) (fun v => { s with rreq := setAt d.val (w v) s.rreq })) ∧
    (∀ old, csrGet e s e.opened.g c = .ok old → c = .thrsn ∨ c = .ctx ∨ c = .fqtail ∨ c = .pstate ∨ c = .mgstat → putDone p i s s e old e.core)) ∧
  (∀ (p : CsrPut) (s : State) (e : Env),
    (putReady p s e .fpmode → let old := e.core.fpmode.toNat
      let v := putValue p .fpmode e old
      (fpmodeLegal v = true → putDone p (.fpmodeWrite p) s s e old { e.core with fpmode := BitVec.ofNat 32 (v &&& 0xF03F7) }) ∧
      (fpmodeLegal v = false → TrapStep (.fpmodeWrite p) s e (Trap.plain cIllegalEncoding))) ∧
    (putReady p s e .uevec → let old := e.core.uevec.toNat
      let v := putValue p .uevec e old
      (canonical (v / 4 * 4) = true → putDone p (.uevecWrite p) s s e old { e.core with uevec := BitVec.ofNat 64 (v &&& 0xFFFFFFFFFFFFFFFD) }) ∧
      (canonical (v / 4 * 4) = false → TrapStep (.uevecWrite p) s e (Trap.plain cPermission))) ∧
    (putReady p s e .fqbase → let old := s.fq.base.toNat
      let v := putValue p .fqbase e old
      (v % 4096 = 0 → s.fq.head = s.fq.tail → putDone p (.fqbaseWrite p) s { s with fq := { s.fq with base := BitVec.ofNat 64 v, configured := true } } e old e.core) ∧
      (v % 4096 ≠ 0 → TrapStep (.fqbaseWrite p) s e (Trap.plain cIllegalEncoding)) ∧
      (v % 4096 = 0 → s.fq.head ≠ s.fq.tail → TrapStep (.fqbaseWrite p) s e (Trap.plain cResource))) ∧
    (putReady p s e .fqcap → let old := s.fq.cap.toNat
      let v := putValue p .fqcap e old
      (5 ≤ v → v ≤ 16 → s.fq.head = s.fq.tail → putDone p (.fqcapWrite p) s { s with fq := { s.fq with cap := BitVec.ofNat 64 v } } e old e.core) ∧
      (v < 5 ∨ 16 < v → TrapStep (.fqcapWrite p) s e (Trap.plain cIllegalEncoding)) ∧
      (5 ≤ v → v ≤ 16 → s.fq.head ≠ s.fq.tail → TrapStep (.fqcapWrite p) s e (Trap.plain cResource))) ∧
    (putReady p s e .fqhead → let old := s.fq.head.toNat
      let v := BitVec.ofNat 64 (putValue p .fqhead e old)
      ((v - s.fq.head).toNat ≤ (s.fq.tail - s.fq.head).toNat → putDone p (.fqheadWrite p) s { s with fq := { s.fq with head := v } } e old e.core) ∧
      ((s.fq.tail - s.fq.head).toNat < (v - s.fq.head).toNat → putDone p (.fqheadWrite p) s { s with fq := { s.fq with head := s.fq.tail } } e old e.core)) ∧
    (putReady p s e .grsel → let old := s.grsel.toNat
      let v := putValue p .grsel e old
      (∀ k, grselKey v = some k → putDone p (.grselWrite p) s { s with grsel := BitVec.ofNat 64 (bitsAt v 60 4 * 2 ^ 60 + bitsAt v 0 14) } e old e.core) ∧
      (grselKey v = none → TrapStep (.grselWrite p) s e (Trap.plain cIllegalEncoding))) ∧
    (∀ k, putReady p s e .grown → grselKey s.grsel.toNat = some k → let old := (s.grant k).bits
      let v := putValue p .grown e old
      putDone p (.grownWrite p) s (State.retestGates { s with grants := spPut ⟨false, false, 0⟩ k ⟨v.testBit 13, v.testBit 12, v % 2 ^ 12⟩ s.grants } k) e old e.core) ∧
    (let q := s.psel.toNat % 32
     let x := s.part q
     (putReady p s e .pblk → let b := BitVec.ofNat 32 (putValue p .pblk e x.blk.toNat)
       (x.st = .halted → (∀ r, r < 32 → r ≠ q → (s.part r).blk &&& b = 0) → putDone p (.pblkWrite p) s (s.setPart q { x with blk := b }).saveRecords e x.blk.toNat e.core) ∧
       (x.st ≠ .halted ∨ (∃ r, r < 32 ∧ r ≠ q ∧ (s.part r).blk &&& b ≠ 0) → TrapStep (.pblkWrite p) s e (Trap.plain cResource))) ∧
     (putReady p s e .plive → let v := putValue p .plive e x.live % 4096
       (x.st = .halted → v ≠ x.shad → v ≠ 0 → putDone p (.pliveWrite p) s (s.setPart q { x with live := v }).saveRecords e x.live e.core) ∧
       (x.st ≠ .halted ∨ v = x.shad ∨ v = 0 → TrapStep (.pliveWrite p) s e (Trap.plain cResource))) ∧
     (putReady p s e .pshad → let v := putValue p .pshad e x.shad % 4096
       (x.st = .halted → v ≠ x.live → (v = 0 → s.shadowCrews q = false) → putDone p (.pshadWrite p) s (s.setPart q { x with shad := v }) e x.shad e.core) ∧
       (x.st ≠ .halted ∨ v = x.live ∨ (v = 0 ∧ s.shadowCrews q = true) → TrapStep (.pshadWrite p) s e (Trap.plain cResource))) ∧
     (putReady p s e .puev → let v := putValue p .puev e x.puev.toNat
       (canonical (v / 4 * 4) = true → putDone p (.puevWrite p) s (s.setPart q { x with puev := BitVec.ofNat 64 (v &&& 0xFFFFFFFFFFFFFFFD) }) e x.puev.toNat e.core) ∧
       (canonical (v / 4 * 4) = false → TrapStep (.puevWrite p) s e (Trap.plain cPermission)))) ∧
    (putReady p s e .ctxtab → let old := s.ctxtab.toNat
      putDone p (.ctxtabWrite p) s { s with ctxtab := BitVec.ofNat 64 (putValue p .ctxtab e old &&& 0xFFFFFFFFF8001) } e old e.core) ∧
    (putReady p s e .mgctl → let old := s.mgctl.toNat
      let v := putValue p .mgctl e old
      let ctx := bitsAt v 0 12
      let pkg := bitsAt v 24 10
      let s1 : State := { s with mgctl := BitVec.ofNat 64 (pkg * 2 ^ 24 + ctx) }
      (v.testBit 63 = false → putDone p (.migrationGo p) s s1 e old e.core) ∧
      (v.testBit 63 = true → s.migration = none → ctx ≠ 0 → pkg ≠ s.pkgNo →
        putDone p (.migrationGo p) s (s1.startMigration ⟨s.mgva.toNat, s.mgfrm.toNat, s.mgcmp.toNat, ctx, pkg, 0, .asked⟩) e old e.core) ∧
      (v.testBit 63 = true → s.migration.isSome = true → TrapStep (.migrationGo p) s e (Trap.plain cResource)) ∧
      (v.testBit 63 = true → s.migration = none → ctx = 0 ∨ pkg = s.pkgNo → TrapStep (.migrationGo p) s e (Trap.plain cIllegalEncoding))))

/-- What user code and gangs may not do (R307, R309, R154, R332): the privileged instructions, and a control register of S or a write of one that user code may only read, take PRIVILEGE and change nothing else. Inside an explicit chunk these instructions, which none may hold, abort it with UNSUPPORTED, the lower code (or with LENGTH as its 257th instruction), and with FAULT and the cause where the guard holds in no lane (R119, Table 5.3). -/
def Obligations.Privilege : Prop :=
  (∀ (s : State) (e : Env), e.sup = false →
    (∀ o : GABC, s.env 8 o.g = some e → TrapOrAbort (.tlbinv o) s e (Trap.plain cPrivilege) ∧ TrapOrAbort (.accspill o) s e (Trap.plain cPrivilege)) ∧
    (∀ g, s.env 8 g = some e → TrapOrAbort (.tlbsync g) s e (Trap.plain cPrivilege) ∧ TrapOrAbort (.eret g) s e (Trap.plain cPrivilege)) ∧
    (∀ o : GDAB, s.env 8 o.g = some e → TrapOrAbort (.haltStop o) s e (Trap.plain cPrivilege) ∧ TrapOrAbort (.haltRun o) s e (Trap.plain cPrivilege)) ∧
    (∀ o : GDA, s.env 8 o.g = some e → TrapOrAbort (.pswap o) s e (Trap.plain cPrivilege)) ∧
    (∀ o : GDABC, s.env 8 o.g = some e → TrapOrAbort (.fltres o) s e (Trap.plain cPrivilege)) ∧
    (∀ o : GAB, s.env 8 o.g = some e → TrapOrAbort (.accfill o) s e (Trap.plain cPrivilege)) ∧
    (∀ o : CsrrOps, s.env 12 o.g = some e → csrPriv false o.csr = true → TrapOrAbort (.csrr o) s e (Trap.plain cPrivilege)) ∧
    (∀ o : CsrwOps, s.env 12 o.g = some e → csrPriv true o.csr = true → TrapOrAbort (.csrw o) s e (Trap.plain cPrivilege)) ∧
    (∀ o : CsrxOps, s.env 12 o.g = some e → csrPriv true o.csr = true → TrapOrAbort (.csrx o) s e (Trap.plain cPrivilege)) ∧
    (∀ p : CsrPut, s.env 12 (putGuard p) = some e →
      TrapOrAbort (.fqbaseWrite p) s e (Trap.plain cPrivilege) ∧ TrapOrAbort (.fqcapWrite p) s e (Trap.plain cPrivilege) ∧ TrapOrAbort (.fqheadWrite p) s e (Trap.plain cPrivilege) ∧
      TrapOrAbort (.grselWrite p) s e (Trap.plain cPrivilege) ∧ TrapOrAbort (.grownWrite p) s e (Trap.plain cPrivilege) ∧ TrapOrAbort (.pblkWrite p) s e (Trap.plain cPrivilege) ∧
      TrapOrAbort (.pliveWrite p) s e (Trap.plain cPrivilege) ∧ TrapOrAbort (.pshadWrite p) s e (Trap.plain cPrivilege) ∧ TrapOrAbort (.puevWrite p) s e (Trap.plain cPrivilege) ∧
      TrapOrAbort (.ctxtabWrite p) s e (Trap.plain cPrivilege) ∧ TrapOrAbort (.migrationGo p) s e (Trap.plain cPrivilege))) ∧
  (∀ (s : State) (n : Nat) (g : Guard) (e : Env), s.env n g = some e → e.cox = false → e.sup = false)

/-- tlbinv, tlbsync, icinv and the end of an invalidation (R322 to R324, R134): tlbinv posts an invalidation and squashes every open chunk that holds a line reached through an invalidated translation; once the invalidation has ended no cached translation, pointer or code byte of its span is left; tlbsync holds the core until its invalidations have ended; icinv drops the cached code that its range meets, by the addresses at which the issuing context reaches it (log entry 15), which another gang may still see until its next chunk end; a count of 0 does nothing. A chunk that took up a line through the old translation after tlbinv runs again when the invalidation ends (log entry 65). -/
def Obligations.TranslationControl : Prop :=
  (∀ (o : GABC) (s : State) (e : Env), let sp : Spec := { guard := o.g, priv := true, uses := [.uni 1 o.a, .uni 2 o.b, .uni 3 o.c], chunk := .own }
    let ctx := e.uni .w64 o.a
    let va := e.uni .w64 o.b
    let k := e.uni .w64 o.c
    s.env 8 o.g = some e → e.executes sp = true → e.alone = true → e.g.chunk = none →
    (ctx < 4096 → k < 8 → OwnCore (.tlbinv o) s
      (s.postInval (some e.g.id) ctx (va % 2 ^ 57 / spanBytes k * spanBytes k) (if k = 7 then none else some (spanBytes k))) e e.core .ready (fun _ => e.nextPc)) ∧
    (4096 ≤ ctx ∨ 8 ≤ k → TrapStep (.tlbinv o) s e (Trap.plain cIllegalEncoding))) ∧
  (∀ (g : Guard) (s : State) (e : Env), s.env 8 g = some e → e.executes { guard := g, priv := true, chunk := .own } = true → e.alone = true → e.g.chunk = none →
    ((∀ i ∈ s.invals, i.core ≠ some e.g.id) → OwnCore (.tlbsync g) s s e e.core .ready (fun _ => e.nextPc)) ∧
    ((∃ i ∈ s.invals, i.core = some e.g.id) → StallStep (.tlbsync g) s s e .inv)) ∧
  (∀ (o : GAB) (s : State) (e : Env), s.env 8 o.g = some e → e.executes { guard := o.g, uses := [.uni 1 o.a, .uni 2 o.b], chunk := .own } = true →
    e.alone = true → e.g.chunk = none →
    let a := e.uni .w64 o.a
    let b := e.uni .w64 o.b
    OwnCore (.icinv o) s (s.icinv e.g.id e.ctx a b) { e with g := e.g.icinv s e.ctx a b } e.core .ready (fun _ => e.nextPc)) ∧
  (∀ (s : State) (core : Option Nat) (ctx lo : Nat) (size : Option Nat), let t := s.postInval core ctx lo size
    let struck (g : Gang) : Prop := ∃ c, g.chunk = some c ∧ ∃ p ∈ c.pages, invalMatches ctx lo size p.1 = true
    t.invals = s.invals ++ [⟨s.nextId, core, ctx, lo, size⟩] ∧ t.mem = s.mem ∧ t.tlb = s.tlb ∧ t.tokenHolder = s.tokenHolder ∧
    (∀ i, (∀ g ∈ s.gangs, g.id = i → ¬ struck g) → t.gang? i = s.gang? i) ∧
    (∀ g c, s.gang? g.id = some g → g.chunk = some c → struck g →
      (c.expl = none → ∃ k, t.gang? g.id = some k ∧ k = { s.discardChunk g with squashes := k.squashes, token := k.token } ∧ k.chunk = none) ∧
      (∀ x, c.expl = some x → ∃ k, t.gang? g.id = some k ∧ k.chunk = some { Chunk.fresh k.core with expl := some x }))) ∧
  (∀ (t : TlbEnt) (ctx lo n : Nat), t.peers = [] → let a := t.vpage * 4096
    a % levelSize t.level = 0 →
    (invalMatches ctx lo (some n) t = true ↔ (ctx = 0xFFF ∨ (t.ctx = ctx ∧ peG t.leaf = false)) ∧ lo < a + levelSize t.level ∧ a < lo + n) ∧
    (invalMatches ctx lo none t = true ↔ ctx = 0xFFF ∨ (t.ctx = ctx ∧ peG t.leaf = false))) ∧
  (∀ (s : State) (i : Inval), s.invals.find? (fun j => j.id == i.id) = some i →
    (s.invalHeld i = false → ∃ t, exec (.tlbInvalidationDone i.id) s = .next t ∧ t.tlb = s.tlb.filter (fun x => !invalMatches i.ctx i.lo i.size x) ∧
      t.ptrs = s.ptrs.filter (fun p => !p.spanned i.ctx i.lo i.size) ∧
      (∀ b, b ∈ t.code ↔ b ∈ s.code ∧ (∀ k ∈ s.code, k.la = b.la → k.inSpan i.ctx i.lo i.size = false) ∧
        ∀ x ∈ s.tlb, invalMatches i.ctx i.lo i.size x = true → x.fetched i.lo i.size b.la = false) ∧
      (∀ g, s.gang? g.id = some g → (∀ h ∈ s.gangs, h.id = g.id → ∀ c, h.chunk = some c →
          ∀ p ∈ c.pages, invalMatches i.ctx i.lo i.size p.1 = true → s.staleEnt p.1 = false) →
        t.gang? g.id = some (if i.ctx = 0xFFF ∨ s.ctxOf g = i.ctx then { g with lbuf := g.lbuf.filter (fun b => !spanMeets i.lo i.size (b.va % 2 ^ 57) 32) } else g)) ∧
      t.invals = s.invals.filter (fun j => j.id != i.id) ∧ t.mem = s.mem) ∧
    (s.invalHeld i = true → exec (.tlbInvalidationDone i.id) s = .next s)) ∧
  (∀ (s : State) (me ctx a b : Nat), let t := s.icinv me ctx a b
    let met (la : Nat) : Bool := (addressesOf s ctx la).any (fun v => decide (v < a + b) && decide (a < v + 32))
    let late (k : CodeBlock) : List Nat := (s.gangs.filter (fun g => g.id != me && !g.exited && s.codeQuad g == k.quad)).map (fun g => g.id)
    (b = 0 → t = s) ∧
    (b ≠ 0 → t = { s with code := t.code, gangs := t.gangs } ∧
      (∀ j, j ∈ t.code ↔ (j ∈ s.code ∧ (met j.la = false ∨ j.stale ≠ [])) ∨
        ∃ k ∈ s.code, k.stale = [] ∧ met k.la = true ∧ late k ≠ [] ∧ j = { k with stale := late k }) ∧
      ∀ i, t.gang? i = (s.gang? i).map (fun g => { g with lbuf := g.lbuf.map (fun x => if met x.la then { x with stale := true } else x) }))) ∧
  (∀ (s : State) (ctx va la : Nat), va ∈ addressesOf s ctx la →
    ∃ w ∈ xlatWays s ctx va, ∃ t, w.1 = .ok t ∧ frameToLoc t.leaf (t.byte va) = la) ∧
  (∀ (s : State) (t : TlbEnt) (va : Nat), t ∈ s.tlb → canonical va = true → va < 2 ^ 64 →
    va % 2 ^ 57 / levelSize t.level * levelSize t.level = t.vpage * 4096 → t.byte va < frameLimit t.leaf →
    va ∈ addressesOf s t.ctx (frameToLoc t.leaf (t.byte va)))

/-- halt, pswap and the ends of the waits they begin (R325 to R327, R376 to R382): STOP of a running partition stops it and holds the core until every engine of it stands at its boundary; RUN of a halted one resumes it; pswap of a halted one exchanges its images; D tells the state that was found. When HALTED is reached every halt that waits for it goes on, and a RUN among them then sets RUNNING. That halt acts and writes D at once and its group then stalls at its next PC (log entry 64), that the partition number and the action are read as 64 bits (log entry 29), and that a group stalled at a wait ends a chunk that its gang has opened since, where only that chunk is in the way (log entry 71), are the model's choices. -/
def Obligations.Partitions : Prop :=
  (∀ (i : Instr) (o : GDAB) (s : State) (e : Env) (n : Fin 128), let p := e.uni .w64 o.a
    let act := e.uni .w64 o.b
    let st := (s.part p).st
    let k := e.core.setSreg n.val (BitVec.ofNat 64 st.code)
    i = .haltStop o ∨ i = .haltRun o → s.env 8 o.g = some e → e.executes (haltSpec o e) = true → e.alone = true → e.g.chunk = none → o.d = .s n →
    (p < 32 → act = 0 → st = .running →
      OwnStep i s (s.stopPart p) e (fun b => e.latched (s.stopPart p) k b ∧ MovedTo b e.act (.stall (.halted p false)) (fun _ => e.nextPc))) ∧
    (p < 32 → act = 0 → st = .halted → OwnCore i s s e k .ready (fun _ => e.nextPc)) ∧
    (p < 32 → act = 1 → st = .halted →
      OwnStep i s (s.resumePart p) e (fun b => e.latched (s.resumePart p) k b ∧ MovedTo b e.act .ready (fun _ => e.nextPc))) ∧
    (p < 32 → act = 1 → st = .running → OwnCore i s s e k .ready (fun _ => e.nextPc)) ∧
    (p < 32 → act ≤ 1 → st = .stopping ∨ st = .swapping →
      OwnCore i s s e k (.stall (.halted p (act == 1))) (fun _ => e.nextPc)) ∧
    (32 ≤ p ∨ 2 ≤ act → TrapStep i s e (Trap.plain cIllegalEncoding))) ∧
  (∀ (o : GDA) (s : State) (e : Env) (n : Fin 128), let sp : Spec := { guard := o.g, priv := true, uses := [.dstS o.d, .uni 1 o.a], chunk := .own }
    let p := e.uni .w64 o.a
    s.env 8 o.g = some e → e.executes sp = true → e.alone = true → e.g.chunk = none → o.d = .s n → p < 32 →
    ((s.part p).st = .halted → OwnCore (.pswap o) s (s.setPart p { s.part p with st := .swapping }) e e.core (.stall (.swap p n)) (fun _ => e.nextPc)) ∧
    ((s.part p).st ≠ .halted → OwnCore (.pswap o) s s e (e.core.setSreg n.val 1) .ready (fun _ => e.nextPc))) ∧
  (∀ (s : State) (p : Nat), p < s.parts.length → ((s.stopPart p).part p).st = .stopping ∧ (s.stopPart p).mem = s.mem ∧
    (s.swapPart p).part p = { s.part p with st := .halted, live := (s.part p).shad, shad := (s.part p).live, puev := (s.part p).puevShad, puevShad := (s.part p).puev } ∧
    (s.swapPart p).mem = s.mem ∧ ((s.resumePart p).part p).st = .running ∧
    let mine (c : Crew) : Bool := (s.part p).blk.getLsbD (quadOf c.coreIx / 8)
    (s.swapPart p).crews = s.crews.map (fun c => if mine c then { c with live := !c.live } else c) ∧
    (s.swapPart p).gangs = s.gangs.map (fun g => match s.crewOf g with
      | some c => if c.live && mine c && g.record == .live then { g with record := .saved } else g
      | none => g) ∧
    ∀ q t, t < 64 → ((s.part p).blk.getLsbD (q / 8) = false → (s.swapPart p).acc q t = s.acc q t) ∧
      ((s.part p).blk.getLsbD (q / 8) = true → ∀ v, (∀ x ∈ s.accShad, x.1 = accKey q t → x.2 = v) →
        (s.swapPart p).acc q t = if s.accShad.any (fun x => x.1 == accKey q t) then v else AccTile.zero)) ∧
  (∀ (s : State) (p : Fin 32), p.val < s.parts.length → let t := s.setHalted p.val
    ((s.part p.val).st = .stopping → s.partQuiet p.val = true → exec (.engineStopAck p) s = .next (t.endHalts p.val)) ∧
    (t.part p.val = { s.part p.val with st := .halted } ∧ (∀ q, q ≠ p.val → t.part q = s.part q) ∧ t.mem = s.mem ∧ t.crews = s.crews ∧ t.haltsOf p.val = s.haltsOf p.val ∧
      (∀ g, g ∈ s.liveGangs p.val → s.gang? g.id = some g → t.gang? g.id = some { g with squashes := 0, token := .none }) ∧ (s.haltsOf p.val = [] → s.endHalts p.val = s)) ∧
    ((s.part p.val).st ≠ .stopping → exec (.engineStopAck p) s = .next s) ∧
    (s.partQuiet p.val = false → exec (.engineStopAck p) s = .next s)) ∧
  (∀ (s : State) (g : Gang) (l : Lane) (x : SubGang), s.gang? g.id = some g → g.core.subs = [x] → lowestLane x.lanes = l.val → x.lanes ≠ 0 → g.token ≠ .lost →
    let freed (s' : State) (k : GangCore) : Prop := ∃ t, exec (.stallRelease g.id l) s = .next t ∧
      Became s' t { g with core := { k with subs := [{ x with wait := .ready, waited := 0 }] } }
    (∀ w, x.wait = .stall w → w.past = false → s.stallOver g x w = true → freed s g.core) ∧
    (∀ w, x.wait = .stall w → s.stallOver g x w = false → g.endsFor w = false → exec (.stallRelease g.id l) s = .next s) ∧
    (∀ w c, x.wait = .stall w → s.stallOver g x w = false → g.endsFor w = true → g.chunk = some c →
      exec (.stallRelease g.id l) s = .next (s.putGang { g with chunk := some { c with closed := true } })) ∧
    (g.core.fams = [] → g.core.ldepth = 0 →
      (∀ p d, x.wait = .stall (.swap p d) → g.isCox = true → s.haltsOf p = [] → freed (s.swapPart p) (g.core.setSreg d.val 0)) ∧
      (∀ c n, x.wait = .stall (.fence c n) → g.closing = false → s.classDone g.id c n = true → freed s g.core) ∧
      (∀ p run, x.wait = .stall (.halted p run) → (s.part p).st = .halted → exec (.stallRelease g.id l) s = .next (s.endHalts p)) ∧
      (∀ p, x.wait = .stall (.halted p false) → s.haltsOf p = [(g.id, l.val, false)] →
        Became s (s.endHalts p) { g with core := { g.core with subs := [{ x with wait := .ready, waited := 0 }] } }) ∧
      (∀ (p : Nat) (h : Gang) (y : SubGang) (m : Lane) (run : Bool), x.wait = .stall (.halted p run) → s.gang? h.id = some h → h.id ≠ g.id →
        h.core.subs = [y] → lowestLane y.lanes = m.val → y.lanes ≠ 0 → h.token ≠ .lost → h.core.fams = [] → h.core.ldepth = 0 → y.wait = .stall (.halted p (!run)) →
        (s.haltsOf p = [(g.id, l.val, run), (h.id, m.val, !run)] ∨ s.haltsOf p = [(h.id, m.val, !run), (g.id, l.val, run)]) →
        ∃ u : State, s.endHalts p = u.resumePart p ∧ u = s.setGangs u.gangs ∧
          u.gang? g.id = some { g with core := { g.core with subs := [{ x with wait := .ready, waited := 0 }] } } ∧
          u.gang? h.id = some { h with core := { h.core with subs := [{ y with wait := .ready, waited := 0 }] } } ∧
          ∀ k, k ≠ g.id → k ≠ h.id → u.gang? k = s.gang? k)))

/-- fltres, accspill and accfill (R320, R328 to R330): fltres acts on the group that a record's TOKEN names, by RETRY, SKIP, REDIRECT or TERMINATE, and D says what it found; accspill writes a tile to its area and hands it over; accfill restores the tile from the area, and sets a pending epilogue that the area describes to wait again, on a quad that is present. What a TOKEN names and when D is 1 or 2 (log entry 43), that a value of a poisoned line is filled POISON (log entry 51), and that the action is read as 64 bits (log entry 29), are the model's choices. -/
def Obligations.HandoverAndResume : Prop :=
  (∀ (o : GDABC) (s : State) (e : Env) (n : Fin 128),
    let sp : Spec := { guard := o.g, priv := true, uses := [.dstS o.d, .uni 1 o.a, .uni 2 o.b, .uni 3 o.c], chunk := .own }
    let tok := e.uni .w64 o.a
    let act := e.uni .w64 o.b
    let tgt := e.uni .w64 o.c
    let seq := bitsAt tok 32 20
    let gives (v : Nat) : Prop := OwnCore (.fltres o) s s e (e.core.setSreg n.val (BitVec.ofNat 64 v)) .ready (fun _ => e.nextPc)
    s.env 8 o.g = some e → e.executes sp = true → e.alone = true → e.g.chunk = none → o.d = .s n →
    (act < 4 → s.tokenFor tok = .stale → gives 1) ∧ (act < 4 → s.tokenFor tok = .away → gives 2) ∧
    (∀ id h, act < 4 → s.tokenFor tok = .gang id → s.gang? id = some h →
      ((∀ x ∈ h.core.subs, x.heldSeq seq = false) → gives 1) ∧
      ((∃ x ∈ h.core.subs, x.heldSeq seq = true) → act = 2 → ¬ goodTarget tgt → gives 3) ∧
      ((∃ x ∈ h.core.subs, x.heldSeq seq = true) → (act = 2 → goodTarget tgt) → let s' := s.resumeGroup id seq act (BitVec.ofNat 64 tgt)
        OwnStep (.fltres o) s s' e (fun b => e.latched s' (e.core.setSreg n.val 0) b ∧ MovedTo b e.act .ready (fun _ => e.nextPc)))) ∧
    (4 ≤ act → TrapStep (.fltres o) s e (Trap.plain cIllegalEncoding))) ∧
  (∀ (s : State) (g : Gang) (x : SubGang) (h : Held) (tgt : Word64), s.gang? g.id = some g → g.chunk = none → g.core.subs = [x] → x.wait = .held h → h.main = true →
    g.core.fams = [] → x.lanes ≠ 0 → g.core.ldepth = 0 →
    let goes (pc : Word64) : Option Gang := some { g with core := { g.core with subs := [{ x with wait := .ready, pc := pc, waited := 0 }] } }
    (s.resumeGroup g.id h.seq 0 tgt).gang? g.id = goes x.pc ∧ (s.resumeGroup g.id h.seq 1 tgt).gang? g.id = goes (x.pc + BitVec.ofNat 64 h.skip) ∧
    (s.resumeGroup g.id h.seq 2 tgt).gang? g.id = goes tgt ∧
    (∃ k, (s.resumeGroup g.id h.seq 3 tgt).gang? g.id = some k ∧ k.core.subs = [] ∧ k.core.fmask = g.core.fmask ||| x.lanes ∧
      k.core.quarantined = g.core.quarantined ||| x.lanes)) ∧
  (∀ (o : GABC) (s : State) (e : Env) (q n : Nat), let sp : Spec := { guard := o.g, priv := true, uses := [.uni 1 o.a, .uni 2 o.b, .uni 3 o.c], chunk := .own }
    let owner := e.uni .w64 o.c
    s.env 8 o.g = some e → e.executes sp = true → e.alone = true → e.g.chunk = none → selTile (e.uni .w64 o.a) = some (q, n) → owner < 4096 →
    (o.b = .spec .zero → s.tileQuiet q n = true → OwnCore (.accspill o) s (s.handOver q n owner true) e e.core .ready (fun _ => e.nextPc)) ∧
    (o.b = .spec .zero → s.tileQuiet q n = false → StallStep (.accspill o) s s e (.tile q n)) ∧
    (∀ (s1 s2 : State) (l m : Loc), let b := e.uni .w64 o.b
      o.b ≠ .spec .zero → canonical b = true → b % 4096 = 0 → canonical ((b + 4096) % 2 ^ 64) = true →
      s.xlat e.ctx e.sup .store .lane b = (.ok l, s1) → s1.xlat e.ctx e.sup .store .lane ((b + 4096) % 2 ^ 64) = (.ok m, s2) →
      l.la + 4096 ≤ m.la ∨ m.la + 256 ≤ l.la → s2.tileQuiet q n = true → s.tokenHolder = none → s.quadPresent q = true →
      ∃ t h, exec (.accspill o) s = .next t ∧ memRead t.mem l.la 4096 = (spillBytes s2 q n).take 4096 ∧ memRead t.mem m.la 256 = (spillBytes s2 q n).drop 4096 ∧
        (∀ a, (a < l.la ∨ l.la + 4096 ≤ a) → (a < m.la ∨ m.la + 256 ≤ a) → memByte t.mem a = memByte s.mem a) ∧
        t.acc q n = { s.acc q n with owner := owner, pending := false } ∧ t.gang? e.g.id = some h ∧ h.chunk = none ∧
        h.core = { e.core with subs := h.core.subs } ∧ MovedTo h.core e.act .ready (fun _ => e.nextPc))) ∧
  (∀ (o : GAB) (s s1 s2 : State) (e : Env) (q n : Nat) (l m : Loc), let sp : Spec := { guard := o.g, priv := true, uses := [.uni 1 o.a, .uni 2 o.b], chunk := .own }
    let b := e.uni .w64 o.b
    let rd (off w : Nat) : Nat := s2.loadNat (m.la + off - 4096) w
    s.env 8 o.g = some e → e.executes sp = true → e.alone = true → e.g.chunk = none → selTile (e.uni .w64 o.a) = some (q, n) →
    canonical b = true → b % 4096 = 0 → canonical ((b + 4096) % 2 ^ 64) = true →
    s.xlat e.ctx e.sup .load .lane b = (.ok l, s1) → s1.xlat e.ctx e.sup .load .lane ((b + 4096) % 2 ^ 64) = (.ok m, s2) →
    s2.tileQuiet q n = true → (∀ i, i < 4 → s2.linePoisoned (m.la + 64 * i) = false) →
    rd 4224 2 < 4096 → rd 4228 4 = 0 → rd 4272 8 < 2 ^ 34 → rd 4280 72 = 0 →
    let filled (x : AccTile) : Prop := x.owner = rd 4224 2 ∧ ∀ i, i < 1024 → x.cell i = ⟨BitVec.ofNat 32 (s2.loadNat (l.la + 4 * i) 4),
      if (rd 4096 128).testBit i ∨ s2.linePoisoned (l.la + 4 * i) = true then .poison else .live⟩
    (rd 4226 2 = 0 → ∃ x, OwnCore (.accfill o) s (s2.setAcc q n x) e e.core .ready (fun _ => e.nextPc) ∧ x.pending = false ∧ filled x) ∧
    (∀ y, rd 4226 2 = 1 → epiOf (rd 4232 8) (rd 4240 8) = some y → (y.crew = true → q = bitsAt (rd 4272 8) 32 2 * 64 + bitsAt (rd 4272 8) 26 6) →
      let again (x : AccTile) : State := if s2.quadPresent q = true then (s2.setAcc q n x).replay q n (rd 4224 2) (rd 4272 8) y
        (epiKind n y (rd 4248 8) (rd 4256 8) (rd 4264 8) (rd 4232 8) (rd 4240 8)) (bytesLE 8 (rd 4232 8) ++ bytesLE 8 (rd 4240 8)) else s2.setAcc q n x
      ∃ x, OwnCore (.accfill o) s (again x) e e.core .ready (fun _ => e.nextPc) ∧ x.pending = true ∧ filled x) ∧
    (2 ≤ rd 4226 2 ∨ (rd 4226 2 = 1 ∧ epiOf (rd 4232 8) (rd 4240 8) = none) → exec (.accfill o) s = .next (s2.raise e.g e.x e.site (Trap.plain cIllegalEncoding)))) ∧
  (∀ (s : State) (q t ctx ecrew a b c w0 eng : Nat) (o : AccEpiOps) (insn : List Byte), let k := epiKind t o a b c w0 eng
    let u := s.replay q t ctx ecrew o k insn
    u.mem = s.mem ∧ u.gangs = s.gangs ∧ u.crews = s.crews ∧
      ∃ r, r ∈ u.reqs ∧ r.kind = k ∧ r.quad = q ∧ r.ctx = ctx ∧ r.pending = true ∧ r.done = [] ∧ .pageWaitRetry r.id ∈ u.due)

/-- A core's issue cycle (R347 to R349): one or two groups are chosen; a ready group counts the cycle, and its count is 0 from its issue on; a group that has waited 4,096 cycles comes first, then the higher priority, then the longer wait, then the lower place and lane. Placement, stealing and release (R341, R342, R343, R210, R372): the next crew of a quad's range is made at a spot that fits, its gangs ready at the entry; a quad whose range is empty takes the upper half of what the quad with the largest remainder holds, of its own die first; when the last gang of a crew exits a record of each faulted gang joins the hub's order, the last marked LAST; the crew goes away once nothing is outstanding and those records have entered, and its successor's join block is then to be decremented. That a new crew's registers and static space are zero and LIVE is the model's choice (log entry 2). -/
def Obligations.IssueSelection : Prop :=
  ((∀ (s : State) (core : Nat),
    ∃ (t : State) (r : List GroupRef), exec (.issueCycle core) s = .next t ∧ t = { s with gangs := t.gangs, issue := s.issue ++ r } ∧ r.length ≤ 2 ∧
      (s.cands core = [] → r = []) ∧ (∀ x, bestCand (s.cands core) = some x → ⟨x.gang, toLane x.lead⟩ ∈ r) ∧
      ∀ (g : Gang) (y : SubGang), g ∈ s.coreGangs core → s.gang? g.id = some g → g.core.subs = [y] →
        (s.groupReady g y = true → t.gang? g.id = some { g with core := { g.core with
          subs := [{ y with waited := y.waited + 1 }] } }) ∧
        ((∀ x ∈ s.cands core, x.gang ≠ g.id) → t.gang? g.id = some { g with core := { g.core with subs := [{ y with waited := 0 }] } })) ∧
  (∀ (e : Env) (a : After) (x : SubGang), x ∈ e.split a → x.waited = 0) ∧
  (∀ (l : List Cand) (x : Cand), bestCand l = some x → x ∈ l ∧
    ((∃ y ∈ l, 4096 ≤ y.waited) → 4096 ≤ x.waited ∧ ∀ y ∈ l, y.waited ≤ x.waited) ∧
    ((∀ y ∈ l, y.waited < 4096) → ∀ y ∈ l, y.prio ≤ x.prio ∧ (y.prio = x.prio → y.waited ≤ x.waited ∧
      (y.waited = x.waited → x.place ≤ y.place ∧ (y.place = x.place → x.lead ≤ y.lead)))))) ∧
  ((∀ (s : State) (i : Item) (quad p : Nat) (r : QRange) (x : Spot), s.item? i.id = some i → i.desc.cor = false → s.partOfCtx i.ctx = some p →
    (∀ j ∈ s.items, s.partOfCtx j.ctx = some p → j.split = some (s.partQuads p)) → (s.part p).st = .running → (s.partQuads p).contains quad = true → i.placed < i.total → i.rangeAt quad = some r →
    s.heldBack p i [quad] = false → s.spotFor i quad = some x → x.gangs.length = i.desc.ng →
    ∃ (t : State) (c : Crew) (n : List Gang), exec (.crewPlacement i.id quad) s = .next t ∧
      t = { s with crews := s.crews ++ [c], gangs := s.gangs ++ n, items := t.items, nextId := s.nextId + 1 + i.desc.ng, freeCtr := t.freeCtr, sems := t.sems,
                   halves := t.halves } ∧
      t.item? i.id = some { i with placed := i.placed + 1, ranges := i.ranges.map (fun y => if y = r then { y with lo := y.lo + 1 } else y) } ∧
      (∀ k, k ≠ i.id → t.item? k = s.item? k) ∧
      c.id = s.nextId ∧ c.item = i.id ∧ c.ctx = i.ctx ∧ c.coreIx = x.core ∧ c.live = true ∧ c.num = r.lo ∧ c.desc = i.desc ∧ c.sems = x.sems ∧
      (∃ f ∈ x.bases, ∃ j, j < f.2 ∧ c.base = f.1 + 256 * j) ∧ c.accbase = c.rb ∧ c.acclim = c.rb ∧ c.rb = x.rb ∧ c.gangs = n.map (fun h => h.id) ∧ n.length = i.desc.ng ∧
      (let k := s.codeApplied (coreDie x.core) (i.desc.ret1 % 16); c.allocs = [⟨0, i.desc.staticBytes, k, expiryTick k s.tick, ⟨0, .live⟩, []⟩]) ∧
      (∀ h ∈ n, h.crew = some c.id ∧ h.chunk = none ∧
        h.core.subs = [⟨allLanes i.desc.width, BitVec.ofNat 64 i.desc.entry, .ready, 0⟩] ∧ h.core.uevec = (s.part p).puev ∧
        (∀ a l, h.core.reg a l = ⟨0, .live, expiryTick (s.codeApplied (coreDie x.core) (i.desc.ret0 % 16)) s.tick⟩))) ∧
  (∀ (s : State) (i : Item) (quad p v : Nat) (x : Spot), s.item? i.id = some i → i.desc.cor = false → i.split = some (s.partQuads p) →
    i.rangeAt quad = none → s.partOfCtx i.ctx = some p → (s.part p).st = .running → (s.partQuads p).contains quad = true →
    victimQuad i.ranges quad = some v → s.spotFor i quad = some x →
    exec (.quadSteal i.id quad) s = .next (s.putItem { i with ranges := stolen i.ranges quad v })) ∧
  (∀ (l : List QRange) (quad v : Nat), victimQuad l quad = some v → 0 < quadLeft l v ∧
    (v / 64 = quad / 64 → ∀ q, q / 64 = quad / 64 → quadLeft l q ≤ quadLeft l v ∧ (quadLeft l q = quadLeft l v → v ≤ q)) ∧
    (v / 64 ≠ quad / 64 → ∀ q, q / 64 = quad / 64 → quadLeft l q = 0)) ∧
  (∀ (l : List QRange) (quad v : Nat), v ≠ quad →
    quadLeft (stolen l quad v) quad = quadLeft l quad + (quadLeft l v + 1) / 2 ∧ quadLeft (stolen l quad v) v = quadLeft l v / 2 ∧
    (quadLeft l quad = 0 → l.Pairwise (fun x y => x.hi ≤ y.lo ∨ y.hi ≤ x.lo) → ∀ x ∈ stolen l quad v, ∀ y ∈ stolen l quad v, x.quad = quad → y.quad = v → y.hi ≤ x.lo)) ∧
  (∀ (s : State) (c : Crew), c.exitRecords = false → s.crewExited c = true →
    (∀ k g, (s.faulted c)[k]? = some g → (s.crewExit c).fq.waiting[s.fq.waiting.length + k]? = some (c.id + 1, recordBytes
      [(0, 1, cOperandRange), (1, 1, 3), (2, 2, if k + 1 = (s.faulted c).length then 1 else 0), (4, 4, c.ctx % 4096), (8, 8, s.tokenOf g 0), (16, 8, 0),
       (24, 8, g.core.fmask.toNat), (32, 8, c.num % 2 ^ 32 + g.num * 2 ^ 32), (40, 16, 0), (88, 8, s.tick)])) ∧
    (s.crewExit c).fq.waiting.length = s.fq.waiting.length + (s.faulted c).length ∧
    ∀ g, s.gang? g.id = some g → s.crewOf g = some c → s.barsOf c = [] → (s.gangExit g.id).fq = (s.crewExit c).fq) ∧
  (∀ (s : State) (c : Crew), s.crew? c.id = some c →
    (s.crewDone c = false → exec (.crewRelease c.id) s = .next s) ∧
    (s.crewDone c = true → c.exitRecords = false → s.faulted c ≠ [] →
      ∃ t, exec (.crewRelease c.id) s = .next t ∧ t.fq.waiting.length = s.fq.waiting.length + (s.faulted c).length ∧
        t.crew? c.id = some { c with exitRecords := true } ∧ t.mem = s.mem ∧ t.gangs = s.gangs) ∧
    (s.crewDone c = true → (c.exitRecords = true ∨ s.faulted c = []) → s.fq.waiting.any (fun w => w.1 == c.id + 1) = false →
      ∃ t, exec (.crewRelease c.id) s = .next t ∧
        t = { s with crews := s.crews.filter (fun y => y.id != c.id), gangs := s.gangs.filter (fun g => g.crew != some c.id),
                     items := t.items, sems := t.sems, tokenReqs := t.tokenReqs, reqs := t.reqs,
                     hub := s.hub ++ (if c.succ = 0 then [] else [.decrement c.succ c.ctx false]) })))

/-- The retention tick and expiry (R62 to R65, R69, R234, R374): the count rises by one; every unit whose tick has come, every timer due and every wait for a page follows at once; expiry turns a unit's values to the lapsed state but those already POISON; a refresh changes nothing; the counters are stored. Fault records and errors of cells (R310, R369 to R372): the oldest waiting record enters at FQTAIL, with the tick count of its entry unless it is a gang trap's, FQTAIL rises, and FQSEM is signalled; a corrected error changes no value; an uncorrectable one leaves a register, an accumulator value or a line POISON, or strikes the fixed records of a gang or of a crew (R77), as live ones where their context is live and else as saved ones. That a register which was dead takes free data bits with the error, and which records of a crew count as live, are the model's choices (log entry 63). -/
def Obligations.TicksAndRecords : Prop :=
  ((∀ s : State, ∃ (t : State) (r : List Instr), exec .retentionTick s = .next t ∧ t.tick = (s.tick + 1) % 2 ^ 64 ∧ t.due = s.due ++ r ∧
    (∀ u ∈ t.expiringUnits, .allocationExpiry u ∈ r) ∧
    (∀ (g : Gang) (j : Fin 16) (b : Binding), g ∈ t.gangs → g.core.binds.getD j.val none = some b → b.src = .timer t.tick → .timerExpiry g.id j ∈ r) ∧
    (∀ c ∈ t.cmds, c.waitVa ≠ none → .pageWaitRetry c.id ∈ r) ∧
    ((∀ d, d < 4 → (s.diePower d).dirty = false) → t = { s with tick := t.tick, due := t.due, counts := t.counts })) ∧
  (∀ (s : State) (g : Gang), s.gang? g.id = some g →
    (let k := s.regCode g
     k % 8 ≠ 0 → spWf g.core.regFill g.core.regs = true → ∃ t h, exec (.allocationExpiry (.regs g.id)) s = .next t ∧ Became s t h ∧
       h = { g with core := { g.core with regFill := h.core.regFill, regs := h.core.regs } } ∧
       ∀ r l, h.core.reg r l = let x := g.core.reg r l
         if x.st ≠ .poison ∧ x.exp ≤ s.tick then ⟨0xFFFFFFFF, if k / 8 % 2 = 1 then .expired else .poison, x.exp⟩ else x) ∧
    (∀ l : Lane, let k := s.thrCode g
     ∃ t, exec (.allocationExpiry (.thr g.id l)) s = .next t ∧ Became s t { g with core := { g.core with
       spaces := g.core.spaces.map (fun a => if a.lane = l.val ∧ k % 8 ≠ 0 ∧ a.exp ≤ s.tick then a.expire k else a) } })) ∧
  (∀ (s : State) (c : Crew) (a : Alloc) (r : List Alloc), s.crew? c.id = some c → c.allocs = a :: r →
    let lapse (b : Alloc) : Alloc := if b.code % 8 ≠ 0 ∧ b.exp ≤ s.tick then b.expire else b
    (∃ t, exec (.allocationExpiry (.static c.id)) s = .next t ∧ t.crew? c.id = some { c with allocs := lapse a :: r } ∧ t = { s with crews := t.crews } ∧
      ∀ k, k ≠ c.id → t.crew? k = s.crew? k) ∧
    (∀ st : Nat, ∃ t, exec (.allocationExpiry (.block c.id st)) s = .next t ∧ t = { s with crews := t.crews } ∧
      t.crew? c.id = some { c with allocs := a :: r.map (fun b => if b.start = st then lapse b else b)
                                   freed := c.freed.map (fun f => if f.block.start = st then { f with block := lapse f.block } else f) } ∧ ∀ k, k ≠ c.id → t.crew? k = s.crew? k)) ∧
  (∀ (a : Alloc) (w : Nat), spWf a.fill a.cells = true → cellAt a.expire.fill a.expire.cells w =
    if (cellAt a.fill a.cells w).st = .poison then cellAt a.fill a.cells w else ⟨0xFFFFFFFF, if a.code / 8 % 2 = 1 then .expired else .poison⟩) ∧
  (∀ (s : State) (d : Fin 4) (k : Fin 8) (b : Nat), exec (.operandStoreRefresh d) s = .next s ∧ exec (.hbmRefresh k b) s = .next s) ∧
  (∀ s : State, exec .counterStoreWrite s = .next { s with countsNv := s.counts })) ∧
  ((∀ (s s' : State) (tag : Nat) (b : List Byte) (rest : List (Nat × List Byte)) (l : Loc), s.fq.waiting = (tag, b) :: rest → s.fq.configured = true →
    (s.fq.tail - s.fq.head).toNat < 2 ^ s.fq.cap.toNat → b.length = 128 → canonical s.fq.place = true → s.xlat 0 true .store .engine s.fq.place = (.ok l, s') →
    s'.holderHit none [.glob (lineOf l.la), .glob (lineOf l.la + 1)] [] = false →
    ∃ u : State, exec .faultRecordEntry s = .next (let v := if semSpace s.fq.sem.toNat = 1 then u.semSignal (semIndex s.fq.sem.toNat) 1 else u
        if tag = 0 then v else v.addDue (.crewRelease (tag - 1))) ∧
      memRead u.mem l.la 128 = (if b.getD 1 0 = 1 then b else b.take 88 ++ bytesLE 8 s.tick ++ b.drop 96) ∧ (∀ a, (a < l.la ∨ l.la + 128 ≤ a) → memByte u.mem a = memByte s.mem a) ∧
      u.fq = { s.fq with tail := s.fq.tail + 1, waiting := rest }) ∧
  (∀ s : State, s.fq.waiting = [] ∨ s.fq.configured = false ∨ 2 ^ s.fq.cap.toNat ≤ (s.fq.tail - s.fq.head).toNat → exec .faultRecordEntry s = .next s) ∧
  (∀ (s : State) (x : ErrorSite), ∃ t, exec (.softError ⟨x, true⟩) s = .next t ∧ t = { s with counts := t.counts, freeCtr := t.freeCtr }) ∧
  (∀ (s : State) (la : Nat), ∃ t, exec (.softError ⟨.line la, false⟩) s = .next t ∧
    t = { s with counts := t.counts, poisoned := t.poisoned } ∧ t.linePoisoned la = true ∧
    (∀ a, a / 64 ≠ la / 64 → t.linePoisoned a = s.linePoisoned a)) ∧
  (∀ (s : State) (g : Gang) (l : Lane) (r : Nat), s.gang? g.id = some g → ∃ t h v, exec (.softError ⟨.reg g.id l r, false⟩) s = .next t ∧
    t = { s with gangs := t.gangs, counts := t.counts, freeCtr := t.freeCtr } ∧ (∀ k, k ≠ g.id → t.gang? k = s.gang? k) ∧ t.gang? g.id = some h ∧
    h.core = { g.core with regs := h.core.regs } ∧ h.core.reg r l.val = ⟨v, .poison, (g.core.reg r l.val).exp⟩ ∧
    ∀ a b, b < 64 → (a ≠ r ∨ b ≠ l.val) → h.core.reg a b = g.core.reg a b) ∧
  (∀ (s : State) (q : Nat) (n : Fin 64) (i : Nat), i < 1024 → s.quadPresent q = true → ∃ t, exec (.softError ⟨.accValue q n i false, false⟩) s = .next t ∧
    t = { s with accLive := t.accLive, counts := t.counts, freeCtr := t.freeCtr } ∧ ((t.acc q n.val).cell i).st = .poison ∧
    ∀ j, j ≠ i → (t.acc q n.val).cell j = (s.acc q n.val).cell j) ∧
  (∀ (s : State) (g : Gang), s.gang? g.id = some g → ∃ t h, exec (.softError ⟨.gangRecord g.id, false⟩) s = .next t ∧
    h = { g with record := if s.recordLive g then .live else .saved } ∧ Became s t h) ∧
  (∀ (s : State) (g : Gang), s.recordLive g = true ↔ ∀ c, s.crewOf g = some c → c.live = true ∧
    ∃ p, s.partOfQuad (quadOf c.coreIx) = some p ∧ (s.part p).live = c.ctx) ∧
  (∀ (s : State) (c : Crew), s.crew? c.id = some c → exec (.softError ⟨.crewRecord c.id, false⟩) s =
    .next (s.setGangs (s.gangs.map (fun g => if g.crew = some c.id then { g with record := if s.recordLive g then .live else .saved } else g)))))

/-- What arrives from other packages, and migration (R344, R366, R367, R402): a pod signal is applied if the grant takes it and is else discarded and counted at the port it came by, which the transport chooses (log entry 5); an arrival joins its slot; the owner of a page clears O, drops every translation of it, sends its 4 KiB and reports the frame; the asker puts the page into its frame, then sets ADDR and O; its completion object and BUSY end the migration, with CAUSE 0x12 when refused and 0x18 when no answer comes, either reported by a record, whose SRC is log entry 79's; an object on a missing page is reported and waited for. How the object is reached, as an engine access of context 0 at S, the kinds of its records, and the order of the checks are DEDUCED (log entry 41). -/
def Obligations.PodAndMigration : Prop :=
  (∀ (s : State) (x : PodSignal), let n := x.name.toNat % 2 ^ 14
    let g := s.grant (semKey n)
    (g.v = true → g.pod = true → g.owner = x.ctx → exec (.podSignalReceive x) s = .next (s.semSignal n x.amount.toNat)) ∧
    (¬ (g.v = true ∧ g.pod = true ∧ g.owner = x.ctx) → ∃ j, j < 12 ∧
      exec (.podSignalReceive x) s = .next { s with discarded := setAt j (s.discarded.getD j 0 + 1) s.discarded, freeCtr := s.freeCtr + 1 })) ∧
  (∀ (s : State) (x : PodArrival), (s.podSlot x = none → exec (.podBarrierArrivalReceive x) s = .next { s with podIn := s.podIn ++ [x] }) ∧
    (∀ k, s.podSlot x = some k → exec (.podBarrierArrivalReceive x) s =
      .next (if x.exited = true then s.barGone k (2 ^ 64 + x.who) else s.barArrive k (2 ^ 64 + x.who)))) ∧
  (∀ (s : State) (p : Fin 12) (up : Bool), exec (.scaleOutLinkChange p up) s = .next { s with portUp := setAt p.val up s.portUp }) ∧
  (∀ (s s' : State) (m : Migration) (f : Option Cause) (l : Loc), (∀ k, f = some k → k < 256) → canonical m.cmp = true →
    s.xlat 0 true .store .engine m.cmp = (.ok l, s') → s'.holderHit none [.glob (lineOf l.la)] [] = false →
    let t := s.endMigration m f
    t.loadNat l.la 8 = objectAfter (s.loadNat l.la 8) f ∧ (∀ a, (a < l.la ∨ l.la + 8 ≤ a) → memByte t.mem a = memByte s.mem a) ∧ t.migration = none ∧
      t.fq.waiting = s.fq.waiting ++ (match f with
        | none => []
        | some k => [(0, recordBytes [(0, 1, k), (1, 1, 2), (2, 2, 0), (4, 4, m.ctx % 4096), (8, 8, 0), (16, 8, m.va), (24, 8, m.cmp), (32, 8, 0), (40, 16, 0), (88, 8, s.tick)])])) ∧
  (∀ (s s' : State) (m : Migration) (f : Option Cause), canonical m.cmp = true → s.xlat 0 true .store .engine m.cmp = (.error cPageNotPresent, s') →
    m.st = .asked ∨ m.st = .ended f false → s.endMigration m f =
      { s'.kindRecord 0x04 cPageNotPresent 0 0 0 m.cmp accWrite 0 0 0 with migration := some { m with st := .ended f true } }) ∧
  (∀ (s : State) (m : Migration), s.migration = some m → m.st = .asked →
    exec (.migrationReceive .refused) s = .next (s.endMigration m (some 0x12)) ∧ exec .migrationTimeout s = .next (s.endMigration m (some 0x18)) ∧
    (∀ d : List Byte, let e := s.loadNat m.entry 8
      let la := frameToLoc e m.frm
      s.tokenHolder = none → (m.entry + 8 ≤ la ∨ la + 4096 ≤ m.entry) →
      ∃ u : State, exec (.migrationReceive (.page d)) s = .next (u.endMigration m none) ∧ memRead u.mem la 4096 = (List.range 4096).map (fun i => d.getD i 0) ∧
        u.loadNat m.entry 8 = takenLeaf e m.frm ∧
        (∀ a, (a < la ∨ la + 4096 ≤ a) → (a < m.entry ∨ m.entry + 8 ≤ a) → memByte u.mem a = memByte s.mem a) ∧
        (∀ t ∈ u.tlb, pageHits m.ctx m.va e t = false))) ∧
  (∀ (s : State) (a : PageAnswer), s.migration = none → exec (.migrationReceive a) s = .next s ∧ exec .migrationTimeout s = .next s) ∧
  (∀ e f : Nat, e < 2 ^ 64 → takenLeaf e f % 2 ^ 12 = e % 2 ^ 12 ∧ bitsAt (takenLeaf e f) 12 40 = bitsAt f 12 40 ∧
    ∀ i, 52 ≤ i → (takenLeaf e f).testBit i = (e.testBit i || decide (i = 54))) ∧
  (∀ (s : State) (r : PageRequest), s.givingUp = [] →
    let no := { s with podOut := s.podOut ++ [.pageRefused r.pkg r.ctx r.va] }
    (∀ c, walk s r.ctx r.va = .error c → exec (.migrationOwnerRelease r) s = .next no) ∧
    (∀ w, walk s r.ctx r.va = .ok w → ¬ (w.leaf.testBit 55 = true ∧ w.leaf.testBit 54 = true) → exec (.migrationOwnerRelease r) s = .next no) ∧
    (∀ w, walk s r.ctx r.va = .ok w → w.leaf.testBit 55 = true → w.leaf.testBit 54 = true → s.tokenHolder = none →
      let la := frameToLoc w.leaf (peFrame w.leaf)
      s.oldPieces la = false →
      (∀ i, i < 64 → s.linePoisoned (la + 64 * i) = false) →
      ∃ t, exec (.migrationOwnerRelease r) s = .next t ∧ t.loadNat w.entryLa 8 = w.leaf - 2 ^ 54 ∧
        (∀ a, (a < w.entryLa ∨ w.entryLa + 8 ≤ a) → memByte t.mem a = memByte s.mem a) ∧
        t.podOut = s.podOut ++ [.page r.pkg r.ctx r.va (memRead t.mem la 4096)] ∧ t.fq.waiting.length = s.fq.waiting.length + 1 ∧
        (∀ x ∈ t.tlb, pageHits r.ctx r.va w.leaf x = false) ∧
        (∀ b ∈ t.code, b.la / 4096 ≠ la / 4096 ∧ ∀ x ∈ s.tlb, let lo := r.va % 2 ^ 57 / 4096 * 4096
          invalMatches (if peG w.leaf then 0xFFF else r.ctx) lo (some 4096) x = true → x.fetched lo (some 4096) b.la = false) ∧ t.givingUp = []))

/-- Supply, temperature and power (R415 to R418): SAG stands from a sag to its recovery, the first counted; each full 2 degrees above 95, up to 105, takes a tenth off QLIM and DLIM, above 105 refresh is halved, above 125 the part trips, which clears it as a power-on reset does but keeps the counters, the trip counted; while the package draws more than 2,400 W the clocks go down. How many steps of 25 MHz a die gives up is a free value (log entry 5). The formula of the limits and of the refresh interval, the size of the step, what a second sag does and the counters stored at a trip are the model's reading (log entry 58). -/
def Obligations.PowerManagement : Prop :=
  (∀ (s : State) (d : Fin 4), d.val < s.dies.length →
    (∃ t, exec (.sagRecovery d) s = .next t ∧ (t.diePower d.val).sag = false ∧ t.counts = s.counts ∧ ∀ k : Fin 4, k ≠ d → (t.diePower k.val).sag = (s.diePower k.val).sag) ∧
    ((s.diePower d.val).sag = true → exec (.supplySag d) s = .next s) ∧
    ((s.diePower d.val).sag = false → ∃ t, exec (.supplySag d) s = .next t ∧ (t.diePower d.val).sag = true ∧ t.counts = (s.count (ctrSag d.val) 1).counts ∧
      ∀ k : Fin 4, k ≠ d → (t.diePower k.val).sag = (s.diePower k.val).sag) ∧
    (∀ c : Nat, ∃ t, exec (.temperatureChange d c) s = .next t ∧ (125 < c → .thermalTrip d ∈ t.due) ∧
      let n := min 5 ((c - 95) / 2)
      let x := t.diePower d.val
      x.temp = c ∧ x.qlim = 12000 - 1200 * n ∧ x.dlim = 640000 - 64000 * n ∧ x.wcrew = 4000 ∧
      x.refr = min (if 105 < c then 500 else 1000) (s.refCeilOf d.val) ∧
      x.clk = s.fuses.dclk.getD d.val 850 - 25 * (x.tsteps + x.psteps) ∧ (c ≤ 105 → x.tsteps = 0) ∧
      (105 < c → 450 ≤ s.fuses.dclk.getD d.val 850 → 1 ≤ x.tsteps))) ∧
  (∀ (s : State) (w : Nat), s.dies.length = 4 → ∃ t, exec (.packagePowerLimit w) s = .next t ∧ t.powerLimited = decide (2400 < w) ∧
    ∀ d : Fin 4, let x := s.diePower d.val
      let y := t.diePower d.val
      y.clk = s.fuses.dclk.getD d.val 850 - 25 * (y.tsteps + y.psteps) ∧ y.tsteps = x.tsteps ∧ y.qlim = x.qlim ∧ y.dlim = x.dlim ∧
      (w ≤ 2400 → y.psteps = 0) ∧ (2400 < w → 25 ≤ x.clk → x.psteps < y.psteps)) ∧
  (∀ (s : State) (d : Fin 4), s.refCeilOf d.val = (let r := s.fuses.retention.getD d.val 2000; if r < 1000 then r / 2 else 1000)) ∧
  (∀ (s : State) (d : Fin 4), ∃ t, exec (.thermalTrip d) s = .next t ∧ t.counts = (s.count ctrTrip 1).counts ∧ t.countsNv = t.counts ∧
    t.tick = 0 ∧ t.epoch = min (s.epoch + 1) 0xFFFFFFFF ∧ t.flash = s.flash ∧ t.fuses = s.fuses ∧ t.crews = [] ∧ t.items = [] ∧ t.poisoned = [] ∧
    (imageOk s.fuses.keyHash s.flash = false → t.phase = .recovery ∧ t.mem = []) ∧
    (s.fuses.broken = [] → (∀ k : Fin 4, (t.diePower k.val).temp = (s.diePower k.val).temp) ∧ (imageOk s.fuses.keyHash s.flash = true → t.phase = .running)))

/-- Reset and boot (R407 to R411, R418): power-on reset clears the part, moves the epoch on and brings back the stored counters; with a valid flash image its body and the boot tables stand in memory and the cox cores run at its entry, without one the part is in recovery mode; a warm reset keeps the memory and stores the counters, and takes a staged update; a loss of power loses what is not stored. A step of the boot that fails leaves the part in recovery mode; each die's interval and limits follow its retention and its present temperature. Memory that nothing has written reads as 0 and a warm reset keeps the tick count (the model's choices, log entry 2); a flash whose read-back fails holds no image (log entry 59); the limits at boot follow the sensors' last report by log entry 58's formula. -/
def Obligations.ResetAndBoot : Prop :=
  (∀ s : State, ∃ t, exec .powerOnReset s = .next t ∧ t.tick = 0 ∧ t.epoch = min (s.epoch + 1) 0xFFFFFFFF ∧ t.counts = s.countsNv ∧ t.countsNv = s.countsNv ∧
    t.flash = s.flash ∧ t.fuses = s.fuses ∧ t.crews = [] ∧ t.items = [] ∧ t.poisoned = [] ∧
    (imageOk s.fuses.keyHash s.flash = false → t.phase = .recovery ∧ t.mem = [] ∧ t.gangs = State.reset.gangs) ∧
    (∀ k ∈ s.fuses.broken, k ∈ [1, 2, 3, 5, 6, 7] → t.phase = .recovery) ∧
    (s.fuses.broken = [] → ∀ d : Fin 4, let n := min 5 (((s.diePower d.val).temp - 95) / 2)
      let x := t.diePower d.val
      x.temp = (s.diePower d.val).temp ∧ x.qlim = 12000 - 1200 * n ∧ x.dlim = 640000 - 64000 * n ∧
      x.refr = min (if 105 < x.temp then 500 else 1000) (s.refCeilOf d.val) ∧ x.clk ≤ s.fuses.dclk.getD d.val 850) ∧
    (imageOk s.fuses.keyHash s.flash = true → s.fuses.broken = [] → t.phase = .running ∧ t.ctxtab = 0x8001 ∧ t.fwver = flashField s.flash 4 4 ∧
      memRead t.mem 0x1000000 (imageLen s.flash) = imageBody s.flash ∧
      (∀ k : Fin 4, t.loadNat (0x8000 + [0, 0x8000, 0x9000, 0xA000].getD k.val 0) 8 = [0x10001, 0x11001, 0x12001, 0x13001].getD k.val 0) ∧
      (∀ i : Fin 32, t.loadNat (0x13000 + 8 * i.val) 8 = bootLeaf i.val) ∧
      (∀ k : Fin 24, (t.coxOf k.val).started = true ∧ ∃ g, t.gang? k.val = some g ∧ g.core.sreg 0 = BitVec.ofNat 64 k.val ∧ g.core.sreg 1 = 0x1000 ∧
        g.core.subs = [⟨1, BitVec.ofNat 64 (0x1000000 + imageEntry s.flash), .ready, 0⟩]))) ∧
  (∀ s : State, s.phase ≠ .updating → s.loadNat 0xF00000 8 ≠ 1 → ∃ t, exec .warmReset s = .next t ∧ t.tick = s.tick ∧ t.counts = s.counts ∧
    t.countsNv = s.counts ∧ t.epoch = min (s.epoch + 1) 0xFFFFFFFF ∧ t.crews = [] ∧ t.items = [] ∧
    (∀ a, 0x2000000 ≤ a → memByte t.mem a = memByte s.mem a) ∧
    (imageOk s.fuses.keyHash s.flash = true → s.fuses.broken = [] → t.phase = .running) ∧
    (imageOk s.fuses.keyHash s.flash = false → t.phase = .recovery ∧ t.mem = s.mem)) ∧
  (∀ s : State, s.phase ≠ .updating → s.loadNat 0xF00000 8 = 1 → s.linePoisoned 0xF00000 = false → s.fuses.broken = [] →
    let img := memRead s.mem 0x2000000 (512 + imageLen (memRead s.mem 0x2000000 16))
    ∃ t, exec .warmReset s = .next t ∧
      (imageLen img ≤ 16777216 → imageOk s.fuses.keyHash img = true → t.phase = .updating ∧ t.updateImage = img ∧ t.loadNat 0xF00000 8 = 0) ∧
      (imageOk s.fuses.keyHash img = false → t.updfail = true ∧ t.flash = s.flash)) ∧
  (∀ s : State, s.phase = .updating → ∃ t, exec .warmReset s = .next t ∧ t.updateImage = [] ∧
    (4 ∉ s.fuses.broken → t.flash = s.updateImage) ∧ (4 ∈ s.fuses.broken → t.flash = [] ∧ t.phase = .recovery) ∧
    (imageOk s.fuses.keyHash s.updateImage = true → s.fuses.broken = [] → t.phase = .running)) ∧
  (∀ s : State, ∃ t, exec .powerLoss s = .next t ∧ t.phase = .off ∧ t.mem = [] ∧ t.counts = s.countsNv ∧ t.epoch = s.epoch ∧
    (s.phase ≠ .updating → t.flash = s.flash) ∧ (s.phase = .updating → t.flash = []))

/-- The management port (R404 to R406, R412, R413, R418, R419): a request counts when its version, TAG, epoch and number are good and is else dropped; outside its mode it is refused with status 1, malformed ones with status 2, and any other operation with status 2 in every phase; IDENT answers version 1 whatever its TAG and SEQ; each operation answers or does what Table 19.4 says; an answer has bit 15 of its OP set, its request's SEQ, and a TAG over its own header and payload; the port answers nothing while the part is off or before the new boot epoch is stored; a debug read of a crew's range shows the allocation that holds the word, or FREE where none does. The order of the checks and the statuses of other operations (log entry 61), RESET while an update is being written (log entry 59) and words past 12 MiB (log entry 62) are the model's choices. The layout of a PORTCFG payload is log entry 40's; codeword counts, and the firmware version while none runs, are free values (log entry 5); the layout of the other answers is log entry 82's; what a debug read finds outside the crews' spaces is log entry 81's. -/
def Obligations.ManagementPort : Prop :=
  (∀ (x : Datagram) (s : State),
    let good (op : Nat) : Prop := s.phase ≠ .off ∧ s.phase ≠ .booting ∧ x.ver = 1 ∧ x.tag = (hmac384 s.fuses.mgmtKey (coveredBytes x.ver op x.len x.seq x.payload)).take 16 ∧
      s.epoch ≠ 0xFFFFFFFF ∧ x.seq / 2 ^ 32 = s.epoch ∧ s.lastSeq < x.seq % 2 ^ 32
    let u : State := { s with lastSeq := x.seq % 2 ^ 32 }
    let n := x.payload.length
    let fits : Prop := x.len = n ∧ n ≤ 8192
    let f (off k : Nat) := ofBytesLE ((x.payload.drop off).take k)
    let answers (i : Instr) (op k : Nat) (b : MgmtBody) : Prop := exec i s = .next (u.reply op x k b)
    (∀ p ∈ [(Instr.portcfg x, 0x10), (.portstat x, 0x11), (.counters x, 0x20), (.devinfo x, 0x21), (.recover x, 0x30), (.reset x, 0x31), (.dbgread x, 0x40)],
      (¬ good p.2 → exec p.1 s = .next s) ∧
      (good p.2 → p.2 ≠ 0x30 → p.2 ≠ 0x31 → s.phase ≠ .running → answers p.1 p.2 1 .none) ∧
      (good p.2 → p.2 ≠ 0x30 → s.phase = .running → ¬ fits → answers p.1 p.2 2 .none)) ∧
    (s.phase = .off ∨ s.phase = .booting ∨ x.ver ≠ 1 → exec (.ident x) s = .next s) ∧
    (s.phase ≠ .off → s.phase ≠ .booting → x.ver = 1 → ∃ (k : Nat) (v : State), exec (.ident x) s = .next (v.reply 1 x 0 (.ident s.fuses.order s.pkg.toNat k s.phase s.epoch)) ∧
      v = { s with freeCtr := v.freeCtr } ∧ (s.phase = .running → k = s.fwver)) ∧
    (good 0x10 → s.phase = .running → fits → n = 0 → answers (.portcfg x) 0x10 0 (.ports s.pkg.toNat s.portAddrs)) ∧
    (good 0x10 → s.phase = .running → fits → n = 196 → f 0 4 < 1024 → ∃ v : State, exec (.portcfg x) s = .next (v.reply 0x10 x 0 (.ports (f 0 4) v.portAddrs)) ∧
      v.pkg = BitVec.ofNat 32 (f 0 4) ∧ v.portAddrs = runs 16 12 (x.payload.drop 4) ∧ v.loadNat 0x1004 4 = f 0 4 ∧ v.answers = s.answers) ∧
    (good 0x11 → s.phase = .running → fits → ∃ fec, fec.length = 12 ∧
      exec (.portstat x) s = .next (State.reply { u with freeCtr := s.freeCtr + 24 } 0x11 x 0 (.stats s.portUp fec s.discarded))) ∧
    (good 0x20 → s.phase = .running → fits → answers (.counters x) 0x20 0 (.counts s.counts)) ∧
    (good 0x21 → s.phase = .running → fits → answers (.devinfo x) 0x21 0 (.info (memRead s.mem 0x1000 512))) ∧
    (good 0x30 → s.phase ≠ .recovery → answers (.recover x) 0x30 1 .none) ∧
    (good 0x30 → s.phase = .recovery → fits → 12 ≤ n → n ≤ 8188 → f 0 8 + (n - 12) ≤ 0x2000000 → ∃ v : State, v = { u with mem := v.mem, poisoned := v.poisoned } ∧
      memRead v.mem (0x2000000 + f 0 8) (n - 12) = x.payload.drop 12 ∧
      (∀ a, (a < 0x2000000 + f 0 8 ∨ 0x2000000 + f 0 8 + (n - 12) ≤ a) → memByte v.mem a = memByte s.mem a) ∧
      (f 8 4 = 0 → exec (.recover x) s = .next (v.reply 0x30 x 0 .none)) ∧
      (f 8 4 = 1 → let img := memRead v.mem 0x2000000 (f 0 8 + (n - 12))
        (imageOk s.fuses.keyHash img = true → exec (.recover x) s = exec .warmReset (State.reply { v with flash := img } 0x30 x 0 .none)) ∧
        (imageOk s.fuses.keyHash img = false → exec (.recover x) s = .next (v.reply 0x30 x 1 .none)))) ∧
    (good 0x31 → fits → x.payload.head? = some 0 →
      (s.phase ≠ .updating → exec (.reset x) s = exec .warmReset (u.reply 0x31 x 0 .none)) ∧
      (s.phase = .updating → exec (.reset x) s = exec .warmReset { u.reply 0x31 x 0 .none with
        flash := if 4 ∈ s.fuses.broken then [] else s.updateImage, updateImage := [], phase := .booting })) ∧
    (good 0x31 → fits → x.payload.head? = some 1 → ∃ t, exec (.reset x) s = .next t ∧ t.phase = .recovery ∧ t.mem = s.mem ∧ t.crews = [] ∧
      t.flash = if s.phase = .updating then (if 4 ∈ s.fuses.broken then [] else s.updateImage) else s.flash) ∧
    (good 0x31 → fits → (∀ b, x.payload.head? = some b → 2 ≤ b.toNat) → answers (.reset x) 0x31 2 .none) ∧
    (good 0x40 → s.phase = .running → fits →
      (n ≠ 12 ∨ 2 ≤ f 3 1 ∨ f 4 4 % 4 ≠ 0 ∨ 12582912 ≤ f 4 4 ∨ f 8 4 = 0 ∨ 1024 < f 8 4 → answers (.dbgread x) 0x40 2 .none) ∧
      (n = 12 → f 3 1 < 2 → f 4 4 % 4 = 0 → f 4 4 < 12582912 → 0 < f 8 4 → f 8 4 ≤ 1024 →
        let q := f 0 1 * 64 + f 1 1
        let still := f 0 1 < 4 ∧ f 1 1 < 64 ∧ f 2 1 < 4 ∧ s.quadPresent q = true ∧ ∃ p, s.partOfQuad q = some p ∧ (s.part p).st = .halted
        (still → ∃ (ws : List (Word32 × Nat)) (v : State), exec (.dbgread x) s = .next (v.reply 0x40 x 0 (.words (ws.map (fun w => w.1)) (ws.map (fun w => w.2)))) ∧
          v = { u with freeCtr := v.freeCtr } ∧ ws.length = f 8 4 ∧
          ∀ i, i < f 8 4 → ∃ w, ws[i]? = some w ∧ w.2 < 4 ∧ (2 ≤ w.2 → w.1 = 0) ∧
            (∀ y, s.crewWordAt (4 * q + f 2 1) (f 3 1 == 0) (f 4 4 + 4 * i) = some y → w = y) ∧
            (s.crewWordAt (4 * q + f 2 1) (f 3 1 == 0) (f 4 4 + 4 * i) = none →
              ((∀ c ∈ s.crews, c.coreIx = 4 * q + f 2 1 → c.live ≠ (f 3 1 == 0)) ∨ 12582912 ≤ f 4 4 + 4 * i → w = (0, 3)) ∧
              (w = (0, 3) ∨ ∃ k, w = s.unitShown (4 * q + f 2 1) (f 3 1 == 0) k))) ∧
        (¬ still → answers (.dbgread x) 0x40 1 .none))) ∧
    (∀ op : Nat, op < 2 ^ 16 → op ∉ [0x01, 0x10, 0x11, 0x20, 0x21, 0x30, 0x31, 0x40] → (¬ good op → exec (.mgmtOtherOp op x) s = .next s) ∧
      (good op → answers (.mgmtOtherOp op x) op 2 .none))) ∧
  (∀ (s : State) (op k : Nat) (x : Datagram) (b : MgmtBody), ∃ a, s.reply op x k b = { s with answers := s.answers ++ [a] } ∧
    a.ver = 1 ∧ a.op = op % 2 ^ 15 + 0x8000 ∧ a.seq = x.seq ∧ a.status = k ∧ a.body = b ∧ ∃ p, a.len = p.length ∧ p.take 4 = bytesLE 4 k ∧
      a.tag = (hmac384 s.fuses.mgmtKey (coveredBytes 1 a.op a.len x.seq p)).take 16 ∧ (b = .none → p.length = 4) ∧ (∀ d, b = .info d → p = bytesLE 4 k ++ d) ∧
      ∀ w st, b = .words w st → p = bytesLE 4 k ++ w.flatMap (fun y => bytesLE 4 y.toNat) ++ st.map (fun y => BitVec.ofNat 8 y)) ∧
  (∀ (s : State) (core addr : Nat) (live : Bool),
    let here (c : Crew) : Prop := c ∈ s.crews ∧ c.coreIx = core ∧ c.live = live
    let ranged (c : Crew) : Prop := here c ∧ c.base ≤ addr ∧ addr < c.base + c.desc.crewBytes
    (∀ w, s.crewWordAt core live addr = some w → ∃ c, ranged c ∧ w = c.look s.tick (addr - c.base)) ∧
    ((∃ c, ranged c) → s.crewWordAt core live addr ≠ none) ∧
    (∀ k, s.unitShown core live k = (0, 3) ∨ ∃ c j, here c ∧ (s.unitShown core live k = c.tileShown j ∨
      ∃ g, g ∈ c.gangs.filterMap s.gang? ∧ (s.unitShown core live k = s.regShown g j ∨ s.unitShown core live k = s.privShown g c j)))) ∧
  (∀ (c : Crew) (tick off : Nat), let held (a : Alloc) : Prop := a ∈ c.allocs ∧ a.holds off 4 = true
    ((∃ a, held a) → ∃ a, held a ∧ c.look tick off = a.look tick off) ∧ ((¬ ∃ a, held a) → c.look tick off = (0, 3))) ∧
  (∀ (s : State) (g : Gang) (r l : Nat), r < s.regsOf g → l < s.widthOf g → let x := g.core.reg r l
    spWf g.core.regFill g.core.regs = true →
    let late := s.regCode g % 8 ≠ 0 ∧ x.exp ≤ s.tick
    (x.st = .poison → s.regShown g (r + s.regsOf g * l) = (x.data, 1)) ∧ (x.st = .live → ¬ late → s.regShown g (r + s.regsOf g * l) = (x.data, 0)) ∧
    (x.st ≠ .poison → late → s.regShown g (r + s.regsOf g * l) = if s.regCode g / 8 % 2 = 1 then (0, 2) else (0xFFFFFFFF, 1))) ∧
  (∀ (a : Alloc) (tick off : Nat), ¬ (a.code % 8 ≠ 0 ∧ a.exp ≤ tick) → let w := cellAt a.fill a.cells (off / 4)
    (w.st = .live → a.look tick off = (w.data, 0)) ∧ (w.st = .poison → a.look tick off = (w.data, 1)) ∧ (w.st = .expired → a.look tick off = (0, 2)))

/-- Guards (R29, R155): an instruction guarded off in every active lane takes the checks of its encoding and registers as any other, and inside an explicit chunk a failed check aborts the chunk with FAULT; past them its group goes to the next instruction and nothing else changes, whatever chunk is open and however many sub-gangs the gang has; at the end of the innermost loop it takes the loop step. For every instruction of the table but ESCAPE, which has no guard: each is issued under its guard and its checks; those of some instructions of every family are written out. -/
def Obligations.GuardedOff : Prop :=
  let is (i : Instr) (n : Nat) (g : Guard) (sp : Env → Spec) : Prop := ∃ body, ∀ s, exec i s = issue n g sp body s
  let off (i : Instr) (n : Nat) (g : Guard) (sp : Env → Spec) : Prop := ∀ (s : State) (e : Env), s.env n g = some e →
    (e.awaits (sp e) = true → StallStep i s s e .interlock) ∧
    (∀ t, e.awaits (sp e) = false → e.check (sp e) = some t →
      (e.noExplicit → TrapStep i s e t) ∧
      (∀ c x, e.g.chunk = some c → c.expl = some x → e.on = 0 → AbortStep i s e c x 0 t.cause stFault)) ∧
    (e.awaits (sp e) = false → e.check (sp e) = none → e.on = 0 →
      let x := { e.x with pc := e.nextPc, wait := .ready, waited := 0 }
      let top := e.core.loop (e.core.ldepth - 1)
      let goes (k : GangCore) (l : List SubGang) : Prop := ∃ t, exec i s = .next t ∧ Became s t { e.g with core := { k with subs := l } }
      (e.alone = true → goes e.core [x]) ∧
      (∀ before after, e.core.subs = before ++ e.x :: after → e.x.wait = .ready → e.core.fams = [] → e.core.joinDone = none →
        (∀ y ∈ before ++ after, y.lanes &&& e.x.lanes = 0 ∧ (y.atMeeting = true → joinMaskOf y ≠ none)) → (e.core.ldepth ≠ 0 → e.nextPc ≠ top.stop) →
        goes e.core (before ++ x :: after)) ∧
      (e.core.subs = [e.x] → e.x.wait = .ready → e.core.fams = [] → e.core.ldepth ≠ 0 → e.nextPc = top.stop → top.lmask = e.x.lanes → top.lc ≠ 1 →
        goes (e.core.setLoop (e.core.ldepth - 1) { top with lc := top.lc - 1 }) [{ x with pc := top.start }]))
  (∀ i, encode i ≠ [] → (∀ w, i ≠ .escape w) → ∃ g sp, is i i.size g sp) ∧
  (∀ i n g sp, is i n g sp → off i n g sp) ∧
  (∀ o : AluM IntTy MSrc Unit Bool Unit Unit, let w := regsFor (intBits o.ty)
    let sp := aluSpec o.g (.dst o.d w) [(1, o.a, w), (2, o.b, w)] []
    off (.iadd o) 12 o.g sp ∧ off (.isub o) 12 o.g sp ∧ off (.imul o) 12 o.g sp) ∧
  (∀ o : AluB NTy, off (.not o) 8 o.g (aluSpec o.g (.dst o.d (regsFor (nBits o.ty))) [] [(1, o.a, regsFor (nBits o.ty))])) ∧
  (∀ o : AluM FltTy MSrc Unit Bool Rnd Unit, let w := regsFor (fltFmt o.ty).width
    let sp := aluSpec o.g (.dst o.d w) [(1, o.a, w), (2, o.b, w)] []
    off (.fadd o) 12 o.g sp ∧ off (.fmul o) 12 o.g sp) ∧
  (∀ o : AluM HTy MSrc Unit Bool Rnd Bool, off (.hadd2 o) 12 o.g (aluSpec o.g (.dst o.d 1) [(1, o.a, 1), (2, o.b, 1)] [])) ∧
  (∀ o : AluM NumTy Unit Unit Bool Rnd NumTy, off (.cvt o) 12 o.g (aluSpec o.g (.dst o.d (regsFor (numKind o.ty).width)) [(1, o.a, regsFor (numKind o.xf).width)] [])) ∧
  (∀ o : AluM Unit Unit Unit Bool Unit Unit, off (.frcp o) 12 o.g (aluSpec o.g (.dst o.d 1) [(1, o.a, 1)] [])) ∧
  (∀ o : AluM W32Ty MSrc Unit Unit Unit Unit, off (.lgcDiv o) 12 o.g (lgcSpec o.g o.d 1 [(1, o.a, 1), (2, o.b, 1)])) ∧
  (∀ o : CmpOps IntTy ICond, off (.icmp o) 8 o.g (fun _ => cmpSpec o.g o.a o.b (regsFor (intBits o.ty)))) ∧
  (∀ o : Pred2, off (.pand o) 8 o.g (fun _ => { guard := o.g })) ∧
  (∀ o : ShflOps, let w := regsFor (nBits o.ty)
    off (.shflIdx o) 12 o.g (fun e => { guard := o.g, noCox := true, coll := true, fieldsOk := e.width == 64 || o.q.val != 5, uses := [.dst o.d w, useR 1 o.a w, useR 2 o.b 1], marks := markOf o.a.src o.a.last w ++ markOf o.b.src o.b.last 1 })) ∧
  (∀ o : BraOps, off (.bra o) 8 o.g (fun _ => { guard := o.g })) ∧
  (∀ g : Guard, off (.exit g) 8 g (fun _ => { guard := g }) ∧ off (.nop g) 8 g (fun _ => { guard := g }) ∧ off (.lpbrk g) 8 g (fun _ => { guard := g }) ∧
    off (.chkEnd g) 8 g (fun _ => { guard := g, chunk := .bracket }) ∧ off (.eret g) 8 g (fun _ => { guard := g, priv := true, chunk := .own })) ∧
  (∀ o : LpOps, off (.lp o) 12 o.g (fun _ => { guard := o.g, uses := [.uni 1 o.a] })) ∧
  (∀ o : GA, off (.join o) 8 o.g (fun _ => { guard := o.g, uses := [.sreg 1 o.a] }) ∧ off (.chkAbort o) 8 o.g (fun _ => { guard := o.g, uses := [.uni 1 o.a], chunk := .bracket })) ∧
  (∀ o : ChkBeginOps, off (.chkBegin o) 12 o.g (fun _ => { guard := o.g, uses := [.dstS o.d], chunk := .before })) ∧
  (∀ o : BarOps, off (.barSync o) 8 o.g (fun _ =>
    { guard := o.g, noCox := true, coll := true, uses := if o.scope = .gang then [] else [.uni 1 o.a], chunk := .after })) ∧
  (∀ o : WaitOps, off (.wait o) 12 o.g (fun _ => { guard := o.g })) ∧
  (∀ o : EvbindOps, off (.evbind o) 12 o.g (fun _ => { guard := o.g, uses := [.uni 1 o.a, .uni 2 o.b, .uni 3 o.c] })) ∧
  (∀ o : GAB, let sp : Spec := { guard := o.g, uses := [.uni 1 o.a, .uni 2 o.b] }
    off (.mbxPost o) 8 o.g (fun _ => sp) ∧ off (.semSig o) 8 o.g (fun _ => sp) ∧ off (.cmpSet o) 8 o.g (fun _ => sp) ∧ off (.tskEnq o) 8 o.g (fun _ => { sp with chunk := .after })) ∧
  (∀ o : StOps Unit, off (.stg o) 12 o.g (fun e =>
    { guard := o.g, uses := addrUses e o.a o.b 2 ++ [stUse e (stBytes o.sz) o.c],
      marks := addrMarks o.a o.b 2 ++ markOf o.c.src o.c.last (memRegs (stBytes o.sz)), ctr := .st })) ∧
  (∀ o : LdOps Unit, off (.ldg o) 12 o.g (fun e => { guard := o.g, uses := ldDst e o.d (ldBytes o.sz) :: addrUses e o.a o.b 2, marks := addrMarks o.a o.b 2, ctr := .ld })) ∧
  (∀ o : AtomOps Scope, off (.atomg o) 12 o.g (fun e => { guard := o.g, uses := atomUses e o.sel o.d o.a o.b o.c 2, marks := atomMarks o.sel o.a o.b o.c 2, ctr := .ld })) ∧
  (∀ o : GDAB, off (.oalloc o) 8 o.g (fun _ => { guard := o.g, noCox := true, uses := [.dstS o.d, .uni 1 o.a, .uni 2 o.b] })) ∧
  (∀ o : CpLinOps, off (.cpLin o) 16 o.g (cmdSpec o.g [(1, o.a), (2, o.b), (3, o.c), (5, o.k)] (fun _ => true))) ∧
  (∀ o : GA, off (.nmrFlush o) 8 o.g (cmdSpec o.g [(1, o.a)] (fun _ => true))) ∧
  (∀ o : TzeroOps, off (.tzero o) 8 o.g (fun _ => { guard := o.g, noCox := true, ctr := .tl, uses := [.tile 0 o.m.val] })) ∧
  (∀ o : MmaOps, off (.mma o) 12 o.g (fun _ => { guard := o.g, noCox := true, coll := true, ctr := .tl, uses := [.tile 1 o.a.val, .tile 2 o.b.val] })) ∧
  (∀ o : ImmOps, off (.trap o) 12 o.g (fun _ => { guard := o.g }) ∧ off (.sysc o) 12 o.g (fun _ => { guard := o.g })) ∧
  (∀ o : CsrrOps, off (.csrr o) 12 o.g (csrSpec o.g o.csr false [.dstS o.d])) ∧
  (∀ o : CsrwOps, off (.csrw o) 12 o.g (csrSpec o.g o.csr true [.uni 1 o.a])) ∧
  (∀ o : GABC, off (.tlbinv o) 8 o.g (fun _ => { guard := o.g, priv := true, uses := [.uni 1 o.a, .uni 2 o.b, .uni 3 o.c], chunk := .own })) ∧
  (∀ (o : GDAB) (i : Instr), i = .haltStop o ∨ i = .haltRun o → off i 8 o.g (haltSpec o))

/-- A step runs the decoded instruction (R132, R134, R153, R154): a chosen group that stands ready fetches the 32-byte block of its PC, from the loop buffer where that holds it (R217, log entry 72), and executes the instruction that its bytes decode to; a struck gang record traps in its place; where a chunk of its gang has ended before its instruction, that chunk is taken first and the group then issues, the same cycle's choice standing (R347, R349, log entry 83); steps that are due, and steps of the agenda, run in their turn, which is the model's order (log entry 1); before a core's cycle a group whose next instruction would stall meets its stall (R347, log entry 83). -/
def Obligations.StepRunsDecoded : Prop :=
  (∀ (s : State) (r : GroupRef) (rest : List GroupRef) (g : Gang) (x : SubGang), s.due = [] → s.issue = r :: rest →
    let s0 := s.setIssue rest
    s.gang? r.gang = some g → g.sub? r.lead.val = some x → s0.groupReady g x = true →
    (∀ (blk : List Byte) (u : State), s0.fetchBlock g x = (.ok blk, u) → ∃ h, u.gang? r.gang = some h ∧ h = { g with lbuf := h.lbuf } ∧
      (∀ i : Instr, g.record = .sound → readInstr g.isCox (u.supOf g) (x.pc.toNat % 32) blk = .ok i →
        let o := exec i (u.setCur (some ⟨g.id, toLane (lowestLane x.lanes)⟩) blk)
        (∀ t, o = .next t → step s = .next (s0.keepChosen r t)) ∧ ((∀ t, o ≠ .next t) → step s = o)) ∧
      (∀ t : Trap, g.record = .sound → readInstr g.isCox (u.supOf g) (x.pc.toNat % 32) blk = .error t → step s = .next (s0.keepChosen r (u.raiseAt h x blk t))) ∧
      (g.record ≠ .sound → step s = .next (s0.keepChosen r (u.raiseAt h x blk (Trap.plain cUncorrectable))))) ∧
    (∀ (t : Trap) (u : State), s0.fetchBlock g x = (.error t, u) → step s = .next (s0.keepChosen r (u.raiseAt g x [] t)))) ∧
  (∀ (s t : State) (r : GroupRef) (g h : Gang), s.gang? r.gang = some g → t.gang? r.gang = some h →
    let ended : Prop := ∃ x y, g.sub? r.lead.val = some x ∧ h.sub? r.lead.val = some y ∧ y.wait = .ready ∧ y.pc = x.pc ∧ g.closing = false ∧ h.closing = true ∧
      g.chunk.map (·.count) = h.chunk.map (·.count)
    (ended → s.keepChosen r t = t.setIssue (r :: t.issue)) ∧ (¬ ended → s.keepChosen r t = t)) ∧
  (∀ (s : State) (r : GroupRef) (rest : List GroupRef) (g : Gang) (x : SubGang), s.due = [] → s.issue = r :: rest → s.gang? r.gang = some g →
    g.sub? r.lead.val = some x →
    (x.wait = .ready → s.gangRuns g = true → g.closing = true → step s = .next (s.chunkStep r.gang [] 0)) ∧
    (g.closing = false → s.groupReady g x = false → step s = .next (s.setIssue rest))) ∧
  (∀ (s : State) (g : Gang) (x : SubGang) (b : LoopBlock), canonical x.pc.toNat = true → g.buffered x.pc = some b → s.fetchBlock g x = (.ok b.bytes, s)) ∧
  (∀ (s s' : State) (g : Gang) (x : SubGang) (l : Loc), canonical x.pc.toNat = true → g.buffered x.pc = none →
    s.xlat (s.ctxOf g) (s.supOf g) .fetch .lane (x.pc.toNat - x.pc.toNat % 32) = (.ok l, s') →
    (∀ b ∈ s'.cachedCode g l.la, b.bytes = memRead s.mem l.la 32) → s'.linePoisoned l.la = false →
    ∃ u, s.fetchBlock g x = (.ok (memRead s.mem l.la 32), u) ∧ u = { s' with code := u.code, gangs := u.gangs } ∧ (∀ k, k ≠ g.id → u.gang? k = s.gang? k) ∧
      (s.gang? g.id = some g → u.gang? g.id = some (match g.bodyOf x.pc with
        | some b => { g with lbuf := g.lbuf ++ [⟨b, x.pc.toNat - x.pc.toNat % 32, l.la, memRead s.mem l.la 32, false⟩] }
        | none => g))) ∧
  (∀ (cox sup : Bool) (o : Nat) (blk : List Byte) (i : Instr) (n : Nat), let w0 := word0At (blk.drop o)
    let opc := bitsAt w0 2 8
    (decode (blk.drop o) = .ok (i, n) → o + n ≤ 32 → opc < 0xF0 → (cox = true → coxExcluded opc = false) →
      (sup = false → sysOnly opc = false ∧ csrBreaks opc (wordAt (blk.drop o) 2) = false) → readInstr cox sup o blk = .ok i) ∧
    (0xF0 ≤ opc → readInstr cox sup o blk = .ok (.escape (BitVec.ofNat 64 w0))) ∧
    (opc < 0xF0 → w0 % 4 = 0 → readInstr cox sup o blk = .error (Trap.plain cIllegalEncoding)) ∧
    (opc < 0xF0 → w0 % 4 ≠ 0 → 32 < o + placeLen w0 → readInstr cox sup o blk = .error (Trap.plain cFetchBoundary))) ∧
  (∀ (s : State) (i : Instr) (r : List Instr), s.due = i :: r → s.beforeCycle i = none → step s = exec i (s.setDue r)) ∧
  (∀ (s : State) (i : Instr) (r : List Instr), s.due = [] → s.issue = [] → s.agenda = i :: r →
    (encode i = [] → s.phase ≠ .off → s.beforeCycle i = none → step s = exec i (s.setAgenda r)) ∧ (encode i ≠ [] → step s = .next (s.setAgenda r))) ∧
  (∀ (s : State) (i : Instr) (r : List Instr), s.due = [] → s.issue = [] → s.agenda = [] → s.auto = i :: r → s.beforeCycle i = none → step s = exec i (s.setDue r)) ∧
  (∀ (s : State) (i : Instr), (∀ core, i ≠ .issueCycle core) → s.beforeCycle i = none) ∧
  (∀ (s : State) (core : Nat) (r : List Instr), s.due = .issueCycle core :: r →
    ((∀ c ∈ s.cands core, s.wouldStall ⟨c.gang, toLane c.lead⟩ = false) → step s = exec (.issueCycle core) (s.setDue r)) ∧
    ((∃ c ∈ s.cands core, s.wouldStall ⟨c.gang, toLane c.lead⟩ = true) → ∃ c ∈ s.cands core, s.wouldStall ⟨c.gang, toLane c.lead⟩ = true ∧
      step s = s.issueGroup ⟨c.gang, toLane c.lead⟩)) ∧
  (∀ (s : State) (r : GroupRef), s.wouldStall r = true ↔ ∃ g t h, s.gang? r.gang = some g ∧ s.issueGroup r = .next t ∧ t.gang? r.gang = some h ∧
    stoppedAt g h r.lead.val = true) ∧
  (∀ s : State, s.due = [] → s.issue = [] → s.agenda = [] → s.auto = [] → step s = exec .retentionTick s)

/-- The part right after reset (R62, R310, R312, R331, R407, R408, Tables 14.1, 14.5, 14.6, 14.9): the tick count is 0; a cox core has one lane and, in its registers, the Reset values; no crew, queue entry, grant or waiting record exists; every partition is halted without blocks. That memory lists nothing, in its canonical form, is the model's (log entry 2). -/
def Obligations.Reset : Prop :=
  let s := State.reset
  Memory.wf s.mem = true ∧ s.tick = 0 ∧ s.crews = [] ∧ s.items = [] ∧ s.cmds = [] ∧ s.reqs = [] ∧ s.tokenHolder = none ∧ s.grants = [] ∧
  s.fq.cap = 5 ∧ s.fq.base = 0 ∧ s.fq.head = 0 ∧ s.fq.tail = 0 ∧ s.fq.waiting = [] ∧ s.ctxtab = 0 ∧ s.psel = 0 ∧ s.grsel = 0 ∧ s.mgctl = 0 ∧
  s.pkg = 0xFFFFFFFF ∧ s.phase = .booting ∧
  (∀ q : Fin 64, (s.queue q.val).entries = [] ∧ (s.queue q.val).en = false) ∧
  (∀ p : Fin 32, (s.part p.val).blk = 0 ∧ (s.part p.val).live = 0 ∧ (s.part p.val).st = .halted) ∧
  (∀ k : Fin 24, let c := s.coxOf k.val
    c.sstatus = 5 ∧ c.stvec = 0 ∧ c.sepc = 0 ∧ c.scause = 0 ∧ c.stval = 0 ∧ c.sscratch = 0 ∧ c.cctx = 0 ∧ c.started = false ∧
    ∃ g, s.gang? k.val = some g ∧ g.isCox = true ∧ g.core.subs.map (fun x => x.lanes) = [1] ∧ g.core.fpmode = 1 ∧ g.core.fpflags = 0 ∧ g.core.uevec = 0 ∧
      g.core.even = 0xFFFF ∧ g.core.evpend = 0 ∧ g.core.evslot = 0xFFFFFFFF ∧ g.core.ldepth = 0 ∧ g.core.ef = [0, 0, 0, 0, 0, 0])

/-- The spec's own worked encodings decode to the instructions they stand for (Table 6.10, Table 6.13, and the examples of lp, waitany, mma, acc.epi and csrr); the worked ffma with G = 13, or with RND = 6, decodes to none. -/
def Obligations.DecodeWords : Prop :=
  let m (x : Src) : MSrc := ⟨x, false, .none, false⟩
  decode [0x8E, 0x0C, 0x03, 0x04, 0x14, 0x2C, 0x7F, 0x80, 0x01, 0x00, 0x00, 0x02] =
    .ok (.ffma ⟨.p 3, .f32, .v 12, ⟨.v 4, true, .none, true⟩, m (.s 5), ⟨.const 50, false⟩, false, .rtz, ()⟩, 12) ∧
  decode [0x59, 0x3D, 0, 0, 0, 0, 0, 0] = .ok (.nop .always, 8) ∧
  decode [0x6A, 0x3D, 0, 0, 0, 0, 0, 0, 0, 0, 0, 0] = .ok (.nopL .always, 12) ∧
  decode [0x5E, 0x3D, 0x00, 0xC6, 0x03, 0, 0, 0, 0x20, 0, 0, 0] = .ok (.lp ⟨.always, .const 6, 8⟩, 12) ∧
  decode [0x96, 0x3E, 0, 0, 0x04, 0, 0, 0, 0, 0, 0, 0x10] = .ok (.mma ⟨.always, 0, 0, 1, true, false⟩, 12) ∧
  decode [0x8E, 0xFF, 0xC0, 0, 0, 0, 0, 0, 0x01, 0, 0, 0] = .ok (.csrr ⟨.always, .s 3, .fpmode⟩, 12) ∧
  decodeTableWord 64 0x0000000315C53DB1 = some (.waitany ⟨.always, .s 20, .s 21⟩) ∧
  decodeTableWord 128 0x3E800000B0FFC0000039DC1704003EAF =
    some (.accEpi ⟨.always, 0, .s 4, .s 5, .spec .zero, 0x3E800000, 11, false, false, false, false, 31, 31⟩) ∧
  (∃ e, decode [0x8E, 0x34, 0x03, 0x04, 0x14, 0x2C, 0x7F, 0x80, 0x01, 0x00, 0x00, 0x02] = .error e) ∧
  (∃ e, decode [0x8E, 0x0C, 0x03, 0x04, 0x14, 0x2C, 0x7F, 0x80, 0x01, 0x00, 0x00, 0x06] = .error e)

/-- Decode and encode agree (R131 to R152): the bytes of every well-formed instruction decode to it, with every operand, and to its length; and what decodes is well-formed, and, unless it is an escape, has the bytes it was read from. -/
def Obligations.DecodeEncode : Prop :=
  (∀ i : Instr, i.wf = true → decode (encode i) = .ok (i, i.size)) ∧
  (∀ (bs : List Byte) (i : Instr) (n : Nat), decode bs = .ok (i, n) → i.wf = true ∧ n = i.size ∧ (bitsAt (word0At bs) 2 8 < 0xF0 → encode i = bs.take n))

/-- Every step keeps memory in its canonical form: addresses rise strictly and no listed byte is 0. -/
def Obligations.StepKeepsMemoryCanonical : Prop :=
  ∀ s t : State, Memory.wf s.mem = true → step s = .next t → Memory.wf t.mem = true
end

