-- ==== Sys2Proof/Laws/Maps.lean ====
section
/-! SUPPORT. Laws of the finite maps, of list replacement and of lookup by number: what a read gives after a write, and that writes keep the canonical form. They hold of every list, canonical or not, so that no statement needs a premise about unreachable lists. -/

namespace Sys2Proof.Machine

variable {α : Type}

theorem spGet_spSet (d : α) (k : Nat) (v : α) (m : List (Nat × α)) (j : Nat) :
    spGet d (spSet k v m) j = if j = k then v else spGet d m j := by
  induction m with
  | nil => simp [spSet, spGet]
  | cons x r ih =>
    obtain ⟨i, w⟩ := x
    by_cases h1 : k < i
    · simp [spSet, h1, spGet]
    · by_cases h2 : k = i
      · subst h2
        by_cases h3 : j = k <;> simp [spSet, spGet, h3]
      · have h3 : spSet k v ((i, w) :: r) = (i, w) :: spSet k v r := by simp [spSet, h1, h2]
        rw [h3]
        by_cases h4 : j = i
        · subst h4
          have : ¬ j = k := fun e => h2 e.symm
          simp [spGet, this]
        · simp [spGet, h4, ih]

theorem spGet_spDrop (d : α) (k : Nat) (m : List (Nat × α)) (j : Nat) :
    spGet d (spDrop k m) j = if j = k then d else spGet d m j := by
  induction m with
  | nil => simp [spDrop, spGet]
  | cons x r ih =>
    obtain ⟨i, w⟩ := x
    by_cases h : i = k
    · subst h
      have h3 : spDrop i ((i, w) :: r) = spDrop i r := by simp [spDrop]
      rw [h3, ih]
      by_cases h4 : j = i <;> simp [h4, spGet]
    · have h3 : spDrop k ((i, w) :: r) = (i, w) :: spDrop k r := by simp [spDrop, h]
      rw [h3]
      by_cases h4 : j = i
      · subst h4
        simp [spGet, h]
      · simp [spGet, h4, ih]

/-- A read after a write: the value written there, the old one elsewhere. -/
@[simp] theorem spGet_spPut [DecidableEq α] (d : α) (k : Nat) (v : α) (m : List (Nat × α)) (j : Nat) :
    spGet d (spPut d k v m) j = if j = k then v else spGet d m j := by
  by_cases h : v = d
  · simp [spPut, h, spGet_spDrop]
  · simp [spPut, h, spGet_spSet]

theorem spFind_spSet (k : Nat) (v : α) (m : List (Nat × α)) (j : Nat) :
    spFind (spSet k v m) j = if j = k then some v else spFind m j := by
  induction m with
  | nil => simp [spSet, spFind]
  | cons x r ih =>
    obtain ⟨i, w⟩ := x
    by_cases h1 : k < i
    · simp [spSet, h1, spFind]
    · by_cases h2 : k = i
      · subst h2
        by_cases h3 : j = k <;> simp [spSet, spFind, h3]
      · have h3 : spSet k v ((i, w) :: r) = (i, w) :: spSet k v r := by simp [spSet, h1, h2]
        rw [h3]
        by_cases h4 : j = i
        · subst h4
          have : ¬ j = k := fun e => h2 e.symm
          simp [spFind, this]
        · simp [spFind, h4, ih]

theorem spWfFrom_mono [DecidableEq α] (d : α) {a b : Nat} (h : a ≤ b) {m : List (Nat × α)}
    (hm : spWfFrom d b m = true) : spWfFrom d a m = true := by
  cases m with
  | nil => rfl
  | cons x r =>
    simp only [spWfFrom, Bool.and_eq_true, decide_eq_true_eq] at hm ⊢
    exact ⟨⟨by omega, hm.1.2⟩, hm.2⟩

theorem spWfFrom_spSet [DecidableEq α] (d : α) (k : Nat) (v : α) (hv : v ≠ d) :
    ∀ (m : List (Nat × α)) (lo : Nat), lo ≤ k → spWfFrom d lo m = true → spWfFrom d lo (spSet k v m) = true
  | [], lo, hlo, _ => by simp [spSet, spWfFrom, hlo, hv]
  | (j, w) :: r, lo, hlo, hm => by
    simp only [spWfFrom, Bool.and_eq_true, decide_eq_true_eq] at hm
    by_cases h1 : k < j
    · simp only [spSet, h1, if_true, spWfFrom, Bool.and_eq_true, decide_eq_true_eq]
      exact ⟨⟨hlo, hv⟩, ⟨⟨by omega, hm.1.2⟩, hm.2⟩⟩
    · by_cases h2 : k = j
      · subst h2
        simp only [spSet, Nat.lt_irrefl, if_false, if_true, spWfFrom, Bool.and_eq_true, decide_eq_true_eq]
        exact ⟨⟨hlo, hv⟩, hm.2⟩
      · simp only [spSet, h1, h2, if_false, spWfFrom, Bool.and_eq_true, decide_eq_true_eq]
        exact ⟨hm.1, spWfFrom_spSet d k v hv r (j + 1) (by omega) hm.2⟩

theorem spWfFrom_filter [DecidableEq α] (d : α) (p : Nat × α → Bool) :
    ∀ (m : List (Nat × α)) (lo : Nat), spWfFrom d lo m = true → spWfFrom d lo (m.filter p) = true
  | [], _, _ => rfl
  | (j, w) :: r, lo, hm => by
    simp only [spWfFrom, Bool.and_eq_true, decide_eq_true_eq] at hm
    have ih := spWfFrom_filter d p r (j + 1) hm.2
    by_cases h : p (j, w) = true
    · simp only [List.filter_cons, h, if_true, spWfFrom, Bool.and_eq_true, decide_eq_true_eq]
      exact ⟨hm.1, ih⟩
    · simp only [List.filter_cons, h]
      exact spWfFrom_mono d (by omega) ih

/-- A write keeps the canonical form. -/
theorem spWf_spPut [DecidableEq α] (d : α) (k : Nat) (v : α) (m : List (Nat × α)) (hm : spWf d m = true) :
    spWf d (spPut d k v m) = true := by
  by_cases h : v = d
  · simp only [spPut, h, if_true, spDrop, spWf]
    exact spWfFrom_filter d _ m 0 hm
  · simp only [spPut, h, if_false, spWf]
    exact spWfFrom_spSet d k v h m 0 (Nat.zero_le k) hm

theorem spWf_filter [DecidableEq α] (d : α) (p : Nat × α → Bool) (m : List (Nat × α)) (hm : spWf d m = true) :
    spWf d (m.filter p) = true := spWfFrom_filter d p m 0 hm

@[simp] theorem length_setAt (k : Nat) (v : α) (l : List α) : (setAt k v l).length = l.length := by
  induction l generalizing k with
  | nil => simp [setAt]
  | cons x r ih => cases k <;> simp [setAt, ih]

theorem getElem?_setAt (k : Nat) (v : α) (l : List α) (j : Nat) :
    (setAt k v l)[j]? = if j = k ∧ k < l.length then some v else l[j]? := by
  induction l generalizing k j with
  | nil => simp [setAt]
  | cons x r ih =>
    cases k with
    | zero => cases j <;> simp [setAt]
    | succ k => cases j <;> simp [setAt, ih]

/-- Element `j` after element `k` was replaced. -/
theorem getD_setAt (k : Nat) (v d : α) (l : List α) (j : Nat) :
    (setAt k v l).getD j d = if j = k ∧ k < l.length then v else l.getD j d := by
  simp only [List.getD_eq_getElem?_getD, getElem?_setAt]
  split <;> simp

/-- Lookup by number after the elements with one number were changed in a way that keeps numbers. -/
theorem find?_mapIf (key : α → Nat) (k : Nat) (f : α → α) (hf : ∀ x, key (f x) = key x) (l : List α) (j : Nat) :
    (mapIf (fun x => key x == k) f l).find? (fun x => key x == j) =
      if j = k then (l.find? (fun x => key x == j)).map f else l.find? (fun x => key x == j) := by
  induction l with
  | nil => simp [mapIf]
  | cons x r ih =>
    simp only [mapIf] at ih
    simp only [mapIf, List.map_cons, List.find?_cons]
    by_cases h1 : key x = k
    · have h0 : (key x == k) = true := by simp [h1]
      by_cases h2 : j = k
      · have h3 : (key x == j) = true := by simp [h1, h2]
        simp only [h0, if_true, hf, h2, Option.map_some]
      · have h3 : (key x == j) = false := by simp only [beq_eq_false_iff_ne, ne_eq]; omega
        simp only [h0, if_true, hf, h3, ih, h2, if_false]
    · have h4 : (key x == k) = false := by simp [h1]
      by_cases h2 : key x = j
      · have h3 : ¬ j = k := by omega
        have h5 : (key x == j) = true := by simp [h2]
        simp only [h4, h5, h3, if_false, Bool.false_eq_true]
      · have h5 : (key x == j) = false := by simp [h2]
        simp only [h4, h5, ih, Bool.false_eq_true, if_false]

theorem find?_key {key : α → Nat} {k : Nat} {l : List α} {x : α} (h : l.find? (fun x => key x == k) = some x) : key x = k := by
  have := List.find?_some h
  simpa using this

/-! ## Gangs by number -/

theorem gang?_id {s : State} {k : Nat} {g : Gang} (h : s.gang? k = some g) : g.id = k := find?_key (key := Gang.id) h

/-- The gangs by number after one was put back. -/
theorem gang?_putGang (s : State) (g : Gang) (k : Nat) :
    (s.putGang g).gang? k = if k = g.id then (s.gang? k).map (fun _ => g) else s.gang? k := by
  have h : ∀ (l : List Gang), (mapIf (fun x => x.id == g.id) (fun _ => g) l).find? (fun x => x.id == k) =
      if k = g.id then (l.find? (fun x => x.id == k)).map (fun _ => g) else l.find? (fun x => x.id == k) := by
    intro l
    induction l with
    | nil => simp [mapIf]
    | cons x r ih =>
      simp only [mapIf] at ih
      simp only [mapIf, List.map_cons, List.find?_cons]
      by_cases h1 : x.id = g.id
      · by_cases h2 : k = g.id
        · simp [h1, h2]
        · have h3 : (g.id == k) = false := by simp only [beq_eq_false_iff_ne, ne_eq]; omega
          simp only [h1, BEq.rfl, if_true, h3, ih, h2, if_false]
      · by_cases h2 : x.id = k
        · have h3 : ¬ k = g.id := by omega
          simp [h2, h3]
        · have h5 : (x.id == k) = false := by simp [h2]
          have h6 : (x.id == g.id) = false := by simp [h1]
          simp only [h6, h5, ih, Bool.false_eq_true, if_false]
  exact h s.gangs

theorem gang?_putGang_self {s : State} {g x : Gang} (h : s.gang? g.id = some x) : (s.putGang g).gang? g.id = some g := by
  simp [gang?_putGang, h]

theorem gang?_putGang_ne (s : State) (g : Gang) {k : Nat} (h : k ≠ g.id) : (s.putGang g).gang? k = s.gang? k := by
  simp [gang?_putGang, h]

/-- The gangs by number after one was changed in place. -/
theorem gang?_mapGang (s : State) (g : Nat) (f : Gang → Gang) (hf : ∀ x, (f x).id = x.id) (k : Nat) :
    (s.mapGang g f).gang? k = if k = g then (s.gang? k).map f else s.gang? k :=
  find?_mapIf Gang.id g f hf s.gangs k

theorem crew?_mapCrew (s : State) (c : Nat) (f : Crew → Crew) (hf : ∀ x, (f x).id = x.id) (k : Nat) :
    (s.mapCrew c f).crew? k = if k = c then (s.crew? k).map f else s.crew? k :=
  find?_mapIf Crew.id c f hf s.crews k

end Sys2Proof.Machine
end

