-- ==== Sys2Proof/Laws/State.lean ====
section
/-! SUPPORT. What each named update of State leaves in each field: one lemma for each field and update, true by unfolding; the other updates of the gang list as uses of setGangs. -/

namespace Sys2Proof.Machine

variable (s : State)

@[simp] theorem setDue_due (x : List Instr) : (s.setDue x).due = x := rfl
@[simp] theorem setDue_issue (x : List Instr) : (s.setDue x).issue = s.issue := rfl
@[simp] theorem setDue_agenda (x : List Instr) : (s.setDue x).agenda = s.agenda := rfl
@[simp] theorem setDue_cur (x : List Instr) : (s.setDue x).cur = s.cur := rfl
@[simp] theorem setDue_curBlk (x : List Instr) : (s.setDue x).curBlk = s.curBlk := rfl
@[simp] theorem setDue_freeCtr (x : List Instr) : (s.setDue x).freeCtr = s.freeCtr := rfl
@[simp] theorem setDue_nextId (x : List Instr) : (s.setDue x).nextId = s.nextId := rfl
@[simp] theorem setDue_mem (x : List Instr) : (s.setDue x).mem = s.mem := rfl
@[simp] theorem setDue_poisoned (x : List Instr) : (s.setDue x).poisoned = s.poisoned := rfl
@[simp] theorem setDue_deep (x : List Instr) : (s.setDue x).deep = s.deep := rfl
@[simp] theorem setDue_unitsUsed (x : List Instr) : (s.setDue x).unitsUsed = s.unitsUsed := rfl
@[simp] theorem setDue_oldExtents (x : List Instr) : (s.setDue x).oldExtents = s.oldExtents := rfl
@[simp] theorem setDue_tick (x : List Instr) : (s.setDue x).tick = s.tick := rfl
@[simp] theorem setDue_gangs (x : List Instr) : (s.setDue x).gangs = s.gangs := rfl
@[simp] theorem setDue_halves (x : List Instr) : (s.setDue x).halves = s.halves := rfl
@[simp] theorem setDue_crews (x : List Instr) : (s.setDue x).crews = s.crews := rfl
@[simp] theorem setDue_items (x : List Instr) : (s.setDue x).items = s.items := rfl
@[simp] theorem setDue_queues (x : List Instr) : (s.setDue x).queues = s.queues := rfl
@[simp] theorem setDue_hub (x : List Instr) : (s.setDue x).hub = s.hub := rfl
@[simp] theorem setDue_mboxes (x : List Instr) : (s.setDue x).mboxes = s.mboxes := rfl
@[simp] theorem setDue_sems (x : List Instr) : (s.setDue x).sems = s.sems := rfl
@[simp] theorem setDue_tokenHolder (x : List Instr) : (s.setDue x).tokenHolder = s.tokenHolder := rfl
@[simp] theorem setDue_tokenReqs (x : List Instr) : (s.setDue x).tokenReqs = s.tokenReqs := rfl
@[simp] theorem setDue_cmds (x : List Instr) : (s.setDue x).cmds = s.cmds := rfl
@[simp] theorem setDue_reqs (x : List Instr) : (s.setDue x).reqs = s.reqs := rfl
@[simp] theorem setDue_legacy (x : List Instr) : (s.setDue x).legacy = s.legacy := rfl
@[simp] theorem setDue_accLive (x : List Instr) : (s.setDue x).accLive = s.accLive := rfl
@[simp] theorem setDue_accShad (x : List Instr) : (s.setDue x).accShad = s.accShad := rfl
@[simp] theorem setDue_cox (x : List Instr) : (s.setDue x).cox = s.cox := rfl
@[simp] theorem setDue_parts (x : List Instr) : (s.setDue x).parts = s.parts := rfl
@[simp] theorem setDue_psel (x : List Instr) : (s.setDue x).psel = s.psel := rfl
@[simp] theorem setDue_grsel (x : List Instr) : (s.setDue x).grsel = s.grsel := rfl
@[simp] theorem setDue_grants (x : List Instr) : (s.setDue x).grants = s.grants := rfl
@[simp] theorem setDue_fq (x : List Instr) : (s.setDue x).fq = s.fq := rfl
@[simp] theorem setDue_ctxtab (x : List Instr) : (s.setDue x).ctxtab = s.ctxtab := rfl
@[simp] theorem setDue_lreq (x : List Instr) : (s.setDue x).lreq = s.lreq := rfl
@[simp] theorem setDue_rreq (x : List Instr) : (s.setDue x).rreq = s.rreq := rfl
@[simp] theorem setDue_mgva (x : List Instr) : (s.setDue x).mgva = s.mgva := rfl
@[simp] theorem setDue_mgctl (x : List Instr) : (s.setDue x).mgctl = s.mgctl := rfl
@[simp] theorem setDue_mgfrm (x : List Instr) : (s.setDue x).mgfrm = s.mgfrm := rfl
@[simp] theorem setDue_mgcmp (x : List Instr) : (s.setDue x).mgcmp = s.mgcmp := rfl
@[simp] theorem setDue_migration (x : List Instr) : (s.setDue x).migration = s.migration := rfl
@[simp] theorem setDue_givingUp (x : List Instr) : (s.setDue x).givingUp = s.givingUp := rfl
@[simp] theorem setDue_tlb (x : List Instr) : (s.setDue x).tlb = s.tlb := rfl
@[simp] theorem setDue_ptrs (x : List Instr) : (s.setDue x).ptrs = s.ptrs := rfl
@[simp] theorem setDue_invals (x : List Instr) : (s.setDue x).invals = s.invals := rfl
@[simp] theorem setDue_code (x : List Instr) : (s.setDue x).code = s.code := rfl
@[simp] theorem setDue_phase (x : List Instr) : (s.setDue x).phase = s.phase := rfl
@[simp] theorem setDue_fuses (x : List Instr) : (s.setDue x).fuses = s.fuses := rfl
@[simp] theorem setDue_dies (x : List Instr) : (s.setDue x).dies = s.dies := rfl
@[simp] theorem setDue_powerLimited (x : List Instr) : (s.setDue x).powerLimited = s.powerLimited := rfl
@[simp] theorem setDue_flash (x : List Instr) : (s.setDue x).flash = s.flash := rfl
@[simp] theorem setDue_updateImage (x : List Instr) : (s.setDue x).updateImage = s.updateImage := rfl
@[simp] theorem setDue_updfail (x : List Instr) : (s.setDue x).updfail = s.updfail := rfl
@[simp] theorem setDue_fwver (x : List Instr) : (s.setDue x).fwver = s.fwver := rfl
@[simp] theorem setDue_epoch (x : List Instr) : (s.setDue x).epoch = s.epoch := rfl
@[simp] theorem setDue_lastSeq (x : List Instr) : (s.setDue x).lastSeq = s.lastSeq := rfl
@[simp] theorem setDue_pkg (x : List Instr) : (s.setDue x).pkg = s.pkg := rfl
@[simp] theorem setDue_portAddrs (x : List Instr) : (s.setDue x).portAddrs = s.portAddrs := rfl
@[simp] theorem setDue_portUp (x : List Instr) : (s.setDue x).portUp = s.portUp := rfl
@[simp] theorem setDue_discarded (x : List Instr) : (s.setDue x).discarded = s.discarded := rfl
@[simp] theorem setDue_podOut (x : List Instr) : (s.setDue x).podOut = s.podOut := rfl
@[simp] theorem setDue_podIn (x : List Instr) : (s.setDue x).podIn = s.podIn := rfl
@[simp] theorem setDue_answers (x : List Instr) : (s.setDue x).answers = s.answers := rfl
@[simp] theorem setDue_doubleTraps (x : List Instr) : (s.setDue x).doubleTraps = s.doubleTraps := rfl
@[simp] theorem setDue_counts (x : List Instr) : (s.setDue x).counts = s.counts := rfl
@[simp] theorem setDue_countsNv (x : List Instr) : (s.setDue x).countsNv = s.countsNv := rfl

@[simp] theorem setIssue_due (x : List GroupRef) : (s.setIssue x).due = s.due := rfl
@[simp] theorem setIssue_issue (x : List GroupRef) : (s.setIssue x).issue = x := rfl
@[simp] theorem setIssue_agenda (x : List GroupRef) : (s.setIssue x).agenda = s.agenda := rfl
@[simp] theorem setIssue_cur (x : List GroupRef) : (s.setIssue x).cur = s.cur := rfl
@[simp] theorem setIssue_curBlk (x : List GroupRef) : (s.setIssue x).curBlk = s.curBlk := rfl
@[simp] theorem setIssue_freeCtr (x : List GroupRef) : (s.setIssue x).freeCtr = s.freeCtr := rfl
@[simp] theorem setIssue_nextId (x : List GroupRef) : (s.setIssue x).nextId = s.nextId := rfl
@[simp] theorem setIssue_mem (x : List GroupRef) : (s.setIssue x).mem = s.mem := rfl
@[simp] theorem setIssue_poisoned (x : List GroupRef) : (s.setIssue x).poisoned = s.poisoned := rfl
@[simp] theorem setIssue_deep (x : List GroupRef) : (s.setIssue x).deep = s.deep := rfl
@[simp] theorem setIssue_unitsUsed (x : List GroupRef) : (s.setIssue x).unitsUsed = s.unitsUsed := rfl
@[simp] theorem setIssue_oldExtents (x : List GroupRef) : (s.setIssue x).oldExtents = s.oldExtents := rfl
@[simp] theorem setIssue_tick (x : List GroupRef) : (s.setIssue x).tick = s.tick := rfl
@[simp] theorem setIssue_gangs (x : List GroupRef) : (s.setIssue x).gangs = s.gangs := rfl
@[simp] theorem setIssue_halves (x : List GroupRef) : (s.setIssue x).halves = s.halves := rfl
@[simp] theorem setIssue_crews (x : List GroupRef) : (s.setIssue x).crews = s.crews := rfl
@[simp] theorem setIssue_items (x : List GroupRef) : (s.setIssue x).items = s.items := rfl
@[simp] theorem setIssue_queues (x : List GroupRef) : (s.setIssue x).queues = s.queues := rfl
@[simp] theorem setIssue_hub (x : List GroupRef) : (s.setIssue x).hub = s.hub := rfl
@[simp] theorem setIssue_mboxes (x : List GroupRef) : (s.setIssue x).mboxes = s.mboxes := rfl
@[simp] theorem setIssue_sems (x : List GroupRef) : (s.setIssue x).sems = s.sems := rfl
@[simp] theorem setIssue_tokenHolder (x : List GroupRef) : (s.setIssue x).tokenHolder = s.tokenHolder := rfl
@[simp] theorem setIssue_tokenReqs (x : List GroupRef) : (s.setIssue x).tokenReqs = s.tokenReqs := rfl
@[simp] theorem setIssue_cmds (x : List GroupRef) : (s.setIssue x).cmds = s.cmds := rfl
@[simp] theorem setIssue_reqs (x : List GroupRef) : (s.setIssue x).reqs = s.reqs := rfl
@[simp] theorem setIssue_legacy (x : List GroupRef) : (s.setIssue x).legacy = s.legacy := rfl
@[simp] theorem setIssue_accLive (x : List GroupRef) : (s.setIssue x).accLive = s.accLive := rfl
@[simp] theorem setIssue_accShad (x : List GroupRef) : (s.setIssue x).accShad = s.accShad := rfl
@[simp] theorem setIssue_cox (x : List GroupRef) : (s.setIssue x).cox = s.cox := rfl
@[simp] theorem setIssue_parts (x : List GroupRef) : (s.setIssue x).parts = s.parts := rfl
@[simp] theorem setIssue_psel (x : List GroupRef) : (s.setIssue x).psel = s.psel := rfl
@[simp] theorem setIssue_grsel (x : List GroupRef) : (s.setIssue x).grsel = s.grsel := rfl
@[simp] theorem setIssue_grants (x : List GroupRef) : (s.setIssue x).grants = s.grants := rfl
@[simp] theorem setIssue_fq (x : List GroupRef) : (s.setIssue x).fq = s.fq := rfl
@[simp] theorem setIssue_ctxtab (x : List GroupRef) : (s.setIssue x).ctxtab = s.ctxtab := rfl
@[simp] theorem setIssue_lreq (x : List GroupRef) : (s.setIssue x).lreq = s.lreq := rfl
@[simp] theorem setIssue_rreq (x : List GroupRef) : (s.setIssue x).rreq = s.rreq := rfl
@[simp] theorem setIssue_mgva (x : List GroupRef) : (s.setIssue x).mgva = s.mgva := rfl
@[simp] theorem setIssue_mgctl (x : List GroupRef) : (s.setIssue x).mgctl = s.mgctl := rfl
@[simp] theorem setIssue_mgfrm (x : List GroupRef) : (s.setIssue x).mgfrm = s.mgfrm := rfl
@[simp] theorem setIssue_mgcmp (x : List GroupRef) : (s.setIssue x).mgcmp = s.mgcmp := rfl
@[simp] theorem setIssue_migration (x : List GroupRef) : (s.setIssue x).migration = s.migration := rfl
@[simp] theorem setIssue_givingUp (x : List GroupRef) : (s.setIssue x).givingUp = s.givingUp := rfl
@[simp] theorem setIssue_tlb (x : List GroupRef) : (s.setIssue x).tlb = s.tlb := rfl
@[simp] theorem setIssue_ptrs (x : List GroupRef) : (s.setIssue x).ptrs = s.ptrs := rfl
@[simp] theorem setIssue_invals (x : List GroupRef) : (s.setIssue x).invals = s.invals := rfl
@[simp] theorem setIssue_code (x : List GroupRef) : (s.setIssue x).code = s.code := rfl
@[simp] theorem setIssue_phase (x : List GroupRef) : (s.setIssue x).phase = s.phase := rfl
@[simp] theorem setIssue_fuses (x : List GroupRef) : (s.setIssue x).fuses = s.fuses := rfl
@[simp] theorem setIssue_dies (x : List GroupRef) : (s.setIssue x).dies = s.dies := rfl
@[simp] theorem setIssue_powerLimited (x : List GroupRef) : (s.setIssue x).powerLimited = s.powerLimited := rfl
@[simp] theorem setIssue_flash (x : List GroupRef) : (s.setIssue x).flash = s.flash := rfl
@[simp] theorem setIssue_updateImage (x : List GroupRef) : (s.setIssue x).updateImage = s.updateImage := rfl
@[simp] theorem setIssue_updfail (x : List GroupRef) : (s.setIssue x).updfail = s.updfail := rfl
@[simp] theorem setIssue_fwver (x : List GroupRef) : (s.setIssue x).fwver = s.fwver := rfl
@[simp] theorem setIssue_epoch (x : List GroupRef) : (s.setIssue x).epoch = s.epoch := rfl
@[simp] theorem setIssue_lastSeq (x : List GroupRef) : (s.setIssue x).lastSeq = s.lastSeq := rfl
@[simp] theorem setIssue_pkg (x : List GroupRef) : (s.setIssue x).pkg = s.pkg := rfl
@[simp] theorem setIssue_portAddrs (x : List GroupRef) : (s.setIssue x).portAddrs = s.portAddrs := rfl
@[simp] theorem setIssue_portUp (x : List GroupRef) : (s.setIssue x).portUp = s.portUp := rfl
@[simp] theorem setIssue_discarded (x : List GroupRef) : (s.setIssue x).discarded = s.discarded := rfl
@[simp] theorem setIssue_podOut (x : List GroupRef) : (s.setIssue x).podOut = s.podOut := rfl
@[simp] theorem setIssue_podIn (x : List GroupRef) : (s.setIssue x).podIn = s.podIn := rfl
@[simp] theorem setIssue_answers (x : List GroupRef) : (s.setIssue x).answers = s.answers := rfl
@[simp] theorem setIssue_doubleTraps (x : List GroupRef) : (s.setIssue x).doubleTraps = s.doubleTraps := rfl
@[simp] theorem setIssue_counts (x : List GroupRef) : (s.setIssue x).counts = s.counts := rfl
@[simp] theorem setIssue_countsNv (x : List GroupRef) : (s.setIssue x).countsNv = s.countsNv := rfl

@[simp] theorem setAgenda_due (x : List Instr) : (s.setAgenda x).due = s.due := rfl
@[simp] theorem setAgenda_issue (x : List Instr) : (s.setAgenda x).issue = s.issue := rfl
@[simp] theorem setAgenda_agenda (x : List Instr) : (s.setAgenda x).agenda = x := rfl
@[simp] theorem setAgenda_cur (x : List Instr) : (s.setAgenda x).cur = s.cur := rfl
@[simp] theorem setAgenda_curBlk (x : List Instr) : (s.setAgenda x).curBlk = s.curBlk := rfl
@[simp] theorem setAgenda_freeCtr (x : List Instr) : (s.setAgenda x).freeCtr = s.freeCtr := rfl
@[simp] theorem setAgenda_nextId (x : List Instr) : (s.setAgenda x).nextId = s.nextId := rfl
@[simp] theorem setAgenda_mem (x : List Instr) : (s.setAgenda x).mem = s.mem := rfl
@[simp] theorem setAgenda_poisoned (x : List Instr) : (s.setAgenda x).poisoned = s.poisoned := rfl
@[simp] theorem setAgenda_deep (x : List Instr) : (s.setAgenda x).deep = s.deep := rfl
@[simp] theorem setAgenda_unitsUsed (x : List Instr) : (s.setAgenda x).unitsUsed = s.unitsUsed := rfl
@[simp] theorem setAgenda_oldExtents (x : List Instr) : (s.setAgenda x).oldExtents = s.oldExtents := rfl
@[simp] theorem setAgenda_tick (x : List Instr) : (s.setAgenda x).tick = s.tick := rfl
@[simp] theorem setAgenda_gangs (x : List Instr) : (s.setAgenda x).gangs = s.gangs := rfl
@[simp] theorem setAgenda_halves (x : List Instr) : (s.setAgenda x).halves = s.halves := rfl
@[simp] theorem setAgenda_crews (x : List Instr) : (s.setAgenda x).crews = s.crews := rfl
@[simp] theorem setAgenda_items (x : List Instr) : (s.setAgenda x).items = s.items := rfl
@[simp] theorem setAgenda_queues (x : List Instr) : (s.setAgenda x).queues = s.queues := rfl
@[simp] theorem setAgenda_hub (x : List Instr) : (s.setAgenda x).hub = s.hub := rfl
@[simp] theorem setAgenda_mboxes (x : List Instr) : (s.setAgenda x).mboxes = s.mboxes := rfl
@[simp] theorem setAgenda_sems (x : List Instr) : (s.setAgenda x).sems = s.sems := rfl
@[simp] theorem setAgenda_tokenHolder (x : List Instr) : (s.setAgenda x).tokenHolder = s.tokenHolder := rfl
@[simp] theorem setAgenda_tokenReqs (x : List Instr) : (s.setAgenda x).tokenReqs = s.tokenReqs := rfl
@[simp] theorem setAgenda_cmds (x : List Instr) : (s.setAgenda x).cmds = s.cmds := rfl
@[simp] theorem setAgenda_reqs (x : List Instr) : (s.setAgenda x).reqs = s.reqs := rfl
@[simp] theorem setAgenda_legacy (x : List Instr) : (s.setAgenda x).legacy = s.legacy := rfl
@[simp] theorem setAgenda_accLive (x : List Instr) : (s.setAgenda x).accLive = s.accLive := rfl
@[simp] theorem setAgenda_accShad (x : List Instr) : (s.setAgenda x).accShad = s.accShad := rfl
@[simp] theorem setAgenda_cox (x : List Instr) : (s.setAgenda x).cox = s.cox := rfl
@[simp] theorem setAgenda_parts (x : List Instr) : (s.setAgenda x).parts = s.parts := rfl
@[simp] theorem setAgenda_psel (x : List Instr) : (s.setAgenda x).psel = s.psel := rfl
@[simp] theorem setAgenda_grsel (x : List Instr) : (s.setAgenda x).grsel = s.grsel := rfl
@[simp] theorem setAgenda_grants (x : List Instr) : (s.setAgenda x).grants = s.grants := rfl
@[simp] theorem setAgenda_fq (x : List Instr) : (s.setAgenda x).fq = s.fq := rfl
@[simp] theorem setAgenda_ctxtab (x : List Instr) : (s.setAgenda x).ctxtab = s.ctxtab := rfl
@[simp] theorem setAgenda_lreq (x : List Instr) : (s.setAgenda x).lreq = s.lreq := rfl
@[simp] theorem setAgenda_rreq (x : List Instr) : (s.setAgenda x).rreq = s.rreq := rfl
@[simp] theorem setAgenda_mgva (x : List Instr) : (s.setAgenda x).mgva = s.mgva := rfl
@[simp] theorem setAgenda_mgctl (x : List Instr) : (s.setAgenda x).mgctl = s.mgctl := rfl
@[simp] theorem setAgenda_mgfrm (x : List Instr) : (s.setAgenda x).mgfrm = s.mgfrm := rfl
@[simp] theorem setAgenda_mgcmp (x : List Instr) : (s.setAgenda x).mgcmp = s.mgcmp := rfl
@[simp] theorem setAgenda_migration (x : List Instr) : (s.setAgenda x).migration = s.migration := rfl
@[simp] theorem setAgenda_givingUp (x : List Instr) : (s.setAgenda x).givingUp = s.givingUp := rfl
@[simp] theorem setAgenda_tlb (x : List Instr) : (s.setAgenda x).tlb = s.tlb := rfl
@[simp] theorem setAgenda_ptrs (x : List Instr) : (s.setAgenda x).ptrs = s.ptrs := rfl
@[simp] theorem setAgenda_invals (x : List Instr) : (s.setAgenda x).invals = s.invals := rfl
@[simp] theorem setAgenda_code (x : List Instr) : (s.setAgenda x).code = s.code := rfl
@[simp] theorem setAgenda_phase (x : List Instr) : (s.setAgenda x).phase = s.phase := rfl
@[simp] theorem setAgenda_fuses (x : List Instr) : (s.setAgenda x).fuses = s.fuses := rfl
@[simp] theorem setAgenda_dies (x : List Instr) : (s.setAgenda x).dies = s.dies := rfl
@[simp] theorem setAgenda_powerLimited (x : List Instr) : (s.setAgenda x).powerLimited = s.powerLimited := rfl
@[simp] theorem setAgenda_flash (x : List Instr) : (s.setAgenda x).flash = s.flash := rfl
@[simp] theorem setAgenda_updateImage (x : List Instr) : (s.setAgenda x).updateImage = s.updateImage := rfl
@[simp] theorem setAgenda_updfail (x : List Instr) : (s.setAgenda x).updfail = s.updfail := rfl
@[simp] theorem setAgenda_fwver (x : List Instr) : (s.setAgenda x).fwver = s.fwver := rfl
@[simp] theorem setAgenda_epoch (x : List Instr) : (s.setAgenda x).epoch = s.epoch := rfl
@[simp] theorem setAgenda_lastSeq (x : List Instr) : (s.setAgenda x).lastSeq = s.lastSeq := rfl
@[simp] theorem setAgenda_pkg (x : List Instr) : (s.setAgenda x).pkg = s.pkg := rfl
@[simp] theorem setAgenda_portAddrs (x : List Instr) : (s.setAgenda x).portAddrs = s.portAddrs := rfl
@[simp] theorem setAgenda_portUp (x : List Instr) : (s.setAgenda x).portUp = s.portUp := rfl
@[simp] theorem setAgenda_discarded (x : List Instr) : (s.setAgenda x).discarded = s.discarded := rfl
@[simp] theorem setAgenda_podOut (x : List Instr) : (s.setAgenda x).podOut = s.podOut := rfl
@[simp] theorem setAgenda_podIn (x : List Instr) : (s.setAgenda x).podIn = s.podIn := rfl
@[simp] theorem setAgenda_answers (x : List Instr) : (s.setAgenda x).answers = s.answers := rfl
@[simp] theorem setAgenda_doubleTraps (x : List Instr) : (s.setAgenda x).doubleTraps = s.doubleTraps := rfl
@[simp] theorem setAgenda_counts (x : List Instr) : (s.setAgenda x).counts = s.counts := rfl
@[simp] theorem setAgenda_countsNv (x : List Instr) : (s.setAgenda x).countsNv = s.countsNv := rfl

@[simp] theorem setCur_due (x : Option GroupRef) (b : List Byte) : (s.setCur x b).due = s.due := rfl
@[simp] theorem setCur_issue (x : Option GroupRef) (b : List Byte) : (s.setCur x b).issue = s.issue := rfl
@[simp] theorem setCur_agenda (x : Option GroupRef) (b : List Byte) : (s.setCur x b).agenda = s.agenda := rfl
@[simp] theorem setCur_cur (x : Option GroupRef) (b : List Byte) : (s.setCur x b).cur = x := rfl
@[simp] theorem setCur_curBlk (x : Option GroupRef) (b : List Byte) : (s.setCur x b).curBlk = b := rfl
@[simp] theorem setCur_freeCtr (x : Option GroupRef) (b : List Byte) : (s.setCur x b).freeCtr = s.freeCtr := rfl
@[simp] theorem setCur_nextId (x : Option GroupRef) (b : List Byte) : (s.setCur x b).nextId = s.nextId := rfl
@[simp] theorem setCur_mem (x : Option GroupRef) (b : List Byte) : (s.setCur x b).mem = s.mem := rfl
@[simp] theorem setCur_poisoned (x : Option GroupRef) (b : List Byte) : (s.setCur x b).poisoned = s.poisoned := rfl
@[simp] theorem setCur_deep (x : Option GroupRef) (b : List Byte) : (s.setCur x b).deep = s.deep := rfl
@[simp] theorem setCur_unitsUsed (x : Option GroupRef) (b : List Byte) : (s.setCur x b).unitsUsed = s.unitsUsed := rfl
@[simp] theorem setCur_oldExtents (x : Option GroupRef) (b : List Byte) : (s.setCur x b).oldExtents = s.oldExtents := rfl
@[simp] theorem setCur_tick (x : Option GroupRef) (b : List Byte) : (s.setCur x b).tick = s.tick := rfl
@[simp] theorem setCur_gangs (x : Option GroupRef) (b : List Byte) : (s.setCur x b).gangs = s.gangs := rfl
@[simp] theorem setCur_halves (x : Option GroupRef) (b : List Byte) : (s.setCur x b).halves = s.halves := rfl
@[simp] theorem setCur_crews (x : Option GroupRef) (b : List Byte) : (s.setCur x b).crews = s.crews := rfl
@[simp] theorem setCur_items (x : Option GroupRef) (b : List Byte) : (s.setCur x b).items = s.items := rfl
@[simp] theorem setCur_queues (x : Option GroupRef) (b : List Byte) : (s.setCur x b).queues = s.queues := rfl
@[simp] theorem setCur_hub (x : Option GroupRef) (b : List Byte) : (s.setCur x b).hub = s.hub := rfl
@[simp] theorem setCur_mboxes (x : Option GroupRef) (b : List Byte) : (s.setCur x b).mboxes = s.mboxes := rfl
@[simp] theorem setCur_sems (x : Option GroupRef) (b : List Byte) : (s.setCur x b).sems = s.sems := rfl
@[simp] theorem setCur_tokenHolder (x : Option GroupRef) (b : List Byte) : (s.setCur x b).tokenHolder = s.tokenHolder := rfl
@[simp] theorem setCur_tokenReqs (x : Option GroupRef) (b : List Byte) : (s.setCur x b).tokenReqs = s.tokenReqs := rfl
@[simp] theorem setCur_cmds (x : Option GroupRef) (b : List Byte) : (s.setCur x b).cmds = s.cmds := rfl
@[simp] theorem setCur_reqs (x : Option GroupRef) (b : List Byte) : (s.setCur x b).reqs = s.reqs := rfl
@[simp] theorem setCur_legacy (x : Option GroupRef) (b : List Byte) : (s.setCur x b).legacy = s.legacy := rfl
@[simp] theorem setCur_accLive (x : Option GroupRef) (b : List Byte) : (s.setCur x b).accLive = s.accLive := rfl
@[simp] theorem setCur_accShad (x : Option GroupRef) (b : List Byte) : (s.setCur x b).accShad = s.accShad := rfl
@[simp] theorem setCur_cox (x : Option GroupRef) (b : List Byte) : (s.setCur x b).cox = s.cox := rfl
@[simp] theorem setCur_parts (x : Option GroupRef) (b : List Byte) : (s.setCur x b).parts = s.parts := rfl
@[simp] theorem setCur_psel (x : Option GroupRef) (b : List Byte) : (s.setCur x b).psel = s.psel := rfl
@[simp] theorem setCur_grsel (x : Option GroupRef) (b : List Byte) : (s.setCur x b).grsel = s.grsel := rfl
@[simp] theorem setCur_grants (x : Option GroupRef) (b : List Byte) : (s.setCur x b).grants = s.grants := rfl
@[simp] theorem setCur_fq (x : Option GroupRef) (b : List Byte) : (s.setCur x b).fq = s.fq := rfl
@[simp] theorem setCur_ctxtab (x : Option GroupRef) (b : List Byte) : (s.setCur x b).ctxtab = s.ctxtab := rfl
@[simp] theorem setCur_lreq (x : Option GroupRef) (b : List Byte) : (s.setCur x b).lreq = s.lreq := rfl
@[simp] theorem setCur_rreq (x : Option GroupRef) (b : List Byte) : (s.setCur x b).rreq = s.rreq := rfl
@[simp] theorem setCur_mgva (x : Option GroupRef) (b : List Byte) : (s.setCur x b).mgva = s.mgva := rfl
@[simp] theorem setCur_mgctl (x : Option GroupRef) (b : List Byte) : (s.setCur x b).mgctl = s.mgctl := rfl
@[simp] theorem setCur_mgfrm (x : Option GroupRef) (b : List Byte) : (s.setCur x b).mgfrm = s.mgfrm := rfl
@[simp] theorem setCur_mgcmp (x : Option GroupRef) (b : List Byte) : (s.setCur x b).mgcmp = s.mgcmp := rfl
@[simp] theorem setCur_migration (x : Option GroupRef) (b : List Byte) : (s.setCur x b).migration = s.migration := rfl
@[simp] theorem setCur_givingUp (x : Option GroupRef) (b : List Byte) : (s.setCur x b).givingUp = s.givingUp := rfl
@[simp] theorem setCur_tlb (x : Option GroupRef) (b : List Byte) : (s.setCur x b).tlb = s.tlb := rfl
@[simp] theorem setCur_ptrs (x : Option GroupRef) (b : List Byte) : (s.setCur x b).ptrs = s.ptrs := rfl
@[simp] theorem setCur_invals (x : Option GroupRef) (b : List Byte) : (s.setCur x b).invals = s.invals := rfl
@[simp] theorem setCur_code (x : Option GroupRef) (b : List Byte) : (s.setCur x b).code = s.code := rfl
@[simp] theorem setCur_phase (x : Option GroupRef) (b : List Byte) : (s.setCur x b).phase = s.phase := rfl
@[simp] theorem setCur_fuses (x : Option GroupRef) (b : List Byte) : (s.setCur x b).fuses = s.fuses := rfl
@[simp] theorem setCur_dies (x : Option GroupRef) (b : List Byte) : (s.setCur x b).dies = s.dies := rfl
@[simp] theorem setCur_powerLimited (x : Option GroupRef) (b : List Byte) : (s.setCur x b).powerLimited = s.powerLimited := rfl
@[simp] theorem setCur_flash (x : Option GroupRef) (b : List Byte) : (s.setCur x b).flash = s.flash := rfl
@[simp] theorem setCur_updateImage (x : Option GroupRef) (b : List Byte) : (s.setCur x b).updateImage = s.updateImage := rfl
@[simp] theorem setCur_updfail (x : Option GroupRef) (b : List Byte) : (s.setCur x b).updfail = s.updfail := rfl
@[simp] theorem setCur_fwver (x : Option GroupRef) (b : List Byte) : (s.setCur x b).fwver = s.fwver := rfl
@[simp] theorem setCur_epoch (x : Option GroupRef) (b : List Byte) : (s.setCur x b).epoch = s.epoch := rfl
@[simp] theorem setCur_lastSeq (x : Option GroupRef) (b : List Byte) : (s.setCur x b).lastSeq = s.lastSeq := rfl
@[simp] theorem setCur_pkg (x : Option GroupRef) (b : List Byte) : (s.setCur x b).pkg = s.pkg := rfl
@[simp] theorem setCur_portAddrs (x : Option GroupRef) (b : List Byte) : (s.setCur x b).portAddrs = s.portAddrs := rfl
@[simp] theorem setCur_portUp (x : Option GroupRef) (b : List Byte) : (s.setCur x b).portUp = s.portUp := rfl
@[simp] theorem setCur_discarded (x : Option GroupRef) (b : List Byte) : (s.setCur x b).discarded = s.discarded := rfl
@[simp] theorem setCur_podOut (x : Option GroupRef) (b : List Byte) : (s.setCur x b).podOut = s.podOut := rfl
@[simp] theorem setCur_podIn (x : Option GroupRef) (b : List Byte) : (s.setCur x b).podIn = s.podIn := rfl
@[simp] theorem setCur_answers (x : Option GroupRef) (b : List Byte) : (s.setCur x b).answers = s.answers := rfl
@[simp] theorem setCur_doubleTraps (x : Option GroupRef) (b : List Byte) : (s.setCur x b).doubleTraps = s.doubleTraps := rfl
@[simp] theorem setCur_counts (x : Option GroupRef) (b : List Byte) : (s.setCur x b).counts = s.counts := rfl
@[simp] theorem setCur_countsNv (x : Option GroupRef) (b : List Byte) : (s.setCur x b).countsNv = s.countsNv := rfl

@[simp] theorem setMem_due (x : List Host.Cell) : (s.setMem x).due = s.due := rfl
@[simp] theorem setMem_issue (x : List Host.Cell) : (s.setMem x).issue = s.issue := rfl
@[simp] theorem setMem_agenda (x : List Host.Cell) : (s.setMem x).agenda = s.agenda := rfl
@[simp] theorem setMem_cur (x : List Host.Cell) : (s.setMem x).cur = s.cur := rfl
@[simp] theorem setMem_curBlk (x : List Host.Cell) : (s.setMem x).curBlk = s.curBlk := rfl
@[simp] theorem setMem_freeCtr (x : List Host.Cell) : (s.setMem x).freeCtr = s.freeCtr := rfl
@[simp] theorem setMem_nextId (x : List Host.Cell) : (s.setMem x).nextId = s.nextId := rfl
@[simp] theorem setMem_mem (x : List Host.Cell) : (s.setMem x).mem = x := rfl
@[simp] theorem setMem_poisoned (x : List Host.Cell) : (s.setMem x).poisoned = s.poisoned := rfl
@[simp] theorem setMem_deep (x : List Host.Cell) : (s.setMem x).deep = s.deep := rfl
@[simp] theorem setMem_unitsUsed (x : List Host.Cell) : (s.setMem x).unitsUsed = s.unitsUsed := rfl
@[simp] theorem setMem_oldExtents (x : List Host.Cell) : (s.setMem x).oldExtents = s.oldExtents := rfl
@[simp] theorem setMem_tick (x : List Host.Cell) : (s.setMem x).tick = s.tick := rfl
@[simp] theorem setMem_gangs (x : List Host.Cell) : (s.setMem x).gangs = s.gangs := rfl
@[simp] theorem setMem_halves (x : List Host.Cell) : (s.setMem x).halves = s.halves := rfl
@[simp] theorem setMem_crews (x : List Host.Cell) : (s.setMem x).crews = s.crews := rfl
@[simp] theorem setMem_items (x : List Host.Cell) : (s.setMem x).items = s.items := rfl
@[simp] theorem setMem_queues (x : List Host.Cell) : (s.setMem x).queues = s.queues := rfl
@[simp] theorem setMem_hub (x : List Host.Cell) : (s.setMem x).hub = s.hub := rfl
@[simp] theorem setMem_mboxes (x : List Host.Cell) : (s.setMem x).mboxes = s.mboxes := rfl
@[simp] theorem setMem_sems (x : List Host.Cell) : (s.setMem x).sems = s.sems := rfl
@[simp] theorem setMem_tokenHolder (x : List Host.Cell) : (s.setMem x).tokenHolder = s.tokenHolder := rfl
@[simp] theorem setMem_tokenReqs (x : List Host.Cell) : (s.setMem x).tokenReqs = s.tokenReqs := rfl
@[simp] theorem setMem_cmds (x : List Host.Cell) : (s.setMem x).cmds = s.cmds := rfl
@[simp] theorem setMem_reqs (x : List Host.Cell) : (s.setMem x).reqs = s.reqs := rfl
@[simp] theorem setMem_legacy (x : List Host.Cell) : (s.setMem x).legacy = s.legacy := rfl
@[simp] theorem setMem_accLive (x : List Host.Cell) : (s.setMem x).accLive = s.accLive := rfl
@[simp] theorem setMem_accShad (x : List Host.Cell) : (s.setMem x).accShad = s.accShad := rfl
@[simp] theorem setMem_cox (x : List Host.Cell) : (s.setMem x).cox = s.cox := rfl
@[simp] theorem setMem_parts (x : List Host.Cell) : (s.setMem x).parts = s.parts := rfl
@[simp] theorem setMem_psel (x : List Host.Cell) : (s.setMem x).psel = s.psel := rfl
@[simp] theorem setMem_grsel (x : List Host.Cell) : (s.setMem x).grsel = s.grsel := rfl
@[simp] theorem setMem_grants (x : List Host.Cell) : (s.setMem x).grants = s.grants := rfl
@[simp] theorem setMem_fq (x : List Host.Cell) : (s.setMem x).fq = s.fq := rfl
@[simp] theorem setMem_ctxtab (x : List Host.Cell) : (s.setMem x).ctxtab = s.ctxtab := rfl
@[simp] theorem setMem_lreq (x : List Host.Cell) : (s.setMem x).lreq = s.lreq := rfl
@[simp] theorem setMem_rreq (x : List Host.Cell) : (s.setMem x).rreq = s.rreq := rfl
@[simp] theorem setMem_mgva (x : List Host.Cell) : (s.setMem x).mgva = s.mgva := rfl
@[simp] theorem setMem_mgctl (x : List Host.Cell) : (s.setMem x).mgctl = s.mgctl := rfl
@[simp] theorem setMem_mgfrm (x : List Host.Cell) : (s.setMem x).mgfrm = s.mgfrm := rfl
@[simp] theorem setMem_mgcmp (x : List Host.Cell) : (s.setMem x).mgcmp = s.mgcmp := rfl
@[simp] theorem setMem_migration (x : List Host.Cell) : (s.setMem x).migration = s.migration := rfl
@[simp] theorem setMem_givingUp (x : List Host.Cell) : (s.setMem x).givingUp = s.givingUp := rfl
@[simp] theorem setMem_tlb (x : List Host.Cell) : (s.setMem x).tlb = s.tlb := rfl
@[simp] theorem setMem_ptrs (x : List Host.Cell) : (s.setMem x).ptrs = s.ptrs := rfl
@[simp] theorem setMem_invals (x : List Host.Cell) : (s.setMem x).invals = s.invals := rfl
@[simp] theorem setMem_code (x : List Host.Cell) : (s.setMem x).code = s.code := rfl
@[simp] theorem setMem_phase (x : List Host.Cell) : (s.setMem x).phase = s.phase := rfl
@[simp] theorem setMem_fuses (x : List Host.Cell) : (s.setMem x).fuses = s.fuses := rfl
@[simp] theorem setMem_dies (x : List Host.Cell) : (s.setMem x).dies = s.dies := rfl
@[simp] theorem setMem_powerLimited (x : List Host.Cell) : (s.setMem x).powerLimited = s.powerLimited := rfl
@[simp] theorem setMem_flash (x : List Host.Cell) : (s.setMem x).flash = s.flash := rfl
@[simp] theorem setMem_updateImage (x : List Host.Cell) : (s.setMem x).updateImage = s.updateImage := rfl
@[simp] theorem setMem_updfail (x : List Host.Cell) : (s.setMem x).updfail = s.updfail := rfl
@[simp] theorem setMem_fwver (x : List Host.Cell) : (s.setMem x).fwver = s.fwver := rfl
@[simp] theorem setMem_epoch (x : List Host.Cell) : (s.setMem x).epoch = s.epoch := rfl
@[simp] theorem setMem_lastSeq (x : List Host.Cell) : (s.setMem x).lastSeq = s.lastSeq := rfl
@[simp] theorem setMem_pkg (x : List Host.Cell) : (s.setMem x).pkg = s.pkg := rfl
@[simp] theorem setMem_portAddrs (x : List Host.Cell) : (s.setMem x).portAddrs = s.portAddrs := rfl
@[simp] theorem setMem_portUp (x : List Host.Cell) : (s.setMem x).portUp = s.portUp := rfl
@[simp] theorem setMem_discarded (x : List Host.Cell) : (s.setMem x).discarded = s.discarded := rfl
@[simp] theorem setMem_podOut (x : List Host.Cell) : (s.setMem x).podOut = s.podOut := rfl
@[simp] theorem setMem_podIn (x : List Host.Cell) : (s.setMem x).podIn = s.podIn := rfl
@[simp] theorem setMem_answers (x : List Host.Cell) : (s.setMem x).answers = s.answers := rfl
@[simp] theorem setMem_doubleTraps (x : List Host.Cell) : (s.setMem x).doubleTraps = s.doubleTraps := rfl
@[simp] theorem setMem_counts (x : List Host.Cell) : (s.setMem x).counts = s.counts := rfl
@[simp] theorem setMem_countsNv (x : List Host.Cell) : (s.setMem x).countsNv = s.countsNv := rfl

@[simp] theorem setGangs_due (x : List Gang) : (s.setGangs x).due = s.due := rfl
@[simp] theorem setGangs_issue (x : List Gang) : (s.setGangs x).issue = s.issue := rfl
@[simp] theorem setGangs_agenda (x : List Gang) : (s.setGangs x).agenda = s.agenda := rfl
@[simp] theorem setGangs_cur (x : List Gang) : (s.setGangs x).cur = s.cur := rfl
@[simp] theorem setGangs_curBlk (x : List Gang) : (s.setGangs x).curBlk = s.curBlk := rfl
@[simp] theorem setGangs_freeCtr (x : List Gang) : (s.setGangs x).freeCtr = s.freeCtr := rfl
@[simp] theorem setGangs_nextId (x : List Gang) : (s.setGangs x).nextId = s.nextId := rfl
@[simp] theorem setGangs_mem (x : List Gang) : (s.setGangs x).mem = s.mem := rfl
@[simp] theorem setGangs_poisoned (x : List Gang) : (s.setGangs x).poisoned = s.poisoned := rfl
@[simp] theorem setGangs_deep (x : List Gang) : (s.setGangs x).deep = s.deep := rfl
@[simp] theorem setGangs_unitsUsed (x : List Gang) : (s.setGangs x).unitsUsed = s.unitsUsed := rfl
@[simp] theorem setGangs_oldExtents (x : List Gang) : (s.setGangs x).oldExtents = s.oldExtents := rfl
@[simp] theorem setGangs_tick (x : List Gang) : (s.setGangs x).tick = s.tick := rfl
@[simp] theorem setGangs_gangs (x : List Gang) : (s.setGangs x).gangs = x := rfl
@[simp] theorem setGangs_halves (x : List Gang) : (s.setGangs x).halves = s.halves := rfl
@[simp] theorem setGangs_crews (x : List Gang) : (s.setGangs x).crews = s.crews := rfl
@[simp] theorem setGangs_items (x : List Gang) : (s.setGangs x).items = s.items := rfl
@[simp] theorem setGangs_queues (x : List Gang) : (s.setGangs x).queues = s.queues := rfl
@[simp] theorem setGangs_hub (x : List Gang) : (s.setGangs x).hub = s.hub := rfl
@[simp] theorem setGangs_mboxes (x : List Gang) : (s.setGangs x).mboxes = s.mboxes := rfl
@[simp] theorem setGangs_sems (x : List Gang) : (s.setGangs x).sems = s.sems := rfl
@[simp] theorem setGangs_tokenHolder (x : List Gang) : (s.setGangs x).tokenHolder = s.tokenHolder := rfl
@[simp] theorem setGangs_tokenReqs (x : List Gang) : (s.setGangs x).tokenReqs = s.tokenReqs := rfl
@[simp] theorem setGangs_cmds (x : List Gang) : (s.setGangs x).cmds = s.cmds := rfl
@[simp] theorem setGangs_reqs (x : List Gang) : (s.setGangs x).reqs = s.reqs := rfl
@[simp] theorem setGangs_legacy (x : List Gang) : (s.setGangs x).legacy = s.legacy := rfl
@[simp] theorem setGangs_accLive (x : List Gang) : (s.setGangs x).accLive = s.accLive := rfl
@[simp] theorem setGangs_accShad (x : List Gang) : (s.setGangs x).accShad = s.accShad := rfl
@[simp] theorem setGangs_cox (x : List Gang) : (s.setGangs x).cox = s.cox := rfl
@[simp] theorem setGangs_parts (x : List Gang) : (s.setGangs x).parts = s.parts := rfl
@[simp] theorem setGangs_psel (x : List Gang) : (s.setGangs x).psel = s.psel := rfl
@[simp] theorem setGangs_grsel (x : List Gang) : (s.setGangs x).grsel = s.grsel := rfl
@[simp] theorem setGangs_grants (x : List Gang) : (s.setGangs x).grants = s.grants := rfl
@[simp] theorem setGangs_fq (x : List Gang) : (s.setGangs x).fq = s.fq := rfl
@[simp] theorem setGangs_ctxtab (x : List Gang) : (s.setGangs x).ctxtab = s.ctxtab := rfl
@[simp] theorem setGangs_lreq (x : List Gang) : (s.setGangs x).lreq = s.lreq := rfl
@[simp] theorem setGangs_rreq (x : List Gang) : (s.setGangs x).rreq = s.rreq := rfl
@[simp] theorem setGangs_mgva (x : List Gang) : (s.setGangs x).mgva = s.mgva := rfl
@[simp] theorem setGangs_mgctl (x : List Gang) : (s.setGangs x).mgctl = s.mgctl := rfl
@[simp] theorem setGangs_mgfrm (x : List Gang) : (s.setGangs x).mgfrm = s.mgfrm := rfl
@[simp] theorem setGangs_mgcmp (x : List Gang) : (s.setGangs x).mgcmp = s.mgcmp := rfl
@[simp] theorem setGangs_migration (x : List Gang) : (s.setGangs x).migration = s.migration := rfl
@[simp] theorem setGangs_givingUp (x : List Gang) : (s.setGangs x).givingUp = s.givingUp := rfl
@[simp] theorem setGangs_tlb (x : List Gang) : (s.setGangs x).tlb = s.tlb := rfl
@[simp] theorem setGangs_ptrs (x : List Gang) : (s.setGangs x).ptrs = s.ptrs := rfl
@[simp] theorem setGangs_invals (x : List Gang) : (s.setGangs x).invals = s.invals := rfl
@[simp] theorem setGangs_code (x : List Gang) : (s.setGangs x).code = s.code := rfl
@[simp] theorem setGangs_phase (x : List Gang) : (s.setGangs x).phase = s.phase := rfl
@[simp] theorem setGangs_fuses (x : List Gang) : (s.setGangs x).fuses = s.fuses := rfl
@[simp] theorem setGangs_dies (x : List Gang) : (s.setGangs x).dies = s.dies := rfl
@[simp] theorem setGangs_powerLimited (x : List Gang) : (s.setGangs x).powerLimited = s.powerLimited := rfl
@[simp] theorem setGangs_flash (x : List Gang) : (s.setGangs x).flash = s.flash := rfl
@[simp] theorem setGangs_updateImage (x : List Gang) : (s.setGangs x).updateImage = s.updateImage := rfl
@[simp] theorem setGangs_updfail (x : List Gang) : (s.setGangs x).updfail = s.updfail := rfl
@[simp] theorem setGangs_fwver (x : List Gang) : (s.setGangs x).fwver = s.fwver := rfl
@[simp] theorem setGangs_epoch (x : List Gang) : (s.setGangs x).epoch = s.epoch := rfl
@[simp] theorem setGangs_lastSeq (x : List Gang) : (s.setGangs x).lastSeq = s.lastSeq := rfl
@[simp] theorem setGangs_pkg (x : List Gang) : (s.setGangs x).pkg = s.pkg := rfl
@[simp] theorem setGangs_portAddrs (x : List Gang) : (s.setGangs x).portAddrs = s.portAddrs := rfl
@[simp] theorem setGangs_portUp (x : List Gang) : (s.setGangs x).portUp = s.portUp := rfl
@[simp] theorem setGangs_discarded (x : List Gang) : (s.setGangs x).discarded = s.discarded := rfl
@[simp] theorem setGangs_podOut (x : List Gang) : (s.setGangs x).podOut = s.podOut := rfl
@[simp] theorem setGangs_podIn (x : List Gang) : (s.setGangs x).podIn = s.podIn := rfl
@[simp] theorem setGangs_answers (x : List Gang) : (s.setGangs x).answers = s.answers := rfl
@[simp] theorem setGangs_doubleTraps (x : List Gang) : (s.setGangs x).doubleTraps = s.doubleTraps := rfl
@[simp] theorem setGangs_counts (x : List Gang) : (s.setGangs x).counts = s.counts := rfl
@[simp] theorem setGangs_countsNv (x : List Gang) : (s.setGangs x).countsNv = s.countsNv := rfl

theorem putGang_eq (g : Gang) : s.putGang g = s.setGangs (mapIf (fun x => x.id == g.id) (fun _ => g) s.gangs) := rfl
theorem mapGang_eq (g : Nat) (f : Gang → Gang) : s.mapGang g f = s.setGangs (mapIf (fun x => x.id == g) f s.gangs) := rfl
theorem addDue_eq (i : Instr) : s.addDue i = s.setDue (s.due ++ [i]) := rfl
theorem store_eq (la : Nat) (bs : List Byte) : s.store la bs = s.setMem (memWrite s.mem la bs) := rfl

end Sys2Proof.Machine
end

