-- ==== Sys2Proof/Laws/Issue.lean ====
section
/-! SUPPORT. What the issue of an instruction does, once for all instructions: the place of a gang's lanes moves and nothing else of its core; an instruction whose body retires gives the state that `retire` gives; a lane-by-lane body writes what `WroteLanes` says. -/

namespace Sys2Proof.Machine

/-! ## Moving lanes touches their place only -/

theorem SamePlaceless.refl (a : GangCore) : SamePlaceless a a := rfl

theorem SamePlaceless.trans {a b c : GangCore} (h : SamePlaceless a b) (k : SamePlaceless b c) : SamePlaceless a c := by
  unfold SamePlaceless at *
  rw [k, h]

theorem arriveEnds_same (c : GangCore) (m : LaneMask) : SamePlaceless c (c.arriveEnds m) := by
  unfold GangCore.arriveEnds
  split <;> rfl

theorem gather_same (c : GangCore) (m : LaneMask) (pc : Word64) : SamePlaceless c (c.gather m pc) := by
  simp only [GangCore.gather]
  split <;> rfl

theorem setLoop_same (c : GangCore) (k : Nat) (x : LoopLevel) : SamePlaceless c (c.setLoop k x) := rfl

theorem ldepth_same (c : GangCore) (k : Nat) : SamePlaceless c { c with ldepth := k } := rfl

theorem fuse_same (c : GangCore) (x y : SubGang) : SamePlaceless c (c.fuse x y) := rfl

theorem prune_same (c : GangCore) : SamePlaceless c c.pruneFams.releaseColl := rfl

theorem subs_same (c : GangCore) (l : List SubGang) : SamePlaceless c { c with subs := l } := rfl

theorem rejoin_same (c : GangCore) (m : LaneMask) : SamePlaceless c (c.rejoin m) := rfl

theorem completeJoin_same (c : GangCore) (pc : Word64) : SamePlaceless c (c.completeJoin pc) := by
  simp only [GangCore.completeJoin]
  exact ((subs_same c _).trans (rejoin_same _ _)).trans (arriveEnds_same _ _)

theorem loopStep_same (c : GangCore) : SamePlaceless c c.loopStep := by
  simp only [GangCore.loopStep]
  split
  · exact (setLoop_same c _ _).trans (gather_same _ _ _)
  · exact (((setLoop_same c _ _).trans (gather_same _ _ _)).trans (ldepth_same _ _)).trans (arriveEnds_same _ _)

theorem settleSubs_same (n : Nat) : ∀ c : GangCore, SamePlaceless c (settleSubs n c) := by
  induction n with
  | zero => intro c; rfl
  | succ n ih =>
    intro c
    simp only [settleSubs]
    split
    · exact (fuse_same c _ _).trans (ih _)
    · split
      · exact ((prune_same c).trans (completeJoin_same _ _)).trans (ih _)
      · split
        · exact ((prune_same c).trans (loopStep_same _)).trans (ih _)
        · exact prune_same c

theorem settle_same (c : GangCore) : SamePlaceless c c.settle := settleSubs_same 200 c

theorem move_same (e : Env) (c : GangCore) (l : List SubGang) : SamePlaceless c (e.move c l) :=
  SamePlaceless.trans (b := { c with subs := c.subs.flatMap (fun (y : SubGang) => if y.lanes == e.x.lanes then l else [y]) }) rfl
    (SamePlaceless.trans (arriveEnds_same _ _) (settle_same _))

theorem loopsKept_refl (a : GangCore) : LoopsKept a a := fun h => ⟨rfl, h⟩

theorem LoopsKept.trans {a b c : GangCore} (h : LoopsKept a b) (k : LoopsKept b c) : LoopsKept a c := fun h0 => by
  obtain ⟨h1, h2⟩ := h h0
  obtain ⟨k1, k2⟩ := k h2
  exact ⟨k1.trans h1, k2⟩

theorem arriveEnds_loops (c : GangCore) (m : LaneMask) : LoopsKept c (c.arriveEnds m) := by
  intro h
  simp [GangCore.arriveEnds, h]

theorem subs_loops (c : GangCore) (l : List SubGang) : LoopsKept c { c with subs := l } := fun h => ⟨rfl, h⟩

theorem rejoin_loops (c : GangCore) (m : LaneMask) : LoopsKept c (c.rejoin m) := fun h => ⟨rfl, h⟩

theorem fuse_loops (c : GangCore) (x y : SubGang) : LoopsKept c (c.fuse x y) := fun h => ⟨rfl, h⟩

theorem completeJoin_loops (c : GangCore) (pc : Word64) : LoopsKept c (c.completeJoin pc) := by
  simp only [GangCore.completeJoin]
  exact ((subs_loops c _).trans (rejoin_loops _ _)).trans (arriveEnds_loops _ _)

theorem settleSubs_loops (n : Nat) : ∀ c : GangCore, LoopsKept c (settleSubs n c) := by
  induction n with
  | zero => exact fun c => loopsKept_refl c
  | succ n ih =>
    intro c
    have hp : LoopsKept c c.pruneFams.releaseColl := fun h => ⟨rfl, h⟩
    simp only [settleSubs]
    split
    · exact (fuse_loops c _ _).trans (ih _)
    · split
      · exact (hp.trans (completeJoin_loops _ _)).trans (ih _)
      · split
        · rename_i h2
          intro h
          simp [GangCore.loopDue, (hp h).2] at h2
        · exact hp

theorem move_loops (e : Env) (c : GangCore) (l : List SubGang) : LoopsKept c (e.move c l) :=
  LoopsKept.trans (b := { c with subs := c.subs.flatMap (fun (y : SubGang) => if y.lanes == e.x.lanes then l else [y]) }) (fun h => ⟨rfl, h⟩)
    (LoopsKept.trans (arriveEnds_loops _ _) (settleSubs_loops _ _))

/-! ## The environment -/

/-- The gang of an environment stands in the state under its number. -/
theorem env_gang {s : State} {n : Nat} {g : Guard} {e : Env} (h : s.env n g = some e) : s.gang? e.g.id = some e.g := by
  unfold State.env at h
  split at h
  · cases h
  · split at h
    · cases h
    · rename_i hg
      split at h
      · cases h
      · cases h
        rw [gang?_id hg]
        exact hg

/-! ## Retirement -/

theorem BitVec.or_and_not {w : Nat} (a b : BitVec w) : a ||| (b &&& ~~~b) = a := by
  ext i
  simp

/-- Latches of a gang that no other part of the machine touched meanwhile are its own. -/
theorem adoptLatches_self (s : State) (was g w : Gang) (h : s.gang? g.id = some w) (hw : w.core.evpend = was.core.evpend) :
    s.adoptLatches was g = g := by
  simp only [State.adoptLatches, h, hw, Gang.mapCore, BitVec.or_and_not]

theorem killReg_same (c : GangCore) (r l : Nat) : c.killReg r l = { c with regs := (c.killReg r l).regs } := rfl

theorem killRegs_same (m : LaneMask) (rs : List Nat) : ∀ c : GangCore, c.killRegs m rs = { c with regs := (c.killRegs m rs).regs } := by
  have h1 : ∀ (ls : List Nat) (r : Nat) (c : GangCore), ls.foldl (fun c l => c.killReg r l) c = { c with regs := (ls.foldl (fun c l => c.killReg r l) c).regs } := by
    intro ls r
    induction ls with
    | nil => intro c; rfl
    | cons l ls ih =>
      intro c
      simp only [List.foldl_cons]
      rw [ih (c.killReg r l)]
      rfl
  unfold GangCore.killRegs
  induction rs with
  | nil => intro c; rfl
  | cons r rs ih =>
    intro c
    simp only [List.foldl_cons]
    rw [ih, h1]

/-- Last reads change registers only. -/
theorem applyMarks_same (sp : Spec) (m : LaneMask) (c : GangCore) : sp.applyMarks m c = { c with regs := (sp.applyMarks m c).regs } :=
  killRegs_same _ _ c

theorem marked_loops (sp : Spec) (m : LaneMask) (c : GangCore) :
    ((sp.applyMarks m c).ctrUp sp.ctr).ldepth = c.ldepth ∧ ((sp.applyMarks m c).ctrUp sp.ctr).loops = c.loops := by
  rw [applyMarks_same]
  unfold GangCore.ctrUp
  split <;> exact ⟨rfl, rfl⟩

/-- What an instruction's retirement makes of a core, its lanes' place apart: last reads, counters, lanes that leave. -/
def Spec.settled (sp : Spec) (a : After) (c : GangCore) : GangCore :=
  let k := (sp.applyMarks a.retired c).ctrUp sp.ctr
  { k with exited := k.exited ||| a.gone, quarantined := k.quarantined ||| a.quar, fmask := k.fmask ||| a.quar }

/-- What `retire` does to the gang of an implicit chunk, when the package's own copy of the gang is still the one that issued. -/
theorem retire_eq (e : Env) (sp : Spec) (s : State) (g : Gang) (c : Chunk) (a : After) (w : Gang) (hs : s.gang? g.id = some w)
    (hw : w.core.evpend = e.g.core.evpend) (hc : g.chunk = some c) (hx : c.expl = none) :
    ∃ closed, let core := e.settled sp g.core a
      e.retire sp s g a = s.putGang { g with core := core, chunk := some { c with count := c.count + 1, closed := closed } } ∧
      SamePlaceless (sp.settled a g.core) core ∧ LoopsKept g.core core ∧ (sp.chunk = .after ∨ sp.chunk = .bracket → closed = true) := by
  have hid : s.adoptLatches e.g g = g := adoptLatches_self s e.g g w hs hw
  simp only [Env.retire, hid, hc, hx]
  refine ⟨_, rfl, ?_, ?_, ?_⟩
  · have h := move_same e ((sp.applyMarks a.retired g.core).ctrUp sp.ctr) (e.split a)
    unfold SamePlaceless at h
    unfold SamePlaceless Spec.settled Env.settled
    dsimp only
    rw [h]
  · intro h0
    obtain ⟨m1, m2⟩ := marked_loops sp a.retired g.core
    have h := move_loops e ((sp.applyMarks a.retired g.core).ctrUp sp.ctr) (e.split a) (m1.trans h0)
    exact ⟨h.1.trans m2, h.2⟩
  · rintro (h | h) <;> simp [h]

/-! ## The issue -/

/-- An instruction that executes runs its body with its chunk open. -/
theorem issue_runs {s : State} {n : Nat} {gd : Guard} {sp : Env → Spec} {body : Env → State → Gang → Res} {e : Env}
    (he : s.env n gd = some e) (hx : e.executes (sp e) = true) : issue n gd sp body s = .next (e.run (sp e) s body) := by
  simp only [Env.executes, Bool.and_eq_true, beq_iff_eq, bne_iff_ne, Bool.or_eq_true, Bool.not_eq_true'] at hx
  obtain ⟨⟨⟨⟨⟨⟨h1, h2⟩, h3⟩, h4⟩, h5⟩, h7⟩, h6⟩ := hx
  have hex : e.explicit = none := by
    unfold Env.explicit
    unfold Env.chunkRoom at h6
    split at h6
    · rename_i k; simp [k]
    · rename_i k
      simp only [Bool.and_eq_true, Option.isNone_iff_eq_none] at h6
      simp [k, h6.1]
  simp only [issue, he, Env.issue, h1, h2, h7, hex, if_false, Bool.false_eq_true]
  rcases h3 with h3 | h3 <;> simp [h3, h4, h5]

/-- The chunk that an instruction joins is implicit. -/
theorem room_implicit {e : Env} {sp : Spec} (h : e.chunkRoom sp = true) : e.g.openChunk.expl = none := by
  unfold Env.chunkRoom at h
  unfold Gang.openChunk
  split at h
  · rename_i k; simp [k, Chunk.fresh]
  · rename_i k
    simp only [Bool.and_eq_true, Option.isNone_iff_eq_none] at h
    simp [k, h.1]

/-- It is empty, or the instruction need not come first. -/
theorem room_before {e : Env} {sp : Spec} (h : e.chunkRoom sp = true) :
    (!(e.g.openChunk.count == 0) && (sp.chunk == .before || sp.chunk == .own)) = false := by
  unfold Env.chunkRoom at h
  unfold Gang.openChunk
  split at h
  · rename_i k; simp [k, Chunk.fresh]
  · rename_i k
    simp only [Bool.and_eq_true, Bool.or_eq_true, bne_iff_ne] at h
    rcases h.2 with h2 | h2
    · simp only [k, Option.getD_some, h2, Bool.not_true, Bool.false_and]
    · simp [h2.1.1, h2.1.2]

/-- An instruction whose body retires retires its group. -/
theorem run_ok {e : Env} {sp : Spec} {s s' : State} {body : Env → State → Gang → Res} {g' : Gang} {c' : Chunk} {a : After}
    (hx : e.executes sp = true) (hown : sp.chunk ≠ .own) (hb : body e.opened s e.opened.g = .ok s' g' a)
    (hc : g'.chunk = some c') (hl : e.g.openChunk.count = 0 ∨ overLimit c' = false) :
    e.run sp s body = e.opened.retire sp s' g' a := by
  have hr : e.chunkRoom sp = true := by
    simp only [Env.executes, Bool.and_eq_true] at hx; exact hx.2
  unfold Env.run
  dsimp only
  rw [if_neg (by rw [room_before hr]; exact Bool.false_ne_true)]
  have hb' : body { e with g := { e.g with chunk := some e.g.openChunk } } s { e.g with chunk := some e.g.openChunk } = .ok s' g' a := hb
  rw [hb']
  dsimp only
  rw [if_neg, if_neg]
  · rfl
  · simpa using hown
  · rw [hc]
    rcases hl with h | h <;> simp [h]

/-- THE completion lemma: an instruction whose body retires changes its gang alone; what `P` and `Q` say of the core and the chunk is to be shown of what the body left. -/
theorem gangStep_of_body {i : Instr} {s s' : State} {n : Nat} {gd : Guard} {sp : Env → Spec} {body : Env → State → Gang → Res}
    {e : Env} {g' : Gang} {c' : Chunk} {a : After} {P : GangCore → Prop} {Q : Chunk → Prop}
    (hi : exec i s = issue n gd sp body s) (he : s.env n gd = some e) (hx : e.executes (sp e) = true) (hown : (sp e).chunk ≠ .own)
    (hb : body e.opened s e.opened.g = .ok s' g' a) (hg : g' = { e.g with core := g'.core, chunk := some c' })
    (hl : e.g.openChunk.count = 0 ∨ overLimit c' = false) (hs : s'.gangs = s.gangs) (hcx : c'.expl = none)
    (hP : let core := e.settled (sp e) g'.core a
      SamePlaceless ((sp e).settled a g'.core) core → LoopsKept g'.core core → P core)
    (hQ : ∀ closed, ((sp e).chunk = .after ∨ (sp e).chunk = .bracket → closed = true) → Q { c' with count := c'.count + 1, closed := closed }) :
    GangStep i s s' e P Q := by
  have hc : g'.chunk = some c' := by rw [hg]
  have hid : g'.id = e.g.id := by rw [hg]
  have hgang : ∀ k, s'.gang? k = s.gang? k := fun k => by simp only [State.gang?, hs]
  have hself : s'.gang? g'.id = some e.g := by rw [hid, hgang]; exact env_gang he
  obtain ⟨closed, h1, h2, h3, h4⟩ := retire_eq e.opened (sp e) s' g' c' a e.g hself rfl hc hcx
  let core := e.settled (sp e) g'.core a
  refine ⟨s'.putGang { g' with core := core, chunk := some { c' with count := c'.count + 1, closed := closed } },
    { g' with core := core, chunk := some { c' with count := c'.count + 1, closed := closed } }, _, ?_, rfl, ?_, ?_, ?_, hP h2 h3, hQ closed h4⟩
  · rw [hi, issue_runs he hx, run_ok hx hown hb hc hl, h1]
    rfl
  · intro k hk
    rw [gang?_putGang_ne _ _ (by simpa [hid] using hk), hgang]
  · rw [← hid]
    exact gang?_putGang_self (x := e.g) hself
  · rw [hg]

end Sys2Proof.Machine
end

