-- ==== Sys2Proof/Laws/Place.lean ====
section
/-! SUPPORT. Where the lanes of a group stand after an instruction: the split by next PC, and that nothing follows it when no lane waits at a meeting. -/

namespace Sys2Proof.Machine

/-! ## Lane sets -/

theorem laneBit_getLsbD {k l : Nat} (hl : l < 64) : (laneBit k).getLsbD l = decide (k = l) := by
  simp only [laneBit, BitVec.getLsbD_ofNat, Nat.testBit_two_pow, hl, decide_true, Bool.true_and]

/-! ## The split by next PC (R31) -/

/-- A list of groups holds lane `l` at `pc`. -/
def Grouped (r : List (LaneMask × Word64)) (l : Nat) (pc : Word64) : Prop := ∃ p ∈ r, p.2 = pc ∧ p.1.getLsbD l = true

theorem groupByPc_spec (ls : List (Nat × Word64)) : ∀ acc : List (LaneMask × Word64), (acc.map (·.2)).Nodup →
    ((groupByPc ls acc).map (·.2)).Nodup ∧
    (∀ l pc, l < 64 → (Grouped (groupByPc ls acc) l pc ↔ Grouped acc l pc ∨ (l, pc) ∈ ls)) ∧
    (∀ pc, (∃ p ∈ groupByPc ls acc, p.2 = pc) ↔ (∃ p ∈ acc, p.2 = pc) ∨ ∃ x ∈ ls, x.2 = pc) := by
  induction ls with
  | nil => intro acc h; simp [groupByPc, h]
  | cons x ls ih =>
    obtain ⟨k, kpc⟩ := x
    intro acc h
    simp only [groupByPc]
    split
    · rename_i ha
      have hmap : (acc.map (fun x => if (x.2 == kpc) = true then (x.1 ||| laneBit k, x.2) else x)).map (·.2) = acc.map (·.2) := by
        rw [List.map_map]
        apply List.map_congr_left
        intro x _
        simp only [Function.comp]
        split <;> rfl
      obtain ⟨h1, h2, h3⟩ := ih _ (by rw [hmap]; exact h)
      refine ⟨h1, ?_, ?_⟩
      · intro l pc hl
        rw [h2 l pc hl]
        simp only [Grouped, List.mem_map, List.mem_cons, Prod.mk.injEq]
        constructor
        · rintro (⟨p, ⟨q, hq, rfl⟩, hp1, hp2⟩ | hm)
          · by_cases hk : (q.2 == kpc) = true
            · simp only [hk, if_true, BitVec.getLsbD_or, Bool.or_eq_true, laneBit_getLsbD hl, decide_eq_true_eq] at hp1 hp2
              rcases hp2 with hp2 | hp2
              · exact .inl ⟨q, hq, hp1, hp2⟩
              · right; left; exact ⟨hp2.symm, by rw [← hp1]; exact (beq_iff_eq.mp hk)⟩
            · simp only [hk] at hp1 hp2
              exact .inl ⟨q, hq, hp1, hp2⟩
          · exact .inr (.inr hm)
        · rintro (⟨q, hq, hq1, hq2⟩ | ⟨rfl, rfl⟩ | hm)
          · left
            refine ⟨_, ⟨q, hq, rfl⟩, ?_⟩
            by_cases hk : (q.2 == kpc) = true
            · simp only [hk, if_true, BitVec.getLsbD_or, hq2, Bool.true_or, and_true]; exact hq1
            · simp only [hk]; exact ⟨hq1, hq2⟩
          · left
            obtain ⟨q, hq, hqk⟩ := List.any_eq_true.mp ha
            refine ⟨_, ⟨q, hq, rfl⟩, ?_⟩
            simp only [hqk, if_true, BitVec.getLsbD_or, laneBit_getLsbD hl, decide_true, Bool.or_true, and_true]
            exact beq_iff_eq.mp hqk
          · exact .inr hm
      · intro pc
        rw [h3 pc]
        constructor
        · rintro (⟨p, hp, rfl⟩ | ⟨x, hx, rfl⟩)
          · obtain ⟨q, hq, rfl⟩ := List.mem_map.mp hp
            left
            refine ⟨q, hq, ?_⟩
            split <;> rfl
          · exact .inr ⟨x, List.mem_cons_of_mem _ hx, rfl⟩
        · rintro (⟨p, hp, rfl⟩ | ⟨x, hx, rfl⟩)
          · left
            refine ⟨_, List.mem_map.mpr ⟨p, hp, rfl⟩, ?_⟩
            split <;> rfl
          · rcases List.mem_cons.mp hx with rfl | hx
            · left
              obtain ⟨q, hq, hqk⟩ := List.any_eq_true.mp ha
              refine ⟨_, List.mem_map.mpr ⟨q, hq, rfl⟩, ?_⟩
              simp only [hqk, if_true]
              exact beq_iff_eq.mp hqk
            · exact .inr ⟨x, hx, rfl⟩
    · rename_i ha
      have hno : ∀ q ∈ acc, q.2 ≠ kpc := by
        intro q hq hk
        exact ha (List.any_eq_true.mpr ⟨q, hq, beq_iff_eq.mpr hk⟩)
      have hnd : ((acc ++ [(laneBit k, kpc)]).map (·.2)).Nodup := by
        rw [List.map_append, List.nodup_append]
        refine ⟨h, by simp, ?_⟩
        intro a h1 b h2
        obtain ⟨q, hq, rfl⟩ := List.mem_map.mp h1
        simp only [List.map_cons, List.map_nil, List.mem_singleton] at h2
        rw [h2]; exact hno q hq
      obtain ⟨h1, h2, h3⟩ := ih _ hnd
      refine ⟨h1, ?_, ?_⟩
      · intro l pc hl
        rw [h2 l pc hl]
        simp only [Grouped, List.mem_append, List.mem_cons, Prod.mk.injEq, List.not_mem_nil, or_false]
        constructor
        · rintro (⟨p, hp | hp, hp1, hp2⟩ | hm)
          · exact .inl ⟨p, hp, hp1, hp2⟩
          · subst hp
            simp only [laneBit_getLsbD hl, decide_eq_true_eq] at hp2
            exact .inr (.inl ⟨hp2.symm, hp1.symm⟩)
          · exact .inr (.inr hm)
        · rintro (⟨p, hp, hp1, hp2⟩ | ⟨rfl, rfl⟩ | hm)
          · exact .inl ⟨p, .inl hp, hp1, hp2⟩
          · exact .inl ⟨_, .inr rfl, rfl, by simp [laneBit_getLsbD hl]⟩
          · exact .inr hm
      · intro pc
        rw [h3 pc]
        constructor
        · rintro (⟨p, hp, rfl⟩ | ⟨x, hx, rfl⟩)
          · rcases List.mem_append.mp hp with hp | hp
            · exact .inl ⟨p, hp, rfl⟩
            · rw [List.mem_singleton] at hp; subst hp
              exact .inr ⟨_, List.mem_cons_self, rfl⟩
          · exact .inr ⟨x, List.mem_cons_of_mem _ hx, rfl⟩
        · rintro (⟨p, hp, rfl⟩ | ⟨x, hx, rfl⟩)
          · exact .inl ⟨p, List.mem_append_left _ hp, rfl⟩
          · rcases List.mem_cons.mp hx with rfl | hx
            · exact .inl ⟨_, List.mem_append_right _ (List.mem_singleton.mpr rfl), rfl⟩
            · exact .inr ⟨x, hx, rfl⟩

theorem eq_of_nodup_map {α β : Type} {f : α → β} : ∀ {r : List α}, (r.map f).Nodup → ∀ {a b}, a ∈ r → b ∈ r → f a = f b → a = b
  | [], _, _, _, h, _, _ => by cases h
  | x :: r, hn, a, b, ha, hb, hf => by
    rw [List.map_cons, List.nodup_cons] at hn
    rcases List.mem_cons.mp ha with h1 | h1 <;> rcases List.mem_cons.mp hb with h2 | h2
    · rw [h1, h2]
    · exact absurd (List.mem_map.mpr ⟨b, h2, by rw [← hf, h1]⟩) hn.1
    · exact absurd (List.mem_map.mpr ⟨a, h1, by rw [hf, h2]⟩) hn.1
    · exact eq_of_nodup_map hn.2 h1 h2 hf

/-- Groups of distinct PCs, each holding just the lanes that `next` sends there, are where `MovedTo` says. -/
theorem movedTo_groups (c : GangCore) (r : List (LaneMask × Word64)) (m : LaneMask) (w : Wait) (next : Nat → Word64)
    (hs : c.subs = r.map (fun p => ⟨p.1, p.2, w, 0⟩)) (hn : (r.map (·.2)).Nodup)
    (hg : ∀ l pc, l < 64 → (Grouped r l pc ↔ m.getLsbD l = true ∧ pc = next l)) : MovedTo c m w next := by
  constructor
  · intro x hx
    rw [hs] at hx
    obtain ⟨p, hp, rfl⟩ := List.mem_map.mp hx
    refine ⟨rfl, fun l hl => ?_⟩
    rw [Bool.eq_iff_iff]
    simp only [Bool.and_eq_true, beq_iff_eq]
    constructor
    · intro h
      have := (hg l p.2 hl).mp ⟨p, hp, rfl, h⟩
      exact this
    · intro h
      obtain ⟨q, hq, hq1, hq2⟩ := (hg l p.2 hl).mpr h
      have : q = p := by
        exact eq_of_nodup_map hn hq hp hq1
      rw [← this]; exact hq2
  · intro l hl hm
    obtain ⟨q, hq, hq1, _⟩ := (hg l (next l) hl).mpr ⟨hm, rfl⟩
    exact ⟨⟨q.1, q.2, w, 0⟩, by rw [hs]; exact List.mem_map.mpr ⟨q, hq, rfl⟩, hq1⟩

theorem map_same {α : Type} {f : α → α} : ∀ {l : List α}, (∀ x ∈ l, f x = x) → l.map f = l
  | [], _ => rfl
  | x :: l, h => by rw [List.map_cons, h x List.mem_cons_self, map_same (fun y hy => h y (List.mem_cons_of_mem _ hy))]

/-! ## Nothing follows a move when no lane waits at a meeting -/

/-- A sub-gang that no rule moves: at no join and no collective. -/
def SubGang.still (x : SubGang) : Bool := match x.wait with | .join .. | .coll _ => false | _ => true

theorem settle_still (c : GangCore) (hf : c.fams = []) (h : ∀ x ∈ c.subs, x.still = true) (hl : c.loopDue = false) : c.settle = c := by
  have hp : c.fusePair = none := by simp [GangCore.fusePair, hf]
  have hr : c.pruneFams.releaseColl = c := by
    have hc : c.pruneFams = c := by simp only [GangCore.pruneFams, hf, List.filter_nil]; rw [← hf]
    rw [hc]
    unfold GangCore.releaseColl
    refine congrArg (fun l => ({ c with subs := l } : GangCore)) (map_same ?_ : _ = c.subs)
    intro x hx
    have := h x hx
    simp only [SubGang.still] at this
    cases hw : x.wait <;> simp_all
  have hj : c.joinDone = none := by
    have : c.subs.filter (fun x => (joinMaskOf x).isSome) = [] := by
      rw [List.filter_eq_nil_iff]
      intro x hx
      have := h x hx
      simp only [SubGang.still] at this
      unfold joinMaskOf
      cases hw : x.wait <;> simp_all
    simp only [GangCore.joinDone, this, List.findSome?_nil]
  show settleSubs (199 + 1) c = c
  rw [settleSubs.eq_2]
  simp only [hp, hr, hj, hl, Bool.false_eq_true, if_false]

/-- The move of a whole gang in no loop and of no family. -/
theorem move_alone (e : Env) (c : GangCore) (l : List SubGang) (hc : c.subs = [e.x]) (hf : c.fams = []) (h : ∀ x ∈ l, x.still = true) (hd : c.ldepth = 0) :
    e.move c l = { c with subs := l } := by
  have h1 : c.subs.flatMap (fun (y : SubGang) => if y.lanes == e.x.lanes then l else [y]) = l := by simp [hc]
  simp only [Env.move, h1]
  have h2 : ({ c with subs := l } : GangCore).arriveEnds e.act = { c with subs := l } := by simp [GangCore.arriveEnds, hd]
  rw [h2]
  exact settle_still _ hf h (by simp [GangCore.loopDue, hd])

/-! ## The split of a group -/

/-- Where a lane that executed goes. -/
def Env.nextOf (e : Env) (a : After) (l : Nat) : Word64 := match a.next.find? (fun p => p.1 == l) with | some p => p.2 | none => e.nextPc

theorem nextOf_map (ls : List Nat) (f : Nat → Word64) (l : Nat) (h : l ∈ ls) :
    ((ls.map (fun l => (l, f l))).find? (fun p => p.1 == l)) = some (l, f l) := by
  induction ls with
  | nil => cases h
  | cons k ls ih =>
    simp only [List.map_cons, List.find?_cons]
    by_cases hk : (k == l) = true
    · simp only [hk]
      rw [beq_iff_eq.mp hk]
    · simp only [hk]
      rcases List.mem_cons.mp h with rfl | h
      · simp at hk
      · exact ih h

theorem grouped_lanes (m : LaneMask) (f : Nat → Word64) (acc : List (LaneMask × Word64)) (hn : (acc.map (·.2)).Nodup) (l : Nat) (pc : Word64) (hl : l < 64) :
    Grouped (groupByPc ((lanesOf m).map (fun l => (l, f l))) acc) l pc ↔ Grouped acc l pc ∨ (m.getLsbD l = true ∧ pc = f l) := by
  rw [(groupByPc_spec _ acc hn).2.1 l pc hl]
  simp only [List.mem_map, lanesOf, List.mem_filter, List.mem_range, Prod.mk.injEq]
  constructor
  · rintro (h | ⟨k, ⟨_, hk⟩, rfl, rfl⟩)
    · exact .inl h
    · exact .inr ⟨hk, rfl⟩
  · rintro (h | ⟨h, rfl⟩)
    · exact .inl h
    · exact .inr ⟨l, ⟨hl, h⟩, rfl, rfl⟩

/-- Lanes that all become ready, or that all execute, stand where the instruction sends them. -/
theorem split_moved (e : Env) (a : After) (hg : a.wait.groupWide = false)
    (h : a.wait = .ready ∨ (e.act &&& ~~~(a.gone ||| a.quar)) &&& ~~~e.on = 0) (c : GangCore) (hc : c.subs = e.split a) :
    MovedTo c (e.act &&& ~~~(a.gone ||| a.quar)) a.wait (fun l => if e.on.getLsbD l then e.nextOf a l else e.nextPc) := by
  have h0 : ∀ l pc, ¬ Grouped [] l pc := by rintro l pc ⟨p, hp, _⟩; cases hp
  have n0 : (([] : List (LaneMask × Word64)).map (·.2)).Nodup := List.nodup_nil
  simp only [Env.split] at hc
  rw [if_neg (by rw [hg]; exact Bool.false_ne_true)] at hc
  by_cases ho : (e.act &&& ~~~(a.gone ||| a.quar)) &&& ~~~e.on = 0
  · rw [if_pos ho] at hc
    have hon : ∀ l, l < 64 → (e.act &&& ~~~(a.gone ||| a.quar)).getLsbD l = true → e.on.getLsbD l = true := by
      intro l hl h1
      have h2 : ((e.act &&& ~~~(a.gone ||| a.quar)) &&& ~~~e.on).getLsbD l = false := by rw [ho]; simp
      rw [BitVec.getLsbD_and, h1, BitVec.getLsbD_not] at h2
      simpa [hl] using h2
    refine movedTo_groups c (groupByPc ((lanesOf ((e.act &&& ~~~(a.gone ||| a.quar)) &&& e.on)).map (fun l => (l, e.nextOf a l))) []) _ _ _ hc
      (groupByPc_spec _ [] n0).1 ?_
    intro l pc hl
    rw [grouped_lanes _ _ _ n0 l pc hl]
    simp only [h0, false_or, BitVec.getLsbD_and, Bool.and_eq_true]
    constructor
    · rintro ⟨⟨h1, h2⟩, h3⟩
      exact ⟨h1, by rw [if_pos h2]; exact h3⟩
    · rintro ⟨h1, h3⟩
      have h2 := hon l hl (by rw [BitVec.getLsbD_and, Bool.and_eq_true]; exact h1)
      rw [if_pos h2] at h3
      exact ⟨⟨h1, h2⟩, h3⟩
  · rcases h with h | h
    · rw [if_neg ho, if_pos h] at hc
      have n1 := (groupByPc_spec ((lanesOf ((e.act &&& ~~~(a.gone ||| a.quar)) &&& e.on)).map (fun l => (l, e.nextOf a l))) [] n0).1
      rw [h]
      refine movedTo_groups c (groupByPc ((lanesOf ((e.act &&& ~~~(a.gone ||| a.quar)) &&& ~~~e.on)).map (fun l => (l, e.nextPc)))
        (groupByPc ((lanesOf ((e.act &&& ~~~(a.gone ||| a.quar)) &&& e.on)).map (fun l => (l, e.nextOf a l))) [])) _ _ _ hc
        (groupByPc_spec _ _ n1).1 ?_
      intro l pc hl
      rw [grouped_lanes _ (fun _ => e.nextPc) _ n1 l pc hl, grouped_lanes _ _ _ n0 l pc hl]
      simp only [h0, false_or, BitVec.getLsbD_and, BitVec.getLsbD_not, hl, decide_true, Bool.true_and, Bool.and_eq_true, Bool.not_eq_true']
      by_cases hb : e.on.getLsbD l = true
      · simp only [hb, and_true, if_true, Bool.true_eq_false, and_false, false_and, or_false]
      · rw [Bool.not_eq_true] at hb
        simp only [hb, Bool.false_eq_true, and_false, false_and, if_false, and_true, false_or]
    · exact absurd h ho

/-- Lanes that wait as a group stand together. -/
theorem split_wide (e : Env) (a : After) (hg : a.wait.groupWide = true) (pc : Word64) (hpc : (a.next.head?.map (·.2)).getD e.nextPc = pc)
    (c : GangCore) (hc : c.subs = e.split a) : MovedTo c (e.act &&& ~~~(a.gone ||| a.quar)) a.wait (fun _ => pc) := by
  simp only [Env.split, hg, if_true, hpc] at hc
  by_cases h0 : e.act &&& ~~~(a.gone ||| a.quar) = 0
  · rw [if_pos h0] at hc
    rw [h0]
    exact ⟨fun x hx => (by rw [hc] at hx; cases hx), fun l _ hl => (by simp at hl)⟩
  · rw [if_neg h0] at hc
    refine ⟨fun x hx => ?_, fun l _ _ => ?_⟩
    · rw [hc] at hx
      obtain rfl := List.mem_singleton.mp hx
      exact ⟨rfl, fun l _ => by simp⟩
    · exact ⟨_, by rw [hc]; exact List.mem_singleton.mpr rfl, rfl⟩

/-- The sub-gangs a whole group becomes wait as `a` says. -/
theorem split_still (e : Env) (a : After) (hw : (match a.wait with | .join .. | .coll _ => false | _ => true) = true) :
    ∀ x ∈ e.split a, x.still = true := by
  intro x hx
  have hs : ∀ (m : LaneMask) (pc : Word64) (w : Wait), (w = a.wait ∨ w = .ready) → (⟨m, pc, w, 0⟩ : SubGang).still = true := by
    rintro m pc w (rfl | rfl)
    · exact hw
    · rfl
  simp only [Env.split] at hx
  split at hx
  · split at hx
    · cases hx
    · obtain rfl := List.mem_singleton.mp hx; exact hs _ _ _ (.inl rfl)
  · split at hx
    · obtain ⟨p, _, rfl⟩ := List.mem_map.mp hx; exact hs _ _ _ (.inl rfl)
    · split at hx
      · obtain ⟨p, _, rfl⟩ := List.mem_map.mp hx; exact hs _ _ _ (.inr rfl)
      · rcases List.mem_append.mp hx with hx | hx
        · obtain ⟨p, _, rfl⟩ := List.mem_map.mp hx; exact hs _ _ _ (.inl rfl)
        · obtain rfl := List.mem_singleton.mp hx; exact hs _ _ _ (.inr rfl)

/-! ## Lanes that go on -/

/-- What a result says of lanes that all retire and go on at the next instruction. -/
def After.plain (e : Env) (a : After) : Prop := a.next = [] ∧ a.wait = .ready ∧ a.retired = e.on ∧ a.gone = 0 ∧ a.quar = 0

theorem through_plain (e : Env) : After.plain e e.through := ⟨rfl, rfl, rfl, rfl, rfl⟩

/-! ## Retirement of a whole gang in no loop -/

theorem applyMarks_keeps (sp : Spec) (m : LaneMask) (c : GangCore) :
    ((sp.applyMarks m c).ctrUp sp.ctr).subs = c.subs ∧ ((sp.applyMarks m c).ctrUp sp.ctr).fams = c.fams ∧
      ((sp.applyMarks m c).ctrUp sp.ctr).ldepth = c.ldepth := by
  rw [applyMarks_same]
  cases sp.ctr <;> exact ⟨rfl, rfl, rfl⟩

theorem settled_alone (e : Env) (sp : Spec) (c : GangCore) (a : After) (h1 : c.subs = [e.x]) (hf : c.fams = []) (h2 : c.ldepth = 0)
    (h3 : ∀ x ∈ e.split a, x.still = true) : e.settled sp c a = { sp.settled a c with subs := e.split a } := by
  obtain ⟨k1, k3, k2⟩ := applyMarks_keeps sp a.retired c
  simp only [Env.settled]
  rw [move_alone e _ (e.split a) (k1.trans h1) (k3.trans hf) h3 (k2.trans h2)]
  rfl

/-- Lanes that retire and go on stand at the next instruction. -/
theorem settled_goesOn (e : Env) (sp : Spec) (c : GangCore) (a : After) (ha : After.plain e a)
    (hs : c.subs = e.core.subs) (hf : c.fams = e.core.fams) (hd : c.ldepth = e.core.ldepth) : e.goesOn (e.settled sp c a) := by
  intro hal
  unfold Env.alone at hal
  simp only [Bool.and_eq_true, beq_iff_eq] at hal
  obtain ⟨⟨h1, h2⟩, h3⟩ := hal
  obtain ⟨hn, hw, _, hg, hq⟩ := ha
  rw [settled_alone e sp c a (hs.trans h1) (hf.trans h3) (hd.trans h2) (split_still e a (by rw [hw]))]
  have hm := split_moved e a (by rw [hw]; rfl) (.inl hw) { sp.settled a c with subs := e.split a } rfl
  have h0 : e.act &&& ~~~(a.gone ||| a.quar) = e.act := by
    rw [hg, hq, show ~~~((0 : LaneMask) ||| 0) = BitVec.allOnes 64 from rfl, BitVec.and_allOnes]
  rw [h0, hw] at hm
  have hf' : (fun l => if e.on.getLsbD l = true then e.nextOf a l else e.nextPc) = fun _ => e.nextPc := by
    funext l
    simp [Env.nextOf, hn]
  rw [hf'] at hm
  exact hm

/-- What `retire` does to a whole gang in no loop, all of it. -/
theorem retire_alone (e : Env) (sp : Spec) (s : State) (g : Gang) (c : Chunk) (a : After) (w : Gang) (hs : s.gang? g.id = some w)
    (hw : w.core.evpend = e.g.core.evpend) (hc : g.chunk = some c) (hx : c.expl = none) (h1 : g.core.subs = [e.x]) (hf : g.core.fams = []) (h2 : g.core.ldepth = 0)
    (h3 : ∀ x ∈ e.split a, x.still = true) :
    let b : GangCore := { sp.settled a g.core with subs := e.split a }
    e.retire sp s g a = s.putGang { g with core := b, chunk := some { c with count := c.count + 1, closed := (1024 ≤ c.count + 1 || sp.chunk == .after || sp.chunk == .bracket || b.idle) } } := by
  have hid : s.adoptLatches e.g g = g := adoptLatches_self s e.g g w hs hw
  intro b
  simp only [Env.retire, hid, hc, hx]
  rw [settled_alone e sp g.core a h1 hf h2 h3]
  rfl

/-- What a chunk is closed by. -/
def Spec.closes (sp : Spec) (n : Nat) (b : GangCore) : Bool := 1024 ≤ n + 1 || sp.chunk == .after || sp.chunk == .bracket || b.idle

/-- THE completion lemma of a gang that is one sub-gang in no loop: the body's retirement says exactly where the lanes stand and whether the chunk closes. -/
theorem aloneStep_of {i : Instr} {s s' : State} {n : Nat} {gd : Guard} {sp : Env → Spec} {body : Env → State → Gang → Res}
    {e : Env} {g' : Gang} {c' : Chunk} {a : After} {P : GangCore → Prop} {Q : Chunk → Prop}
    (hi : exec i s = issue n gd sp body s) (he : s.env n gd = some e) (hx : e.executes (sp e) = true) (hown : (sp e).chunk ≠ .own)
    (hb : body e.opened s e.opened.g = .ok s' g' a) (hg : g' = { e.g with core := g'.core, chunk := some c' })
    (hl : e.g.openChunk.count = 0 ∨ overLimit c' = false) (hs : s'.gangs = s.gangs) (hcx : c'.expl = none)
    (h1 : g'.core.subs = [e.x]) (hf : g'.core.fams = []) (h2 : g'.core.ldepth = 0) (h3 : ∀ x ∈ e.split a, x.still = true)
    (hP : P { (sp e).settled a g'.core with subs := e.split a })
    (hQ : ∀ b : GangCore, b = { (sp e).settled a g'.core with subs := e.split a } →
      Q { c' with count := c'.count + 1, closed := (sp e).closes c'.count b }) : GangStep i s s' e P Q := by
  have hc : g'.chunk = some c' := by rw [hg]
  have hid : g'.id = e.g.id := by rw [hg]
  have hgang : ∀ k, s'.gang? k = s.gang? k := fun k => by simp only [State.gang?, hs]
  have hself : s'.gang? g'.id = some e.g := by rw [hid, hgang]; exact env_gang he
  have hr := retire_alone e.opened (sp e) s' g' c' a e.g hself rfl hc hcx h1 hf h2 h3
  let b : GangCore := { (sp e).settled a g'.core with subs := e.split a }
  let ch : Chunk := { c' with count := c'.count + 1, closed := (sp e).closes c'.count b }
  refine ⟨s'.putGang { g' with core := b, chunk := some ch }, { g' with core := b, chunk := some ch }, ch,
    by rw [hi, issue_runs he hx, run_ok hx hown hb hc hl, hr]; rfl, rfl, ?_, ?_, ?_, hP, hQ _ rfl⟩
  · intro k hk
    rw [gang?_putGang_ne _ _ (by simpa [hid] using hk), hgang]
  · rw [← hid]
    exact gang?_putGang_self (x := e.g) hself
  · rw [hg]

/-! ## An instruction guarded off -/

theorem became_putGang {s : State} {g h : Gang} (hs : s.gang? g.id = some h) : Became s (s.putGang g) g :=
  ⟨rfl, fun _ hk => gang?_putGang_ne s g hk, gang?_putGang_self hs⟩

theorem chunk_same {g : Gang} {c : Chunk} (h : g.chunk = some c) (k : GangCore) (b : Bool) (hb : b = false) :
    ({ g with core := k, chunk := some { c with closed := c.closed || b } } : Gang) = { g with core := k } := by
  cases g; subst hb; simp_all

/-- A group that is its whole gang passes an instruction guarded off: only its PC moves (R29). -/
theorem pass_alone {s : State} {e : Env} (hs : s.gang? e.g.id = some e.g) (hx : e.act = e.x.lanes) (ha : e.alone = true)
    (hc : ∀ c, e.g.chunk = some c → c.expl = none) :
    Became s (e.pass s) { e.g with core := { e.core with subs := [{ e.x with pc := e.nextPc, wait := .ready, waited := 0 }] } } := by
  unfold Env.alone at ha
  simp only [Bool.and_eq_true, beq_iff_eq] at ha
  obtain ⟨⟨hsub, hd⟩, hf⟩ := ha
  have hm : e.move e.g.core [⟨e.act, e.nextPc, .ready, 0⟩] = { e.core with subs := [{ e.x with pc := e.nextPc, wait := .ready, waited := 0 }] } := by
    rw [move_alone e e.g.core _ hsub hf (by simp [SubGang.still]) hd, hx]; rfl
  generalize hk : ({ e.core with subs := [{ e.x with pc := e.nextPc, wait := .ready, waited := 0 }] } : GangCore) = k at hm ⊢
  have hi : k.idle = false := by subst hk; simp [GangCore.idle, SubGang.atMeeting]
  have ht : k.stuck = false := by subst hk; simp [GangCore.stuck, SubGang.atMeeting]
  have hb : Became s (s.putGang { e.g with core := k }) { e.g with core := k } := became_putGang (g := { e.g with core := k }) hs
  have hp : e.pass s = s.putGang { e.g with core := k } := by
    unfold Env.pass
    simp only [hm]
    split
    · rename_i c hch
      split
      · rename_i x hxp; rw [hc c hch] at hxp; cases hxp
      · exact congrArg s.putGang (chunk_same hch k _ hi)
    · unfold State.stuckTrap
      rw [show (s.putGang { e.g with core := k }).gang? e.g.id = some _ from hb.2.2]
      simp [ht]
  rw [hp]; exact hb

end Sys2Proof.Machine
end

