-- ==== Sys2Proof/Laws/Commit.lean ====
section
/-! SUPPORT. The commit of a chunk that touched no line: what an instruction that is a chunk of its own leaves (R110, R116). -/

namespace Sys2Proof.Machine

theorem setAt_same {α : Type} (k : Nat) (d : α) : ∀ l : List α, setAt k (l.getD k d) l = l := by
  induction k with
  | zero => intro l; cases l <;> simp [setAt]
  | succ k ih => intro l; cases l with
    | nil => rfl
    | cons x r => simpa [setAt] using ih r

theorem mapIf_id {α : Type} (p : α → Bool) : ∀ l : List α, mapIf p (fun x => x) l = l := by
  intro l; simp [mapIf]

theorem putGang_putGang (s : State) (g h : Gang) (hi : g.id = h.id) : (s.putGang g).putGang h = s.putGang h := by
  have : ∀ l : List Gang, mapIf (fun x => x.id == h.id) (fun _ => h) (mapIf (fun x => x.id == g.id) (fun _ => g) l) = mapIf (fun x => x.id == h.id) (fun _ => h) l := by
    intro l
    simp only [mapIf, List.map_map]
    apply List.map_congr_left
    intro x _
    simp only [Function.comp, hi]
    by_cases hx : (x.id == h.id) = true <;> simp [hx, hi]
  simp only [State.putGang, this]

/-- Sets with no line strike nothing. -/
theorem victims_empty (s : State) (me : Option Nat) : s.victims me [] [] = [] := by
  simp only [State.victims, List.map_eq_nil_iff, List.filter_eq_nil_iff]
  intro g _
  cases g.chunk <;> simp [Chunk.hitBy, meets]

theorem holderHit_empty (s : State) (me : Option Nat) : s.holderHit me [] [] = false := by
  unfold State.holderHit
  split
  · rfl
  · split <;> simp [Chunk.hitBy, meets]

theorem fresh_bare (k : GangCore) : (Chunk.fresh k).bare := ⟨rfl, rfl, rfl, rfl, rfl, rfl, rfl, rfl, rfl⟩

theorem countLines_bare {s : State} {g : Gang} {c : Chunk} (h : c.bare) : s.countLines g c = s := by
  obtain ⟨_, h2, h3, h4, _⟩ := h
  unfold State.countLines
  split
  · rfl
  · have hz : ∀ x : Word64, x + BitVec.ofNat 64 0 = x := by simp
    simp only [Chunk.globals, h2, h3, h4, List.nil_append, List.foldl_nil, List.filter_nil, List.length_nil, Nat.sub_self, hz, setAt_same]

theorem applyChunk_bare {s : State} {g : Gang} {c : Chunk} (h : c.bare) : s.applyChunk g c = s.putGang g := by
  obtain ⟨h1, _, _, _, h5, h6, h7, h8, _⟩ := h
  have hg : s.applyGlobal [] = s := by
    have : s.poisoned.filter (fun _ => !([] : List Nat).contains 0) = s.poisoned := List.filter_eq_self.mpr (fun _ _ => rfl)
    simp only [State.applyGlobal, List.foldl_nil, List.filter_nil, List.contains_nil, Bool.not_false]
    rw [List.filter_eq_self.mpr (fun _ _ => rfl)]
  have ha : s.applyCrews [] = s := rfl
  have ht : ∀ (k : GangCore) (code tick : Nat), k.applyThr code tick [] = k := by
    intro k code tick
    simp [GangCore.applyThr]
  have hm : ∀ cid : Nat, s.mapCrew cid (fun k => k) = s := fun cid => by simp only [State.mapCrew, mapIf_id]
  have ho : s.applyOps (s.dieOf g) c = fun k => k := by funext k; simp only [State.applyOps, h8, List.foldl_nil]
  cases hc : g.crew <;>
    simp only [State.applyChunk, hc, h1, h5, h6, h7, ho, hm, hg, ha, ht, Nat.sub_zero, Gang.mapCore] <;> rw [← hc]

/-- What follows the commit of a gang none of whose lanes waits at a barrier, in waitany or at a meeting: nothing. -/
theorem afterCommit_calm {s : State} {g : Gang} (hs : s.gang? g.id = some g)
    (hw : ∀ x ∈ g.core.subs, (match x.wait with | .bar _ | .events .. => false | _ => true) = true) (hn : ∃ x ∈ g.core.subs, x.atMeeting = false) :
    s.afterCommit g.id = s.putGang g := by
  have h1 : ∀ (l : List SubGang), (∀ x ∈ l, (match x.wait with | .bar _ | .events .. => false | _ => true) = true) → l.foldl s.barMeet g = g := by
    intro l
    induction l with
    | nil => intro _; rfl
    | cons x r ih =>
      intro hx
      simp only [List.foldl_cons]
      have hx1 := hx x List.mem_cons_self
      have : s.barMeet g x = g := by
        unfold State.barMeet
        cases hwx : x.wait <;> simp [hwx] at hx1 <;> rfl
      rw [this]
      exact ih (fun y hy => hx y (List.mem_cons_of_mem _ hy))
  have h2 : g.core.waitsEvents = false := by
    unfold GangCore.waitsEvents
    rw [List.any_eq_false]
    intro x hx
    have := hw x hx
    cases hwx : x.wait <;> simp [hwx] at this ⊢
  obtain ⟨y, hy, hy2⟩ := hn
  have h3 : g.core.subs.isEmpty = false := by
    cases h : g.core.subs with
    | nil => rw [h] at hy; cases hy
    | cons a r => rfl
  have h4 : g.core.stuck = false := by
    simp only [GangCore.stuck, h3, Bool.not_false, Bool.true_and, List.all_eq_false]
    exact ⟨y, hy, by simp [hy2]⟩
  have h5 : (s.putGang g).gang? g.id = some g := gang?_putGang_self hs
  simp only [State.afterCommit, hs, h1 g.core.subs hw, h2, h3, Bool.false_eq_true, if_false, State.stuckTrap, h5, h4, Bool.and_false]

/-- A chunk that deferred nothing releases nothing. -/
theorem releaseSome_nil (s : State) (g : Gang) (later : Nat) : s.releaseSome g [] later = s.afterCommit g.id := by
  simp [State.releaseSome]

/-- With nothing left for later steps, the effects are released in their order. -/
theorem releaseSome_all (s : State) (g : Gang) (l : List Deferred) :
    s.releaseSome g l 0 = (l.foldl (fun s d => s.release g d) s).afterCommit g.id := by
  simp [State.releaseSome]

theorem gang?_count (s : State) (k n : Nat) (i : Nat) : (s.count k n).gang? i = s.gang? i := rfl

theorem gang?_dropToken (s : State) (k i : Nat) : (s.dropToken k).gang? i = s.gang? i := by
  unfold State.dropToken; split <;> rfl

theorem gang?_endStale (s : State) (k i : Nat) : (s.endStale k).gang? i = s.gang? i := by
  unfold State.endStale; split <;> rfl

theorem commitNow_bare {s : State} {g : Gang} {c : Chunk} {w : Gang} (h : c.bare) (hs : s.gang? g.id = some w)
    (hw : ∀ x ∈ g.core.subs, (match x.wait with | .bar _ | .events .. => false | _ => true) = true) (hn : ∃ x ∈ g.core.subs, x.atMeeting = false) :
    s.commitNow g c [] 0 = (((if g.isCox then s else s.count (ctrCommit (s.dieOf g) g.squashes) 1).dropToken g.id).endStale g.id).putGang
      { g with chunk := none, squashes := 0, token := .none, lbuf := g.blocksKept } := by
  have h' := h
  obtain ⟨_, _, h3, h4, _, _, _, _, h9⟩ := h'
  have hsq : s.squashAll ([] ++ [].eraseDups) = s := rfl
  simp only [State.commitNow, h3, h4, victims_empty, List.filter_nil, h9, releaseSome_nil]
  rw [hsq, countLines_bare h, State.emptyCommit, applyChunk_bare h]
  let s1 := (((if g.isCox then s else s.count (ctrCommit (s.dieOf g) g.squashes) 1).dropToken g.id).endStale g.id)
  let g1 : Gang := { g with chunk := none, squashes := 0, token := .none, lbuf := g.blocksKept }
  have h1 : s1.gang? g.id = some w := by
    show (State.endStale _ _).gang? _ = _
    rw [gang?_endStale, gang?_dropToken]
    split
    · exact hs
    · rw [gang?_count]; exact hs
  have h2 : (s1.putGang g1).gang? g1.id = some g1 := gang?_putGang_self (x := w) h1
  have := afterCommit_calm (s := s1.putGang g1) (g := g1) h2 hw hn
  rw [putGang_putGang _ _ _ rfl] at this
  exact this

/-! ## An instruction that is a chunk of its own -/

theorem adoptLatches_keeps (s : State) (was g : Gang) :
    s.adoptLatches was g = { g with core := (s.adoptLatches was g).core } ∧ (s.adoptLatches was g).core.subs = g.core.subs ∧
      (s.adoptLatches was g).core.fams = g.core.fams ∧ (s.adoptLatches was g).core.ldepth = g.core.ldepth := by
  unfold State.adoptLatches
  split <;> exact ⟨rfl, rfl, rfl, rfl⟩

/-- A cox core's environment says so. -/
theorem env_cox {s : State} {n : Nat} {g : Guard} {e : Env} (h : s.env n g = some e) : e.cox = e.g.isCox := by
  unfold State.env at h
  split at h
  · cases h
  · split at h
    · cases h
    · split at h
      · cases h
      · cases h; rfl

theorem run_own {e : Env} {sp : Spec} {s s' : State} {body : Env → State → Gang → Res} {g' : Gang} {a : After}
    (hch : e.g.chunk = none) (hown : sp.chunk = .own) (hb : body e.opened s e.opened.g = .ok s' g' a) :
    e.run sp s body = e.opened.retireOwn sp s s' g' a := by
  have ho : e.g.openChunk = Chunk.fresh e.g.core := by simp [Gang.openChunk, hch]
  have hb' : body { e with g := { e.g with chunk := some (Chunk.fresh e.g.core) } } s { e.g with chunk := some (Chunk.fresh e.g.core) } = .ok s' g' a := by
    rw [← ho]; exact hb
  unfold Env.run
  simp only [ho, hb', hown]
  simp [Chunk.fresh, Env.opened, ho]

/-- THE completion lemma of instructions that are chunks of their own, for a gang that is one sub-gang in no loop. -/
theorem ownStep_of {i : Instr} {s s' : State} {n : Nat} {gd : Guard} {sp : Env → Spec} {body : Env → State → Gang → Res}
    {e : Env} {g' w : Gang} {c' : Chunk} {a : After} {P : GangCore → Prop}
    (hi : exec i s = issue n gd sp body s) (he : s.env n gd = some e) (hx : e.executes (sp e) = true) (hch : e.g.chunk = none)
    (hown : (sp e).chunk = .own) (hb : body e.opened s e.opened.g = .ok s' g' a) (hg : g' = { e.g with core := g'.core, chunk := some c' })
    (hbare : c'.bare) (hcx : c'.expl = none) (hs : s'.gang? e.g.id = some w)
    (h1 : g'.core.subs = [e.x]) (hf : g'.core.fams = []) (h2 : g'.core.ldepth = 0) (h3 : ∀ x ∈ e.split a, x.still = true)
    (h4 : ∀ x ∈ e.split a, (match x.wait with | .bar _ | .events .. => false | _ => true) = true) (h5 : ∃ x ∈ e.split a, x.atMeeting = false)
    (hP : P { (sp e).settled a (s'.adoptLatches e.g g').core with subs := e.split a }) : OwnStep i s s' e P := by
  obtain ⟨k0, k1, kf, k2⟩ := adoptLatches_keeps s' e.opened.g g'
  let k := s'.adoptLatches e.opened.g g'
  let b : GangCore := { (sp e).settled a k.core with subs := e.split a }
  let cn : Chunk := { c' with expl := none, count := c'.count + 1, closed := (1024 ≤ c'.count + 1 || (sp e).chunk == .after || (sp e).chunk == .bracket || b.idle) }
  have hid : g'.id = e.g.id := by rw [hg]
  have hkid : k.id = e.g.id := by show (s'.adoptLatches _ _).id = _; rw [k0]; exact hid
  have hkc : k.chunk = some c' := by show (s'.adoptLatches _ _).chunk = _; rw [k0, hg]
  have hr : e.opened.retire (sp e) s' g' a = s'.putGang { k with core := b, chunk := some cn } := by
    show Env.retire _ _ _ _ _ = _
    have hkc' : (s'.adoptLatches e.opened.g g').chunk = some c' := hkc
    simp only [Env.retire, hkc', hcx]
    rw [settled_alone e.opened (sp e) _ a (k1.trans h1) (kf.trans hf) (k2.trans h2) h3]
    have hsp : e.opened.split a = e.split a := rfl
    rw [hsp]
    rfl
  have hcg : g'.chunk = some c' := by rw [hg]
  have hbn : cn.bare := hbare
  let h : Gang := { k with core := b, chunk := none, squashes := 0, token := .none, lbuf := k.blocksKept }
  have hself : (s'.putGang { k with core := b, chunk := some cn }).gang? g'.id = some { k with core := b, chunk := some cn } := by
    rw [hid, ← hkid]
    exact gang?_putGang_self (g := { k with core := b, chunk := some cn }) (x := w) (by rw [← hs]; show s'.gang? k.id = _; rw [hkid])
  have hcommit : e.opened.retireOwn (sp e) s s' g' a = (s'.putGang { k with core := b, chunk := some cn }).commitNow { k with core := b, chunk := some cn } cn [] 0 := by
    unfold Env.retireOwn
    obtain ⟨_, _, b3, b4, _⟩ := hbare
    simp only [hcg, b3, b4, holderHit_empty, Bool.false_eq_true, if_false, hr, hself]
  have hci := commitNow_bare (s := s'.putGang { k with core := b, chunk := some cn }) (g := { k with core := b, chunk := some cn }) (c := cn)
    (w := { k with core := b, chunk := some cn }) hbn (by rw [← hself, hid, ← hkid]) h4 h5
  have hgeq : h = { e.g with core := b, chunk := none, squashes := 0, token := .none, lbuf := e.g.blocksKept } := by
    show ({ k with core := b, chunk := none, squashes := 0, token := .none, lbuf := k.blocksKept } : Gang) = _
    show ({ s'.adoptLatches e.opened.g g' with core := b, chunk := none, squashes := 0, token := .none, lbuf := (s'.adoptLatches e.opened.g g').blocksKept } : Gang) = _
    rw [k0, hg]
    rfl
  have hcox : e.cox = k.isCox := by
    rw [env_cox he]
    show e.g.isCox = (s'.adoptLatches e.opened.g g').isCox
    rw [k0, hg]
    rfl
  have hend : (((if k.isCox then s'.putGang { k with core := b, chunk := some cn } else
      (s'.putGang { k with core := b, chunk := some cn }).count (ctrCommit ((s'.putGang { k with core := b, chunk := some cn }).dieOf k) k.squashes) 1).dropToken k.id).endStale k.id) =
      (e.ownEnd s').putGang { k with core := b, chunk := some cn } := by
    have hd : (s'.putGang { k with core := b, chunk := some cn }).dieOf k = s'.dieOf e.g := by
      show (s'.dieOf (s'.adoptLatches e.opened.g g')) = _
      rw [k0, hg]; rfl
    have hq : k.squashes = e.g.squashes := by show (s'.adoptLatches _ _).squashes = _; rw [k0, hg]
    rw [hd, hq, ← hcox, hkid]
    unfold Env.ownEnd
    cases e.cox
    · simp only [Bool.false_eq_true, if_false, State.dropToken, State.endStale, State.count, State.putGang]
      split <;> split <;> rfl
    · simp only [if_true, State.dropToken, State.endStale, State.putGang]
      split <;> split <;> rfl
  have hci' := hci.trans (congrArg (State.putGang · h) hend)
  rw [putGang_putGang _ { k with core := b, chunk := some cn } h rfl] at hci'
  have hw' : (e.ownEnd s').gang? h.id = some w := by
    rw [show h.id = e.g.id from hkid]
    unfold Env.ownEnd
    rw [gang?_endStale, gang?_dropToken]
    split
    · exact hs
    · rw [gang?_count]; exact hs
  refine ⟨_, h, by rw [hi, issue_runs he hx, run_own hch hown hb, hcommit, hci'], rfl, ?_, ?_, hgeq, hP⟩
  · intro j hj
    rw [gang?_putGang_ne _ _ (by rw [show h.id = e.g.id from hkid]; exact hj)]
    unfold Env.ownEnd
    rw [gang?_endStale, gang?_dropToken]
    split
    · rfl
    · rw [gang?_count]
  · rw [← hkid]
    exact gang?_putGang_self (g := h) hw'

end Sys2Proof.Machine
end

