-- ==== Sys2Proof/Laws/Lanes.lean ====
section
/-! SUPPORT. What lane-by-lane instructions write: registers of each lane after the results, after last reads; the completion of every instruction whose body is `laneBody`. -/

namespace Sys2Proof.Machine

/-! ## Registers -/

theorem regKey_inj {r l r' l' : Nat} (hl : l < 64) (hl' : l' < 64) (h : regKey r l = regKey r' l') : r = r' ∧ l = l' := by
  unfold regKey at h
  omega

/-- A register after one register of one lane was set. -/
theorem reg_setReg (c : GangCore) (r l : Nat) (x : RegCell) (r' l' : Nat) (hl : l < 64) (hl' : l' < 64) :
    (c.setReg r l x).reg r' l' = if r' = r ∧ l' = l then x else c.reg r' l' := by
  simp only [GangCore.reg, GangCore.setReg, spGet_spPut]
  by_cases h : regKey r' l' = regKey r l
  · obtain ⟨h1, h2⟩ := regKey_inj hl' hl h
    simp [h1, h2]
  · have h2 : ¬ (r' = r ∧ l' = l) := fun k => h (by rw [k.1, k.2])
    simp [h, h2]

theorem setReg_same (c : GangCore) (r l : Nat) (x : RegCell) : c.setReg r l x = { c with regs := (c.setReg r l x).regs } := rfl

theorem writeWords_same (code tick l : Nat) (ws : List Cell) : ∀ (c : GangCore) (r : Nat),
    c.writeWords code tick r l ws = { c with regs := (c.writeWords code tick r l ws).regs } := by
  induction ws with
  | nil => intro c r; rfl
  | cons x xs ih =>
    intro c r
    simp only [GangCore.writeWords]
    rw [ih]
    rfl

/-- A register after words were written to consecutive registers of a lane. -/
theorem reg_writeWords (code tick l : Nat) (hl : l < 64) (ws : List Cell) : ∀ (c : GangCore) (r r' l' : Nat), l' < 64 →
    (c.writeWords code tick r l ws).reg r' l' =
      if r ≤ r' ∧ r' < r + ws.length ∧ l' = l then
        ⟨(ws.getD (r' - r) ⟨0, .live⟩).data, (ws.getD (r' - r) ⟨0, .live⟩).st, expiryTick code tick⟩
      else c.reg r' l' := by
  induction ws with
  | nil =>
    intro c r r' l' hl'
    have h : ¬ (r ≤ r' ∧ r' < r + ([] : List Cell).length ∧ l' = l) := by simp only [List.length_nil]; omega
    rw [if_neg h, GangCore.writeWords]
  | cons x xs ih =>
    intro c r r' l' hl'
    simp only [GangCore.writeWords]
    rw [ih _ _ _ _ hl']
    simp only [GangCore.writeReg, reg_setReg c r l _ r' l' hl hl', List.length_cons]
    by_cases h1 : r + 1 ≤ r' ∧ r' < r + 1 + xs.length ∧ l' = l
    · have h2 : r ≤ r' ∧ r' < r + (xs.length + 1) ∧ l' = l := by omega
      have h3 : r' - r = (r' - (r + 1)) + 1 := by omega
      rw [if_pos h1, if_pos h2, h3, List.getD_cons_succ]
    · by_cases h2 : r' = r ∧ l' = l
      · have h3 : r ≤ r' ∧ r' < r + (xs.length + 1) ∧ l' = l := by omega
        have h4 : r' - r = 0 := by omega
        rw [if_neg h1, if_pos h2, if_pos h3, h4, List.getD_cons_zero]
      · have h3 : ¬ (r ≤ r' ∧ r' < r + (xs.length + 1) ∧ l' = l) := by omega
        rw [if_neg h1, if_neg h2, if_neg h3]

theorem mem_lanesOf {m : LaneMask} {l : Nat} (h : l ∈ lanesOf m) : l < 64 := by
  simp only [lanesOf, List.mem_filter, List.mem_range] at h
  exact h.1

theorem lanesOf_nodup (m : LaneMask) : (lanesOf m).Nodup := List.Pairwise.filter _ List.nodup_range

/-- Registers after every lane of a list wrote its words, one lane once. -/
theorem reg_foldWords (code tick r w : Nat) (words : Nat → List Cell) (hw : ∀ l, (words l).length = w) (ls : List Nat) :
    ∀ (c : GangCore) (r' l' : Nat), ls.Nodup → (∀ l ∈ ls, l < 64) → l' < 64 →
    (ls.foldl (fun c l => c.writeWords code tick r l (words l)) c).reg r' l' =
      if r ≤ r' ∧ r' < r + w ∧ l' ∈ ls then
        ⟨((words l').getD (r' - r) ⟨0, .live⟩).data, ((words l').getD (r' - r) ⟨0, .live⟩).st, expiryTick code tick⟩
      else c.reg r' l' := by
  induction ls with
  | nil => intro c r' l' _ _ _; simp
  | cons l ls ih =>
    intro c r' l' hn hls hl'
    have hl : l < 64 := hls l (by simp)
    simp only [List.foldl_cons]
    rw [ih _ _ _ (List.nodup_cons.mp hn).2 (fun x hx => hls x (by simp [hx])) hl', reg_writeWords code tick l hl _ _ _ _ _ hl', hw]
    by_cases h1 : r ≤ r' ∧ r' < r + w
    · by_cases h2 : l' ∈ ls
      · have h3 : r ≤ r' ∧ r' < r + w ∧ l' ∈ l :: ls := ⟨h1.1, h1.2, by simp [h2]⟩
        rw [if_pos ⟨h1.1, h1.2, h2⟩, if_pos h3]
      · by_cases h4 : l' = l
        · have h3 : r ≤ r' ∧ r' < r + w ∧ l' ∈ l :: ls := ⟨h1.1, h1.2, by simp [h4]⟩
          rw [if_neg (fun h => h2 h.2.2), if_pos ⟨h1.1, h1.2, h4⟩, if_pos h3, h4]
        · have h3 : ¬ (r ≤ r' ∧ r' < r + w ∧ l' ∈ l :: ls) := by
            simp [h2, h4]
          rw [if_neg (fun h => h2 h.2.2), if_neg (fun h => h4 h.2.2), if_neg h3]
    · rw [if_neg (fun h => h1 ⟨h.1, h.2.1⟩), if_neg (fun h => h1 ⟨h.1, h.2.1⟩), if_neg (fun h => h1 ⟨h.1, h.2.1⟩)]

/-- Registers after the registers of a list died in the lanes of a set (R72). -/
theorem reg_killRegs (m : LaneMask) (rs : List Nat) : ∀ (c : GangCore) (r' l' : Nat), l' < 64 →
    (c.killRegs m rs).reg r' l' =
      if r' ∈ rs ∧ l' ∈ lanesOf m then ⟨0xFFFFFFFF, .poison, (c.reg r' l').exp⟩ else c.reg r' l' := by
  have h1 : ∀ (ls : List Nat) (r : Nat), (∀ l ∈ ls, l < 64) → ∀ (c : GangCore) (r' l' : Nat), l' < 64 →
      (ls.foldl (fun c l => c.killReg r l) c).reg r' l' =
        if r' = r ∧ l' ∈ ls then ⟨0xFFFFFFFF, .poison, (c.reg r' l').exp⟩ else c.reg r' l' := by
    intro ls r
    induction ls with
    | nil => intro _ c r' l' _; simp
    | cons l ls ih =>
      intro hls c r' l' hl'
      have hl : l < 64 := hls l (by simp)
      simp only [List.foldl_cons]
      rw [ih (fun x hx => hls x (by simp [hx])) _ _ _ hl']
      simp only [GangCore.killReg, reg_setReg c r l _ r' l' hl hl']
      by_cases h2 : r' = r
      · by_cases h3 : l' = l
        · subst h2; subst h3; simp
        · subst h2; simp [h3]
      · simp [h2]
  unfold GangCore.killRegs
  induction rs with
  | nil => intro c r' l' _; simp
  | cons r rs ih =>
    intro c r' l' hl'
    simp only [List.foldl_cons]
    rw [ih _ _ _ hl', h1 _ _ (fun l hl => mem_lanesOf hl) _ _ _ hl']
    by_cases h2 : r' = r
    · subst h2
      by_cases h3 : l' ∈ lanesOf m <;> simp [h3]
    · by_cases h4 : r' ∈ rs ∧ l' ∈ lanesOf m
      · simp [h2, h4]
      · have : ¬ (r' ∈ r :: rs ∧ l' ∈ lanesOf m) := by simp [h2]; simpa using h4
        rw [if_neg h4, if_neg this, if_neg (fun h => h2 h.1)]

/-! ## Scalar registers -/

@[simp] theorem sreg_setSreg (c : GangCore) (n : Nat) (x : Word64) (k : Nat) : (c.setSreg n x).sreg k = if k = n then x else c.sreg k := by
  simp [GangCore.sreg, GangCore.setSreg]

/-! ## The destination -/

@[simp] theorem length_wordsOf (k x : Nat) (st : VSt) : (wordsOf k x st).length = k := by simp [wordsOf]

theorem getD_wordsOf (k x : Nat) (st : VSt) (i : Nat) (h : i < k) (d : Cell) : (wordsOf k x st).getD i d = ⟨BitVec.ofNat 32 (x / 2 ^ (32 * i)), st⟩ := by
  simp [wordsOf, List.getD_eq_getElem?_getD, h]

theorem writeDst_same (c : GangCore) (code tick : Nat) (d : Dst) (w : Nat) (rs : List (Nat × LaneRes)) :
    c.writeDst code tick d w rs = { c with regs := (c.writeDst code tick d w rs).regs, sregs := (c.writeDst code tick d w rs).sregs } := by
  cases d with
  | v n =>
    simp only [GangCore.writeDst]
    induction rs generalizing c with
    | nil => rfl
    | cons x xs ih =>
      simp only [List.foldl_cons]
      rw [ih, writeWords_same]
  | s n =>
    simp only [GangCore.writeDst]
    induction rs generalizing c with
    | nil => rfl
    | cons x xs ih =>
      simp only [List.foldl_cons]
      rw [ih]
      rfl

/-- The destination after the computing lanes wrote their results. -/
theorem writeDst_wrote (e : Env) (c : GangCore) (code tick : Nat) (d : Dst) (w : Nat) (f : Nat → LaneRes) :
    (∀ r l, l < 64 → (c.writeDst code tick d w (e.results d f)).reg r l =
      if dstHas d w r && e.lanes.contains l then
        ⟨BitVec.ofNat 32 ((f l).bits / 2 ^ (32 * (r - dstBase d))), (f l).st, expiryTick code tick⟩
      else c.reg r l) ∧
    (∀ k, (c.writeDst code tick d w (e.results d f)).sreg k =
      if dstIs d k then BitVec.ofNat 64 ((f (lowestLane e.on)).bits % 2 ^ (32 * w)) else c.sreg k) := by
  cases d with
  | v n =>
    have h0 : c.writeDst code tick (.v n) w (e.results (.v n) f) =
        e.lanes.foldl (fun c l => c.writeWords code tick n.val l (wordsOf w (f l).bits (f l).st)) c := by
      simp only [GangCore.writeDst, Env.results, Env.computing, List.foldl_map]
    have hs : ∀ (ls : List Nat) (c : GangCore) (k : Nat),
        (ls.foldl (fun c l => c.writeWords code tick n.val l (wordsOf w (f l).bits (f l).st)) c).sreg k = c.sreg k := by
      intro ls
      induction ls with
      | nil => intro c k; rfl
      | cons l ls ih =>
        intro c k
        simp only [List.foldl_cons]
        rw [ih, writeWords_same]
        rfl
    constructor
    · intro r l hl
      rw [h0, reg_foldWords code tick n.val w (fun l => wordsOf w (f l).bits (f l).st) (fun l => length_wordsOf _ _ _) e.lanes c r l
        (lanesOf_nodup _) (fun x hx => mem_lanesOf hx) hl]
      have hiff : (dstHas (.v n) w r && e.lanes.contains l) = true ↔ (n.val ≤ r ∧ r < n.val + w ∧ l ∈ e.lanes) := by
        simp [dstHas, and_assoc]
      by_cases h1 : n.val ≤ r ∧ r < n.val + w ∧ l ∈ e.lanes
      · rw [if_pos h1, if_pos (hiff.mpr h1), getD_wordsOf _ _ _ _ (by omega)]
        rfl
      · rw [if_neg h1, if_neg (fun h => h1 (hiff.mp h))]
    · intro k
      rw [h0, hs]
      rfl
  | s n =>
    constructor
    · intro r l hl
      simp only [dstHas, Bool.false_and, Bool.false_eq_true, if_false, GangCore.writeDst, Env.results, Env.computing, List.map_cons, List.map_nil,
        List.foldl_cons, List.foldl_nil]
      rfl
    · intro k
      simp only [GangCore.writeDst, Env.results, Env.computing, List.map_cons, List.map_nil, List.foldl_cons, List.foldl_nil, sreg_setSreg, dstIs, beq_iff_eq]

/-- Last reads after the destination was written: `WroteLanes` holds of what retirement leaves. -/
theorem wroteLanes (s : State) (e : Env) (sp : Spec) (d : Dst) (w : Nat) (f : Nat → LaneRes)
    (hd : sp.marks = [] ∨ ∀ r, r ∈ sp.uses.flatMap Use.dregs ↔ dstHas d w r = true)
    (b : GangCore) (hb : b.regs = (sp.applyMarks e.on (e.core.writeDst (s.regCode e.g) s.tick d w (e.results d f))).regs)
    (hf : b.regFill = e.core.regFill)
    (hs : b.sregs = (e.core.writeDst (s.regCode e.g) s.tick d w (e.results d f)).sregs) : WroteLanes s e sp d w f b := by
  obtain ⟨hw1, hw2⟩ := writeDst_wrote e e.core (s.regCode e.g) s.tick d w f
  constructor
  · intro r l hl
    have h1 : b.reg r l = (sp.applyMarks e.on (e.core.writeDst (s.regCode e.g) s.tick d w (e.results d f))).reg r l := by
      have h2 : (sp.applyMarks e.on (e.core.writeDst (s.regCode e.g) s.tick d w (e.results d f))).regFill = e.core.regFill := by
        rw [applyMarks_same, writeDst_same]
      simp only [GangCore.reg, hb, hf, h2]
    rw [h1]
    unfold Spec.applyMarks
    rw [reg_killRegs _ _ _ _ _ hl, hw1 r l hl]
    have hk : (r ∈ ((sp.marks.flatMap (fun k => rangeFrom k.1 k.2)).filter (fun r => !(sp.uses.flatMap Use.dregs).contains r)) ∧
        l ∈ lanesOf e.on) ↔ (e.lastRead sp r l && !dstHas d w r) = true := by
      rcases hd with hd | hd
      · simp [hd, Env.lastRead]
      have h3 : (sp.uses.flatMap Use.dregs).contains r = dstHas d w r := by
        rw [Bool.eq_iff_iff, List.contains_iff_mem, hd r]
      simp only [Env.lastRead, List.mem_filter, h3, List.mem_flatMap, rangeFrom, List.mem_map, List.mem_range, Bool.and_eq_true,
        List.any_eq_true, decide_eq_true_eq, List.contains_iff_mem, Env.lanes]
      constructor
      · rintro ⟨⟨⟨k, hk, i, hi, hr⟩, h4⟩, h5⟩
        exact ⟨⟨h5, k, hk, by omega⟩, h4⟩
      · rintro ⟨⟨h5, k, hk, h6⟩, h4⟩
        exact ⟨⟨⟨k, hk, r - k.1, by omega, by omega⟩, h4⟩, h5⟩
    by_cases h2 : (e.lastRead sp r l && !dstHas d w r) = true
    · have h3 : dstHas d w r = false := by
        simp only [Bool.and_eq_true, Bool.not_eq_true'] at h2
        exact h2.2
      simp only [h3, Bool.not_false, Bool.and_true] at h2
      simp only [if_pos (hk.mpr (by simp [h2, h3])), h2, h3, Bool.false_and, Bool.false_eq_true, if_false, if_true, Bool.not_false, Bool.and_true]
    · simp only [if_neg (fun h => h2 (hk.mp h)), h2, Bool.false_eq_true, if_false]
  · intro k
    have : b.sreg k = (e.core.writeDst (s.regCode e.g) s.tick d w (e.results d f)).sreg k := by simp only [GangCore.sreg, hs]
    rw [this, hw2]

theorem killRegs_congr (m : LaneMask) (rs : List Nat) : ∀ (x y : GangCore), x.regs = y.regs → x.regFill = y.regFill →
    (x.killRegs m rs).regs = (y.killRegs m rs).regs := by
  have h1 : ∀ (ls : List Nat) (r : Nat) (x y : GangCore), x.regs = y.regs → x.regFill = y.regFill →
      (ls.foldl (fun c l => c.killReg r l) x).regs = (ls.foldl (fun c l => c.killReg r l) y).regs ∧
      (ls.foldl (fun c l => c.killReg r l) x).regFill = (ls.foldl (fun c l => c.killReg r l) y).regFill := by
    intro ls r
    induction ls with
    | nil => intro x y h k; exact ⟨h, k⟩
    | cons l ls ih =>
      intro x y h k
      refine ih _ _ ?_ k
      simp only [GangCore.killReg, GangCore.setReg, GangCore.reg, h, k]
  have h2 : ∀ (rs : List Nat) (x y : GangCore), x.regs = y.regs → x.regFill = y.regFill →
      (x.killRegs m rs).regs = (y.killRegs m rs).regs := by
    intro rs
    unfold GangCore.killRegs
    induction rs with
    | nil => intro x y h _; exact h
    | cons r rs ih =>
      intro x y h k
      simp only [List.foldl_cons]
      obtain ⟨h3, h4⟩ := h1 (lanesOf m) r x y h k
      exact ih _ _ h3 h4
  exact h2 rs

theorem applyMarks_regs_congr (sp : Spec) (m : LaneMask) (x y : GangCore) (h : x.regs = y.regs) (k : x.regFill = y.regFill) :
    (sp.applyMarks m x).regs = (sp.applyMarks m y).regs := killRegs_congr m _ x y h k

theorem killRegs_orFlags (m : LaneMask) (rs : List Nat) (x : Flags) : ∀ c : GangCore, (c.orFlags x).killRegs m rs = (c.killRegs m rs).orFlags x := by
  have h1 : ∀ (ls : List Nat) (r : Nat) (c : GangCore), ls.foldl (fun c l => c.killReg r l) (c.orFlags x) = (ls.foldl (fun c l => c.killReg r l) c).orFlags x := by
    intro ls r
    induction ls with
    | nil => intro c; rfl
    | cons l ls ih => intro c; exact ih (c.killReg r l)
  unfold GangCore.killRegs
  induction rs with
  | nil => intro c; rfl
  | cons r rs ih =>
    intro c
    simp only [List.foldl_cons]
    rw [h1, ih]

theorem applyMarks_orFlags (sp : Spec) (m : LaneMask) (x : Flags) (c : GangCore) : sp.applyMarks m (c.orFlags x) = (sp.applyMarks m c).orFlags x :=
  killRegs_orFlags m _ x c

/-- Last reads of an instruction that writes no vector register at once. -/
theorem keptRegs (e : Env) (sp : Spec) (c b : GangCore)
    (hb : b.regs = (sp.applyMarks e.on c).regs) (hc : c.regs = e.core.regs) (hf : b.regFill = e.core.regFill) (hcf : c.regFill = e.core.regFill) :
    KeptRegs e sp b := by
  intro r l hl
  have h1 : b.reg r l = (sp.applyMarks e.on c).reg r l := by
    have h2 : (sp.applyMarks e.on c).regFill = e.core.regFill := by rw [applyMarks_same]; exact hcf
    simp only [GangCore.reg, hb, hf, h2]
  have h0 : c.reg r l = e.core.reg r l := by simp only [GangCore.reg, hc, hcf]
  rw [h1]
  unfold Spec.applyMarks
  rw [reg_killRegs _ _ _ _ _ hl, h0]
  have hk : (r ∈ ((sp.marks.flatMap (fun k => rangeFrom k.1 k.2)).filter (fun r => !(sp.uses.flatMap Use.dregs).contains r)) ∧ l ∈ lanesOf e.on) ↔
      (e.lastRead sp r l && !(sp.uses.flatMap Use.dregs).contains r) = true := by
    simp only [Env.lastRead, List.mem_filter, List.mem_flatMap, rangeFrom, List.mem_map, List.mem_range, Bool.and_eq_true,
      List.any_eq_true, decide_eq_true_eq, List.contains_iff_mem, Env.lanes]
    constructor
    · rintro ⟨⟨⟨k, hk, i, hi, hr⟩, h4⟩, h5⟩
      exact ⟨⟨h5, k, hk, by omega⟩, h4⟩
    · rintro ⟨⟨h5, k, hk, h6⟩, h4⟩
      exact ⟨⟨⟨k, hk, r - k.1, by omega, by omega⟩, h4⟩, h5⟩
  by_cases h2 : (e.lastRead sp r l && !(sp.uses.flatMap Use.dregs).contains r) = true
  · rw [if_pos (hk.mpr h2), if_pos h2]
  · rw [if_neg (fun h => h2 (hk.mp h)), if_neg h2]

theorem ctrUp_regs (c : GangCore) (k : Ctr) (rs : Sparse RegCell) : ({ c with regs := rs } : GangCore).ctrUp k = { c.ctrUp k with regs := rs } := by
  cases k <;> rfl

theorem ctrUp_regFill (c : GangCore) (k : Ctr) : (c.ctrUp k).regFill = c.regFill := by cases k <;> rfl

/-- A chunk that takes an instruction which adds nothing to it is within its limits or empty. -/
theorem room_same {e : Env} {sp : Spec} (h : e.chunkRoom sp = true) : e.g.openChunk.count = 0 ∨ overLimit e.g.openChunk = false := by
  unfold Env.chunkRoom at h
  unfold Gang.openChunk
  split at h
  · rename_i k; left; simp [k, Chunk.fresh]
  · rename_i c k
    simp only [Bool.and_eq_true, Bool.or_eq_true, bne_iff_ne, beq_iff_eq, Bool.not_eq_true'] at h
    simp only [k, Option.getD_some]
    rcases h.2 with h2 | h2
    · left; exact h2
    · right; exact h2.2

theorem executes_room {e : Env} {sp : Spec} (h : e.executes sp = true) : e.chunkRoom sp = true := by
  simp only [Env.executes, Bool.and_eq_true] at h; exact h.2

/-- A retirement of every executing lane, none of which leaves, that moves no counter: only last reads follow. -/
theorem settled_through (e : Env) (sp : Spec) (h : sp.ctr = .none) (c : GangCore) : sp.settled e.through c = sp.applyMarks e.on c := by
  have h0 : ∀ x : LaneMask, x ||| 0 = x := fun x => by simp
  simp only [Spec.settled, h, GangCore.ctrUp, Env.through, h0]

/-- THE completion lemma of instructions that write no vector register: the body leaves the core as `c0` and the chunk as `c'`. -/
theorem coreStep_of {i : Instr} {s s' : State} {n : Nat} {gd : Guard} {sp : Env → Spec} {body : Env → State → Gang → Res}
    {e : Env} {c' : Chunk} {c0 : GangCore} {a : After} {Q : Chunk → Prop}
    (hi : exec i s = issue n gd sp body s) (he : s.env n gd = some e) (hx : e.executes (sp e) = true) (hown : (sp e).chunk ≠ .own)
    (hb : body e.opened s e.opened.g = .ok s' { e.g with core := c0, chunk := some c' } a)
    (hl : e.g.openChunk.count = 0 ∨ overLimit c' = false) (hs : s'.gangs = s.gangs) (hcx : c'.expl = none)
    (ha : After.plain e a) (hpl : c0.subs = e.core.subs ∧ c0.fams = e.core.fams ∧ c0.ldepth = e.core.ldepth)
    (hr : c0.regs = e.core.regs) (hf : c0.regFill = e.core.regFill)
    (hlp : c0.loops = e.core.loops ∧ c0.ldepth = e.core.ldepth)
    (hQ : ∀ closed, ((sp e).chunk = .after ∨ (sp e).chunk = .bracket → closed = true) → Q { c' with count := c'.count + 1, closed := closed }) :
    CoreStep i s s' e (sp e) (c0.ctrUp (sp e).ctr) Q := by
  refine gangStep_of_body hi he hx hown hb rfl hl hs hcx ?_ hQ
  intro core h1 h2
  have hgo : e.goesOn core := settled_goesOn e (sp e) c0 a ha hpl.1 hpl.2.1 hpl.2.2
  have h0 : ∀ x : LaneMask, x ||| 0 = x := fun x => by simp
  have hset : (sp e).settled a c0 = ((sp e).applyMarks e.on c0).ctrUp (sp e).ctr := by
    simp only [Spec.settled, ha.2.2.1, ha.2.2.2.1, ha.2.2.2.2, h0]
  have h3 : SamePlaceless (((sp e).applyMarks e.on c0).ctrUp (sp e).ctr) core := by rw [← hset]; exact h1
  rw [applyMarks_same, ctrUp_regs] at h3
  have hregs : core.regs = ((sp e).applyMarks e.on c0).regs := by
    unfold SamePlaceless at h3; rw [h3]
  refine ⟨?_, ?_, hgo, ?_⟩
  · rw [hregs]; exact h3
  · intro hz
    have := h2 (hlp.2.trans hz)
    exact ⟨this.1.trans hlp.1, this.2⟩
  · refine keptRegs e (sp e) c0 core hregs hr ?_ hf
    unfold SamePlaceless at h3
    rw [h3]
    exact (ctrUp_regFill c0 (sp e).ctr).trans hf

/-- The destination of an arithmetic form is the only slot that it writes. -/
theorem aluSpec_dregs (g : Guard) (d : Dst) (w : Nat) (ms : List (Nat × MSrc × Nat)) (rs : List (Nat × RSrc × Nat)) (e : Env) (r : Nat) :
    r ∈ (aluSpec g (.dst d w) ms rs e).uses.flatMap Use.dregs ↔ dstHas d w r = true := by
  have h1 : ∀ l : List (Nat × MSrc × Nat), (l.map (fun m => useM m.1 m.2.1 m.2.2)).flatMap Use.dregs = [] := by
    intro l; induction l with
    | nil => rfl
    | cons x xs ih => simp only [List.map_cons, List.flatMap_cons, ih]; rfl
  have h2 : ∀ l : List (Nat × RSrc × Nat), (l.map (fun m => useR m.1 m.2.1 m.2.2)).flatMap Use.dregs = [] := by
    intro l; induction l with
    | nil => rfl
    | cons x xs ih => simp only [List.map_cons, List.flatMap_cons, ih]; rfl
  simp only [aluSpec, List.flatMap_cons, List.flatMap_append, h1, h2, List.append_nil]
  cases d with
  | v n =>
    simp only [Use.dregs, rangeFrom, List.mem_map, List.mem_range, dstHas, Bool.and_eq_true, decide_eq_true_eq]
    constructor
    · rintro ⟨i, h, rfl⟩; omega
    · intro h; exact ⟨r - n.val, by omega, by omega⟩
  | s n => simp [Use.dregs, dstHas]

/-- THE completion lemma of instructions that write a destination at once: the body leaves the core as `c0`, in which the results stand. -/
theorem writeStep_of {i : Instr} {s s' : State} {n : Nat} {gd : Guard} {sp : Env → Spec} {body : Env → State → Gang → Res}
    {e : Env} {c' : Chunk} {c0 : GangCore} {a : After} {Q : Chunk → Prop} {d : Dst} {w : Nat} {f : Nat → LaneRes} {k : GangCore}
    (hi : exec i s = issue n gd sp body s) (he : s.env n gd = some e) (hx : e.executes (sp e) = true) (hown : (sp e).chunk ≠ .own)
    (hb : body e.opened s e.opened.g = .ok s' { e.g with core := c0, chunk := some c' } a)
    (hl : e.g.openChunk.count = 0 ∨ overLimit c' = false) (hs : s'.gangs = s.gangs) (hcx : c'.expl = none)
    (ha : After.plain e a) (hpl : c0.subs = e.core.subs ∧ c0.fams = e.core.fams ∧ c0.ldepth = e.core.ldepth)
    (hd : (sp e).marks = [] ∨ ∀ r, r ∈ (sp e).uses.flatMap Use.dregs ↔ dstHas d w r = true)
    (hr : c0.regs = (e.core.writeDst (s.regCode e.g) s.tick d w (e.results d f)).regs)
    (hsr : c0.sregs = (e.core.writeDst (s.regCode e.g) s.tick d w (e.results d f)).sregs)
    (hk : c0.ctrUp (sp e).ctr = { k with regs := c0.regs, sregs := c0.sregs }) (hf : k.regFill = e.core.regFill)
    (hlp : k.loops = e.core.loops ∧ k.ldepth = e.core.ldepth)
    (hQ : ∀ closed, ((sp e).chunk = .after ∨ (sp e).chunk = .bracket → closed = true) → Q { c' with count := c'.count + 1, closed := closed }) : WriteStep i s s' e (sp e) k d w f Q := by
  refine gangStep_of_body hi he hx hown hb rfl hl hs hcx ?_ hQ
  intro core h1 h2
  have hgo : e.goesOn core := settled_goesOn e (sp e) c0 a ha hpl.1 hpl.2.1 hpl.2.2
  have h0 : ∀ x : LaneMask, x ||| 0 = x := fun x => by simp
  have hset : (sp e).settled a c0 = ((sp e).applyMarks e.on c0).ctrUp (sp e).ctr := by
    simp only [Spec.settled, ha.2.2.1, ha.2.2.2.1, ha.2.2.2.2, h0]
  have h3 : SamePlaceless (((sp e).applyMarks e.on c0).ctrUp (sp e).ctr) core := by rw [← hset]; exact h1
  rw [applyMarks_same, ctrUp_regs, hk] at h3
  have hw := writeDst_same e.core (s.regCode e.g) s.tick d w (e.results d f)
  have hcf : c0.regFill = e.core.regFill := by
    have := ctrUp_regFill c0 (sp e).ctr
    rw [hk] at this
    exact this.symm.trans hf
  have hmarks : ∀ (x y : GangCore), x.regs = y.regs → x.regFill = y.regFill → ((sp e).applyMarks e.on x).regs = ((sp e).applyMarks e.on y).regs := by
    intro x y hxy hfy
    exact applyMarks_regs_congr (sp e) e.on x y hxy hfy
  have hregs : core.regs = ((sp e).applyMarks e.on (e.core.writeDst (s.regCode e.g) s.tick d w (e.results d f))).regs := by
    unfold SamePlaceless at h3
    rw [h3]
    exact hmarks _ _ hr (by rw [hcf, hw])
  have hsregs : core.sregs = (e.core.writeDst (s.regCode e.g) s.tick d w (e.results d f)).sregs := by
    unfold SamePlaceless at h3
    rw [h3]; exact hsr
  refine ⟨?_, ?_, hgo, ?_⟩
  · unfold SamePlaceless at h3 ⊢
    have hr1 : core.regs = ((sp e).applyMarks e.on c0).regs := by rw [h3]
    have hs1 : core.sregs = c0.sregs := by rw [h3]
    rw [hr1, hs1]
    exact h3
  · intro hz
    have hc : c0.ldepth = e.core.ldepth ∧ c0.loops = e.core.loops := by
      have h4 : (c0.ctrUp (sp e).ctr).ldepth = c0.ldepth ∧ (c0.ctrUp (sp e).ctr).loops = c0.loops := by
        cases (sp e).ctr <;> exact ⟨rfl, rfl⟩
      rw [hk] at h4
      exact ⟨h4.1.symm.trans hlp.2, h4.2.symm.trans hlp.1⟩
    have := h2 (hc.1.trans hz)
    exact ⟨this.1.trans hc.2, this.2⟩
  · refine wroteLanes s e (sp e) d w f hd core hregs ?_ hsregs
    unfold SamePlaceless at h3
    rw [h3]; exact hf

/-- An instruction whose body comes to `laneBody` in this state writes what `WroteLanes` says. -/
theorem laneStep_of {i : Instr} {n : Nat} {g : Guard} {sp : Env → Spec} {body : Env → State → Gang → Res} {d : Dst} {w : Nat} {f : Nat → LaneRes}
    {s s' : State} {e : Env} {f' : Env → Nat → LaneRes}
    (hi : exec i s = issue n g sp body s) (he : s.env n g = some e) (hx : e.executes (sp e) = true)
    (hr : anyExpired (e.results d f) = false) (hbody : body e.opened s e.opened.g = laneBody d w f' e.opened s' e.opened.g)
    (hs : s'.gangs = s.gangs) (hcode : s'.regCode e.g = s.regCode e.g) (htick : s'.tick = s.tick)
    (hk : (sp e).chunk = .plain ∧ (sp e).ctr = .none)
    (hd : (sp e).marks = [] ∨ ∀ r, r ∈ (sp e).uses.flatMap Use.dregs ↔ dstHas d w r = true)
    (hf : f' e.opened = f) : LaneStep i s s' e (sp e) d w f := by
  have hroom := executes_room hx
  have hrs : e.opened.results d (f' e.opened) = e.results d f := by rw [hf]; rfl
  have hw := writeDst_same e.core (s.regCode e.g) s.tick d w (e.results d f)
  refine writeStep_of (c' := e.g.openChunk) (c0 := (e.core.writeDst (s.regCode e.g) s.tick d w (e.results d f)).orFlags
      (joinFlags ((e.results d f).map (fun r => (r.2.st, r.2.flags))))) (a := e.through) hi he hx (by rw [hk.1]; decide) ?_ (room_same hroom) hs
      (room_implicit hroom) (through_plain e) ?_ hd rfl rfl ?_ rfl ⟨rfl, rfl⟩ (fun _ _ => rfl)
  · rw [hbody]
    simp only [laneBody, hrs, hr, Bool.false_eq_true, if_false, htick]
    have : s'.regCode e.opened.g = s.regCode e.g := hcode
    rw [this]
    rfl
  · simp only [GangCore.orFlags]
    rw [hw]
    exact ⟨rfl, rfl, rfl⟩
  · rw [hk.2]
    simp only [GangCore.ctrUp, GangCore.orFlags, flagsAfter]
    rw [hw]
    simp only [Env.results, List.map_map]
    rfl

/-- Every instruction whose body is `laneBody` completes as `LaneOp` says. -/
theorem laneOp_of {i : Instr} {n : Nat} {g : Guard} {sp : Env → Spec} {d : Dst} {w : Nat} {f : Env → Nat → LaneRes}
    (hi : ∀ s, exec i s = issue n g sp (laneBody d w f) s)
    (hk : ∀ e, (sp e).chunk = .plain ∧ (sp e).ctr = .none)
    (hd : ∀ e r, r ∈ (sp e).uses.flatMap Use.dregs ↔ dstHas d w r = true)
    (hf : ∀ e l, f e.opened l = f e l) : LaneOp i n g sp d w f := fun s e he hx hr =>
  laneStep_of (hi s) he hx hr rfl rfl rfl rfl (hk e) (.inr (hd e)) (funext (hf e))

/-- Every arithmetic form completes as `LaneOp` says. -/
theorem aluOp_of {i : Instr} {n : Nat} {g : Guard} {ms : List (Nat × MSrc × Nat)} {rs : List (Nat × RSrc × Nat)} {d : Dst} {w : Nat}
    {f : Env → Nat → LaneRes} (hi : ∀ s, exec i s = issue n g (aluSpec g (.dst d w) ms rs) (laneBody d w f) s)
    (hf : ∀ e l, f e.opened l = f e l) : LaneOp i n g (aluSpec g (.dst d w) ms rs) d w f :=
  laneOp_of hi (fun _ => ⟨rfl, rfl⟩) (fun e r => aluSpec_dregs g d w ms rs e r) hf

end Sys2Proof.Machine
end

