-- ==== Sys2Proof/Laws/Memory.lean ====
section
/-! SUPPORT. Laws of memory: a read after a write, and that every operation that writes memory keeps its canonical form. -/

namespace Sys2Proof.Machine

/-! ## Read after write -/

@[simp] theorem memByte_memPut (m : List Host.Cell) (a : Nat) (b : Byte) (x : Nat) :
    memByte (memPut m a b) x = if x = a then b else memByte m x := by
  simp [memByte, memPut]

/-- A byte after a run of bytes was written: the run's byte inside it, the old one outside. -/
theorem memByte_memWrite (m : List Host.Cell) (a : Nat) (bs : List Byte) (x : Nat) :
    memByte (memWrite m a bs) x = if a ≤ x ∧ x < a + bs.length then bs.getD (x - a) 0 else memByte m x := by
  induction bs generalizing m a with
  | nil =>
    have h : ¬ (a ≤ x ∧ x < a + ([] : List Byte).length) := by simp only [List.length_nil]; omega
    rw [if_neg h, memWrite]
  | cons b r ih =>
    simp only [memWrite, ih, memByte_memPut, List.length_cons]
    by_cases h1 : a + 1 ≤ x ∧ x < a + 1 + r.length
    · have h2 : a ≤ x ∧ x < a + (r.length + 1) := by omega
      have h3 : x - a = (x - (a + 1)) + 1 := by omega
      simp [h1, h2, h3]
    · by_cases h2 : x = a
      · subst h2
        have h4 : ¬ (x + 1 ≤ x ∧ x < x + 1 + r.length) := by omega
        rw [if_neg h4, if_pos rfl, if_pos (by omega), Nat.sub_self, List.getD_cons_zero]
      · have h3 : ¬ (a ≤ x ∧ x < a + (r.length + 1)) := by omega
        rw [if_neg h1, if_neg h2, if_neg h3]

@[simp] theorem length_memRead (m : List Host.Cell) (a n : Nat) : (memRead m a n).length = n := by
  simp [memRead, rangeFrom]

/-- What was written is read back. -/
theorem memRead_memWrite (m : List Host.Cell) (a : Nat) (bs : List Byte) : memRead (memWrite m a bs) a bs.length = bs := by
  apply List.ext_getElem
  · simp
  · intro i h1 h2
    simp only [memRead, rangeFrom, List.getElem_map, List.getElem_range, memByte_memWrite]
    have h3 : a ≤ i + a ∧ i + a < a + bs.length := by omega
    simp only [h3, and_self, if_true, Nat.add_sub_cancel]
    simp [List.getD_eq_getElem?_getD, h2]

/-- A read elsewhere is unchanged. -/
theorem memRead_memWrite_ne (m : List Host.Cell) (a : Nat) (bs : List Byte) (x n : Nat)
    (h : x + n ≤ a ∨ a + bs.length ≤ x) : memRead (memWrite m a bs) x n = memRead m x n := by
  apply List.ext_getElem
  · simp
  · intro i h1 h2
    have h4 : i < n := by simpa using h1
    have h3 : ¬ (a ≤ i + x ∧ i + x < a + bs.length) := by omega
    simp only [memRead, rangeFrom, List.getElem_map, List.getElem_range, memByte_memWrite, if_neg h3]

/-! ## The canonical form -/

theorem memPut_wf {m : List Host.Cell} (h : Memory.wf m = true) (a : Nat) (b : Byte) : Memory.wf (memPut m a b) = true :=
  spWf_spPut 0 a b m h

theorem memWrite_wf {m : List Host.Cell} (h : Memory.wf m = true) (a : Nat) (bs : List Byte) : Memory.wf (memWrite m a bs) = true := by
  induction bs generalizing m a with
  | nil => exact h
  | cons b r ih => exact ih (memPut_wf h a b) (a + 1)

theorem memFilter_wf {m : List Host.Cell} (h : Memory.wf m = true) (p : Host.Cell → Bool) : Memory.wf (m.filter p) = true :=
  spWf_filter 0 p m h

theorem foldPut_wf (l : List (Nat × Byte)) : ∀ {m : List Host.Cell}, Memory.wf m = true →
    Memory.wf (l.foldl (fun m b => memPut m b.1 b.2) m) = true := by
  induction l with
  | nil => intro m h; exact h
  | cons b r ih => intro m h; exact ih (memPut_wf h b.1 b.2)

variable {s : State}

theorem store_wf (h : Memory.wf s.mem = true) (la : Nat) (bs : List Byte) : Memory.wf (s.store la bs).mem = true := memWrite_wf h la bs

theorem storePiece_mem (s : State) (la : Nat) (bs : List Byte) : (s.storePiece la bs).mem = memWrite s.mem la bs := by
  simp only [State.storePiece]
  split <;> rfl

theorem storePiece_wf (h : Memory.wf s.mem = true) (la : Nat) (bs : List Byte) : Memory.wf (s.storePiece la bs).mem = true := by
  rw [storePiece_mem]; exact memWrite_wf h la bs

theorem applyGlobal_wf (h : Memory.wf s.mem = true) (gst : Sparse Byte) : Memory.wf (s.applyGlobal gst).mem = true := foldPut_wf gst h

theorem applyRedg_wf (l : List RedgOp) : ∀ {s : State}, Memory.wf s.mem = true →
    Memory.wf (s.applyRedg l).mem = true := by
  induction l with
  | nil => intro s h; exact h
  | cons x r ih =>
    intro s h
    simp only [State.applyRedg]
    apply ih
    split
    · exact h
    · exact store_wf h _ _

theorem reset_mem_wf : Memory.wf State.reset.mem = true := rfl

end Sys2Proof.Machine
end

