-- ==== Sys2Proof/Tests/Slice0.lean ====
section
/-! SUPPORT. Tests: the field checks of WellFormed refuse; words written out from the encoding tables of 06 to 14 decode to what they stand for; a state for each statement's hypotheses. -/

open Sys2Proof Sys2Proof.Machine

namespace Sys2Proof.Tests

set_option Elab.async false

def md (x : Src) : MSrc := ⟨x, false, .none, false⟩
def rd (x : Src) : RSrc := ⟨x, false⟩

/-! ## Decoding: words from Tables 6.1 to 6.12, the chapters' field tables and their worked encodings -/

def reads (nbits w : Nat) (i : Instr) : Bool := decodeTableWord nbits w == some i

theorem test_decode_integer :
    reads 96 0x800000000000C1404033C02 (.iadd ⟨.always, .i32, .v 12, md (.v 4), md (.s 5), (), true, (), ()⟩) = true ∧
    reads 96 0x10000F1404030C06 (.isub ⟨.p 3, .n32, .v 12, md (.v 4), md (.const 5), (), false, (), ()⟩) = true ∧
    reads 96 0x700000000000201804033C0A (.iaddc ⟨.always, .i32, .v 12, md (.v 4), md (.v 6), some 2, (), (), some 7⟩) = true ∧
    reads 96 0x100000001000F01804033C0E (.isubb ⟨.always, .n32, .v 12, md (.v 4), md (.v 6), none, (), (), some 1⟩) = true ∧
    reads 96 0x2000001804033C12 (.imul ⟨.always, .i64, .v 12, md (.v 4), md (.v 6), (), false, (), ()⟩) = true ∧
    reads 96 0x3000001804033C16 (.imulhi ⟨.always, .n64, .v 12, md (.v 4), md (.v 6), (), (), (), ()⟩) = true ∧
    reads 96 0x80000000000901804033C1A (.imad ⟨.always, .i32, .v 12, md (.v 4), md (.v 6), rd (.v 9), true, (), ()⟩) = true ∧
    reads 96 0x1000001804033C1E (.imin ⟨.always, .n32, .v 12, md (.v 4), md (.v 6), (), (), (), ()⟩) = true ∧
    reads 96 0x1804033C22 (.imax ⟨.always, .i32, .v 12, md (.v 4), md (.v 6), (), (), (), ()⟩) = true ∧
    reads 96 0x80000002000000004033C26 (.iabs ⟨.always, .i64, .v 12, md (.v 4), (), (), true, (), ()⟩) = true ∧
    reads 96 0x3600001804033C2A (.lea ⟨.always, ⟨.n64, 3⟩, .v 12, md (.v 4), md (.v 6), (), (), (), ()⟩) = true ∧
    reads 96 0x200901804033C2E (.idp4 ⟨.always, ⟨true, false⟩, .v 12, md (.v 4), md (.v 6), rd (.v 9), false, (), ()⟩) = true ∧
    reads 64 0xF1C0404BD05 (.icmp ⟨.always, .i32, 2, .lt, rd (.v 4), rd (.const 7)⟩) = true := by
  decide +kernel

theorem test_decode_moves :
    reads 64 0x1000000305033C31 (.mov ⟨.always, .n32, .v 12, rd (.s 5)⟩) = true ∧
    reads 96 0xFFFFFFFE0000000000C1FC36 (.movi ⟨.always, .i32, .s 7, 0xFFFFFFFE⟩) = true ∧
    reads 96 0x10000C1404033C3A (.movxRd ⟨.always, .n32, .v 12, .v 4, .s 5⟩) = true ∧
    reads 96 0x100000003000001BC1033C3A (.movxWr ⟨.always, .n64, .v 12, .const 1, .v 6⟩) = true ∧
    reads 96 0x1000401804033C3E (.sel ⟨.always, .n32, .v 12, md (.v 4), md (.v 6), 4, (), (), ()⟩) = true := by
  decide +kernel

theorem test_decode_logic_1 :
    reads 96 0x1000001804033C42 (.and ⟨.always, .n32, .v 12, md (.v 4), md (.v 6), (), (), (), ()⟩) = true ∧
    reads 96 0x1000001804033C46 (.or ⟨.always, .n32, .v 12, md (.v 4), md (.v 6), (), (), (), ()⟩) = true ∧
    reads 96 0x1000001804033C4A (.xor ⟨.always, .n32, .v 12, md (.v 4), md (.v 6), (), (), (), ()⟩) = true ∧
    reads 96 0x1000001804033C52 (.andn ⟨.always, .n32, .v 12, md (.v 4), md (.v 6), (), (), (), ()⟩) = true ∧
    reads 96 0x1000001804033C5A (.shl ⟨.always, .n32, .v 12, md (.v 4), md (.v 6), (), (), (), ()⟩) = true ∧
    reads 96 0x1000001804033C5E (.shr ⟨.always, .n32, .v 12, md (.v 4), md (.v 6), (), (), (), ()⟩) = true ∧
    reads 64 0x3000000004033C4D (.not ⟨.always, .n64, .v 12, rd (.v 4)⟩) = true ∧
    reads 128 0x961000300801017C57 (.lanf ⟨.always, .n32, .v 5, md (.v 1), md (.v 2), rd (.v 3), 0x96⟩) = true ∧
    reads 96 0x1804033C62 (.sar ⟨.always, .i32, .v 12, md (.v 4), md (.v 6), (), (), (), ()⟩) = true ∧
    reads 96 0x1000901804033C66 (.fshL ⟨.always, (), .v 12, md (.v 4), md (.v 6), rd (.v 9), (), (), ()⟩) = true ∧
    reads 96 0x1200901804033C66 (.fshR ⟨.always, (), .v 12, md (.v 4), md (.v 6), rd (.v 9), (), (), ()⟩) = true ∧
    reads 64 0x1040000004033C69 (.popc ⟨.always, .n32, .v 12, ⟨.v 4, true⟩⟩) = true ∧
    reads 64 0x1040000004033C6D (.clz ⟨.always, .n32, .v 12, ⟨.v 4, true⟩⟩) = true ∧
    reads 64 0x1040000004033C71 (.ctz ⟨.always, .n32, .v 12, ⟨.v 4, true⟩⟩) = true := by
  decide +kernel

theorem test_decode_logic_2 :
    reads 64 0x1040000004033C75 (.brev ⟨.always, .n32, .v 12, ⟨.v 4, true⟩⟩) = true ∧
    reads 96 0x1000001804033C7A (.bfe ⟨.always, .n32, .v 12, md (.v 4), md (.v 6), (), (), (), ()⟩) = true ∧
    reads 96 0x3000801804033C7E (.bfi ⟨.always, .n64, .v 12, md (.v 4), md (.v 6), rd (.v 8), (), (), ()⟩) = true ∧
    reads 96 0x1000901804033D22 (.bpick ⟨.always, (), .v 12, md (.v 4), md (.v 6), rd (.v 9), (), (), ()⟩) = true := by
  decide +kernel

theorem test_decode_float_1 :
    reads 96 0xA0000008000001804033C82 (.fadd ⟨.always, .f32, .v 12, md (.v 4), md (.v 6), (), true, .rtz, ()⟩) = true ∧
    reads 96 0xA0000008000001804033C86 (.fsub ⟨.always, .f32, .v 12, md (.v 4), md (.v 6), (), true, .rtz, ()⟩) = true ∧
    reads 96 0xA0000008000001804033C8A (.fmul ⟨.always, .f32, .v 12, md (.v 4), md (.v 6), (), true, .rtz, ()⟩) = true ∧
    reads 96 0x2000001807F2C1404030C8E (.ffma ⟨.p 3, .f32, .v 12, ⟨.v 4, true, .none, true⟩, md (.s 5), rd (.const 50), false, .rtz, ()⟩) = true ∧
    reads 96 0x9000001804033C92 (.fmin ⟨.always, .f64, .v 12, md (.v 4), md (.v 6), (), (), (), ()⟩) = true ∧
    reads 96 0x5060008000001804033C96 (.fmax ⟨.always, .f32, .v 12, md (.v 4), ⟨.v 6, false, .rot 2 3, false⟩, (), (), (), ()⟩) = true ∧
    reads 64 0x8000000004033C99 (.fabs ⟨.always, .f32, .v 12, rd (.v 4)⟩) = true ∧
    reads 96 0x40000008000000004033C9E (.frnd ⟨.always, .f32, .v 12, md (.v 4), (), (), (), .rup, ()⟩) = true ∧
    reads 64 0x9000000004033CA1 (.fclass ⟨.always, .f64, .v 12, rd (.v 4)⟩) = true ∧
    reads 96 0x8000001804033CA6 (.fscale ⟨.always, .f32, .v 12, md (.v 4), md (.v 6), (), false, .dyn, ()⟩) = true ∧
    reads 64 0xA0000018040E7CA9 (.fcmp ⟨.always, .f16, 1, .uno, rd (.v 4), rd (.v 6)⟩) = true ∧
    reads 96 0x1000000B000001804033CC2 (.hadd2 ⟨.always, .bf16, .v 12, md (.v 4), md (.v 6), (), false, .rne, false⟩) = true ∧
    reads 96 0x1000000B000001804033CC6 (.hmul2 ⟨.always, .bf16, .v 12, md (.v 4), md (.v 6), (), false, .rne, false⟩) = true ∧
    reads 96 0x18000000A000901804033CCA (.hfma2 ⟨.always, .f16, .v 12, md (.v 4), md (.v 6), rd (.v 9), true, .dyn, true⟩) = true := by
  decide +kernel

theorem test_decode_float_2 :
    reads 96 0xA000001804033CCE (.hmin2 ⟨.always, .f16, .v 12, md (.v 4), md (.v 6), (), (), (), false⟩) = true ∧
    reads 96 0xA000001804033CD2 (.hmax2 ⟨.always, .f16, .v 12, md (.v 4), md (.v 6), (), (), (), false⟩) = true := by
  decide +kernel

theorem test_decode_conversions :
    reads 96 0x8A0000000000000004033CE2 (.cvt ⟨.always, .i32, .v 12, md (.v 4), (), (), true, .rtz, .f32⟩) = true ∧
    reads 96 0x80000000C000901804033CE6 (.cvtpk ⟨.always, .e4m3, .v 12, md (.v 4), md (.v 6), rd (.v 9), false, .dyn, ()⟩) = true ∧
    reads 96 0x10000008000000004033CEA (.cvtscToe8 ⟨.always, (), .v 12, md (.v 4), (), (), (), .rne, ()⟩) = true ∧
    reads 96 0x8200000004033CEA (.cvtscTos24 ⟨.always, (), .v 12, md (.v 4), (), (), (), .dyn, ()⟩) = true ∧
    reads 96 0x8400000004033CEA (.cvtscFrome8 ⟨.always, (), .v 12, md (.v 4), (), (), (), (), ()⟩) = true ∧
    reads 96 0x8600000004033CEA (.cvtscFroms24 ⟨.always, (), .v 12, md (.v 4), (), (), (), (), ()⟩) = true := by
  decide +kernel

theorem test_decode_special :
    reads 96 0x80000008000000004033D02 (.frcp ⟨.always, (), .v 12, md (.v 4), (), (), true, (), ()⟩) = true ∧
    reads 96 0x80000008200000004033D02 (.frsq ⟨.always, (), .v 12, md (.v 4), (), (), true, (), ()⟩) = true ∧
    reads 96 0x30000009400000004033D02 (.fsqrt ⟨.always, .f64, .v 12, md (.v 4), (), (), false, .rdn, ()⟩) = true ∧
    reads 96 0x80000008600000004033D02 (.fexp2 ⟨.always, (), .v 12, md (.v 4), (), (), true, (), ()⟩) = true ∧
    reads 96 0x80000008800000004033D02 (.flog2 ⟨.always, (), .v 12, md (.v 4), (), (), true, (), ()⟩) = true ∧
    reads 96 0x80000008A00000004033D02 (.fsin ⟨.always, (), .v 12, md (.v 4), (), (), true, (), ()⟩) = true ∧
    reads 96 0x80000008C00000004033D02 (.fcos ⟨.always, (), .v 12, md (.v 4), (), (), true, (), ()⟩) = true ∧
    reads 96 0x80000008E00000004033D02 (.ftanh ⟨.always, (), .v 12, md (.v 4), (), (), true, (), ()⟩) = true := by
  decide +kernel

theorem test_decode_predicates :
    reads 64 0x3C00013D09 (.pand ⟨.always, 4, some 0, none⟩) = true ∧
    reads 64 0x200003C00013D09 (.por ⟨.always, 4, some 0, none⟩) = true ∧
    reads 64 0x400003C00013D09 (.pxor ⟨.always, 4, some 0, none⟩) = true ∧
    reads 64 0x600000004017D09 (.pnot ⟨.always, 5, some 4⟩) = true ∧
    reads 64 0x800000004017D09 (.pmov ⟨.always, 5, some 4⟩) = true := by
  decide +kernel

theorem test_decode_gang :
    reads 96 0x103C3F040100BD0E (.shflIdx ⟨.always, .n32, .v 2, rd (.v 1), rd (.const 1), 2⟩) = true ∧
    reads 96 0x123C3F040100BD0E (.shflUp ⟨.always, .n32, .v 2, rd (.v 1), rd (.const 1), 2⟩) = true ∧
    reads 96 0x143C3F040100BD0E (.shflDown ⟨.always, .n32, .v 2, rd (.v 1), rd (.const 1), 2⟩) = true ∧
    reads 96 0x163C3F040100BD0E (.shflXor ⟨.always, .n32, .v 2, rd (.v 1), rd (.const 1), 2⟩) = true ∧
    reads 64 0x390063D11 (.quorumGe ⟨.always, 0, 3, .spec .width⟩) = true ∧
    reads 64 0x2000003D4063D11 (.quorumLt ⟨.always, 0, 3, .const 20⟩) = true ∧
    reads 64 0x400000000063D11 (.quorumSame ⟨.always, 0, 3⟩) = true ∧
    reads 64 0x3C27D15 (.ballot ⟨.always, .s 9, some 3⟩) = true ∧
    reads 96 0x10000008000000004C17D1A (.redux ⟨.always, ⟨.f32, .add⟩, .s 5, md (.v 4), (), (), (), .rne, ()⟩) = true ∧
    reads 96 0x100000001A00000004033D1E (.scan ⟨.always, ⟨.n32, .xor⟩, .v 12, md (.v 4), (), (), (), .dyn, true⟩) = true := by
  decide +kernel

theorem test_decode_legacy :
    reads 96 0x1804033D26 (.lgcDiv ⟨.always, .i32, .v 12, md (.v 4), md (.v 6), (), (), (), ()⟩) = true ∧
    reads 96 0x600001804033D26 (.lgcRem ⟨.always, .n32, .v 12, md (.v 4), md (.v 6), (), (), (), ()⟩) = true ∧
    reads 96 0x1000000004033D26 (.lgcRcp ⟨.always, (), .v 12, md (.v 4), (), (), (), (), ()⟩) = true ∧
    reads 96 0x1200000004033D26 (.lgcRsq ⟨.always, (), .v 12, md (.v 4), (), (), (), (), ()⟩) = true ∧
    reads 96 0x1400000004033D26 (.lgcSin ⟨.always, (), .v 12, md (.v 4), (), (), (), (), ()⟩) = true ∧
    reads 96 0x1600000004033D26 (.lgcCos ⟨.always, (), .v 12, md (.v 4), (), (), (), (), ()⟩) = true ∧
    reads 96 0x1800000004033D26 (.lgcEx2 ⟨.always, (), .v 12, md (.v 4), (), (), (), (), ()⟩) = true ∧
    reads 96 0x1A00000004033D26 (.lgcLg2 ⟨.always, (), .v 12, md (.v 4), (), (), (), (), ()⟩) = true ∧
    reads 96 0x2000001804033D26 (.lgcMin ⟨.always, .i64, .v 12, md (.v 4), md (.v 6), (), (), (), ()⟩) = true ∧
    reads 96 0x2600001804033D26 (.lgcMax ⟨.always, .n64, .v 12, md (.v 4), md (.v 6), (), (), (), ()⟩) = true := by
  decide +kernel

theorem test_decode_control :
    reads 64 0xFFFFFFFFFE000141 (.bra ⟨.p 0, 0xFFFFFFFFFE⟩) = true ∧
    reads 64 0x4002BD45 (.call ⟨.always, .v 10, 0x40⟩) = true ∧
    reads 64 0x4003D49 (.brx ⟨.always, rd (.v 4)⟩) = true ∧
    reads 64 0x30502BD4D (.callx ⟨.always, .v 10, rd (.s 5)⟩) = true ∧
    reads 64 0x4000000A003D51 (.ret ⟨.always, ⟨.v 10, true⟩⟩) = true ∧
    reads 64 0x555 (.exit (.p 1)) = true ∧
    reads 64 0x3D59 (.nop .always) = true ∧
    reads 96 0x3D6A (.nopL .always) = true ∧
    reads 96 0x2000000003C6003D5E (.lp ⟨.always, .const 6, 8⟩) = true ∧
    reads 64 0x961 (.lpbrk (.p 2)) = true ∧
    reads 64 0x304003D65 (.join ⟨.always, .s 4⟩) = true := by
  decide +kernel

theorem test_decode_chunks :
    reads 96 0x400000000000C1BD82 (.chkBegin ⟨.always, .s 6, 0x10⟩) = true ∧
    reads 64 0x3D85 (.chkEnd .always) = true ∧
    reads 64 0x3C9003D89 (.chkAbort ⟨.always, .const 9⟩) = true ∧
    reads 64 0x3D8D (.chkCut .always) = true := by
  decide +kernel

theorem test_decode_sync_1 :
    reads 64 0x4000003C1003D91 (.barArrive ⟨.always, .crew, .const 1⟩) = true ∧
    reads 64 0x14000003C1003D91 (.barWait ⟨.always, .crew, .const 1⟩) = true ∧
    reads 64 0x24000003C1003D91 (.barSync ⟨.always, .crew, .const 1⟩) = true ∧
    reads 64 0xA00000000003D95 (.fence ⟨.always, some .pkg⟩) = true ∧
    reads 64 0x3200000000003D99 (.fenceX ⟨.always, .copy, .matrix⟩) = true ∧
    reads 96 0x1030810000000000003D9E (.wait ⟨.always, 1, 2, 3, 4⟩) = true ∧
    reads 96 0xFFFFFFFC00306C17C2003DA2 (.evbind ⟨.always, .const 2, .s 5, .s 6, 0x3FFFFFFF⟩) = true ∧
    reads 64 0x3C2003DA5 (.evunbind ⟨.always, .const 2⟩) = true ∧
    reads 64 0x308C1FDA9 (.evmask ⟨.always, .s 7, .s 8⟩) = true ∧
    reads 64 0x308C1FDAD (.evpoll ⟨.always, .s 7, .s 8⟩) = true ∧
    reads 64 0x315C53DB1 (.waitany ⟨.always, .s 20, .s 21⟩) = true ∧
    reads 64 0xC2307003DB5 (.mbxPost ⟨.always, .s 7, .s 8⟩) = true ∧
    reads 64 0x300308C1FDB9 (.mbxTake ⟨.always, .s 7, .s 8, 3⟩) = true ∧
    reads 64 0xF0707003DBD (.semSig ⟨.always, .s 7, .const 1⟩) = true := by
  decide +kernel

theorem test_decode_sync_2 :
    reads 64 0x2005F0707003DBD (.semTry ⟨.always, .s 7, .const 1, 5⟩) = true ∧
    reads 64 0x4000F0707003DBD (.semWait ⟨.always, .s 7, .const 1⟩) = true := by
  decide +kernel

theorem test_decode_memory :
    reads 96 0x401800000B04023DC2 (.ldo ⟨.always, .crew, .b32, .v 8, rd (.s 4), rd (.v 2), 0x40⟩) = true ∧
    reads 96 0xA006F0004003DC6 (.sto ⟨.always, .thr, .b64, rd (.v 4), rd (.const 0), rd (.v 6), 0⟩) = true ∧
    reads 96 0xFFFFFFF00C00000B04023E02 (.ldg ⟨.always, (), .b128, .v 8, rd (.s 4), rd (.v 2), 0xFFFFFFF0⟩) = true ∧
    reads 96 0x80400600B04003E06 (.stg ⟨.always, (), .n16, rd (.s 4), rd (.v 2), rd (.v 6), 8⟩) = true ∧
    reads 96 0x200000000E00601404023DCA (.atomo ⟨.always, ⟨.i32, .cas⟩, .quad, .v 8, rd (.v 4), rd (.v 5), rd (.v 6)⟩) = true ∧
    reads 96 0x500000008000001804023E0A (.atomg ⟨.always, ⟨.f32, .add⟩, .pkg, .v 8, rd (.v 4), rd (.v 6), rd (.v 0)⟩) = true ∧
    reads 96 0x400000003400001804003E0E (.redg ⟨.always, .n64, .max, .die, rd (.v 4), rd (.v 6)⟩) = true ∧
    reads 64 0xF0B04C0FDCD (.oalloc ⟨.always, .s 3, .s 4, .const 2⟩) = true ∧
    reads 64 0x304003DD1 (.ofree ⟨.always, .s 4⟩) = true ∧
    reads 64 0x304003DD5 (.orenew ⟨.always, .s 4⟩) = true ∧
    reads 64 0xC0FDD9 (.oqueryBase ⟨.always, .s 3⟩) = true ∧
    reads 64 0x200000000C0FDD9 (.oqueryFmask ⟨.always, .s 3⟩) = true ∧
    reads 64 0x400000304C0FDD9 (.oqueryCode ⟨.always, .s 3, .s 4⟩) = true ∧
    reads 64 0x600000304C0FDD9 (.oqueryExpiry ⟨.always, .s 3, .s 4⟩) = true := by
  decide +kernel

theorem test_decode_engines :
    reads 128 0x10039D00303C0B01003E43 (.cpLin ⟨.always, .s 1, .s 2, .s 3, .glob, .crew, .spec .zero⟩) = true ∧
    reads 256 0x12010000008000030500030002000000000000030400303C0B01003E47 (.cpTen ⟨.always, .s 1, .s 2, .s 3, .glob, .glob, .s 4, ⟨.lit 0x00030002, .sub 5, .lit 0x01000000, .lit 0x12⟩⟩) = true ∧
    reads 128 0x300021C139D00303C0B01003E4B (.cpGat ⟨.always, .s 1, .s 2, .s 3, .s 4, .crew, 2, 3, .spec .zero⟩) = true ∧
    reads 128 0x300024C139D00303C0B01003E4F (.cpSct ⟨.always, .s 1, .s 2, .s 3, .s 4, .crew, 2, 3, .spec .zero⟩) = true ∧
    reads 128 0xE770500303C0B01003E53 (.cpCmpEnc ⟨.always, .s 1, .s 2, .s 3, .spec .zero, .s 5⟩) = true ∧
    reads 128 0xE770502303C0B01003E53 (.cpCmpDec ⟨.always, .s 1, .s 2, .s 3, .s 5⟩) = true ∧
    reads 128 0x81C1305B4303C0B01003E57 (.nmrCmd ⟨.always, ⟨.bf16, .max⟩, .s 1, .s 2, .s 3, .s 4, true, 8, 0, .s 5⟩) = true ∧
    reads 256 0x2020000010000001000000004000000000000030580000C0B01003E5B (.nmrCmdShaped ⟨.always, ⟨.f32, .sum⟩, .s 1, .s 2, false, .s 5, ⟨.lit 4, .lit 16, .lit 0x02000001, .lit 2⟩⟩) = true ∧
    reads 64 0x305003E5D (.nmrFlush ⟨.always, .s 5⟩) = true ∧
    reads 64 0x6C1704C0FE61 (.cmpRd ⟨.always, .s 3, .s 4, .s 5, 6⟩) = true ∧
    reads 64 0xC1704003E65 (.cmpSet ⟨.always, .s 4, .s 5⟩) = true ∧
    reads 64 0xC17C3003EC1 (.tskEnq ⟨.always, .const 3, .s 5⟩) = true ∧
    reads 64 0x305003EC5 (.launch ⟨.always, .s 5⟩) = true := by
  decide +kernel

theorem test_decode_matrix :
    reads 64 0x30500FE81 (.tcfg ⟨.always, 3, .s 5⟩) = true ∧
    reads 64 0x3C17E85 (.tcfgr ⟨.always, .s 5, 3⟩) = true ∧
    reads 96 0xC1B0500BE8A (.tld ⟨.always, false, 2, .s 5, .s 6, none⟩) = true ∧
    reads 96 0x3020000030500BE8E (.tst ⟨.always, true, 2, .s 5, .v 0, some true⟩) = true ∧
    reads 64 0x1FE91 (.tzero ⟨.always, 7⟩) = true ∧
    reads 96 0x100000000000000400003E96 (.mma ⟨.always, 0, 0, 1, true, false⟩) = true ∧
    reads 96 0xC020FFE9A (.mmasE8 ⟨.always, 63, 2, 3, false, false⟩) = true ∧
    reads 96 0x100000000200000C020FFE9A (.mmasS24 ⟨.always, 63, 2, 3, true, false⟩) = true ∧
    reads 64 0x17E9D (.accZero ⟨.always, 5⟩) = true ∧
    reads 96 0xC1B05017EA2 (.accLd ⟨.always, 5, .s 5, .s 6, false⟩) = true ∧
    reads 96 0x100000C1B05017EA6 (.accSt ⟨.always, 5, .s 5, .s 6, true⟩) = true ∧
    reads 64 0xF0805033EA9 (.accRd ⟨.always, .v 12, 5, .const 2⟩) = true ∧
    reads 128 0x3E800000B0FFC0000039DC1704003EAF (.accEpi ⟨.always, 0, .s 4, .s 5, .spec .zero, 0x3E800000, 11, false, false, false, false, 31, 31⟩) = true ∧
    reads 64 0xF13C0003EB1 (.accwin ⟨.always, .const 0, .const 4⟩) = true := by
  decide +kernel

theorem test_decode_system_1 :
    reads 96 0x12340000000000003F82 (.trap ⟨.always, 0x1234⟩) = true ∧
    reads 96 0x70000000000000B86 (.sysc ⟨.p 2, 7⟩) = true ∧
    reads 64 0xC02007FCD (.escape 0x0000000C02007FCD) = true ∧
    reads 64 0x3F89 (.eret .always) = true ∧
    reads 96 0x10000000000C0FF8E (.csrr ⟨.always, .s 3, .fpmode⟩) = true ∧
    reads 96 0x8010000000304003F92 (.csrw ⟨.always, .stvec, .s 4⟩) = true ∧
    reads 96 0x85000000C1704C0FF96 (.csrx ⟨.always, .mgva, .s 3, .s 4, .s 5⟩) = true ∧
    reads 96 0x10000000304003F92 (.fpmodeWrite (.w .always (.s 4))) = true ∧
    reads 96 0x80000000304003F92 (.uevecWrite (.w .always (.s 4))) = true ∧
    reads 96 0x8100000000304003F92 (.fqbaseWrite (.w .always (.s 4))) = true ∧
    reads 96 0x8110000000304003F92 (.fqcapWrite (.w .always (.s 4))) = true ∧
    reads 96 0x8120000000304003F92 (.fqheadWrite (.w .always (.s 4))) = true ∧
    reads 96 0x8200000000304003F92 (.grselWrite (.w .always (.s 4))) = true ∧
    reads 96 0x8210000000304003F92 (.grownWrite (.w .always (.s 4))) = true := by
  decide +kernel

theorem test_decode_system_2 :
    reads 96 0x8310000000304003F92 (.pblkWrite (.w .always (.s 4))) = true ∧
    reads 96 0x8320000000304003F92 (.pliveWrite (.w .always (.s 4))) = true ∧
    reads 96 0x8330000000304003F92 (.pshadWrite (.w .always (.s 4))) = true ∧
    reads 96 0x8350000000304003F92 (.puevWrite (.w .always (.s 4))) = true ∧
    reads 96 0x8400000000304003F92 (.ctxtabWrite (.w .always (.s 4))) = true ∧
    reads 96 0x85100000C1704C0FF96 (.migrationGo (.x .always (.s 3) (.s 4) (.s 5))) = true ∧
    reads 64 0x3C7C1704003F99 (.tlbinv ⟨.always, .s 4, .s 5, .const 7⟩) = true ∧
    reads 64 0x3F9D (.tlbsync .always) = true ∧
    reads 64 0xC1704003FA1 (.icinv ⟨.always, .s 4, .s 5⟩) = true ∧
    reads 64 0x3C1C0FFA5 (.pswap ⟨.always, .s 3, .const 1⟩) = true ∧
    reads 64 0xF03C2C0FFA9 (.haltStop ⟨.always, .s 3, .const 2, .const 0⟩) = true ∧
    reads 64 0xF07C2C0FFA9 (.haltRun ⟨.always, .s 3, .const 2, .const 1⟩) = true ∧
    reads 64 0x306C1704003FAD (.accspill ⟨.always, .s 4, .s 5, .s 6⟩) = true ∧
    reads 64 0xC1704003FB1 (.accfill ⟨.always, .s 4, .s 5⟩) = true := by
  decide +kernel

theorem test_decode_system_3 :
    reads 64 0x3C0C1704C0FFB5 (.fltres ⟨.always, .s 3, .s 4, .s 5, .const 0⟩) = true := by
  decide +kernel

/-! ## WellFormed refuses (06 R136 to R149) -/

theorem test_wellFormed_sources :
    (Instr.mov ⟨.always, .n32, .v 1, ⟨.s 3, true⟩⟩).wf = false ∧
    (Instr.iabs ⟨.always, .i32, .v 1, ⟨.s 3, true, .none, false⟩, (), (), false, (), ()⟩).wf = false ∧
    (Instr.iabs ⟨.always, .i32, .v 1, ⟨.s 3, false, .rot 2 1, false⟩, (), (), false, (), ()⟩).wf = false ∧
    (Instr.iabs ⟨.always, .i32, .v 1, ⟨.v 3, false, .rot 2 8, false⟩, (), (), false, (), ()⟩).wf = false ∧
    (Instr.iabs ⟨.always, .i32, .v 1, ⟨.v 3, false, .rot 2 7, false⟩, (), (), false, (), ()⟩).wf = true ∧
    (Instr.iadd ⟨.always, .i32, .v 1, md (.v 2), ⟨.s 3, true, .none, false⟩, (), false, (), ()⟩).wf = false ∧
    (Instr.imad ⟨.always, .i32, .v 1, md (.v 2), md (.v 3), ⟨.const 3, true⟩, false, (), ()⟩).wf = false ∧
    (Instr.sel ⟨.always, .n32, .v 1, ⟨.v 2, false, .none, true⟩, md (.v 3), 4, (), (), ()⟩).wf = false ∧
    (Instr.sel ⟨.always, .n32, .v 1, md (.v 2), ⟨.v 3, false, .none, true⟩, 4, (), (), ()⟩).wf = false ∧
    (Instr.cvt ⟨.always, .i32, .v 1, md (.v 2), (), (), false, .rtz, .i64⟩).wf = false ∧
    (Instr.cvtpk ⟨.always, .f16, .v 1, md (.v 2), md (.v 3), rd (.v 4), false, .dyn, ()⟩).wf = false ∧
    (Instr.redux ⟨.always, ⟨.f32, .xor⟩, .v 1, md (.v 2), (), (), (), .dyn, ()⟩).wf = false ∧
    (Instr.scan ⟨.always, ⟨.i32, .add⟩, .v 1, md (.v 2), (), (), (), .rne, true⟩).wf = false := by
  decide

theorem test_wellFormed_fields :
    (Instr.lp ⟨.always, .const 1, 3⟩).wf = false ∧ (Instr.lp ⟨.always, .const 1, 4⟩).wf = true ∧
    (Instr.barSync ⟨.always, .gang, .s 4⟩).wf = false ∧
    (Instr.tld ⟨.always, false, 2, .s 5, .s 6, some false⟩).wf = false ∧
    (Instr.atomo ⟨.always, ⟨.i32, .add⟩, .crew, .v 8, rd (.v 4), rd (.v 5), rd (.v 6)⟩).wf = false ∧
    (Instr.atomg ⟨.always, ⟨.f32, .min⟩, .pkg, .v 8, rd (.v 4), rd (.v 5), rd (.v 0)⟩).wf = false ∧
    (Instr.redg ⟨.always, .f32, .or, .die, rd (.v 4), rd (.v 6)⟩).wf = false ∧
    (Instr.cpGat ⟨.always, .s 1, .s 2, .s 3, .s 4, .crew, 0, 3, .spec .zero⟩).wf = false ∧
    (Instr.nmrCmd ⟨.always, ⟨.f32, .sum⟩, .s 1, .s 2, .s 3, .s 4, false, 0, 0, .s 5⟩).wf = false ∧
    (Instr.escape 0x7FCD).wf = true ∧ (Instr.escape 0x3FBD).wf = false ∧
    (Instr.csrw ⟨.always, .fpmode, .s 4⟩).wf = false ∧ (Instr.csrx ⟨.always, .mgctl, .s 3, .s 4, .s 5⟩).wf = false ∧
    (Instr.haltStop ⟨.always, .s 3, .const 2, .const 1⟩).wf = false ∧ (Instr.haltRun ⟨.always, .s 3, .const 2, .const 0⟩).wf = false ∧
    Instr.retentionTick.wf = false := by
  decide

/-! ## A state for each statement's hypotheses -/

/-- The part of Machine/Load.lean whose chosen group stands at `i`, its block fetched. -/
def stand (i : Instr) : State :=
  let w := ofBytesLE (encode i)
  let s := State.reset.loadWord w
  { s with issue := [], cur := s.issue.head?, curBlk := bytesLE 32 w }

/-- The same with the crew's gang, the crew changed. -/
def withGang (f : Gang → Gang) (s : State) : State := { s with gangs := s.gangs.map (fun g => if g.id == 66 then f g else g) }
def withCore (f : GangCore → GangCore) (s : State) : State := withGang (fun g => { g with core := f g.core }) s
def withCrew (f : Crew → Crew) (s : State) : State := { s with crews := s.crews.map f }

/-- The issuing group meets an instruction of `n` bytes under `g` in an environment that `p` accepts. -/
def meets (s : State) (n : Nat) (g : Guard) (p : Env → Bool) : Bool := (s.env n g).any p

def after (i : Instr) (s : State) (p : State → Bool) : Bool := match exec i s with | .next t => p t | _ => false

theorem wit_IntegerArithmetic :
    (let o : AluM IntTy MSrc Unit Bool Unit Unit := ⟨.always, .i32, .v 12, md (.v 4), md (.s 5), (), true, (), ()⟩
     meets (stand (.iadd o)) 12 .always (fun e => e.executes (aluSpec .always (.dst o.d 1) [(1, o.a, 1), (2, o.b, 1)] [] e) &&
       !anyExpired (e.results o.d (fun l => lane2 (e.msrc .w32 (.int 32) l o.a) (e.msrc .w32 (.int 32) l o.b) (fun a b => a + b))))) = true ∧
    (let o : AluM LeaTy MSrc Unit Unit Unit Unit := ⟨.p 0, ⟨.n64, 3⟩, .v 12, md (.v 4), md (.v 6), (), (), (), ()⟩
     meets (withCore (fun c => { c with preds := setAt 0 5 c.preds }) (stand (.lea o))) 12 (.p 0)
       (fun e => e.executes (aluSpec (.p 0) (.dst o.d 2) [(1, o.a, 1), (2, o.b, 2)] [] e) && decide (e.on = 5))) = true := by
  decide +kernel

theorem wit_LogicAndShifts :
    (let o : AluM SIntTy MSrc Unit Unit Unit Unit := ⟨.always, .i64, .v 12, md (.v 4), md (.v 6), (), (), (), ()⟩
     meets (stand (.sar o)) 12 .always (fun e => e.executes (aluSpec .always (.dst o.d 2) [(1, o.a, 2), (2, o.b, 1)] [] e))) = true ∧
    (let o : LanfOps := ⟨.always, .n32, .v 5, md (.v 1), md (.v 2), rd (.v 3), 0x96⟩
     meets (stand (.lanf o)) 16 .always (fun e => e.executes (aluSpec .always (.dst o.d 1) [(1, o.a, 1), (2, o.b, 1)] [(3, o.c, 1)] e))) = true := by
  decide +kernel

theorem wit_FloatArithmetic :
    (let o : AluM FltTy MSrc RSrc Bool Rnd Unit := ⟨.always, .f64, .v 12, md (.v 4), md (.v 6), rd (.v 8), true, .rup, ()⟩
     meets (stand (.ffma o)) 12 .always (fun e => e.executes (aluSpec .always (.dst o.d 2) [(1, o.a, 2), (2, o.b, 2)] [(3, o.c, 2)] e))) = true ∧
    (let o : AluM HTy MSrc Unit Bool Rnd Bool := ⟨.always, .bf16, .v 12, md (.v 4), md (.v 6), (), false, .rne, true⟩
     meets (stand (.hmul2 o)) 12 .always (fun e => e.executes (aluSpec .always (.dst o.d 1) [(1, o.a, 1), (2, o.b, 1)] [] e))) = true := by
  decide +kernel

theorem wit_Moves :
    (let o : MovxOps := ⟨.always, .n64, .v 12, .v 4, .const 3⟩
     meets (stand (.movxRd o)) 12 .always (fun e => let k := movxReg e (vcode o.a) 2 o.b
       e.executes { guard := .always, noCox := true, uses := [.dstV o.d 2, .vec 1 o.a 2, .uni 2 o.b], more := rangeFrom (k % 1024) 2 } && movxOk e k 2)) = true ∧
    (let o : MovxOps := ⟨.always, .n64, .v 12, .v 4, .const 3⟩
     meets (stand (.movxWr o)) 12 .always (fun e =>
       e.executes { guard := .always, noCox := true, uses := [.dstV o.d 2, .src 1 o.a 2, .uni 2 o.b], more := rangeFrom 18 2 } &&
         movxReg e (dcode o.d) 2 o.b == 18 && movxOk e 18 2)) = true ∧
    (let o : AluM NTy MSrc PReg Unit Unit Unit := ⟨.always, .n32, .s 12, md (.s 4), md (.s 5), 3, (), (), ()⟩
     meets (stand (.sel o)) 12 .always (fun e => e.executes (aluSpec .always (.dst o.d 1) [(1, o.a, 1), (2, o.b, 1)] [] e))) = true := by
  decide +kernel

/-- A gang of which lanes 0 and 1 live. -/
def two (c : GangCore) : GangCore := { c with subs := c.subs.map (fun x => { x with lanes := 3 }), exited := 0xFFFFFFFC }

/-- Register `r` of both lanes POISON or EXPIRED. -/
def spoil (r : Nat) (st : VSt) (c : GangCore) : GangCore := (List.range 2).foldl (fun c l => c.setReg r l ⟨7, st, 0⟩) c

theorem wit_CarryArithmetic :
    (let o : AluM W32Ty MSrc (Option PReg) Unit Unit (Option PReg) := ⟨.always, .i32, .v 12, md (.v 4), md (.v 6), some 2, (), (), some 7⟩
     let f := fun (e : Env) (l : Nat) => lane2 (e.msrc .w32 (.int 32) l o.a) (e.msrc .w32 (.int 32) l o.b) (fun a b => a + b)
     let run := fun e : Env => e.executes (aluSpec .always (.dstV o.d 1) [(1, o.a, 1), (2, o.b, 1)] [] e) && !anyExpired (e.results o.d (f e))
     meets (stand (.iaddc o)) 12 .always (fun e => run e && e.lanes.all (fun l => decide ((f e l).st ≠ .poison))) = true ∧
     meets (withCore two (withCore (spoil 6 .poison) (stand (.iaddc o)))) 12 .always (fun e => run e && e.lanes.any (fun l => (f e l).st == .poison)) = true) := by
  decide +kernel

theorem wit_Compares :
    (let o : CmpOps IntTy ICond := ⟨.always, .i32, 2, .lt, rd (.v 4), rd (.const 7)⟩
     let f := fun (e : Env) (l : Nat) => lane2 (e.rsrc .w32 l o.a) (e.rsrc .w32 l o.b) (fun a b => a + b)
     let run := fun e : Env => e.executes (cmpSpec .always o.a o.b 1)
     meets (stand (.icmp o)) 8 .always (fun e => run e && e.lanes.all (fun l => decide ((f e l).st = .live ∧ .expired ∉ (f e l).reads))) = true ∧
     meets (withCore two (withCore (spoil 4 .expired) (stand (.icmp o)))) 8 .always (fun e => run e && e.lanes.any (fun l => decide (.expired ∈ (f e l).reads))) = true ∧
     meets (withCore two (withCore (spoil 4 .poison) (stand (.icmp o)))) 8 .always (fun e => run e && e.lanes.any (fun l => (f e l).st == .poison) &&
       e.lanes.all (fun l => decide (.expired ∉ (f e l).reads))) = true) := by
  decide +kernel

theorem wit_Queues :
    (let o : AluM NumTy Unit Unit Bool Rnd NumTy := ⟨.always, .i32, .v 12, md (.v 4), (), (), true, .rtz, .f32⟩
     let s := stand (.cvt o)
     meets s 12 .always (fun e => e.executes (aluSpec .always (.dst o.d 1) [(1, o.a, 1)] [] e) && decide (s.inFlight e.g .convert < 32))) = true ∧
    (let o : AluM Unit Unit Unit Bool Unit Unit := ⟨.always, (), .v 12, md (.v 4), (), (), true, (), ()⟩
     let s := stand (.frcp o)
     meets s 12 .always (fun e => e.executes (aluSpec .always (.dst o.d 1) [(1, o.a, 1)] [] e) && decide (s.inFlight e.g .special < 32))) = true ∧
    (let o : AluM W32Ty MSrc Unit Unit Unit Unit := ⟨.always, .i32, .v 12, md (.v 4), md (.v 6), (), (), (), ()⟩
     let s := stand (.lgcDiv o)
     meets s 12 .always (fun e => e.executes (lgcSpec .always o.d 1 [(1, o.a, 1), (2, o.b, 1)] e) &&
       e.crew.any (fun c => decide (s.legacyOut (coreDie c.coreIx) c.coreIx < 8)))) = true := by
  decide +kernel

theorem wit_Predicates : meets (stand (.pnot ⟨.always, 5, some 4⟩)) 8 .always (fun e => e.executes { guard := .always }) = true := by
  decide +kernel

theorem wit_GangExchange :
    (let o : ShflOps := ⟨.always, .n32, .v 2, rd (.v 1), rd (.const 1), 2⟩
     meets (stand (.shflIdx o)) 12 .always (fun e => e.executes (shflSpec o e) && e.lanes.all (fun l => (e.rsrc .w32 l o.a).st == .live))) = true ∧
    meets (stand (.quorumLt ⟨.always, 0, 3, .const 20⟩)) 8 .always (fun e => e.executes { guard := .always, noCox := true, coll := true, uses := [.uni 1 (.const 20)] }) = true ∧
    meets (stand (.ballot ⟨.always, .s 9, some 3⟩)) 8 .always (fun e => e.executes { guard := .always, noCox := true, coll := true, uses := [.dstS (.s 9)] }) = true ∧
    (let o : AluM RedSel Unit Unit Unit Rnd Unit := ⟨.always, ⟨.f32, .add⟩, .s 5, md (.v 4), (), (), (), .rne, ()⟩
     meets (stand (.redux o)) 12 .always (fun e => e.executes (redSpec .always (.dst o.d 1) o.a 1 e) && (redTrap (redKind .f32) e o.a).isNone)) = true := by
  decide +kernel

def good (t : Nat) : Bool := t % 4 == 0 && canonical t

/-- The pair of registers `r` holds the address `a` in both lanes. -/
def setPair (r a : Nat) (c : GangCore) : GangCore :=
  (List.range 2).foldl (fun c l => (c.setReg r l ⟨BitVec.ofNat 32 a, .live, 0⟩).setReg (r + 1) l ⟨BitVec.ofNat 32 (a / 2 ^ 32), .live, 0⟩) c

theorem wit_Transfers :
    meets (stand (.bra ⟨.always, 0x40⟩)) 8 .always (fun e => e.alone && e.executes { guard := .always } &&
      good (BitVec.ofNat 64 e.pc + 4 * (0x40 : BitVec 40).signExtend 64).toNat) = true ∧
    meets (withCore (fun c => { c with subs := c.subs.map (fun x => { x with pc := 0x00FFFFFFFFFFFFE0 }) }) (stand (.bra ⟨.always, 0x40⟩))) 8 .always (fun e =>
      e.executes { guard := .always } && !good (BitVec.ofNat 64 e.pc + 4 * (0x40 : BitVec 40).signExtend 64).toNat) = true ∧
    (let t := fun (c : GangCore → GangCore) (p : Env → Nat → Bool) => meets (withCore two (withCore c (stand (.brx ⟨.always, rd (.v 4)⟩)))) 8 .always (fun e =>
       e.alone && e.executes (brxSpec .always (rd (.v 4))) && e.lanes.all (p e))
     t id (fun e l => (e.rsrc .w64 l (rd (.v 4))).st == .live && good (e.rsrc .w64 l (rd (.v 4))).bits) = true ∧
     t (setPair 4 0x40000002) (fun e l => (e.rsrc .w64 l (rd (.v 4))).st == .live && !good (e.rsrc .w64 l (rd (.v 4))).bits) = true ∧
     t (spoil 4 .expired) (fun e l => (e.rsrc .w64 l (rd (.v 4))).st == .expired) = true ∧
     t (spoil 5 .poison) (fun e l => (e.rsrc .w64 l (rd (.v 4))).st == .poison) = true) ∧
    meets (stand (.callx ⟨.always, .v 10, rd (.v 4)⟩)) 8 .always (fun e => e.alone &&
      e.executes { guard := .always, uses := [.dstV (.v 10) 2, useR 1 (rd (.v 4)) 2], marks := markOf (.v 4) false 2 }) = true := by
  decide +kernel

/-- Scalar registers of the gang. -/
def withS (vs : List (Nat × Nat)) : State → State := withCore (fun c => vs.foldl (fun c v => c.setSreg v.1 (BitVec.ofNat 64 v.2)) c)

theorem wit_Loops :
    (let o : LpOps := ⟨.always, .const 6, 8⟩
     let sp : Spec := { guard := .always, uses := [.uni 1 o.a] }
     meets (stand (.lp o)) 12 .always (fun e => e.executes sp && e.on == e.act && e.whole && e.uni .w32 o.a != 0 && decide (e.core.ldepth < 3) &&
       BitVec.ofNat 64 (e.pc + 4 * o.dist.toNat) != e.nextPc) = true ∧
     meets (stand (.lp ⟨.always, .const 0, 8⟩)) 12 .always (fun e => e.executes sp && e.on == e.act && e.alone && e.uni .w32 (.const 0) == 0) = true) ∧
    (let k : LoopLevel := ⟨4, 0x3FFFFFE0, 0x40000040, allLanes 32, 0⟩
     let inLoop (k : LoopLevel) (c : GangCore) : GangCore := { c with ldepth := 1, loops := [k, LoopLevel.zero, LoopLevel.zero] }
     let p (k : LoopLevel) (e : Env) : Bool := e.whole && e.executes { guard := .always } && e.core.loops == [k, LoopLevel.zero, LoopLevel.zero] &&
       e.core.ldepth == 1 && k.lmask == e.act && k.xmask == 0
     meets (withCore (inLoop k) (stand (.lpbrk .always))) 8 .always (fun e => p k e && k.stop != e.nextPc && e.on == e.act) = true ∧
     meets (withCore (fun c => inLoop k { c with preds := setAt 2 9 c.preds }) (stand (.lpbrk (.p 2)))) 8 (.p 2) (fun e => e.on != e.act && e.on == 9) = true ∧
     meets (withCore (inLoop { k with stop := 0x40000008 }) (stand (.nop .always))) 8 .always (fun e => p { k with stop := 0x40000008 } e &&
       (0x40000008 : Word64) == e.nextPc && e.on == e.act) = true) := by
  decide +kernel

theorem wit_Joins :
    (let o : GA := ⟨.p 1, .s 4⟩
     let sp : Spec := { guard := .p 1, uses := [.sreg 1 o.a] }
     let p (e : Env) : Bool := e.executes sp && e.core.ldepth == 0 && e.core.fams == [] && e.core.subs == [e.x]
     let half : GangCore → GangCore := fun c => { c.setSreg 4 0xFFFFFFFF with preds := setAt 1 0xFFFF c.preds }
     meets (withCore half (stand (.join o))) 8 (.p 1) (fun e => p e && BitVec.ofNat 64 (e.uni .w64 o.a) &&& allLanes e.width &&& e.act &&& ~~~e.on != 0) = true) ∧
    (let o : GA := ⟨.always, .s 4⟩
     let two : GangCore → GangCore := fun c => { c.setSreg 4 0xFFFFFFFF with
       subs := [⟨0xFFFF, 0x40000000, .ready, 0⟩, ⟨0xFFFF0000, 0x40000000, .join 0xFFFFFFFF 0, 0⟩] }
     meets (withCore two (stand (.join o))) 8 .always (fun e => e.executes { guard := .always, uses := [.sreg 1 o.a] } && e.on == e.act && e.core.fams == [] &&
       e.core.subs == [e.x, ⟨0xFFFF0000, 0x40000000, .join 0xFFFFFFFF 0, 0⟩] && e.pc == 0x40000000) = true) := by
  decide +kernel

/-- An explicit chunk that began eight bytes before, with `n` instructions. -/
def inExplicit (n : Nat) (g : Gang) : Gang :=
  { g with chunk := some { Chunk.fresh g.core with count := n, expl := some ⟨0x3FFFFFF8, 0x40000100, 6, allLanes 32, g.core, []⟩ } }
def insideB (e : Env) (sp : Spec) (c : Chunk) : Bool :=
  e.g.chunk == some c && (e.check sp).isNone && e.on != 0 && !e.core.ctrFull sp.ctr && !e.interlocked sp && c.count < 256 && c.rCount ≤ 64 && c.wCount ≤ 32

theorem wit_ExplicitChunks :
    (let o : ChkBeginOps := ⟨.always, .s 6, 0x10⟩
     let sp : Spec := { guard := .always, uses := [.dstS o.d], chunk := .before }
     meets (stand (.chkBegin o)) 12 .always (fun e => e.alone && e.executes sp && e.on == e.act &&
       canonical (BitVec.ofNat 64 e.pc + 4 * o.off.signExtend 64).toNat)) = true ∧
    meets (withCore (fun c => { c with preds := setAt 1 0xFF c.preds }) (stand (.chkBegin ⟨.p 1, .s 6, 0x10⟩))) 12 (.p 1)
      (fun e => e.alone && e.on != e.act && e.executes { guard := .p 1, uses := [.dstS (.s 6)], chunk := .before }) = true ∧
    (let c := Chunk.fresh loadGang.core
     meets (stand (.chkEnd .always)) 8 .always (fun e => e.executes { guard := .always, chunk := .bracket } && e.executes { guard := .always, chunk := .after }) = true ∧
     meets (withGang (inExplicit 2) (stand (.chkEnd .always))) 8 .always (fun e => e.alone && e.on == e.act && e.g.chunk.any (fun k => k.expl.isSome &&
       insideB e { guard := .always, chunk := .bracket } k) && c.count == 0) = true ∧
     meets (withGang (inExplicit 2) (stand (.chkAbort ⟨.always, .const 9⟩))) 8 .always (fun e => e.g.chunk.any (fun k => k.expl.isSome &&
       insideB e { guard := .always, uses := [.uni 1 (.const 9)], chunk := .bracket } k &&
       k.expl.any (fun x => x.before.subs.all (fun y => y.lanes == x.members) && x.before.ldepth == 0 && x.before.fams == []))) = true) := by
  decide +kernel

theorem wit_InsideExplicitChunks :
    meets (withGang (inExplicit 2) (stand (.nop .always))) 8 .always (fun e => e.alone && e.g.chunk.any (fun k => insideB e { guard := .always } k &&
      k.expl.any (fun x => e.act &&& x.members != 0))) = true ∧
    meets (withGang (inExplicit 256) (stand (.nop .always))) 8 .always (fun e => (e.check { guard := .always }).isNone && e.on != 0 &&
      !e.interlocked { guard := .always } && e.g.chunk.any (fun k => k.count == 256 && k.rCount ≤ 64 && k.wCount ≤ 32)) = true ∧
    (let o : AluM IntTy MSrc Unit Bool Unit Unit := ⟨.always, .i32, .v 12, md (.v 4), md (.v 6), (), true, (), ()⟩
     let p (x : Bool) (e : Env) : Bool := e.alone && e.g.chunk.any (fun k => insideB e (aluSpec .always (.dst o.d 1) [(1, o.a, 1), (2, o.b, 1)] [] e) k) &&
       anyExpired (e.results o.d (fun l => lane2 (e.msrc .w32 (.int 32) l o.a) (e.msrc .w32 (.int 32) l o.b) (fun a b => a + b))) == x
     meets (withGang (inExplicit 2) (stand (.iadd o))) 12 .always (p false) = true ∧
     meets (withGang (inExplicit 2) (withCore (spoil 6 .expired) (stand (.iadd o)))) 12 .always (p true) = true) ∧
    meets (withGang (inExplicit 2) (stand (.barSync ⟨.always, .crew, .const 1⟩))) 8 .always (fun e => e.g.chunk.any (fun k =>
      insideB e { guard := .always, noCox := true, coll := true, uses := [.uni 1 (.const 1)], chunk := .after } k)) = true := by
  decide +kernel

/-- A closed chunk that holds one byte of global memory. -/
def closedChunk (g : Gang) : Gang :=
  { g with chunk := some { (Chunk.fresh g.core).hold (.glob 0x100000) [7] with count := 1, stores := 1, wset := [.glob (0x100000 / 64)], closed := true } }

theorem wit_ChunkCommit :
    (let s := withGang closedChunk (stand (.nop .always))
     (s.gang? 66).any (fun g => g.chunk.any (fun c => c.closed && c.defer.isEmpty && decide (c.gst.map (·.1)).Nodup && decide (s.gangs.map (·.id)).Nodup &&
       !s.holderHit (some 66) c.wset c.qset && g.core.subs.all (fun x => match x.wait with | .bar _ | .events .. => false | _ => true) &&
       g.core.subs.any (fun x => !x.atMeeting))) = true ∧
     after (.chunkCommit 66 ⟨[], 0⟩) s (fun t => memByte t.mem 0x100000 == 7) = true ∧
     ({ s with tokenHolder := some 3, gangs := s.gangs.map (fun g => if g.id == 3 then { g with chunk := some { Chunk.fresh g.core with rset := [.glob (0x100000 / 64)] } } else g) } : State).holderHit
       (some 66) [.glob (0x100000 / 64)] [] = true) := by
  decide +kernel

theorem wit_SquashesAndToken :
    (let s := withGang (fun g => { closedChunk g with squashes := 3 }) (stand (.nop .always))
     (s.gang? 66).any (fun g => g.chunk.isSome && g.token == .none && 3 ≤ g.squashes && s.thrCode g % 8 == 0 && s.regCode g % 8 == 0 &&
       g.chunk.any (fun c => c.rebound == 0 && c.polled == 0)) = true ∧
     (let u := s.squash 66
      u.tokenHolder == none && u.tokenReqs == [66] && (u.gang? 66).any (fun g => g.token == .wanted && u.gangRuns g)) = true ∧
     after .strokeTokenGrant (s.squash 66) (fun t => t.tokenHolder == some 66) = true) := by
  decide +kernel

theorem wit_Barriers :
    (let sp (a : Src) : Spec := { guard := .always, noCox := true, coll := true, uses := [.uni 1 a], chunk := .after }
     meets (stand (.barSync ⟨.always, .gang, .v 0⟩)) 8 .always (fun e => e.executes { guard := .always, noCox := true, coll := true, chunk := .after }) = true ∧
     meets (stand (.barSync ⟨.always, .crew, .const 1⟩)) 8 .always (fun e => e.alone && e.executes (sp (.const 1)) && e.crew.any (fun c => decide (1 < c.desc.barSlots .crew))) = true ∧
     meets (stand (.barSync ⟨.always, .crew, .const 4⟩)) 8 .always (fun e => e.executes (sp (.const 4)) && e.crew.any (fun c => decide (c.desc.barSlots .crew ≤ 4))) = true) ∧
    ((stand (.nop .always)).barSlot (loadCrew.barKey .crew 1)).any (fun b => b.need ≤ b.count + 1) = true := by
  decide +kernel

theorem wit_FencesAndWaits :
    meets (stand (.fence ⟨.always, some .pkg⟩)) 8 .always (fun e => e.alone && e.executes { guard := .always, chunk := .after }) = true ∧
    (let p (x : Bool) (e : Env) : Bool := e.executes { guard := .always } && decide (e.core.ld ≤ 1 ∧ e.core.st ≤ 2 ∧ e.core.cp ≤ 3 ∧ e.core.tl ≤ 4) == x
     meets (stand (.wait ⟨.always, 1, 2, 3, 4⟩)) 12 .always (p true) = true ∧
     meets (withCore (fun c => { c with cp := 4 }) (stand (.wait ⟨.always, 1, 2, 3, 4⟩))) 12 .always (fun e => p false e && e.g.openChunk.count == 0) = true ∧
     meets (withGang (fun g => { g with chunk := some { Chunk.fresh g.core with count := 2 } }) (withCore (fun c => { c with cp := 4 })
       (stand (.wait ⟨.always, 1, 2, 3, 4⟩)))) 12 .always (fun e => p false e && e.g.openChunk.count != 0) = true) := by
  decide +kernel

def withSlots : State → State := withCrew (fun c => { c with desc := { c.desc with ne := 16 } })

theorem wit_Events :
    (let o : EvbindOps := ⟨.always, .const 2, .s 5, .s 6, 0x10⟩
     let sp : Spec := { guard := .always, uses := [.uni 1 o.a, .uni 2 o.b, .uni 3 o.c] }
     let s := withSlots (withS [(5, 4 * 2 ^ 60), (6, 1)] (stand (.evbind o)))
     meets s 12 .always (fun e => e.executes sp && bindWellFormed (e.uni .w64 o.b) (e.uni .w64 o.c) && decide (2 < e.evSlots) &&
       canonical (BitVec.ofNat 64 e.pc + 4 * o.off.signExtend 64).toNat &&
       (match bindSrc e.opened s e.opened.g (e.uni .w64 o.b) (e.uni .w64 o.c) with | (.ok _, _) => true | _ => false)) = true ∧
     meets (withS [(5, 4 * 2 ^ 60)] (stand (.evbind o))) 12 .always (fun e => e.executes sp && bindWellFormed (e.uni .w64 o.b) (e.uni .w64 o.c) && decide (e.evSlots ≤ 2)) = true ∧
     meets (stand (.evbind o)) 12 .always (fun e => e.executes sp && !bindWellFormed (e.uni .w64 o.b) (e.uni .w64 o.c)) = true) ∧
    meets (withSlots (stand (.evunbind ⟨.always, .const 15⟩))) 8 .always (fun e => e.executes { guard := .always, uses := [.uni 1 (.const 15)] } && decide (15 < e.evSlots)) = true ∧
    meets (withS [(21, 3)] (stand (.waitany ⟨.always, .s 20, .s 21⟩))) 8 .always (fun e => e.alone &&
      e.executes { guard := .always, uses := [.dstS (.s 20), .uni 1 (.s 21)], coll := true, chunk := .after }) = true ∧
    (let w : SubGang := ⟨allLanes 32, 0x40000000, .events 3 20, 0⟩
     let s := withSlots (withCore (fun c => { c with subs := [w], binds := setAt 1 (some ⟨.timer 9, false, 0x40000100⟩) c.binds, even := 3, evpend := 2 }) (stand (.nop .always)))
     after (.eventDelivery 66) s (fun t => (t.gang? 66).any (fun g => g.core.evslot == 1 && g.core.sreg 20 == 0x40000008 && g.core.subs == [{ w with wait := .ready, pc := 0x40000100 }])) = true ∧
     (s.gang? 66).any (fun g => g.chunk.isNone && s.gangRuns g) = true) := by
  decide +kernel

theorem wit_MailboxesAndSemaphores :
    (let p (full : Bool) (s : State) : Bool := meets s 8 .always (fun e => e.executes { guard := .always, uses := [.uni 1 (.s 7), .uni 2 (.s 8)] } &&
       (match mbxName s e.opened.g (e.uni .w32 (.s 7)) with | .ok m => s.mbxFull m == full | _ => false))
     let s := withS [(7, 5)] (stand (.mbxPost ⟨.always, .s 7, .s 8⟩))
     let s := { s with grants := spPut ⟨false, false, 0⟩ (mboxKey 5) ⟨false, true, 1⟩ s.grants }
     p false s = true ∧ p true (s.setMbox 5 (List.replicate 16 0)) = true ∧
     meets (withS [(7, 2 ^ 12)] s) 8 .always (fun e => match mbxName s e.opened.g (e.uni .w32 (.s 7)) with | .trap c => c == cIllegalEncoding | _ => false) = true) ∧
    (let own (e : Env) (u : List Use) : Bool := e.alone && e.g.chunk.isNone && e.executes { guard := .always, uses := u, chunk := .own }
     meets (stand (.mbxTake ⟨.always, .s 7, .s 8, 3⟩)) 8 .always (fun e => own e [.dstS (.s 7), .uni 1 (.s 8)]) = true ∧
     (let s := stand (.semTry ⟨.always, .const 1, .const 2, 5⟩)
      let p (x : Bool) (s : State) : Bool := meets s 8 .always (fun e => own e [.uni 1 (.const 1), .uni 2 (.const 2)] &&
        (match semName s e.opened.g 1 with | .ok n => (s.sem n).serves 2 == x | _ => false))
      p false s = true ∧ p true (s.setSem 1 ⟨2, []⟩) = true)) := by
  decide +kernel

/-- Every executing lane's address translates, one after the other. -/
def walksB (e : Env) (k : AccKind) (ea : Nat → Nat) (s : State) : Bool :=
  ((e.lanes.foldl (fun (r : Option State) l => match r with
    | none => none
    | some s => match s.xlat e.ctx e.sup k .lane (ea l) with | (.ok _, s') => some s' | _ => none) (some s))).isSome

/-- Each lane's register `r` holds the byte offset of its own word. -/
def setWords (r base : Nat) (c : GangCore) : GangCore := (List.range 2).foldl (fun c l => c.setReg r l ⟨BitVec.ofNat 32 (base + 4 * l), .live, 0⟩) c

theorem wit_LoadsStores :
    (let o : LdOps Space := ⟨.always, .crew, .b32, .v 8, rd (.v 4), rd (.const 0), 0x40⟩
     let s := withCore two <| withCore (setWords 4 0) (stand (.ldo o))
     meets s 12 .always (fun e => e.crew.any (fun own =>
       e.executes { guard := .always, noCox := true, uses := ldDst e o.d 4 :: addrUses e o.a o.b 1, marks := addrMarks o.a o.b 1, ctr := .ld } &&
       e.lanes.all (fun l => let x := eaOf e 32 o.a o.b o.imm l
         x.1 == .live && x.2 % 4 == 0 && (s.storePlace e.opened.g own o.sp l x.2 4).any (fun p =>
           !e.g.openChunk.inQ p && (bytesVal (s.seeBytes e.opened.g p 4)).st != .expired))))) = true ∧
    (let o : LdOps Unit := ⟨.always, (), .b32, .v 8, rd (.v 4), rd (.const 0), 8⟩
     let s := withCore two <| withCore (setPair 4 0x100000) (stand (.ldg o))
     meets s 12 .always (fun e =>
       e.executes { guard := .always, uses := ldDst e o.d 4 :: addrUses e o.a o.b 2, marks := addrMarks o.a o.b 2, ctr := .ld } && e.cox == false &&
       e.lanes.all (fun l => let x := eaOf e 64 o.a o.b o.imm l; x.1 == .live && canonical x.2 && x.2 % 4 == 0) &&
       walksB e .load (fun l => (eaOf e 64 o.a o.b o.imm l).2) s)) = true ∧
    (let o : StOps Unit := ⟨.always, (), .b64, rd (.v 4), rd (.const 0), rd (.v 6), 8⟩
     let s := withCore two <| withCore (setPair 4 0x100000) (stand (.stg o))
     meets s 12 .always (fun e =>
       e.executes { guard := .always, uses := addrUses e o.a o.b 2 ++ [stUse e 8 o.c], marks := addrMarks o.a o.b 2 ++ markOf o.c.src o.c.last (memRegs 8), ctr := .st } &&
       e.lanes.all (fun l => (storeVal e 8 l o.c).st == .live) && walksB e .store (fun l => (eaOf e 64 o.a o.b o.imm l).2) s)) = true := by
  decide +kernel

theorem wit_AccessTraps :
    (let o : LdOps Space := ⟨.always, .crew, .b32, .v 8, rd (.v 4), rd (.const 0), 0⟩
     let p (off : Nat) (precise : Bool) (q : Env → Nat → Bool → Bool) : Bool :=
       let s := withCrew (fun c => { c with desc := { c.desc with mode := if precise then 5 else 1 } }) (withCore two (withCore (setWords 4 off) (stand (.ldo o))))
       meets s 12 .always (fun e => e.alone && e.crew.any (fun own => own.desc.precise == precise &&
         e.executes { guard := .always, noCox := true, uses := ldDst e o.d 4 :: addrUses e o.a o.b 1, marks := addrMarks o.a o.b 1, ctr := .ld } &&
         e.lanes.all (fun l => (eaOf e 32 o.a o.b o.imm l).1 == .live && q e (eaOf e 32 o.a o.b o.imm l).2 (s.storePlace e.opened.g own o.sp l (eaOf e 32 o.a o.b o.imm l).2 4).isNone)))
     p 2 loadDesc.precise (fun _ a _ => a % 4 != 0) = true ∧
     p 0x800000 true (fun _ a n => a % 4 == 0 && n) = true ∧
     p 0x800000 false (fun _ a n => a % 4 == 0 && n) = true) ∧
    (let o : StOps Unit := ⟨.always, (), .b64, rd (.v 4), rd (.const 0), rd (.v 6), 8⟩
     let p (a : Nat) (q : Nat → Bool) : Bool := meets (withCore two (withCore (setPair 4 a) (stand (.stg o)))) 12 .always (fun e =>
       e.executes { guard := .always, uses := addrUses e o.a o.b 2 ++ [stUse e 8 o.c], marks := addrMarks o.a o.b 2 ++ markOf o.c.src o.c.last (memRegs 8), ctr := .st } &&
       e.lanes.all (fun l => (eaOf e 64 o.a o.b o.imm l).1 == .live && q (eaOf e 64 o.a o.b o.imm l).2))
     p 0x0200000000000000 (fun a => !canonical a) = true ∧ p 0x100004 (fun a => canonical a && a % 8 != 0) = true) := by
  decide +kernel

theorem wit_Atomics :
    (let o : AtomOps Space := ⟨.always, ⟨.i32, .add⟩, .crew, .v 8, rd (.v 4), rd (.v 5), rd (.v 0)⟩
     let s := withCore two <| withCore (setWords 4 0) (stand (.atomo o))
     meets s 12 .always (fun e => e.crew.any (fun own =>
       e.executes { guard := .always, noCox := true, uses := atomUses e o.sel o.d o.a o.b o.c 1, marks := atomMarks o.sel o.a o.b o.c 1, ctr := .ld } &&
       e.lanes.all (fun l => (s.storePlace e.opened.g own o.sp l (e.rsrc .w32 l o.a).bits 4).isSome && atomData e o.sel o.b o.c l == .live)))) = true ∧
    (let o : RedgOps := ⟨.always, .n64, .max, .die, rd (.v 4), rd (.v 6)⟩
     let s := withCore two <| withCore (setPair 4 0x100000) (stand (.redg o))
     meets s 12 .always (fun e =>
       e.executes { guard := .always, uses := if e.cox then [.uni 1 o.a.src, .uni 2 o.b.src] else [useR 1 o.a 2, useR 2 o.b 2],
                    marks := markOf o.a.src o.a.last 2 ++ markOf o.b.src o.b.last 2, ctr := .st } &&
       walksB e .store (fun l => (e.rsrc .w64 l o.a).bits) s && e.lanes.all (fun l => (e.rsrc .w64 l o.b).st == .live))) = true := by
  decide +kernel

theorem wit_Arrivals :
    (let p : Pend := ⟨90, .load, 8, [⟨3, [⟨5, .live⟩]⟩], []⟩
     let s := withCore (fun c => { c with ld := 1, pend := [p] }) (stand (.nop .always))
     after (.loadDataArrival 66 90) s (fun t => (t.gang? 66).any (fun g => g.core.pend.isEmpty && g.core.ld == 0 && (g.core.reg 8 3).data == 5)) = true ∧
     after (.queuedResultWrite 66 91) s (fun t => decide (t = s)) = true ∧
     after (.legacyRequestService 0) { withCore (fun c => { c with pend := [{ p with kind := .legacy }] }) (stand (.nop .always)) with legacy := [(0, 0, 66, 90)] }
       (fun t => t.legacy.isEmpty && (t.gang? 66).any (fun g => g.core.pend.isEmpty)) = true) := by
  decide +kernel

def roomy : State → State := withCrew (fun c => { c with desc := { c.desc with nc := 32 } })

theorem wit_Allocation :
    (let o : GDAB := ⟨.always, .s 3, .const 63, .s 4⟩
     let p (s : State) (q : Env → Crew → Bool) : Bool := meets s 8 .always (fun e => e.crew.any (fun c =>
       e.executes { guard := .always, noCox := true, uses := [.dstS o.d, .uni 1 o.a, .uni 2 o.b] } && q e c))
     p (stand (.oalloc o)) (fun e c => codeLegal (e.uni .w64 o.b) && ((stand (.oalloc o)).crewView e.opened.g c).firstFit 256 == none) = true ∧
     p (roomy (stand (.oalloc o))) (fun e c => ((roomy (stand (.oalloc o))).crewView e.opened.g c).firstFit 256 == some 4096) = true ∧
     p (withS [(4, 255)] (stand (.oalloc o))) (fun e _ => !codeLegal (e.uni .w64 o.b)) = true) ∧
    (let s := withCrew (fun c => { c with allocs := c.allocs ++ [⟨4096, 256, 0, 0, ⟨0, .live⟩, []⟩] }) (roomy (withS [(4, 4096)] (stand (.ofree ⟨.always, .s 4⟩))))
     meets s 8 .always (fun e => e.crew.any (fun c => e.executes { guard := .always, noCox := true, uses := [.uni 1 (.s 4)] } &&
       (((s.crewView e.opened.g c).allocs.drop 1).find? (fun x => x.start == e.uni .w32 (.s 4))).isSome &&
       ((s.crewView e.opened.g c).allocs.any (fun x => x.holds 4096 1)) && (e.opened.g.flushBlock c.id 4096 256).chunk.isSome)) = true ∧
     meets (withS [(4, 5000)] s) 8 .always (fun e => e.crew.any (fun c => (s.crewView e.opened.g c).allocs.all (fun x => !x.holds 5000 1 && x.start != 5000))) = true) := by
  decide +kernel

def withMem (a : Nat) (bs : List Byte) (s : State) : State := { s with mem := memWrite s.mem a bs }
def errIs (k : Cause) (r : Except Cause Loc × State) : Bool := match r with | (.error x, _) => x == k | _ => false
def okAt (r : Except Cause Loc × State) : Bool := match r with | (.ok _, _) => true | _ => false

/-- The progress of a command whose operands are checked. -/
def ran : Progress := { Progress.start with checked := true }

/-- A running copy of `n` bytes from 0x200000 to 0x100000. -/
def copying (n : Nat) (p : Progress) : Cmd :=
  { id := 80, gang := 66, crew := some 65, ctx := 1, sup := false, die := 0, engine := 0, kind := .lin 0x100000 0x200000 n .glob .glob, obj := some 0x300000,
    insn := [], prog := p, waitVa := none, failed := none, finished := false, corrupt := false }
def withCmd (c : Cmd) : State := { stand (.nop .always) with cmds := [c] }

theorem wit_EngineCommands :
    (let o : CpLinOps := ⟨.always, .s 1, .s 2, .s 3, .glob, .crew, .s 4⟩
     let s := withS [(1, 0), (2, 0x200000), (3, 64), (4, 0x300000)] (stand (.cpLin o))
     let p (s : State) (q : Env → Bool) : Bool := meets s 16 .always (fun e =>
       e.executes (cmdSpec .always [(1, o.a), (2, o.b), (3, o.c), (5, o.k)] (fun _ => true) e) && q e)
     p s (fun e => objOf e o.k == some 0x300000 && eAddrOf e o.ssp o.b % 32 == 0 && canonical (eAddrOf e o.ssp o.b) && okAt (s.xlat e.ctx e.sup .store .lane 0x300000) &&
       e.crew.any (fun c => (s.crewView e.opened.g c).covers (eAddrOf e o.dsp o.a) 64) && e.g.openChunk.count == 0) = true ∧
     meets (withS [(1, 4080), (2, 0x200000), (3, 64)] (stand (.cpLin { o with k := .spec .zero }))) 16 .always (fun e => objOf e (.spec .zero) == none &&
       eAddrOf e o.dsp o.a == 4080) = true) ∧
    meets (withS [(5, 0x300000)] (stand (.nmrFlush ⟨.always, .s 5⟩))) 8 .always (fun e => e.executes (cmdSpec .always [(1, .s 5)] (fun _ => true) e)) = true := by
  decide +kernel

def startCopy : Cmd := copying 32 Progress.start

theorem wit_EnginePieces :
    (withCmd startCopy).cmdReady startCopy = true ∧ cmdBad startCopy.kind = false ∧ cmdBad (.gat 0 0 0 (2 ^ 24 + 1) .crew 0 0) = true ∧
    okAt ((withCmd startCopy).xlat 1 false .load .engine 0x200000) = true ∧
    after (.enginePiece 80 0) (withMem 0x200000 [1, 2, 3] (withCmd (copying 32 ran))) (fun t =>
      (t.cmd? 80).any (fun c => c.prog.held.length == 1)) = true ∧
    after (.enginePiece 80 0) (withCmd (copying 32 { ran with held := [(0, List.replicate 32 (9, .live))] })) (fun t =>
      memByte t.mem 0x10001F == 9 && memByte t.mem 0x100020 == 0 && (t.cmd? 80).any (fun c => c.finished)) = true ∧
    errIs cPageNotPresent ((withCmd startCopy).xlat 1 false .load .engine 0x100000000) = true ∧
    (walk (withCmd startCopy) 1 0x200000).toOption.isSome = true := by
  decide +kernel

theorem wit_CommandCompletion :
    (let c := { copying 32 { ran with pos := 1 } with finished := true }
     after (.commandCompletion 80) (withCmd c) (fun t => t.loadNat 0x300000 8 == 1 && (t.cmd? 80).isNone) = true ∧
     after (.commandCompletion 80) (withCmd { c with finished := false, failed := some (8, 0) }) (fun t =>
       t.loadNat 0x300000 8 == 2 ^ 63 + 8 * 2 ^ 48 && t.fq.waiting.length == 1) = true) := by
  decide +kernel

theorem wit_CompletionObjects :
    (let o : CmpRdOps := ⟨.always, .s 3, .s 4, .s 5, 6⟩
     let s := withMem 0x300000 [5] (withS [(4, 0x300000), (5, 3)] (stand (.cmpRd o)))
     meets s 8 .always (fun e => e.executes { guard := .always, uses := [.dstS o.d, .uni 1 o.a, .uni 2 o.b], ctr := .ld } && e.uni .w64 o.a == 0x300000 &&
       okAt (s.xlat e.ctx e.sup .load .lane 0x300000) && s.seeBytes e.opened.g (.glob 0x300000) 8 == ([5, 0, 0, 0, 0, 0, 0, 0] : List Byte).map (fun b => (b, .live)))) = true ∧
    (let s := withS [(4, 0x300000), (5, 3)] (stand (.cmpSet ⟨.always, .s 4, .s 5⟩))
     meets s 8 .always (fun e => e.executes { guard := .always, uses := [.uni 1 (.s 4), .uni 2 (.s 5)] } && okAt (s.xlat e.ctx e.sup .store .lane 0x300000))) = true := by
  decide +kernel

/-- A descriptor of Table 15.1: one crew of one 32-wide gang, entry 0x40000000, MODE 1. -/
def descBytes : List Byte :=
  bytesLE 8 0x40000000 ++ bytesLE 8 0 ++ bytesLE 4 1 ++ bytesLE 4 1 ++ bytesLE 4 1 ++ bytesLE 2 32 ++ bytesLE 2 1 ++ bytesLE 2 1 ++ [0, 1] ++ bytesLE 2 16 ++
    bytesLE 2 0 ++ bytesLE 2 4 ++ bytesLE 2 0 ++ [0, 0, 0, 0, 0, 0, 0, 0, 0, 0, 0, 1] ++ bytesLE 2 0 ++ List.replicate 70 0

theorem wit_TasksAndLaunch :
    (let o : GAB := ⟨.always, .s 3, .s 5⟩
     let s := withS [(3, 2), (5, 0x300000)] (stand (.tskEnq o))
     let s := { s with grants := spPut ⟨false, false, 0⟩ (queueKey 2) ⟨false, true, 1⟩ s.grants }
     let p (s : State) (q : Env → Bool) : Bool := meets s 8 .always (fun e => e.executes { guard := .always, uses := [.uni 1 o.a, .uni 2 o.b] } && q e)
     p s (fun e => s.granted e.opened.g (queueKey 2) && okAt (s.xlat e.ctx e.sup .load .lane 0x300000) && recordReserved (List.replicate 64 0) && !s.queueFull 2) = true ∧
     p (withS [(3, 1)] s) (fun e => !s.granted e.opened.g (queueKey 1)) = true ∧ p (withS [(3, 64)] s) (fun e => e.uni .w64 o.a == 64) = true) ∧
    (descBytes.length == 128 && descTrap descBytes (descOf descBytes) false == none && (descOf descBytes).cor == false && (descOf descBytes).tqv == false) = true ∧
    (let s := withMem 0x300000 descBytes (withS [(5, 0x300000)] (stand (.launch ⟨.always, .s 5⟩)))
     meets s 8 .always (fun e => e.executes { guard := .always, uses := [.uni 1 (.s 5)], chunk := .after } && okAt (s.xlat e.ctx e.sup .load .lane 0x300000) &&
       launchCtx e s == 1 && s.seeBytes e.opened.g (.glob 0x300000) 128 == descBytes.map (fun b => (b, .live)))) = true ∧
    descTrap (List.replicate 128 0) (descOf (List.replicate 128 0)) false = some cIllegalEncoding := by
  decide +kernel

def hubState (n : Byte) : State := withMem 0x300000 [n] { stand (.nop .always) with hub := [.decrement 0x300000 1 false] }
def gateState : State := (stand (.nop .always)).enqueue 3 (.task ⟨0, 0, 0, 2 ^ 30 + 7, 5, 1, 0, true⟩)
def launchState : State :=
  { stand (.nop .always) with grants := spPut ⟨false, false, 0⟩ (queueKey 3) ⟨false, true, 1⟩ [] }.enqueue 3 (.launch loadDesc 0 1 false)

theorem wit_HubAndQueues :
    okAt ((hubState 1).xlat 1 false .store .engine 0x300000) = true ∧
    after (.joinBlockDecrement 0) (hubState 1) (fun t => t.loadNat 0x300000 8 == 0 && t.hub.isEmpty && (t.queue 0).entries.length == 1) = true ∧
    after (.joinBlockDecrement 0) (hubState 3) (fun t => t.loadNat 0x300000 8 == 2 && (t.queue 0).entries.isEmpty) = true ∧
    gateOk ⟨0, 0, 0, 2 ^ 30 + 7, 5, 1, 0, true⟩ = true ∧
    after (.taskQueueAdmission 3) gateState (fun t => (t.queue 3).en && (t.queue 3).thr == 5) = true ∧
    ((launchState.queue 3).en == false && launchState.ctxRuns (launchState.headCtx 3)) = true ∧
    after (.taskQueueAdmission 3) launchState (fun t => t.items.length == 2) = true := by
  decide +kernel

/-- Scalar registers of cox core 0. -/
def coxS (vs : List (Nat × Nat)) (s : State) : State :=
  { s with gangs := s.gangs.map (fun g => if g.id == 0 then { g with core := vs.foldl (fun c v => c.setSreg v.1 (BitVec.ofNat 64 v.2)) g.core } else g) }
def own (e : Env) (sp : Spec) : Bool := e.executes { sp with chunk := .own } && e.alone && e.g.chunk.isNone
def inS (e : Env) (sp : Spec) : Bool := own e { sp with priv := true } && e.cox && e.sup

/-- Every tile register holds FP16, 16 rows and 16 columns (Table 11.1). -/
def shape16 : Nat := 16 * 2 ^ 12 + 16 * 2 ^ 4 + 2
def withShapes : State → State := withCrew (fun c => { c with tcfg := (List.range 16).map (fun i => (i, shape16)) })

theorem wit_TileShapes :
    (let o : TcfgOps := ⟨.always, 3, .s 5⟩
     let p (v : Nat) (x : Bool) : Bool := meets (withS [(5, v)] (stand (.tcfg o))) 8 .always (fun e =>
       e.executes { guard := .always, noCox := true, uses := [.tile 0 3, .uni 1 o.a] } && tcfgLegal (e.uni .w64 o.a % 2 ^ 21) == x)
     p shape16 true = true ∧ p 15 false = true) ∧
    meets (stand (.tcfgr ⟨.always, .s 5, 3⟩)) 8 .always (fun e => e.executes { guard := .always, noCox := true, uses := [.dstS (.s 5), .tile 1 3] }) = true ∧
    (let p (b : Fin 64) (q : Env → Crew → Bool) : Bool := meets (stand (.accwin ⟨.always, .const 2, .const b⟩)) 8 .always (fun e => e.crew.any (fun c =>
       e.executes { guard := .always, noCox := true, coll := true, uses := [.uni 1 (.const 2), .uni 2 (.const b)] } && q e c))
     p 62 (fun e c => e.g.num == 0 && c.desc.na == 2 + 62) = true ∧ p 63 (fun e c => e.g.num == 0 && c.desc.na < 2 + 63) = true) := by
  decide +kernel

theorem wit_MatrixRequests :
    (let o : TileMoveOps := ⟨.always, false, 2, .s 5, .s 6, none⟩
     let sp : Spec := { guard := .always, noCox := true, ctr := .tl, uses := [.tile 0 2, .uni 1 o.a, .uni 2 o.b] }
     let s := withShapes (withS [(5, 0x100000), (6, 64)] (stand (.tst o)))
     meets s 12 .always (fun e => e.executes sp && e.tileShape s 2 == shape16 && canonical (e.uni .w64 o.a) && (tileRows shape16 none).2 ≤ 64 &&
       e.crew.any (fun c => decide (s.tableHeld (quadOf c.coreIx) < 256)) && decide (s.gangHeld e.opened.g < 32)) = true ∧
     meets (stand (.tld o)) 12 .always (fun e => e.executes sp && e.tileShape (stand (.tld o)) 2 == 0) = true) ∧
    (let o : MmaOps := ⟨.always, 5, 2, 3, true, false⟩
     let s := withShapes (stand (.mma o))
     meets s 12 .always (fun e => e.executes { guard := .always, noCox := true, coll := true, ctr := .tl, uses := [.tile 1 2, .tile 2 3] } &&
       mmaOk (e.tileShape s 2) (e.tileShape s 3) false false && (e.view s e.opened.g).any (fun c => c.accbase + 5 < c.acclim && (s.acc (quadOf c.coreIx) 5).owner == 0)) = true ∧
     mmaOk 0 0 false false = false) ∧
    (let o : AccZeroOps := ⟨.always, 5⟩
     let shut := withCrew (fun c => { c with acclim := 5 }) (stand (.accZero o))
     meets shut 8 .always (fun e => e.executes { guard := .always, noCox := true, coll := true, ctr := .tl } &&
       (e.view shut e.opened.g).any (fun c => c.acclim ≤ c.accbase + 5)) = true) := by
  decide +kernel

theorem wit_AccumulatorRead :
    (let o : AccRdOps := ⟨.always, .v 12, 5, .const 2⟩
     let s := stand (.accRd o)
     let p (q : Env → State → Bool) : Bool := meets s 8 .always (fun e => e.crew.any (fun c =>
       e.executes { guard := .always, noCox := true, coll := true, chunk := .before, uses := [.dstV o.d 1, .uni 2 o.b] } &&
         q e (s.claim e.ctx (quadOf c.coreIx) (some 5))))
     p (fun e u => e.uni .w32 o.b ≤ 31 && !u.tileAwaited 0 5) = true ∧
     meets (stand (.accRd { o with b := .const 32 })) 8 .always (fun e => decide (31 < e.uni .w32 (.const 32))) = true) := by
  decide +kernel

def zeroReq (st : ReqSt) : Req :=
  { id := 90, gang := 66, crew := 65, ctx := 1, quad := 0, prio := 0, kind := .accZero 5, st := st, done := [], bias := [], data := [], pages := [], passed := 0,
    insn := [], corrupt := false }
def withReqs (l : List Req) : State := { withCore (fun c => { c with tl := 1 }) (stand (.nop .always)) with reqs := l }

theorem wit_MatrixEngine :
    (withReqs [zeroReq .queued]).reqMoves (zeroReq .queued) = true ∧
    after (.matrixGrant 0 false) (withReqs [zeroReq .queued]) (fun t => (t.req? 90).any (fun r => r.st == .finished) || (t.req? 90).isNone) = true ∧
    (withReqs [zeroReq .queued, { zeroReq .queued with id := 91 }]).standing (zeroReq .queued) = true ∧
    (zeroReq .queued).conflicts { zeroReq .queued with id := 91 } = true ∧
    after (.matrixRequestComplete 90) (withReqs [zeroReq .finished]) (fun t => (t.req? 90).isNone && (t.gang? 66).any (fun g => g.core.tl == 0)) = true ∧
    after (.matrixRequestComplete 90) (withReqs [zeroReq .queued]) (fun t => (t.req? 90).isSome) = true := by
  decide +kernel

theorem wit_GangTraps :
    (let o : ImmOps := ⟨.always, 0x1234⟩
     meets (stand (.trap o)) 12 .always (fun e => e.executes { guard := .always } && e.alone && e.cox == false && e.g.chunk.isNone) = true ∧
     after (.trap o) (stand (.trap o)) (fun t => t.fq.waiting.length == 1 && (t.gang? 66).any (fun g => g.seq == 1)) = true) ∧
    (let w : Word64 := 0x0000000C02007FCD
     meets (stand (.escape w)) 8 .always (fun e => e.alone && e.cox == false && e.core.uevec.getLsbD 0 == false) = true ∧
     after (.escape w) (withCore (fun c => { c with uevec := 0x40001001 }) (stand (.escape w))) (fun t =>
       (t.gang? 66).any (fun g => g.core.subs.map (fun x => x.pc) == [0x40001000])) = true) ∧
    (let o : CmpRdOps := ⟨.always, .s 3, .s 4, .s 5, 6⟩
     let s := withS [(4, 0x100000000)] (stand (.cmpRd o))
     meets s 8 .always (fun e => e.executes { guard := .always, uses := [.dstS o.d, .uni 1 o.a, .uni 2 o.b], ctr := .ld } && e.alone &&
       errIs cPageNotPresent (s.xlat e.ctx e.sup .load .lane 0x100000000)) = true) := by
  decide +kernel

def atSepc (a : Word64) (s : State) : State := s.setCox 0 { s.coxOf 0 with sepc := a }

theorem wit_CoxTrapAndReturn :
    (let p (a : Word64) (q : Nat → Bool) : Bool := meets (atSepc a (stand (.eret .always))) 8 .always (fun e => inS e { guard := .always } &&
       q ((atSepc a (stand (.eret .always))).coxOf e.g.id).sepc.toNat)
     p 0x40001000 good = true ∧ p 0x40001002 (fun a => a % 4 != 0) = true ∧ p 0x0200000000000000 (fun a => a % 4 == 0 && !canonical a) = true) ∧
    (let s := (stand (.eret .always)).setCox 0 { (stand (.eret .always)).coxOf 0 with sstatus := 17 }
     ((s.coxOf 0).sstatus.getLsbD 4 && (s.coxOf 0).sstatus.getLsbD 0) = true ∧ (((stand (.eret .always)).coxOf 0).sstatus.getLsbD 4) = false ∧
     (s.gang? 0).any (fun g => g.isCox && g.chunk.isNone && g.id < s.cox.length) = true) ∧
    meets ((stand (.eret .always)).setCox 0 { (stand (.eret .always)).coxOf 0 with sstatus := 4 }) 8 .always (fun e => !e.sup) = true := by
  decide +kernel

theorem wit_ControlRegisters :
    (let o : CsrrOps := ⟨.always, .s 3, .stvec⟩
     meets (stand (.csrr o)) 12 .always (fun e => e.executes (csrSpec .always o.csr false [.dstS o.d] e) && e.alone && e.g.chunk.isNone) = true) ∧
    (let p (i : CsrPut → Instr) (c : Csr) (v : Nat) (q : State → Nat → Bool) : Bool :=
       let w := CsrPut.w .always (.s 4)
       meets (coxS [(4, v)] (stand (i w))) 12 .always (fun e => e.executes (putSpec w c e) && e.alone && e.g.chunk.isNone && q (stand (i w)) (putValue w c e 0))
     p .fqbaseWrite .fqbase 0x10000 (fun s v => v % 4096 == 0 && s.fq.head == s.fq.tail) = true ∧ p .fqbaseWrite .fqbase 0x10001 (fun _ v => v % 4096 != 0) = true ∧
     p .fqcapWrite .fqcap 16 (fun _ v => 5 ≤ v && v ≤ 16) = true ∧ p .fqcapWrite .fqcap 17 (fun _ v => 16 < v) = true ∧
     p .fqheadWrite .fqhead 0 (fun s v => decide ((BitVec.ofNat 64 v - s.fq.head).toNat ≤ (s.fq.tail - s.fq.head).toNat)) = true ∧
     p .grselWrite .grsel (2 * 2 ^ 60 + 7) (fun _ v => (grselKey v).isSome) = true ∧ p .grselWrite .grsel (15 * 2 ^ 60) (fun _ v => (grselKey v).isNone) = true ∧
     p .pliveWrite .plive 9 (fun s v => (s.part (s.psel.toNat % 32)).st == .halted && v % 4096 != 0) = true ∧
     p .pblkWrite .pblk 2 (fun s _ => (s.part (s.psel.toNat % 32)).st == .halted) = true ∧
     p .migrationGo .mgctl (2 ^ 63 + 3 * 2 ^ 24 + 1) (fun s v => v.testBit 63 && s.migration.isNone && bitsAt v 24 10 != s.pkgNo) = true) ∧
    (let w := CsrPut.w .always (.s 4)
     let p (v : Nat) (x : Bool) : Bool := meets (withS [(4, v)] (stand (.fpmodeWrite w))) 12 .always (fun e =>
       e.executes (putSpec w .fpmode e) && e.alone && fpmodeLegal (putValue w .fpmode e e.core.fpmode.toNat) == x)
     p 1 true = true ∧ p 7 false = true) := by
  decide +kernel

theorem wit_TranslationControl :
    (let o : GABC := ⟨.always, .s 4, .s 5, .const 7⟩
     let sp : Spec := { guard := .always, uses := [.uni 1 o.a, .uni 2 o.b, .uni 3 o.c] }
     meets (coxS [(4, 4095), (5, 0x1000)] (stand (.tlbinv o))) 8 .always (fun e => inS e sp && decide (e.uni .w64 o.a < 4096 ∧ e.uni .w64 o.c < 8)) = true ∧
     meets (coxS [(4, 4096)] (stand (.tlbinv o))) 8 .always (fun e => inS e sp && decide (4096 ≤ e.uni .w64 o.a)) = true) ∧
    meets (stand (.tlbsync .always)) 8 .always (fun e => inS e { guard := .always }) = true ∧
    ((stand (.tlbsync .always)).postInval (some 0) 1 0 none).invals.any (fun i => i.core == some 0) = true ∧
    meets (stand (.icinv ⟨.always, .s 4, .s 5⟩)) 8 .always (fun e => own e { guard := .always, uses := [.uni 1 (.s 4), .uni 2 (.s 5)] }) = true := by
  decide +kernel

def withPart (st : PartSt) (s : State) : State := s.setPart 2 { s.part 2 with st := st }

theorem wit_Partitions :
    (let o : GDAB := ⟨.always, .s 3, .const 2, .const 0⟩
     let r : GDAB := ⟨.always, .s 3, .const 2, .const 1⟩
     let p (o : GDAB) (i : Instr) (st : PartSt) : Bool := meets (withPart st (stand i)) 8 .always (fun e =>
       e.executes (haltSpec o e) && e.alone && e.g.chunk.isNone && e.uni .w64 o.a == 2 && ((withPart st (stand i)).part 2).st == st)
     p o (.haltStop o) .running = true ∧ p o (.haltStop o) .halted = true ∧ p r (.haltRun r) .halted = true ∧ p r (.haltRun r) .swapping = true) ∧
    meets (stand (.pswap ⟨.always, .s 3, .const 1⟩)) 8 .always (fun e => inS e { guard := .always, uses := [.dstS (.s 3), .uni 1 (.const 1)] }) = true ∧
    (let s := withPart .stopping (stand (.tlbsync .always))
     s.partQuiet 2 = true ∧ after (.engineStopAck 2) s (fun t => (t.part 2).st == .halted) = true) ∧
    (let s := withCore (fun c => { c with subs := c.subs.map (fun x => { x with wait := .stall (.halted 2 false) }) }) (stand (.nop .always))
     after (.stallRelease 66 0) s (fun t => (t.gang? 66).any (fun g => g.core.subs.all (fun x => x.wait == .ready))) = true) := by
  decide +kernel

theorem wit_HandoverAndResume :
    (let o : GDABC := ⟨.always, .s 3, .s 4, .s 5, .const 0⟩
     let sp : Spec := { guard := .always, uses := [.dstS o.d, .uni 1 o.a, .uni 2 o.b, .uni 3 o.c] }
     meets (stand (.fltres o)) 8 .always (fun e => inS e sp && decide (e.uni .w64 o.b < 4)) = true ∧
     meets (coxS [(5, 4)] (stand (.fltres o))) 8 .always (fun e => inS e sp && decide (4 ≤ e.uni .w64 o.b)) = true) ∧
    (let s := withCore (fun c => { c with subs := [⟨allLanes 32, 0x40000000, .held ⟨cTrapInstr, 7, 12, true, .issue, []⟩, 0⟩] }) (stand (.nop .always))
     ((s.resumeGroup 66 7 1 0).gang? 66).any (fun g => g.core.subs == [⟨allLanes 32, 0x4000000C, .ready, 0⟩]) = true) ∧
    (let o : GABC := ⟨.always, .s 4, .s 5, .s 6⟩
     meets (coxS [(4, 5), (5, 0x100000), (6, 1)] (stand (.accspill o))) 8 .always (fun e => inS e { guard := .always, uses := [.uni 1 o.a, .uni 2 o.b, .uni 3 o.c] } &&
       (selTile (e.uni .w64 o.a)).isSome && okAt ((stand (.accspill o)).xlat e.ctx e.sup .store .lane 0x100000)) = true) ∧
    meets (coxS [(4, 5), (5, 0x100000)] (stand (.accfill ⟨.always, .s 4, .s 5⟩))) 8 .always (fun e => inS e { guard := .always, uses := [.uni 1 (.s 4), .uni 2 (.s 5)] } &&
      okAt ((stand (.accfill ⟨.always, .s 4, .s 5⟩)).xlat e.ctx e.sup .load .lane 0x100000)) = true := by
  decide +kernel

/-- The item of Machine/Load.lean with two crews, the second not placed; quad 1 has nothing left. -/
def twoCrews (s : State) : State :=
  { s with items := [{ loadItem with desc := { loadDesc with cx := 2, nk := 0, na := 0 }, ranges := [⟨0, 1, 2⟩, ⟨1, 0, 0⟩] }],
           crews := s.crews.map (fun c => { c with desc := { c.desc with nk := 0, na := 0 } }) }
def gone (c : GangCore) : GangCore := { c with subs := [], exited := allLanes 64 }

theorem wit_IssueSelection :
    (let s := State.reset.loadWord (ofBytesLE (encode (.nop .always)));
     ((s.cands 0).length == 1 && (bestCand (s.cands 0)).isSome) = true ∧ (s.cands 1).length = 0) ∧
    (let s := twoCrews (stand (.nop .always));
     (s.item? 64).any (fun i => i.desc.cor == false && i.split == some (s.partQuads 0) && i.placed < i.total && (i.rangeAt 0).isSome && !s.heldBack 0 i [0] &&
       (s.spotFor i 0).any (fun x => x.gangs.length == i.desc.ng)) = true ∧
     s.partOfCtx 1 = some 0 ∧ (s.part 0).st = .running ∧ after (.crewPlacement 64 0) s (fun t => t.crews.length == 2 && t.gangs.length == 26) = true) ∧
    (let r : List QRange := [⟨0, 1, 5⟩, ⟨1, 3, 3⟩, ⟨64, 0, 9⟩]
     victimQuad r 1 = some 0 ∧ victimQuad r 65 = some 64 ∧ stolen r 65 64 = [⟨0, 1, 5⟩, ⟨64, 0, 4⟩, ⟨65, 4, 9⟩]) ∧
    (let s := withCore gone (stand (.nop .always));
     (s.crew? 65).any (fun c => s.crewDone c && (s.faulted c).isEmpty) = true ∧ after (.crewRelease 65) s (fun t => t.crews.isEmpty) = true ∧
     after (.crewRelease 65) (withCore (fun c => { gone c with fmask := 4 }) (stand (.nop .always))) (fun t => t.fq.waiting.length == 1 && t.crews.length == 1) = true) := by
  decide +kernel

/-- Registers in class 1 with action `act`, whose tick has come. -/
def lapsing (act : Nat) : State :=
  let s := withCrew (fun c => { c with desc := { c.desc with ret0 := act * 8 + 1 } }) (withCore (fun c => c.setReg 4 1 ⟨7, .poison, 0⟩) (stand (.nop .always)))
  { s with tick := 5 }

theorem wit_TicksAndRecords :
    ((lapsing 1).gang? 66).any (fun g => (lapsing 1).regCode g % 8 == 1) = true ∧
    after (.allocationExpiry (.regs 66)) (lapsing 1) (fun t => (t.gang? 66).any (fun g => (g.core.reg 4 0).st == .expired && (g.core.reg 4 1).st == .poison)) = true ∧
    after (.allocationExpiry (.regs 66)) (lapsing 0) (fun t => (t.gang? 66).any (fun g => (g.core.reg 4 0).st == .poison)) = true ∧
    (let s := { stand (.nop .always) with fq := { State.reset.fq with base := 0x200000, cap := 5, configured := true, waiting := [(0, List.replicate 128 7)] } }
     (s.fq.configured && canonical s.fq.place && okAt (s.xlat 0 true .store .engine s.fq.place)) = true ∧
     after .faultRecordEntry s (fun t => t.fq.tail == 1 && memByte t.mem 0x20007F == 7) = true) ∧
    after (.softError ⟨.line 0x300000, false⟩) (stand (.nop .always)) (fun t => t.linePoisoned 0x30003F && !t.linePoisoned 0x300040) = true := by
  decide +kernel

theorem wit_TransferTraps :
    meets (withCore (fun c => { c with subs := c.subs.map (fun x => { x with pc := 0x00FFFFFFFFFFFFE0 }) }) (stand (.call ⟨.always, .v 10, 0x40⟩))) 8 .always (fun e =>
      e.executes { guard := .always, uses := [.dstV (.v 10) 2] } && !good (BitVec.ofNat 64 e.pc + 4 * (0x40 : BitVec 40).signExtend 64).toNat) = true ∧
    (let t := fun (c : GangCore → GangCore) (p : Env → Nat → Bool) => meets (withCore two (withCore c (stand (.callx ⟨.always, .v 10, rd (.v 4)⟩)))) 8 .always (fun e =>
       e.executes { guard := .always, uses := [.dstV (.v 10) 2, useR 1 (rd (.v 4)) 2], marks := [] } && e.lanes.all (p e))
     t (setPair 4 0x40000002) (fun e l => (e.rsrc .w64 l (rd (.v 4))).st == .live && !good (e.rsrc .w64 l (rd (.v 4))).bits) = true ∧
     t (spoil 4 .expired) (fun e l => (e.rsrc .w64 l (rd (.v 4))).st == .expired) = true ∧
     t (spoil 5 .poison) (fun e l => (e.rsrc .w64 l (rd (.v 4))).st == .poison) = true) := by
  decide +kernel

/-- A range of 65 lines of crew space read, or of 33 lines written. -/
def wide (g : Gang) : Gang := { g with chunk := g.chunk.map (fun c => { c with rset := (List.range 64).map (fun i => .store 65 (i + 1)), wset := (List.range 32).map (fun i => .store 99 i) }) }

theorem wit_InsideExplicitAborts :
    meets (withGang (inExplicit 2) (stand (.fenceX ⟨.always, .copy, .matrix⟩))) 8 .always (fun e => e.g.chunk.any (fun k =>
      insideB e { guard := .always, chunk := .after } k)) = true ∧
    meets (withGang (inExplicit 2) (withCore (fun c => { c with preds := setAt 0 5 c.preds }) (stand (.bra ⟨.p 0, 0x40⟩)))) 8 (.p 0) (fun e => e.alone && e.on != e.act &&
      e.g.chunk.any (fun k => insideB e { guard := .p 0 } k)) = true ∧
    (let s := withGang (inExplicit 2) (withS [(4, 0x800000)] (stand (.orenew ⟨.always, .s 4⟩)))
     meets s 8 .always (fun e => e.g.chunk.any (fun k => insideB e { guard := .always, noCox := true, uses := [.uni 1 (.s 4)] } k) &&
       e.crew.any (fun k => (s.crewView e.g k).allocs.all (fun a => !a.holds 0x800000 1))) = true) ∧
    (let o : LdOps Space := ⟨.always, .crew, .b32, .v 8, rd (.v 4), rd (.const 0), 0⟩
     let s := withGang wide (withGang (inExplicit 2) (withCore two (withCore (setWords 4 0) (stand (.ldo o)))))
     meets s 12 .always (fun e => e.g.chunk.any (fun k => insideB e { guard := .always, noCox := true, uses := ldDst e o.d 4 :: addrUses e o.a o.b 1, marks := [], ctr := .ld } k) &&
       e.crew.any (fun own => (s.storePlace e.opened.g own o.sp 0 0 4).any (fun p => decide (64 < (e.readChunk (fun _ => p)).rCount)))) = true) ∧
    (let o : StOps Space := ⟨.always, .crew, .b32, rd (.v 4), rd (.const 0), rd (.v 6), 0⟩
     let s := withGang wide (withGang (inExplicit 2) (withCore two (withCore (setWords 4 0) (stand (.sto o)))))
     meets s 12 .always (fun e => e.g.chunk.any (fun k => insideB e { guard := .always, noCox := true, uses := addrUses e o.a o.b 1 ++ [stUse e 4 o.c], marks := [], ctr := .st } k) &&
       e.crew.any (fun own => (s.storePlace e.opened.g own o.sp 0 0 4).any (fun p => decide (32 < (e.storeChunk (fun _ => p) (fun _ => [1, 2, 3, 4])).wCount)))) = true) := by
  decide +kernel

/-- The crew's gang waits at its barrier slot 1 with `p` pending. -/
def atBar (p : Nat) (s : State) : State :=
  withGang (fun g => { g with bpend := [(loadCrew.barKey .crew 1, BitVec.ofNat 32 p)], core := { g.core with subs := g.core.subs.map (fun x => { x with wait := .bar (loadCrew.barKey .crew 1) }) } }) s
def bareChunk (g : Gang) : Gang := { g with chunk := some { Chunk.fresh g.core with count := 1, closed := true } }

theorem wit_BarrierRelease :
    (let s := atBar 5 (stand (.nop .always))
     (s.gang? 66).any (fun g => g.chunk.isNone && g.pendPhase (loadCrew.barKey .crew 1) == some 5) = true ∧
     ((s.barArrive (loadCrew.barKey .crew 1) 99).gang? 66).any (fun g => (g.pendPhase (loadCrew.barKey .crew 1)).isNone && g.core.subs.all (fun x => x.wait == .ready)) = true) ∧
    (let s (p : Nat) := withGang bareChunk (atBar p (stand (.nop .always)))
     after (.chunkCommit 66 ⟨[], 0⟩) (s 0) (fun t => (t.gang? 66).any (fun g => g.chunk.isNone && g.core.subs.all (fun x => x.wait == .bar (loadCrew.barKey .crew 1)))) = true ∧
     after (.chunkCommit 66 ⟨[], 0⟩) (s 5) (fun t => (t.gang? 66).any (fun g => g.chunk.isNone && g.core.subs.all (fun x => x.wait == .ready))) = true) := by
  decide +kernel

theorem wit_WaitanyCommit :
    (let s := withGang bareChunk (withCore (fun c => { c with subs := [⟨allLanes 32, 0x40000000, .events 3 20, 0⟩], rearm := 1, binds := setAt 0 (some ⟨.sem 9 0, false, 0x40000100⟩) c.binds })
       (stand (.nop .always)))
     after (.chunkCommit 66 ⟨[], 0⟩) s (fun t => t.due == [.eventDelivery 66] && (t.gang? 66).any (fun g => g.chunk.isNone && g.core.rearm == 0 && g.core.evpend == 1))) = true := by
  decide +kernel

theorem wit_Quarantine :
    (let o : LdOps Space := ⟨.always, .crew, .b32, .v 8, rd (.v 4), rd (.const 0), 0⟩
     let s := withCore (fun c => c.setReg 4 1 ⟨0x800000, .live, 0⟩) (withCore two (withCore (setWords 4 0) (stand (.ldo o))))
     s.crews.all (fun c => !c.desc.precise) = true ∧
     after (.ldo o) s (fun t => (t.gang? 66).any (fun g => g.core.quarantined == 2 && g.core.fmask == 2 && g.core.ld == 1 && g.core.pend.length == 1 &&
       g.core.subs.map (fun x => (x.lanes, x.pc)) == [(1, 0x4000000C)])) = true) ∧
    (let o : LdOps Unit := ⟨.always, (), .b32, .v 8, rd (.v 4), rd (.const 0), 8⟩
     let s := withCore (fun c => c.setReg 5 1 ⟨1, .live, 0⟩) (withCore two (withCore (setPair 4 0x100000) (stand (.ldg o))))
     after (.ldg o) s (fun t => t.fq.waiting.length == 1 && (t.gang? 66).any (fun g => g.seq == 1 && g.core.fams == [⟨1, 2⟩] && g.core.subs.map (fun x => (x.lanes, x.pc, x.isReady)) ==
       [(1, 0x40000000, true), (2, 0x40000000, false)])) = true) := by
  decide +kernel

/-! ## The further clauses: codec, strided and gathered copies, reductions, memory-side atomics -/

def cmdOf (k : CmdKind) (p : Progress) : Cmd := { copying 0 p with kind := k }
def idx (n : Byte) : List BSt := [(n, .live), (0, .live), (0, .live), (0, .live)]
def zeros : List (Nat × List BSt) := (List.range 64).map (fun i => (i, List.replicate 64 (0, .live)))
def oneToSixteen : List Byte := (List.range 16).map (fun i => BitVec.ofNat 8 (i + 1))
def sums (a b : Nat) : CmdKind := .nmrShaped ⟨.i32, .sum⟩ a b false (4 + 2 * 2 ^ 16) 64 (2 ^ 24) 2

/-- The third gibibyte of the tests' address space in the deep tier, the fourth MEMSIDE. -/
def moreLeaves (s : State) : State := withMem 0x12018 (bytesLE 8 (2 ^ 62 + 0xC0000000 + 23)) (withMem 0x12010 (bytesLE 8 (2 ^ 58 + 23)) s)

theorem wit_CopyPieces :
    after (.enginePiece 80 13) (withMem 0x200000 [1, 2, 3] (withCmd (cmdOf (.ten 0x100000 0x200000 64 .glob .glob (4 + 4 * 2 ^ 16) 256 (2 ^ 24) 2) ran))) (fun t =>
      (t.cmd? 80).any (fun c => c.prog.held == [(3, List.replicate 4 (0, .live))])) = true ∧
    after (.enginePiece 80 0) (withMem 0x280000 [7] (withCmd (cmdOf (.gat 0x100000 0x200000 0x280000 2 .glob 4 0) ran))) (fun t =>
      (t.cmd? 80).any (fun c => c.prog.list == [(0, idx 7)])) = true ∧
    after (.enginePiece 80 0) (withCmd (cmdOf (.gat 0x100000 (2 ^ 57) 0x280000 2 .glob 4 0) { ran with list := [(0, idx 7)] })) (fun t =>
      (t.cmd? 80).any (fun c => c.failed == some (cEngineFault, 2 ^ 57 + 112))) = true := by
  decide +kernel

theorem wit_CodecPieces :
    after (.enginePiece 80 0) (withMem 0x200040 [9] (withCmd (cmdOf (.enc 0x100000 0x200000 4096 none) { ran with held := zeros.take 1 }))) (fun t =>
      (t.cmd? 80).any (fun c => c.prog.held.length == 2 && c.prog.held.getD 1 (0, []) == (1, (9, .live) :: List.replicate 63 (0, .live)))) = true ∧
    after (.enginePiece 80 0) (moreLeaves (withCmd (cmdOf (.enc 0x80000000 0x200000 4096 none) { ran with held := zeros }))) (fun t =>
      t.unitsUsed == 1 && t.deep.isEmpty && (t.cmd? 80).any (fun c => c.prog.deep == [(0, .allocated 1)])) = true ∧
    after (.enginePiece 80 0) { moreLeaves (withCmd (cmdOf (.enc 0x80000000 0x200000 4096 none) { ran with held := zeros })) with unitsUsed := 2 ^ 32 } (fun t =>
      (t.cmd? 80).any (fun c => c.failed == some (cEngineFault, 0x80000000))) = true ∧
    after (.enginePiece 80 0) { moreLeaves (withCmd (cmdOf (.dec 0x200000 0x80000000 4096) ran)) with deep := [(0, ⟨7, 1, List.replicate 4096 0, [1]⟩)] } (fun t =>
      (t.cmd? 80).any (fun c => c.prog.deep == [(0, .reading 7)] && c.prog.held.length == 64 && (c.prog.held.getD 1 (0, [])).2.all (fun b => b.2 == .poison))) = true := by
  decide +kernel

/-- An encoding of one block over an extent of two units that a decoding may still be reading, with some work in hand. -/
def encodeOnto (w : DeepWork) (read : Bool) : State :=
  let e := { cmdOf (.enc 0x80000000 0x200000 4096 none) { ran with held := if w == .allocated 1 then zeros else [], done := if w == .allocated 1 then [] else List.range 64, deep := [(0, w)] } with obj := none }
  let d := { cmdOf (.dec 0x200000 0x80000000 4096) { ran with deep := [(0, .reading 7)] } with id := 81 }
  let s := moreLeaves (withCmd e)
  { s with cmds := s.cmds ++ (if read then [d] else []), unitsUsed := 3, oldExtents := if w == .allocated 1 then [] else [⟨7, 2, false⟩],
           deep := if w == .allocated 1 then [(0, ⟨7, 2, List.replicate 4096 0, []⟩)] else [(0, ⟨9, 1, List.replicate 4096 0, []⟩)] }

theorem wit_CodecSteps :
    after (.enginePiece 80 8) (encodeOnto (.allocated 1) true) (fun t => t.unitsUsed == 3 && t.oldExtents == [⟨7, 2, false⟩] &&
      (spFind t.deep 0).any (fun d => d.ext != 7 && d.units == 1) && (t.cmd? 80).any (fun c => c.prog.deep == [(0, .stored 1 [] (some 7))])) = true ∧
    after (.enginePiece 80 20) (encodeOnto (.stored 1 [] (some 7)) false) (fun t => t.unitsUsed == 1 && t.oldExtents == [] && (t.cmd? 80).any (fun c => c.prog.deep == [] && c.finished)) = true ∧
    after (.enginePiece 80 20) (encodeOnto (.stored 1 [] (some 7)) true) (fun t => t.unitsUsed == 3 && t.oldExtents == [⟨7, 2, true⟩] && (t.cmd? 80).any (fun c => c.finished)) = true ∧
    (let s := encodeOnto (.stored 1 [] none) true
     after (.enginePiece 81 4) { s with oldExtents := [⟨7, 2, true⟩] } (fun t => t.unitsUsed == 1 && t.oldExtents == [] && (t.cmd? 81).any (fun c => c.prog.deep == [])) = true) := by
  decide +kernel

theorem wit_ReductionPieces :
    after (.enginePiece 80 0) (withMem 0x300000 [1] (withCmd (cmdOf (.nmr ⟨.i32, .sum⟩ 0x100000 0x200000 0x300000 2 false 4 0) ran))) (fun t =>
      (t.cmd? 80).any (fun c => c.prog.list == [(0, idx 1)])) = true ∧
    (nmrPlan (sums 0x100000 0x200000) []).parts = [(0, 0, 16)] ∧
    after (.enginePiece 80 0) (withCmd (cmdOf (sums 0x100000 0x200000) ran)) (fun t => (t.cmd? 80).any (fun c => c.failed == some (cEngineFault, 0x100000))) = true ∧
    after (.enginePiece 80 0) (moreLeaves (withCmd (cmdOf (sums 0xC0000000 0xC0200000) ran))) (fun t => (t.cmd? 80).any (fun c => c.prog.sub == 1)) = true ∧
    after (.enginePiece 80 0) (moreLeaves (withCmd (cmdOf (sums 0xC0000000 0xC0200000)
      { ran with sub := 1, held := [(nmrKey 0 0 0, (List.range 16).map (fun i => (BitVec.ofNat 8 i, .live))), (nmrKey 0 1 0, List.replicate 16 (1, .live))] }))) (fun t =>
      memRead t.mem 0xC0000000 16 == oneToSixteen) = true := by
  decide +kernel

theorem wit_Completions :
    (let k : CmdKind := .lin 0 0 0 .glob .glob
     (k.noData && !cmdBad k && (withCmd (cmdOf k ran)).baseTakes (cmdOf k ran)) = true ∧
     after (.commandCompletion 80) (withCmd { cmdOf k ran with obj := none }) (fun t => (t.cmd? 80).isNone) = true ∧
     after (.commandCompletion 80) (withCmd { cmdOf .flush ran with obj := none }) (fun t => (t.cmd? 80).isNone) = true) ∧
    (let s := withCmd { copying 32 { ran with pos := 1 } with finished := true }
     let s := withCore (fun k => { k with cp := 1, binds := setAt 2 (some ⟨.comp 1 false 0x300000 0x300000 1, false, 0⟩) k.binds }) s
     after (.commandCompletion 80) s (fun t => (t.gang? 66).any (fun g => g.core.evpend == 4 && g.core.cp == 0)) = true) := by
  decide +kernel

theorem wit_MemsideAtomics :
    (let o : AtomOps Scope := ⟨.always, ⟨.i32, .add⟩, .pkg, .v 8, rd (.v 4), rd (.v 6), rd (.v 0)⟩
     let s := moreLeaves (withCore two (withCore (setPair 4 0xC0000000) (withCore (fun c => (c.setReg 6 0 ⟨3, .live, 0⟩).setReg 6 1 ⟨4, .live, 0⟩) (stand (.atomg o)))))
     after (.atomg o) s (fun t => t.loadNat 0xC0000000 4 == 7 && (t.gang? 66).any (fun g => g.chunk.isNone && g.core.ld == 1 && g.core.pend.length == 1 &&
       g.core.subs.map (fun x => (x.lanes, x.pc)) == [(3, 0x4000000C)])) = true ∧
     after (.atomg o) (withGang (fun g => { g with chunk := some { Chunk.fresh g.core with count := 2 } }) s) (fun t => (t.gang? 66).any (fun g =>
       g.closing && g.core.pend.isEmpty)) = true) ∧
    (let o : RedgOps := ⟨.always, .n64, .max, .die, rd (.v 4), rd (.v 6)⟩
     after (.redg o) (moreLeaves (withCore two (withCore (setPair 4 0xC0000000) (stand (.redg o))))) (fun t => (t.gang? 66).any (fun g =>
       g.core.st == 1 && g.chunk.any (fun c => c.qset.length == 1 && c.defer.length == 1))) = true) := by
  decide +kernel

/-! ## Queues -/

def fullQueue (q : Nat) (s : State) : State := s.setQueue q { s.queue q with entries := List.replicate 256 (.task ⟨0, 0, 0, 0, 0, 0, 0, false⟩) }

theorem wit_TaskEnqueue :
    (let o : GAB := ⟨.always, .s 3, .s 5⟩
     let s := withS [(3, 2), (5, 0x300000)] (stand (.tskEnq o))
     let s := { s with grants := spPut ⟨false, false, 0⟩ (queueKey 2) ⟨false, true, 1⟩ s.grants }
     (recordReserved (List.replicate 64 0) && (recordOf 0x300000 false (List.replicate 64 0)).aligned) = true ∧
     after (.tskEnq o) s (fun t => (t.gang? 66).any (fun g => g.closing && g.chunk.any (fun c => c.defer.length == 1))) = true ∧
     after (.tskEnq o) (fullQueue 2 s) (fun t => (t.gang? 66).any (fun g => g.core.subs.all (fun x => x.wait == .stall (.queue 2)))) = true) := by
  decide +kernel

/-- A task record whose descriptor is at `desc` heads queue 3, granted to context 1. -/
def taskState (b : List Byte) (desc : Nat) : State :=
  withMem 0x300000 b ({ stand (.nop .always) with grants := spPut ⟨false, false, 0⟩ (queueKey 3) ⟨false, true, 1⟩ [] }.enqueue 3 (.task ⟨0, desc, 0, 0, 0, 0, 0, false⟩))

/-- The launch entry behind a gate of threshold 5 on semaphore 7 of value `v`. -/
def gated (granted : Bool) (v : Nat) : State :=
  let s := launchState.setSem 7 ⟨v, []⟩
  let s := s.setQueue 3 { s.queue 3 with en := true, sem := 2 ^ 30 + 7, thr := 5 }
  if granted then { s with grants := spPut ⟨false, false, 0⟩ (semKey 7) ⟨false, true, 1⟩ s.grants } else s

theorem wit_QueueHeads :
    (let p (s : State) (items : Nat) (records : Nat) : Bool := after (.taskQueueAdmission 3) s (fun t => t.items.length == items && (t.queue 3).entries.isEmpty && t.fq.waiting.length == records)
     p (taskState descBytes 0x300000) 2 0 = true ∧ p (taskState (List.replicate 128 0) 0x300000) 1 1 = true ∧
     p ((taskState descBytes 0x300000).poisonLine 0x300040) 1 1 = true) ∧
    after (.taskQueueAdmission 3) (taskState descBytes (2 ^ 40)) (fun t => (t.queue 3).head == .page (2 ^ 40) && t.fq.waiting.length == 1) = true ∧
    ((gated true 9).gateGranted 3 && !(gated false 9).gateGranted 3) = true ∧
    after (.taskQueueAdmission 3) (gated true 9) (fun t => (t.queue 3).head == .served && (t.sem 7).value == 4) = true ∧
    after (.taskQueueAdmission 3) (gated true 2) (fun t => (t.queue 3).head == .inFifo && (t.sem 7).fifo.length == 1) = true ∧
    after (.taskQueueAdmission 3) (gated false 9) (fun t => (t.queue 3).head == .refused && t.fq.waiting.length == 1) = true ∧
    ({ stand (.nop .always) with hub := [.enqueue 0 ⟨0, 0, 0, 0, 0, 0, 0, false⟩] } : State).drain.hub.isEmpty = true ∧
    after (.joinBlockDecrement 0) ((hubState 1).poisonLine 0x300000) (fun t => t.hub.isEmpty && t.fq.waiting.length == 1) = true := by
  decide +kernel

/-! ## Supervisor state -/

/-- What a csrw of `v` by cox core 0 does, from a state that `f` prepared. -/
def writes (i : CsrPut → Instr) (v : Nat) (f : State → State) (p : State → Bool) : Bool :=
  let w := CsrPut.w .always (.s 4)
  after (i w) (f (coxS [(4, v)] (stand (i w)))) p
def queued (h t : Word64) (s : State) : State := { s with fq := { s.fq with head := h, tail := t } }
def trappedAs (c : Cause) (t : State) : Bool := (t.coxOf 0).scause.toNat % 256 == c
def migrating : Migration := ⟨0x100000, 0x700000, 0x300000, 1, 3, 0x12000, .asked⟩

theorem wit_RegisterWrites :
    writes .fqcapWrite 8 (queued 0 2) (trappedAs cResource) = true ∧ writes .fqbaseWrite 0x10000 (queued 0 2) (trappedAs cResource) = true ∧
    writes .fqheadWrite 5 (queued 0 2) (fun t => t.fq.head == 2) = true ∧
    writes .pblkWrite 3 (fun s => s.setPart 1 { s.part 1 with blk := 1 }) (trappedAs cResource) = true ∧ writes .pblkWrite 2 id (fun t => (t.part 0).blk == 2) = true ∧
    writes .pliveWrite 0 id (trappedAs cResource) = true ∧ writes .pshadWrite 7 id (fun t => (t.part 0).shad == 7) = true ∧
    writes .pshadWrite 9 (fun s => s.setPart 0 { s.part 0 with live := 9 }) (trappedAs cResource) = true ∧
    writes .puevWrite 0x40001003 id (fun t => (t.part 0).puev == 0x40001001) = true ∧ writes .puevWrite (2 ^ 60) id (trappedAs cPermission) = true ∧
    writes .ctxtabWrite 0xFFFFFFFFFFFFFFFF id (fun t => t.ctxtab == 0xFFFFFFFFF8001) = true ∧
    writes .grownWrite 0x3001 (fun s => { s with grsel := 2 * 2 ^ 60 + 7 }) (fun t => t.grant (semKey 7) == ⟨true, true, 1⟩) = true := by
  decide +kernel

theorem wit_MigrationWrites :
    writes .migrationGo (2 ^ 63 + 3 * 2 ^ 24 + 1) id (fun t => t.migration.isSome) = true ∧ writes .migrationGo (3 * 2 ^ 24 + 1) id (fun t => t.mgctl == 3 * 2 ^ 24 + 1) = true ∧
    writes .migrationGo (2 ^ 63 + 3 * 2 ^ 24) id (trappedAs cIllegalEncoding) = true ∧
    writes .migrationGo (2 ^ 63 + 3 * 2 ^ 24 + 1) (fun s => { s with migration := some migrating }) (trappedAs cResource) = true ∧
    (let w := CsrPut.w .always (.s 4)
     after (.uevecWrite w) (withS [(4, 0x40001003)] (stand (.uevecWrite w))) (fun t => (t.gang? 66).any (fun g => g.core.uevec == 0x40001001)) = true ∧
     after (.uevecWrite w) (withS [(4, 2 ^ 60)] (stand (.uevecWrite w))) (fun t => t.fq.waiting.length == 1) = true) := by
  decide +kernel

theorem wit_Privilege :
    meets (stand (.csrr ⟨.always, .s 3, .ef 2⟩)) 12 .always (fun e => !e.cox && !e.sup && csrPriv true (.ef 2) && csrPriv false .stvec) = true ∧
    meets ((stand (.tlbsync .always)).setCox 0 { Cox.reset with sstatus := 4, started := true }) 8 .always (fun e => e.cox && !e.sup) = true := by
  decide +kernel

/-- A gang whose open chunk holds a line reached through the leaf of the first gibibyte, with an invalidation of its first page posted. -/
def firstLeaf : TlbEnt := ⟨1, 0, 2 ^ 61 + 23, 1, 0, [], 2 ^ 61 + 23⟩
def reached : State :=
  withGang (fun g => { g with chunk := some { Chunk.fresh g.core with count := 1, rset := [.glob 7], pages := [(firstLeaf, .glob 7)] } })
    { stand (.nop .always) with tlb := [firstLeaf], invals := [⟨40, some 0, 1, 0, some 4096⟩], code := [⟨0, 1, 0x20, 0x20, [], []⟩, ⟨0, 1, 0x300000, 0x300000, [], []⟩] }

theorem wit_Invalidations :
    ((reached.postInval (some 0) 1 0 (some 4096)).gang? 66).any (fun g => g.chunk.isNone && g.squashes == 1) = true ∧
    (reached.invalHeld ⟨40, some 0, 1, 0, some 4096⟩ == false && invalMatches 1 0 (some 4096) firstLeaf) = true ∧
    after (.tlbInvalidationDone 40) reached (fun t => t.tlb.isEmpty && t.invals.isEmpty && t.code == [⟨0, 1, 0x300000, 0x300000, [], []⟩]) = true ∧
    (addressesOf reached 1 0x300000).contains 0x300000 = true ∧ (reached.icinv 0 1 0x300010 8).code.map (·.stale) = [[], [66]] ∧
    (reached.icinv 66 1 0x300010 8).code.length = 1 ∧ (reached.icinv 0 1 0x300020 8).code = reached.code := by
  decide +kernel

/-! ## Partitions, work, records -/

def stalledAt (w : Stall) (c : GangCore) : GangCore := { c with subs := c.subs.map (fun x => { x with wait := .stall w }) }

/-- Cox cores 0 and 1 wait on partition 2, core 0 with RUN. -/
def waiters : State := withPart .halted { stand (.nop .always) with gangs := (stand (.nop .always)).gangs.map (fun g =>
  if g.id == 0 then { g with core := stalledAt (.halted 2 true) g.core } else if g.id == 1 then { g with core := stalledAt (.halted 2 false) g.core } else g) }

theorem wit_PartitionWaits :
    waiters.haltsOf 2 = [(0, 0, true), (1, 0, false)] ∧
    after (.stallRelease 1 0) waiters (fun t => (t.part 2).st == .running && [0, 1].all (fun k => (t.gang? k).any (fun g => g.core.subs.all (fun x => x.wait == .ready)))) = true ∧
    (let s := withGang (fun g => { g with record := .live }) { withPart .halted (stand (.nop .always)) with accShad := [(accKey 0 5, ⟨[], [], 9, false⟩)] }
     let s := s.setPart 2 { s.part 2 with blk := 1 }
     (((s.swapPart 2).acc 0 5).owner == 9 && (s.swapPart 2).crews.all (fun c => !c.live) && ((s.swapPart 2).gang? 66).any (fun g => g.record == .saved)) = true) ∧
    (let s := withGang (fun g => { g with chunk := some { Chunk.fresh g.core with count := 1, stores := 1 } })
       (withCore (fun c => { stalledAt (.counters 0 0 0 0) c with st := 1 }) (stand (.nop .always)))
     after (.stallRelease 66 0) s (fun t => (t.gang? 66).any (fun g => g.closing)) = true) := by
  decide +kernel

theorem wit_CrewExitAndSteal :
    after (.quadSteal 64 1) { twoCrews (stand (.nop .always)) with
        items := [{ loadItem with desc := { loadDesc with cx := 9, nk := 0, na := 0 }, ranges := [⟨0, 1, 9⟩] }], parts := setAt 0 ⟨1, 1, 0, .running, 0, 0⟩ State.reset.parts }
      (fun t => (t.item? 64).any (fun i => i.ranges == [⟨0, 1, 5⟩, ⟨1, 5, 9⟩])) = true ∧
    (let s := withCrew (fun c => { c with desc := { c.desc with bcrew := 0 }, bars := [] }) (withCore (fun c => { gone c with fmask := 4 }) (stand (.nop .always)))
     (s.crew? 65).any (fun c => !c.exitRecords && s.crewExited c && (s.crewExit c).fq.waiting.length == 1 && s.barsOf c == [] && (s.gangExit 66).fq.waiting.length == 1) = true) ∧
    (let s := State.reset.loadWord (ofBytesLE (encode (.nop .always)))
     after (.issueCycle 0) { s with issue := [] } (fun t => t.issue == [⟨66, 0⟩]) = true) := by
  decide +kernel

/-- A pod-shared page at 0x80000000 of context 1, whose leaf is `e`. -/
def sharedPage (e : Nat) : State := withMem 0x15000 (bytesLE 8 e) (withMem 0x14000 (bytesLE 8 0x15001) (withMem 0x12010 (bytesLE 8 0x14001) (stand (.nop .always))))
def sharedLeaf : Nat := 2 ^ 61 + 0x80000000 + 2 ^ 55 + 23

theorem wit_PageLeaves :
    after (.migrationOwnerRelease ⟨1, 0x80000000, 3⟩) (sharedPage (sharedLeaf + 2 ^ 54)) (fun t =>
      t.loadNat 0x15000 8 == sharedLeaf && t.podOut.length == 1 && t.fq.waiting.length == 1 && t.givingUp.isEmpty) = true ∧
    after (.migrationOwnerRelease ⟨1, 0x80000000, 3⟩) (sharedPage sharedLeaf) (fun t => t.podOut == [.pageRefused 3 1 0x80000000]) = true := by
  decide +kernel

/-- The page has been asked for, for the frame at 0x90000000. -/
def asking : State := { sharedPage sharedLeaf with migration := some { migrating with va := 0x80000000, entry := 0x15000, frm := 0x90000000 } }

theorem wit_PageArrives :
    (asking.migration.any (fun m => m.st == .asked && m.entry == 0x15000) && asking.tokenHolder.isNone &&
      frameToLoc (asking.loadNat 0x15000 8) 0x90000000 == 0x90000000 &&
      takenLeaf (asking.loadNat 0x15000 8) 0x90000000 == sharedLeaf + 0x10000000 + 2 ^ 54) = true := by
  decide +kernel

theorem wit_PageTimesOut :
    asking.tokenHolder.isNone = true ∧
    after .migrationTimeout { asking with migration := some { migrating with cmp := 2 ^ 40 } } (fun t =>
      t.fq.waiting.length == 1 && t.migration.any (fun m => m.st == .ended (some 0x18) true)) = true := by
  decide +kernel

theorem wit_LoopBufferAndCycle :
    (let s := withGang (fun g => { g with lbody := [⟨0, 0x40000000, 0x40000040⟩], lbuf := [⟨⟨0, 0x40000000, 0x40000040⟩, 0x40000000, 0x40000000, List.replicate 32 9, false⟩]
                                          core := { g.core with ldepth := 1, loops := [⟨2, 0x40000000, 0x40000040, allLanes 32, 0⟩, LoopLevel.zero, LoopLevel.zero] } }) (stand (.nop .always))
     (s.gang? 66).any (fun g => (g.buffered 0x40000008).isSome && (g.buffered 0x40000028).isNone) = true) ∧
    (let s := State.reset.loadWord (ofBytesLE (encode (.wait ⟨.always, 0, 0, 0, 0⟩)))
     (({ s with issue := [] } : State).wouldStall ⟨66, 0⟩ == false && ({ withCore (fun c => { c with cp := 1 }) s with issue := [] } : State).wouldStall ⟨66, 0⟩) = true) := by
  decide +kernel

theorem wit_TripsAndBrokenBoots :
    after .powerOnReset { State.reset with fuses := { Fuses.full with broken := [3] } } (fun t => t.phase == .recovery && t.epoch == 1) = true ∧
    after .warmReset { State.reset with phase := .updating, updateImage := [1], fuses := { Fuses.full with broken := [4] } } (fun t => t.phase == .recovery && t.flash.isEmpty) = true ∧
    after .warmReset { State.reset with phase := .updating, updateImage := [1] } (fun t => t.flash == [1]) = true ∧
    after (.thermalTrip 1) (stand (.nop .always)) (fun t => t.phase == .recovery && t.tick == 0 && t.mem.isEmpty && t.counts != [] && t.countsNv == t.counts) = true ∧
    after (.temperatureChange 1 130) { stand (.nop .always) with fuses := { Fuses.full with dclk := [425, 425, 425, 425] } } (fun t => t.due == [.thermalTrip 1] && (t.diePower 1).refr == 500 && (t.diePower 1).qlim == 6000) = true := by
  decide +kernel

/-- The chunk has allocated 256 bytes at 4096, which a command still reads in a block freed since. -/
theorem wit_AllocationClash :
    (let c (g : Gang) : Chunk := { Chunk.fresh g.core with count := 1, closed := true, ops := [.alloc 4096 256 0] }
     let s := withCrew (fun k => { k with freed := [⟨⟨4096, 256, 0, 0, ⟨0, .live⟩, []⟩, [80]⟩] }) (withGang (fun g => { g with chunk := some (c g) }) (roomy (withCmd startCopy)))
     (s.gang? 66).any (fun g => s.allocClash g (c g)) = true ∧ after (.chunkCommit 66 ⟨[], 0⟩) s (fun t => (t.gang? 66).any (fun g => g.chunk.isNone && g.squashes == 1)) = true) := by
  decide +kernel

theorem wit_PodAndMigration :
    (let x : PodSignal := ⟨BitVec.ofNat 32 (2 * 2 ^ 30 + 7), 2, 1⟩
     let s := { stand (.nop .always) with grants := spPut ⟨false, false, 0⟩ (semKey 7) ⟨true, true, 1⟩ [] }
     after (.podSignalReceive x) s (fun t => (t.sem 7).value == 2) = true ∧
     after (.podSignalReceive x) (stand (.nop .always)) (fun t => (t.sem 7).value == 0 && t.freeCtr == 1) = true) ∧
    (stand (.nop .always)).podSlot ⟨0, 0, 0, false⟩ = none ∧
    (let s := { stand (.nop .always) with migration := some migrating }
     okAt (s.xlat 0 true .store .engine 0x300000) = true ∧ frameToLoc (s.loadNat 0x12000 8) 0x700000 = 0x700000 ∧
     after (.migrationReceive .refused) s (fun t => t.migration.isNone && t.loadNat 0x300000 8 == 2 ^ 63 + 0x12 * 2 ^ 48) = true) ∧
    (walk (stand (.nop .always)) 1 0x100000).toOption.isSome = true ∧ (walk (stand (.nop .always)) 1 0x100000000).toOption.isNone = true := by
  decide +kernel

theorem wit_PowerManagement :
    after (.supplySag 2) (stand (.nop .always)) (fun t => (t.diePower 2).sag && !(t.diePower 1).sag) = true ∧
    after (.temperatureChange 1 99) (stand (.nop .always)) (fun t => (t.diePower 1).qlim == 9600 && (t.diePower 1).refr == 1000) = true ∧
    after (.packagePowerLimit 2400) (stand (.nop .always)) (fun t => !t.powerLimited && (t.diePower 3).clk == 850) = true ∧ State.reset.dies.length = 4 := by
  decide +kernel

/-- A key, a digest of one and the signature of both by the number 1, so that the sum of the verification is twice the base point. -/
theorem wit_ecdsa : (match ecAdd (some (p384gx, p384gy)) (some (p384gx, p384gy)) with
    | some (x, _) => ecdsaOk p384gx p384gy (x % p384n) (x % p384n) (bytesBE 48 (x % p384n))
    | none => false) = true := by
  decide +kernel

theorem wit_ResetAndBoot :
    imageOk State.reset.fuses.keyHash State.reset.flash = false ∧
    after .powerOnReset State.reset (fun t => t.phase == .recovery && t.epoch == State.reset.epoch + 1) = true ∧
    after .warmReset (withMem 0x2000000 [9] (stand (.nop .always))) (fun t => t.phase == .recovery && memByte t.mem 0x2000000 == 9) = true ∧
    after .warmReset (withMem 0xF00000 [1] (stand (.nop .always))) (fun t => t.updfail) = true ∧
    after .powerLoss { stand (.nop .always) with phase := .updating, flash := [1] } (fun t => t.phase == .off && t.flash.isEmpty) = true := by
  decide +kernel

/-- A datagram of operation `op` that the port of `s` accepts. -/
def request (s : State) (op : Nat) (payload : List Byte) : Datagram :=
  let x : Datagram := ⟨1, payload.length, s.epoch * 2 ^ 32 + 1, List.replicate 16 0, payload⟩
  { x with tag := s.tagOf 1 op x.len x.seq payload }

theorem wit_ManagementPort :
    (let s := stand (.nop .always)
     after (.counters (request s 0x20 [])) s (fun t => t.answers.map (fun a => (a.ver, a.op, a.seq, a.status)) == [(1, 0x8020, (request s 0x20 []).seq, 0)]) = true ∧
     after (.counters { request s 0x20 [] with ver := 2 }) s (fun t => t.answers.isEmpty) = true ∧
     after (.mgmtOtherOp 0x55 (request s 0x55 [])) s (fun t => t.answers.length == 1) = true ∧
     after (.recover (request { s with phase := .recovery } 0x30 (bytesLE 8 64 ++ bytesLE 4 0 ++ [9]))) { s with phase := .recovery }
       (fun t => memByte t.mem 0x2000040 == 9 && t.answers.length == 1) = true) := by
  decide +kernel

theorem wit_ManagementOperations :
    (let s := stand (.nop .always)
     let stats (t : State) : List Nat := t.answers.map (fun a => a.status)
     after (.dbgread (request s 0x40 (bytesLE 4 0 ++ bytesLE 4 0 ++ bytesLE 4 1))) s (fun t => stats t == [1]) = true ∧
     (let h := s.setPart 0 { s.part 0 with st := .halted }
      after (.dbgread (request h 0x40 (bytesLE 4 0 ++ bytesLE 4 0 ++ bytesLE 4 2))) h (fun t => t.answers.map (fun a => (a.status, a.body)) == [(0, .words [0, 0] [0, 0])]) = true) ∧
     after (.portcfg (request s 0x10 (bytesLE 4 5 ++ List.replicate 192 0))) s (fun t => t.pkg == 5 && t.loadNat 0x1004 4 == 5) = true ∧
     after (.ident { request s 1 [] with tag := [], seq := 0 }) s (fun t => t.answers.map (fun a => a.op) == [0x8001]) = true ∧
     after (.reset (request s 0x31 [1])) s (fun t => t.phase == .recovery && decide (t.mem = s.mem)) = true ∧ after (.reset (request s 0x31 [2])) s (fun t => stats t == [2]) = true) := by
  decide +kernel

theorem wit_GuardedOff :
    (let o : AluM IntTy MSrc Unit Bool Unit Unit := ⟨.p 0, .i32, .v 12, md (.v 4), md (.v 6), (), true, (), ()⟩
     let sp := aluSpec o.g (.dst o.d 1) [(1, o.a, 1), (2, o.b, 1)] []
     meets (stand (.iadd o)) 12 (.p 0) (fun e => (e.check (sp e)).isNone && e.on == 0 && e.alone) = true ∧
     after (.iadd o) (stand (.iadd o)) (fun t => (t.gang? 66).any (fun g => g.core.subs.map (fun x => x.pc) == [0x4000000C])) = true ∧
     meets (withCrew (fun c => { c with desc := { c.desc with nv := 12 } }) (stand (.iadd o))) 12 (.p 0) (fun e => (e.check (sp e)).isSome) = true) := by
  decide +kernel

theorem wit_StepRunsDecoded :
    (let i : Instr := .nop (.p 3)
     let s := State.reset.loadWord (ofBytesLE (encode i))
     s.due = [] ∧ s.issue.length = 1 ∧ (s.gang? 66).any (fun g => g.record == .sound && g.core.subs.any (fun x => (s.setIssue []).groupReady g x &&
       (match (s.setIssue []).fetchBlock g x with | (.ok b, u) => (match readInstr g.isCox (u.supOf g) 0 b with | .ok j => j == i | _ => false) | _ => false))) = true) ∧
    (match step (State.reset.loadWord (ofBytesLE (encode (.nop (.p 3))))) with | .next t => (t.gang? 66).any (fun g => g.core.subs.map (fun x => x.pc) == [0x40000008]) | _ => false) = true := by
  decide +kernel

theorem wit_StepKeepsMemoryCanonical : Memory.wf (State.reset.loadWord 0x3D59).mem = true ∧ Memory.wf [(3, 0)] = false ∧ Memory.wf [(3, 1), (3, 2)] = false := by
  decide +kernel

/-! ## Clauses on commands, requests and partitions that wait, fail or lapse -/

/-- The partition of the tests' crew in some state. -/
def inPart (st : PartSt) (s : State) : State := s.setPart 0 { s.part 0 with st := st }

theorem wit_CompletionWaits :
    (let c := { copying 32 { ran with pos := 1 } with finished := true }
     (withCmd c).cmdMayEnd c = true ∧ (inPart .halted (withCmd c)).cmdMayEnd c = false ∧ (inPart .stopping (withCmd c)).cmdMayEnd c = true ∧
     (inPart .stopping (withCmd c)).cmdMayEnd { c with waitVa := some 0 } = false ∧ (inPart .stopping (withCmd c)).cmdMayEnd { c with kind := .flush } = false ∧
     (let d := { c with obj := some 0x100000000 }
      errIs cPageNotPresent ((withCmd d).xlat 1 false .store .engine 0x100000000) = true ∧
      after (.commandCompletion 80) (withCmd d) (fun t => t.fq.waiting.length == 1 && (t.cmd? 80).any (fun k => k.waitVa == some 0x100000000)) = true) ∧
     (let s := moreLeaves (withCmd { c with obj := some 0x80000000 })
      after (.commandCompletion 80) s (fun t => t.fq.waiting.length == 1 && (t.cmd? 80).isNone) = true)) := by
  decide +kernel

/-- A lane of a redg, and the redg as it waits for its base die. -/
def lane7 : RedgOp := ⟨0xC0000000, .n64, .add, 7, noEnt⟩
def waitingRedg : Cmd := cmdOf (.redg [lane7]) ran
/-- Sixty-four reductions hold the places of the base die. -/
def fullBase : State := { moreLeaves (stand (.nop .always)) with cmds := (List.range 64).map (fun i => { cmdOf (sums 0xC0000000 0xC0200000) ran with id := 1 + i }) }

theorem wit_WaitingRedg :
    (let s := moreLeaves (stand (.nop .always))
     s.roomAt (baseAt 0xC0000000) s.cmds = true ∧
     (s.gang? 66).any (fun g => (s.release g (.redg waitingRedg)).loadNat 0xC0000000 8 == 7 && (s.release g (.redg waitingRedg)).cmds.isEmpty) = true) ∧
    (fullBase.roomAt (baseAt 0xC0000000) fullBase.cmds = false ∧
     (fullBase.gang? 66).any (fun g => let t := fullBase.release g (.redg waitingRedg); t.cmds.length == 65 && t.loadNat 0xC0000000 8 == 0) = true) ∧
    (let s := moreLeaves (withCmd waitingRedg)
     s.cmdReady waitingRedg = true ∧
     after (.enginePiece 80 3) s (fun t => t.loadNat 0xC0000000 8 == 7 && (t.cmd? 80).any (fun c => c.finished) && t.due.contains (.commandCompletion 80)) = true) := by
  decide +kernel

theorem wit_LapsingSquash :
    (let s := withGang closedChunk (lapsing 1)
     (s.gang? 66).any (fun g => s.regCode g % 8 == 1 && g.chunk.any (fun c => c.rebound == 0 && c.polled == 0 && spWf c.snap.regFill c.snap.regs) &&
       ((s.discardChunk g).core.reg 4 0).st == .expired && ((s.discardChunk g).core.reg 4 1).st == .poison) = true) ∧
    (let s := withGang (fun g => { g with token := .lost, core := stalledAt (.mbx 3) g.core }) (stand (.nop .always))
     after (.stallRelease 66 0) s (fun t => t.tokenReqs == [66] && (t.gang? 66).any (fun g => g.token == .wanted && g.core.subs.all (fun x => x.wait == .ready))) = true) ∧
    (let s := withGang (fun g => { g with token := .lost, core := { g.core with subs := [⟨1, 0x40000000, .stall (.mbx 3), 0⟩, ⟨2, 0x40000010, .stall (.queue 5), 0⟩] } })
       (fullQueue 5 (stand (.nop .always)))
     after (.stallRelease 66 0) s (fun t => t.tokenReqs == [] && (t.gang? 66).any (fun g => g.token == .lost)) = true) := by
  decide +kernel

theorem wit_HaltsEnd :
    (let s := withPart .stopping waiters
     s.partQuiet 2 = true ∧ after (.engineStopAck 2) s (fun t => (t.part 2).st == .running && [0, 1].all (fun k => (t.gang? k).any (fun g => g.core.subs.all (fun x => x.wait == .ready)))) = true) ∧
    (let s := withCore (stalledAt (.halted 2 false)) (withPart .halted (stand (.nop .always)))
     s.haltsOf 2 = [(66, 0, false)] ∧ ((s.endHalts 2).gang? 66).any (fun g => g.core.subs.all (fun x => x.wait == .ready)) = true) ∧
    (let r : GDAB := ⟨.always, .s 3, .const 2, .s 6⟩
     let p (i : Instr) (st : PartSt) : Bool := meets (withPart st (coxS [(6, 1)] (stand i))) 8 .always (fun e => e.executes (haltSpec r e) && e.alone && e.g.chunk.isNone &&
       e.uni .w64 r.b == 1 && ((withPart st (coxS [(6, 1)] (stand i))).part 2).st == st)
     p (.haltStop r) .halted = true ∧ p (.haltStop r) .stopping = true ∧ p (.haltRun r) .stopping = true) := by
  decide +kernel

/-- An epilogue of 16 rows and columns in FP32, and the words of it that a spill area holds. -/
def spilledEpi : AccEpiOps := ⟨.always, 5, .s 4, .s 5, .spec .zero, 0x3F800000, 7, false, false, false, false, 15, 15⟩

theorem wit_FilledEpilogue :
    (let w := encode (.accEpi spilledEpi)
     let s := withMem 0x101080 (bytesLE 2 1 ++ bytesLE 2 1 ++ bytesLE 4 0 ++ w) (coxS [(4, 5), (5, 0x100000)] (stand (.accfill ⟨.always, .s 4, .s 5⟩)))
     let ew0 := s.loadNat 0x101088 8
     let eng := s.loadNat 0x101090 8
     epiOf ew0 eng = some spilledEpi ∧ s.loadNat 0x101082 2 = 1 ∧
     ((s.replay 0 5 1 0 spilledEpi (epiKind 5 spilledEpi 0 0 0 ew0 eng) w).reqs.map (fun r => (r.quad, r.pending)) == [(0, true)]) = true) := by
  decide +kernel

/-- A move of tile register 3, granted, between crew space or global memory and the tile; one piece is left. -/
def moving (k : ReqKind) : Req := { zeroReq .granted with kind := k }

theorem wit_FailingRequests :
    (let r := moving (.accSt 5 false 0x100000000 128)
     let s := withReqs [r]
     errIs cPageNotPresent (s.xlat 1 false .store .engine 0x100000000) = true ∧
     after (.enginePiece 90 0) s (fun t => t.fq.waiting.length == 1 && (t.req? 90).any (fun x => x.st == .pageWait 0x100000000)) = true) ∧
    (let s := moreLeaves (withReqs [moving (.accSt 5 false 0x80000000 128)])
     after (.enginePiece 90 0) s (fun t => t.fq.waiting.length == 1 && (t.req? 90).any (fun x => x.st == .finished)) = true) ∧
    (let s := withReqs [{ moving (.accLd 5 false 0x100000 128) with st := .pageWait 0x100000 }]
     after (.pageWaitRetry 90) s (fun t => (t.req? 90).any (fun x => x.st == .granted)) = true) := by
  decide +kernel

theorem wit_FailingLoads :
    (let s := withReqs [{ moving (.accLd 5 false (2 ^ 60) 128) with done := List.range 31 }]
     after (.enginePiece 90 0) s (fun t => t.fq.waiting.length == 1 && (t.req? 90).any (fun x => x.st == .finished) && ((t.acc 0 5).cell 1023).st == .poison) = true) ∧
    (let s := withCrew (fun c => { c with allocs := [⟨0, 4096, 9, 1, lapsed 9, []⟩] }) (withReqs [{ moving (.ld 3 shape16 true 0 64 none) with done := List.range 15 }])
     (s.crew? 65).any (fun c => (c.readByte 3).2 == .expired) = true ∧ after (.enginePiece 90 0) s (fun t => t.fq.waiting.length == 1) = true) := by
  decide +kernel

theorem wit_CorruptRequest :
    after (.matrixGrant 0 true) (withReqs [{ zeroReq .queued with corrupt := true, kind := .accSt 5 false 0x100000 128 }]) (fun t => t.fq.waiting.length == 1 &&
      (t.req? 90).any (fun x => x.st == .finished)) = true := by
  decide +kernel

/-- A state whose gang has guard P0 false everywhere at a nop. -/
def offNop : State := stand (.nop (.p 0))

theorem wit_GuardedOffWhereverItStands :
    (let s := withGang (inExplicit 256) offNop
     meets s 8 (.p 0) (fun e => e.on == 0 && e.alone && e.g.chunk.any (fun c => c.expl.isSome)) = true ∧
     after (.nop (.p 0)) s (fun t => (t.gang? 66).any (fun g => g.core.subs.map (fun x => x.pc) == [0x40000008] && g.chunk.any (fun c => c.count == 256))) = true) ∧
    (let s := withCore (fun c => { c with subs := [⟨0xF0, 0x40000100, .join 0xFF 0, 0⟩, ⟨0xF, 0x40000000, .ready, 0⟩] }) offNop
     let s := { s with cur := s.cur.map (fun r => { r with lead := 0 }) }
     meets s 8 (.p 0) (fun e => e.on == 0 && e.core.fams == [] && e.core.joinDone.isNone && e.core.ldepth == 0) = true ∧
     after (.nop (.p 0)) s (fun t => (t.gang? 66).any (fun g => g.core.subs.map (fun x => x.pc) == [0x40000100, 0x40000008])) = true) ∧
    (let s := withCore (fun c => { c with ldepth := 1, loops := [⟨5, 0x40000000, 0x40000008, allLanes 32, 0⟩, LoopLevel.zero, LoopLevel.zero] }) offNop
     after (.nop (.p 0)) s (fun t => (t.gang? 66).any (fun g => g.core.subs.map (fun x => x.pc) == [0x40000000] && (g.core.loop 0).lc == 4)) = true) ∧
    (let i : Instr := .mma ⟨.p 0, 5, 1, 2, false, false⟩
     encode i ≠ []) ∧
    (let o : TzeroOps := ⟨.p 0, 15⟩
     meets (withGang (inExplicit 2) (withCrew (fun c => { c with desc := { c.desc with nk := 4 } }) (stand (.tzero o)))) 8 (.p 0) (fun e =>
       e.on == 0 && (e.check { guard := .p 0, noCox := true, ctr := .tl, uses := [.tile 0 15] }).isSome && e.g.chunk.any (fun c => c.expl.isSome)) = true) := by
  decide +kernel

theorem wit_PortAndDebugReads :
    (let b := { stand (.nop .always) with phase := .booting }
     after (.ident (request b 1 [])) b (fun t => t.answers.isEmpty) = true ∧ after (.reset (request b 0x31 [0])) b (fun t => t.answers.isEmpty && t.phase == .booting) = true) ∧
    (let s := inPart .halted (stand (.nop .always))
     s.crews.all (fun c => c.base == 0 && decide (4 < c.desc.crewBytes)) = true ∧
     s.crewWordAt 0 true 0 = some (0, 0) ∧ (withCrew (fun c => { c with allocs := [] }) s).crewWordAt 0 true 4 = some (0, 3) ∧
     s.crewWordAt 0 true 0xB00000 = none ∧
     (s.gang? 66).any (fun g => s.regShown g 4 == (0, 0)) = true ∧
     ((lapsing 1).gang? 66).any (fun g => (lapsing 1).regShown g 4 == (0, 2) && (lapsing 1).regShown g (4 + (lapsing 1).regsOf g) == (7, 1)) = true) := by
  decide +kernel

/-! ## Clauses on explicit chunks, refused fields, waits for room, releases -/

/-- The status register that `inExplicit` names, in its low byte the status of Table 5.3 and in the next the cause. -/
def abortWord (i : Instr) (s : State) (gid : Nat) : Option Nat :=
  match exec i s with | .next t => (t.gang? gid).map (fun g => (g.core.sreg 6).toNat % 2 ^ 16 + if g.chunk.isNone && g.core.subs.all (fun x => x.pc == 0x40000100) then 0 else 2 ^ 63) | _ => none

/-- Cox core 0 at the instruction that `s` stands at, in an explicit chunk of `n` instructions. -/
def coxInExplicit (n : Nat) (s : State) : State :=
  let g0 := { Gang.coxReset 0 with core := { (Gang.coxReset 0).core with subs := [⟨1, 0x40000000, .ready, 0⟩] } }
  { s with cur := some ⟨0, 0⟩, gangs := s.gangs.map (fun g => if g.id == 0 then
      { g0 with chunk := some { Chunk.fresh g0.core with count := n, expl := some ⟨0x3FFFFFF8, 0x40000100, 6, 1, g0.core, []⟩ } } else g) }

theorem wit_TrapOrAbort :
    (let s (n : Nat) (i : Instr) := withGang (inExplicit n) { stand (.nop .always) with curBlk := bytesLE 32 (ofBytesLE (encode i)) }
     let o : CsrrOps := ⟨.always, .s 3, .stvec⟩
     let off : CsrrOps := ⟨.p 0, .s 3, .stvec⟩
     meets (s 2 (.csrr o)) 12 .always (fun e => !e.sup && e.on != 0 && csrPriv false o.csr && e.g.chunk.any (fun c => c.expl.isSome)) = true ∧
     abortWord (.csrr o) (s 2 (.csrr o)) 66 = some 4 ∧ abortWord (.csrr o) (s 256 (.csrr o)) 66 = some 3 ∧
     meets (s 2 (.csrr off)) 12 (.p 0) (fun e => !e.sup && e.on == 0 && e.g.chunk.any (fun c => c.expl.isSome)) = true ∧
     abortWord (.csrr off) (s 256 (.csrr off)) 66 = some (cPrivilege * 2 ^ 8 + stFault)) ∧
    (let o : CsrrOps := ⟨.always, .s 3, .ef 2⟩
     let s := coxInExplicit 2 (stand (.csrr o))
     meets s 12 .always (fun e => e.cox && e.sup && csrGangOnly o.csr) = true ∧ abortWord (.csrr o) s 0 = some 4 ∧
     after (.csrr o) { stand (.csrr o) with cur := some ⟨0, 0⟩ } (fun t => (t.coxOf 0).scause.toNat % 256 == cIllegalEncoding) = true) ∧
    (let s := coxInExplicit 2 (stand (.eret .always))
     let u := s.setCox 0 { s.coxOf 0 with sstatus := 4 }
     meets u 8 .always (fun e => e.cox && !e.sup) = true ∧ abortWord (.eret .always) u 0 = some 4) ∧
    (let w := CsrPut.w .always (.s 4)
     [(Instr.fqcapWrite w), .fqheadWrite w, .grselWrite w, .pliveWrite w, .pshadWrite w, .puevWrite w].all (fun i => after i
       ((coxS [(4, 6)] (stand i)).setCox 0 { Cox.reset with sstatus := 4, started := true }) (fun t => (t.coxOf 0).scause.toNat % 256 == cPrivilege)) = true) := by
  decide +kernel

/-- A word of an instruction of form `f` whose fields meet `bad`, and which the decoder refuses. -/
def refused (opc : Nat) (f : Form) (bad : Raw → Bool) (w : Nat) : Bool :=
  let blk := bytesLE 32 w
  bitsAt (word0At blk) 2 8 == opc && bitsAt (word0At blk) 0 2 == f.lenField && bad (rawOf f blk) &&
    (match readInstr false false 0 blk with | .error t => t.cause == cIllegalEncoding | _ => false)

theorem wit_RefusedFields :
    -- pand with D 12, with A 13, with FN 5; pnot with a nonzero B (Table 8.7)
    refused 0x42 .b (fun r => r.d == 12) (0x3C00013D09 + 8 * 2 ^ 14) = true ∧ refused 0x42 .b (fun r => r.a == 13 && r.d == 4) (0x3C00013D09 + 13 * 2 ^ 24) = true ∧
    refused 0x42 .b (fun r => r.fn == 5) (0x3C00013D09 + 5 * 2 ^ 57) = true ∧ refused 0x42 .b (fun r => r.fn == 3 && r.b == 1) (0x600000004017D09 + 2 ^ 34) = true ∧
    -- shfl with no segment in C, with E0, with FN 0; quorum with FN 3, D 96, C or B; ballot with FN, an A of 12, B
    refused 0x43 .m (fun r => r.c == 0) (0x103C3F040100BD0E - 0x3C3 * 2 ^ 44) = true ∧ refused 0x43 .m (fun r => r.e0 == 1) (0x103C3F040100BD0E + 2 ^ 64) = true ∧
    refused 0x44 .cmp (fun r => r.fn == 3) (0x390063D11 + 3 * 2 ^ 57) = true ∧ refused 0x44 .cmp (fun r => r.b == 1) (0x390063D11 + 2 ^ 34) = true ∧
    refused 0x45 .b (fun r => r.fn == 1) (0x3C27D15 + 2 ^ 57) = true ∧ refused 0x45 .b (fun r => r.b == 1) (0x3C27D15 + 2 ^ 34) = true := by
  decide +kernel

/-- One record waits to enter, of cause `c`. -/
def recorded (c : Cause) (t : State) : Bool := t.fq.waiting.map (fun (w : Nat × List Byte) => w.2.headD 0) == [BitVec.ofNat 8 c]

theorem wit_GangExchangeTraps :
    (let o : ShflOps := ⟨.always, .n32, .v 2, rd (.v 1), rd (.const 1), 2⟩
     let p (st : VSt) (q : Env → Bool) (c : Cause) : Bool :=
       let s := withCore two (withCore (spoil 1 st) (stand (.shflIdx o)))
       meets s 12 .always (fun e => e.executes (shflSpec o e) && q e) && after (.shflIdx o) s (recorded c)
     p .expired (fun e => e.lanes.any (fun l => (e.rsrc .w32 l o.a).st == .expired)) cExpiredRead = true ∧
     p .poison (fun e => e.lanes.any (fun l => (e.rsrc .w32 l o.a).st == .poison)) cPoisonConsumed = true ∧
     (let o : ShflOps := { o with q := 5 }
      meets (stand (.shflIdx o)) 12 .always (fun e => e.width != 64 && e.g.chunk.isNone) = true ∧ after (.shflIdx o) (stand (.shflIdx o)) (recorded cIllegalEncoding) = true)) ∧
    (let i : Instr := .quorumGe ⟨.always, 0, 3, .v 20⟩
     perGang (.v 20) = false ∧ meets (stand i) 8 .always (fun e => !e.cox && e.g.chunk.isNone) = true ∧ after i (stand i) (recorded cIllegalRegister) = true) ∧
    (let i : Instr := .ballot ⟨.always, .v 9, some 3⟩
     meets (stand i) 8 .always (fun e => !e.cox && e.g.chunk.isNone) = true ∧ after i (stand i) (recorded cIllegalRegister) = true) := by
  decide +kernel

theorem wit_WaitsForRoom :
    (let o : LdOps Unit := ⟨.always, (), .b32, .v 8, rd (.v 4), rd (.const 0), 8⟩
     let sp (e : Env) : Spec := { guard := .always, uses := ldDst e o.d 4 :: addrUses e o.a o.b 2, marks := addrMarks o.a o.b 2, ctr := .ld }
     let s := withCore (fun c => { c with ld := 63 }) (withCore two (withCore (setPair 4 0x100000) (stand (.ldg o))))
     let t := withGang (fun g => { g with chunk := some { Chunk.fresh g.core with count := 2 } }) s
     let p (e : Env) : Bool := !e.awaits (sp e) && (e.check (sp e)).isNone && e.on != 0 && e.core.ld == 63
     meets s 12 .always (fun e => p e && e.g.openChunk.count == 0) = true ∧ meets t 12 .always (fun e => p e && e.g.openChunk.count != 0) = true ∧
     after (.ldg o) s (fun t => (t.gang? 66).any (fun g => g.core.subs.map (fun x => x.wait) == [.stall (.counters 62 63 63 63)])) = true ∧
     after (.ldg o) t (fun t => (t.gang? 66).any (fun g => g.closing && g.core.subs.all (fun x => x.wait == .ready))) = true) := by
  decide +kernel

theorem wit_NameTraps :
    (let s := stand (.nop .always)
     (s.gang? 66).any (fun g =>
       let m (x : Nat) (c : Cause) : Bool := match mbxName s g x with | .trap k => k == c | _ => false
       let n (x : Nat) (c : Cause) : Bool := match semName s g x with | .trap k => k == c | _ => false
       m 0x1000 cIllegalEncoding && m 5 cPermission && n (3 * 2 ^ 30) cIllegalEncoding && n (2 ^ 24) cIllegalEncoding && n (2 ^ 12) cIllegalEncoding &&
         n 63 cResource && n (2 ^ 30 + 2 ^ 14) cIllegalEncoding && n (2 ^ 30 + 7) cPermission &&
         (match semName s g (2 * 2 ^ 30 + 9 * 2 ^ 14) with | .remote => true | _ => false)) = true) ∧
    (let i : Instr := .mbxTake ⟨.always, .s 7, .const 5, 3⟩
     let sp : Spec := { guard := .always, uses := [.dstS (.s 7), .uni 1 (.const 5)], chunk := .own }
     meets (stand i) 8 .always (fun e => e.executes sp) = true ∧ after i (stand i) (recorded cPermission) = true) ∧
    (let i : Instr := .semWait ⟨.always, .s 4, .const 1⟩
     after i (withS [(4, 63)] (stand i)) (recorded cResource) = true) := by
  decide +kernel

theorem wit_LaterReleases :
    (let c (g : Gang) : Chunk := { Chunk.fresh g.core with count := 1, closed := true, defer := [.signal (2 ^ 30 + 9) 2, .post 5 7] }
     let s := withGang (fun g => { g with chunk := some (c g) }) (stand (.nop .always))
     after (.chunkCommit 66 ⟨[], 2⟩) s (fun t => (t.gang? 66).any (fun g => g.chunk.isNone && g.releases.length == 2 && g.core.subs.all (fun x => !t.groupReady g x)) && (t.sem 9).value == 0) = true ∧
     (let r := withGang (fun g => { g with releases := [.signal (2 ^ 30 + 9) 2, .post 5 7] }) (stand (.nop .always))
      after (.chunkCommit 66 ⟨[], 1⟩) r (fun t => (t.sem 9).value == 2 && t.mbox 5 == [] && (t.gang? 66).any (fun g => g.releases.length == 1)) = true ∧
      after (.chunkCommit 66 ⟨[], 0⟩) r (fun t => (t.sem 9).value == 2 && t.mbox 5 == [7] && (t.gang? 66).any (fun g => g.releases.isEmpty && g.core.subs.all (fun x => t.groupReady g x))) = true)) := by
  decide +kernel

theorem wit_UndoneChunk :
    (let s := withGang (inExplicit 2) (stand (.nop .always))
     (s.gang? 66).any (fun g => g.chunk.any (fun c => c.expl.any (fun x => spWf x.before.regFill x.before.regs &&
       decide ((s.undoExplicit g c x).core.subs = x.before.subs) && (s.undoExplicit g c x).chunk.isNone))) = true) := by
  decide +kernel

theorem wit_SizeRecord :
    (let s := moreLeaves (withCmd { cmdOf (.enc 0x80000000 0x200000 4096 (some 0x300000)) { ran with done := List.range 64, deep := [(0, .stored 3 [0] none)] } with obj := none })
     after (.enginePiece 80 12) s (fun t => t.loadNat 0x300000 2 == 3 && (t.cmd? 80).any (fun c => c.prog.deep == [])) = true) := by
  decide +kernel

/-- The epilogue of `spilledEpi` with its bias at 0x300020, its pages translated. -/
def biased : Req :=
  { zeroReq .translated with kind := epiKind 5 { spilledEpi with c := .s 6 } 0x100000 64 0x300020 0 0 }

theorem wit_BiasAndRetries :
    (match biased.kind with | .epi _ _ _ _ (some v) _ _ => v == 0x300020 | _ => false) = true ∧ biased.biasTodo.length = 16 ∧ biased.biasTodo[9]? = some 9 ∧
    after (.enginePiece 90 9) (withMem 0x300040 [5] (withReqs [biased])) (fun t => (t.req? 90).any (fun r =>
      r.bias.length == 8 && spFind r.bias 8 == some ⟨5, .live⟩ && (spFind r.bias 7).isNone)) = true ∧
    after (.enginePiece 90 0) ((withReqs [biased]).poisonLine 0x300000) (fun t => (t.req? 90).any (fun r => r.bias.length == 8 && (spFind r.bias 0).any (fun x => x.st == .poison))) = true ∧
    (let r := { moving (.accLd 5 false 0x100000 128) with st := .pageWait 0x100000 }
     (withReqs [r]).reqRuns r = true ∧ (inPart .stopping (withReqs [r])).reqRuns r = false ∧ (withCrew (fun c => { c with live := false }) (withReqs [r])).reqRuns r = false ∧
     after (.pageWaitRetry 90) (inPart .stopping (withReqs [r])) (fun t => decide (t.reqs = [r])) = true) := by
  decide +kernel

theorem wit_CsrMaps :
    (let put (c : Csr) (v : Nat) (p : State → Bool) : Bool := writes (fun w => match w with | .w g a => .csrw ⟨g, c, a⟩ | .x g d a b => .csrx ⟨g, c, d, a, b⟩) v id p
     put .sstatus (2 ^ 64 - 1) (fun t => (t.coxOf 0).sstatus &&& 0x1E == 0x14) = true ∧ put .stvec 0x40001003 (fun t => (t.coxOf 0).stvec == 0x40001000) = true ∧
     put .scause (2 ^ 64 - 1) (fun t => (t.coxOf 0).scause == 0x7FF) = true ∧ put .cctx 0x12345 (fun t => (t.coxOf 0).cctx == 0x345) = true ∧
     put .psel 0x25 (fun t => t.psel == 5) = true ∧ put .mgva 0x12345 (fun t => t.mgva == 0x12000) = true ∧ put .mgcmp 15 (fun t => t.mgcmp == 8) = true ∧
     put (.rreq 2) 9 (fun t => t.rreq.getD 2 0 == 9 && t.rreq.getD 1 0 == 0) = true ∧ put .fqtail 7 (fun t => t.fq.tail == 0) = true ∧
     (let i : Instr := .csrw ⟨.always, .fpflags, .s 4⟩
      after i (withS [(4, 0x7F)] (stand i)) (fun t => (t.gang? 66).any (fun g => g.core.fpflags == 0x3F)) = true)) ∧
    writes .pliveWrite 3 (fun s => withGang (fun g => { g with record := .live }) { s with crews := [loadCrew], gangs := s.gangs ++ [loadGang], parts := setAt 0 ⟨1, 1, 0, .halted, 0, 0⟩ s.parts })
      (fun t => (t.part 0).live == 3 && (t.gang? 66).any (fun g => g.record == .saved)) = true := by
  decide +kernel

theorem wit_StruckRecords :
    (let s := stand (.nop .always)
     let d := s.setPart 0 { s.part 0 with live := 2 }
     (s.gang? 66).any (fun g => s.recordLive g && !d.recordLive g && !(withCrew (fun c => { c with live := false }) s).recordLive g) = true ∧
     after (.softError ⟨.gangRecord 66, false⟩) d (fun t => (t.gang? 66).any (fun g => g.record == .saved)) = true ∧
     after (.softError ⟨.gangRecord 66, false⟩) s (fun t => (t.gang? 66).any (fun g => g.record == .live)) = true) := by
  decide +kernel

theorem wit_ChosenGroups :
    (let s := { stand (.barSync ⟨.always, .crew, .const 1⟩) with issue := [] }
     let s := withGang (fun g => { g with chunk := some { Chunk.fresh g.core with count := 2 } }) s
     let t := withGang (fun g => { g with chunk := g.chunk.map (fun c => { c with closed := true }) }) s
     (s.keepChosen ⟨66, 0⟩ t).issue = [⟨66, 0⟩] ∧ (s.keepChosen ⟨66, 0⟩ s).issue = [] ∧
     (let u := t.setIssue [⟨66, 0⟩]
      u.due = [] ∧ (u.gang? 66).any (fun g => g.closing && u.gangRuns g) = true ∧
      (match step u with | .next v => v.issue == [⟨66, 0⟩] && (v.gang? 66).any (fun g => g.chunk.isNone) | _ => false) = true)) := by
  decide +kernel

/-! ## One step: the spec's worked results -/

/-- The data of register `r` of lane `l` after one instruction. -/
def result (i : Instr) (s : State) (r l : Nat) : Option Word32 := match exec i s with | .next t => (t.gang? 66).map (fun g => (g.core.reg r l).data) | _ => none
def setAll (v : List (Nat × Word32)) : State → State := withCore (fun c => v.foldl (fun c x => (c.setReg x.1 0 ⟨x.2, .live, 0⟩).setReg x.1 1 ⟨x.2, .live, 0⟩) (two c))

-- R176: imulhi.i32 of -3 and 5, imulhi.n32 of 0xFFFFFFFF and 2.
theorem test_imulhi :
    (let i : Instr := .imulhi ⟨.always, .i32, .v 12, md (.v 4), md (.const 5), (), (), (), ()⟩
     result i (setAll [(4, 0xFFFFFFFD)] (stand i)) 12 1) = some 0xFFFFFFFF ∧
    (let i : Instr := .imulhi ⟨.always, .n32, .v 12, md (.v 4), md (.const 2), (), (), (), ()⟩
     result i (setAll [(4, 0xFFFFFFFF)] (stand i)) 12 0) = some 1 := by
  decide +kernel

-- R177: the first word of the 96-bit sum, and its carry in p0.
theorem test_iaddc :
    (let i : Instr := .iaddc ⟨.always, .n32, .v 6, md (.v 0), md (.v 3), none, (), (), some 0⟩
     after i (setAll [(0, 0xFFFFFFFF), (3, 1)] (stand i)) (fun t => (t.gang? 66).any (fun g => (g.core.reg 6 1).data == 0 && g.core.pred 0 == 3))) = true ∧
    (let i : Instr := .iaddc ⟨.always, .n32, .v 8, md (.v 2), md (.v 5), some 2, (), (), some 4⟩
     after i (withCore (fun c => c.setPred 2 3 3) (setAll [(2, 5), (5, 7)] (stand i))) (fun t => (t.gang? 66).any (fun g =>
       (g.core.reg 8 0).data == 13 && g.core.pred 4 == 0))) = true := by
  decide +kernel

-- R202: exclusive sums of the lane numbers: 0, 0, ..., 6 in lane 4.
theorem test_scan :
    (let i : Instr := .scan ⟨.always, ⟨.i32, .add⟩, .v 3, md (.spec .lane), (), (), (), .dyn, true⟩
     result i (stand i) 3 0 = some 0 ∧ result i (stand i) 3 1 = some 0 ∧ result i (stand i) 3 4 = some 6) := by
  decide +kernel

-- R193: cvt.e4m3.f32 of 500.0 is 0x7F with OF and NX, with .sat 0x7E.
theorem test_cvt_e4m3 :
    (let c (sat : Bool) (x : Nat) := convert (fpEnv 0 .rne) (numKind .e4m3) (.flt fp32) sat x
     (c false 0x43FA0000).1 = 0x7F ∧ (c true 0x43FA0000).1 = 0x7E ∧ (c true 0x43E60000).1 = 0x7E ∧
     (c false 0x43FA0000).2 = (c true 0x43FA0000).2 ∧ (c true 0x43E60000).2 ≠ (c true 0x43FA0000).2) := by
  decide +kernel

-- R105: 1.0, 1.0, 2^24 and 0.0 in lanes 0 to 3, the others exited, add up to 16,777,218.
theorem test_redux_tree :
    (let i : Instr := .redux ⟨.always, ⟨.f32, .add⟩, .v 3, md (.v 4), (), (), (), .rne, ()⟩
     let s := withCore (fun c => { ((c.setReg 4 0 ⟨0x3F800000, .live, 0⟩).setReg 4 1 ⟨0x3F800000, .live, 0⟩).setReg 4 2 ⟨0x4B800000, .live, 0⟩ with
       subs := c.subs.map (fun x => { x with lanes := 15 }), exited := 0xFFFFFFF0 }) (stand i)
     result i s 3 2) = some 0x4B800001 := by
  decide +kernel

-- R244: waiter A of threshold 3 before waiter B of threshold 1; two signals of 2 serve A, then B.
theorem test_semaphore_order :
    (let s := (stand (.nop .always)).setSem 9 ⟨0, [(.group 66 0, 3), (.group 67 0, 1)]⟩
     ((s.semSignal 9 2).sem 9) = ⟨2, [(.group 66 0, 3), (.group 67 0, 1)]⟩ ∧ (((s.semSignal 9 2).semSignal 9 2).sem 9) = ⟨0, []⟩) := by
  decide +kernel

-- R199: lane 5 exited, p3 in lanes 0 to 19.
theorem test_quorum :
    (let s (i : Instr) := withCore (fun c => { c.setPred 3 0xFFFFFFFF 0xFFFFF with subs := c.subs.map (fun x => { x with lanes := 0xFFFFFFDF }), exited := 0x20 }) (stand i)
     let p0 (i : Instr) : Bool := after i (s i) (fun t => (t.gang? 66).any (fun g => (g.core.pred 0).getLsbD 1))
     p0 (.quorumGe ⟨.always, 0, 3, .const 1⟩) = true ∧ p0 (.quorumGe ⟨.always, 0, 3, .spec .width⟩) = false ∧
     p0 (.quorumLt ⟨.always, 0, 3, .const 20⟩) = true ∧ p0 (.quorumSame ⟨.always, 0, 3⟩) = false) := by
  decide +kernel

-- Table 14.12: the EF registers of an escape after a nop in its half-block; its PC here is 0x40000008.
theorem test_escape :
    (let w : Word64 := 0x0000000C02007FCD
     let s := withCore (fun c => { c with uevec := 0x40001001, subs := c.subs.map (fun x => { x with lanes := 0xFFFFFF7F, pc := 0x40000008 }), exited := 0x80 })
       { stand (.nop .always) with curBlk := bytesLE 8 0x3D59 ++ bytesLE 24 w.toNat }
     after (.escape w) s (fun t => (t.gang? 66).any (fun g => g.core.ef == [0x40000008, 0x3D59, 0xC02007FCD, 0xFFFFFF7F, 0x200000001, 0x300801F]))) = true := by
  decide +kernel

end Sys2Proof.Tests
end

section
/-! PROOFS. What becomes of an instruction that is guarded off in every active lane (R29, R155): its checks, the abort of an explicit chunk, and where the lanes of its group go, alone, among other sub-gangs, and at a loop's end. -/

namespace Sys2Proof.Machine

/-! ## What the issue of an instruction guarded off comes to -/

/-- The issuing group is not empty, and its active lanes are its lanes. -/
theorem env_group {s : State} {n : Nat} {g : Guard} {e : Env} (h : s.env n g = some e) : e.act = e.x.lanes ∧ e.x.lanes ≠ 0 := by
  unfold State.env at h
  split at h
  · cases h
  · split at h
    · cases h
    · split at h
      · cases h
      · rename_i hx
        cases h
        have hp := List.find?_some hx
        simp only [Bool.and_eq_true, bne_iff_ne] at hp
        exact ⟨rfl, hp.2⟩

theorem explicit_none {e : Env} (h : e.noExplicit) : e.explicit = none := by
  unfold Env.explicit
  cases hc : e.g.chunk with
  | none => rfl
  | some c => simp [h c hc]

theorem explicit_some {e : Env} {c : Chunk} {x : Expl} (hc : e.g.chunk = some c) (hx : c.expl = some x) : e.explicit = some (c, x) := by
  simp [Env.explicit, hc, hx]

/-- The register checks before execution give no trap but those that abort an explicit chunk with FAULT (R119, Table 5.3). -/
theorem check_aborts {e : Env} {sp : Spec} {t : Trap} (h : e.check sp = some t) : t.aborts = [⟨stFault, 0, t.cause⟩] := by
  have hc : t.cause ≠ cUncorrectable ∧ t.cause ≠ cOperandRange := by
    unfold Env.check at h
    split at h
    · cases h; decide
    · split at h
      · cases h; decide
      · split at h
        · cases h; decide
        · dsimp only at h
          split at h
          · cases h; exact ⟨(by decide : cIllegalRegister ≠ cUncorrectable), (by decide : cIllegalRegister ≠ cOperandRange)⟩
          · cases h
  simp [Trap.aborts, hc.1, hc.2]

section
variable {e : Env} {sp : Spec} {s : State} {body : Env → State → Gang → Res}

theorem issue_awaits (h : e.awaits sp = true) : e.issue sp s body = e.stallAt s (.stall .interlock) := by
  simp [Env.issue, h]

theorem issue_check_trap {t : Trap} (h : e.awaits sp = false) (hc : e.check sp = some t) (hx : e.explicit = none) :
    e.issue sp s body = e.raise s t := by
  simp [Env.issue, h, hc, hx]

theorem issue_check_aborts {t : Trap} {c : Chunk} {x : Expl} (h : e.awaits sp = false) (hc : e.check sp = some t) (hx : e.explicit = some (c, x))
    (ho : e.on = 0) : e.issue sp s body = s.abortExplicit e.g c x e.pc 0 t.cause stFault := by
  simp [Env.issue, h, hc, hx, ho, check_aborts hc, lowestAbort]

theorem issue_passes (h : e.awaits sp = false) (hc : e.check sp = none) (ho : e.on = 0) : e.issue sp s body = e.pass s := by
  simp [Env.issue, h, hc, ho]

/-! ## An explicit chunk that aborts -/

/-- The sub-gangs, families and loop depth of two cores agree. -/
def PlacedAlike (a b : GangCore) : Prop := b.subs = a.subs ∧ b.fams = a.fams ∧ b.ldepth = a.ldepth

theorem expireRegs_placed (c : GangCore) (code tick : Nat) : PlacedAlike c (c.expireRegs code tick) := by
  unfold GangCore.expireRegs
  split <;> exact ⟨rfl, rfl, rfl⟩

theorem expireSpaces_placed (c : GangCore) (code tick : Nat) : PlacedAlike c (c.expireSpaces code tick) := by
  unfold GangCore.expireSpaces
  split <;> exact ⟨rfl, rfl, rfl⟩

/-- A gang whose explicit chunk is undone stands where it stood before its chk.begin. -/
theorem undoExplicit_placed (s : State) (g : Gang) (c : Chunk) (x : Expl) : PlacedAlike x.before (s.undoExplicit g c x).core := by
  obtain ⟨r1, r2, r3⟩ := expireRegs_placed (s.reeval c.rebound { x.before with evpend := squashPend c g.core.evpend }) (s.regCode g) s.tick
  obtain ⟨p1, p2, p3⟩ := expireSpaces_placed ((s.reeval c.rebound { x.before with evpend := squashPend c g.core.evpend }).expireRegs (s.regCode g) s.tick)
    (s.thrCode g) s.tick
  exact ⟨p1.trans r1, p2.trans r2, p3.trans r3⟩

/-- A lone sub-gang that is sent to a PC stands there, nothing following from it. -/
theorem send_lone {k : GangCore} {y : SubGang} {m : LaneMask} (hs : k.subs = [y]) (hy : y.lanes = m) (hf : k.fams = []) (hd : k.ldepth = 0) (pc : Word64) :
    ((k.mapSub m (fun z => { z with pc := pc, wait := .ready, waited := 0 })).arriveEnds m).settle =
      { k with subs := [{ y with pc := pc, wait := .ready, waited := 0 }] } := by
  have hm : (k.mapSub m (fun z => { z with pc := pc, wait := .ready, waited := 0 })).arriveEnds m =
      { k with subs := [{ y with pc := pc, wait := .ready, waited := 0 }] } := by
    simp [GangCore.mapSub, mapIf, hs, hy, GangCore.arriveEnds, hd]
  rw [hm]
  exact settle_still _ hf (by simp [SubGang.still]) (by simp [GangCore.loopDue, hd])

/-- An abort undoes the chunk, writes the status register and sends the members to the fallback (R119). -/
theorem abortExplicit_eq (s : State) (g : Gang) (c : Chunk) (x : Expl) (pc user cause status : Nat) :
    s.abortExplicit g c x pc user cause status =
      let u := s.undoExplicit g c x
      ((s.dropToken g.id).endStale g.id).putGang { u with
        squashes := 0, token := .none, lbuf := u.blocksKept,
        core := (((u.core.setSreg x.status.val (statusWord ((pc + 2 ^ 64 - x.pc.toNat) % 2 ^ 64) user cause status)).mapSub x.members
          (fun z => { z with pc := x.fallback, wait := .ready, waited := 0 })).arriveEnds x.members).settle } := rfl

theorem statusWord_offset (off cause status : Nat) :
    statusWord (off % 2 ^ 64) 0 cause status = BitVec.ofNat 64 (off % 2 ^ 32 * 2 ^ 32 + 0 * 2 ^ 16 + cause * 2 ^ 8 + status) := by
  have h : off % 2 ^ 64 % 2 ^ 32 = off % 2 ^ 32 := Nat.mod_mod_of_dvd off (Nat.pow_dvd_pow 2 (by omega))
  rw [statusWord, h, Nat.zero_mod]

/-- The abort of a chunk whose gang was one sub-gang in no loop, the status word being `v`. -/
theorem abortExplicit_lone {g : Gang} {c : Chunk} {x : Expl} {pc user cause status : Nat} {v : Word64} {y : SubGang}
    (hv : statusWord ((pc + 2 ^ 64 - x.pc.toNat) % 2 ^ 64) user cause status = v)
    (hsub : x.before.subs = [y]) (hl : y.lanes = x.members) (hf : x.before.fams = []) (hd : x.before.ldepth = 0) :
    s.abortExplicit g c x pc user cause status = ((s.dropToken g.id).endStale g.id).putGang { s.undoExplicit g c x with
      squashes := 0, token := .none, lbuf := (s.undoExplicit g c x).blocksKept,
      core := { (s.undoExplicit g c x).core.setSreg x.status.val v with subs := [{ y with pc := x.fallback, wait := .ready, waited := 0 }] } } := by
  obtain ⟨p1, p2, p3⟩ := undoExplicit_placed s g c x
  rw [abortExplicit_eq, hv]
  dsimp only
  rw [send_lone (k := (s.undoExplicit g c x).core.setSreg x.status.val v) (p1.trans hsub) hl (p2.trans hf) (p3.trans hd) x.fallback]

/-- What an abort answers is the step `AbortStep` describes. -/
theorem abortStep_of {i : Instr} {c : Chunk} {x : Expl} {cause status : Nat}
    (h : exec i s = .next (s.abortExplicit e.g c x e.pc 0 cause status)) : AbortStep i s e c x 0 cause status := by
  intro y hsub hl hf hd
  exact h.trans (congrArg Host.Outcome.next (abortExplicit_lone (statusWord_offset _ cause status) hsub hl hf hd))

/-! ## A group that passes an instruction guarded off -/

/-- A gang with a ready sub-gang is neither idle nor stuck. -/
theorem ready_goesOn {k : GangCore} {y : SubGang} (hy : y ∈ k.subs) (hw : y.wait = .ready) : k.idle = false ∧ k.stuck = false := by
  have hm : y.atMeeting = false := by simp [SubGang.atMeeting, hw]
  refine ⟨?_, ?_⟩
  · simp only [GangCore.idle, List.all_eq_false]
    exact ⟨y, hy, by simp [hm, hw]⟩
  · have : k.subs.all SubGang.atMeeting = false := List.all_eq_false.mpr ⟨y, hy, by simp [hm]⟩
    simp [GangCore.stuck, this]

/-- Where the move of its lanes leaves a ready sub-gang, passing changes nothing else, whatever chunk is open (R29). -/
theorem pass_became {k : GangCore} (hs : s.gang? e.g.id = some e.g) (hact : e.act = e.x.lanes)
    (hm : e.move e.g.core [{ e.x with pc := e.nextPc, wait := .ready, waited := 0 }] = k)
    {y : SubGang} (hy : y ∈ k.subs) (hw : y.wait = .ready) : Became s (e.pass s) { e.g with core := k } := by
  obtain ⟨hi, ht⟩ := ready_goesOn hy hw
  have hb : Became s (s.putGang { e.g with core := k }) { e.g with core := k } := became_putGang (g := { e.g with core := k }) hs
  have hp : e.pass s = s.putGang { e.g with core := k } := by
    unfold Env.pass
    simp only [hact, hm]
    split
    · rename_i c hch
      split
      · simp [hi]
      · exact congrArg s.putGang (chunk_same hch k _ hi)
    · unfold State.stuckTrap
      rw [show (s.putGang { e.g with core := k }).gang? e.g.id = some _ from hb.2.2]
      simp [ht]
  rw [hp]
  exact hb

/-! ## Where the lanes of a group go: one sub-gang among others -/

/-- Nothing follows from where sub-gangs stand if no collective and no loop end is among them and no join completes. -/
theorem settleSubs_quiet {c : GangCore} (hf : c.fams = []) (hj : c.joinDone = none) (h : ∀ y ∈ c.subs, y.atMeeting = true → joinMaskOf y ≠ none)
    (n : Nat) : settleSubs (n + 1) c = c := by
  have hcoll : ∀ y ∈ c.subs, ∀ n, y.wait ≠ .coll n := fun y hy n hw => h y hy (by simp [SubGang.atMeeting, hw]) (by simp [joinMaskOf, hw])
  have hend : ∀ y ∈ c.subs, y.isEnd = false := by
    intro y hy
    cases hw : y.wait <;> simp [SubGang.isEnd, hw]
    exact h y hy (by simp [SubGang.atMeeting, hw]) (by simp [joinMaskOf, hw])
  have hp : c.fusePair = none := by simp [GangCore.fusePair, hf]
  have hr : c.pruneFams.releaseColl = c := by
    have hc : c.pruneFams = c := by simp only [GangCore.pruneFams, hf, List.filter_nil]; rw [← hf]
    rw [hc]
    unfold GangCore.releaseColl
    refine congrArg (fun l => ({ c with subs := l } : GangCore)) (map_same ?_ : _ = c.subs)
    intro y hy
    split
    · rename_i n hw; exact absurd hw (hcoll y hy n)
    · rfl
  have he : c.atEnd = 0 := by
    have : ∀ (l : List SubGang) (m : LaneMask), (∀ y ∈ l, y.isEnd = false) → l.foldl (fun m y => if y.isEnd then m ||| y.lanes else m) m = m := by
      intro l
      induction l with
      | nil => intro m _; rfl
      | cons y l ih =>
        intro m hl
        rw [List.foldl_cons, hl y List.mem_cons_self]
        exact ih m (fun z hz => hl z (List.mem_cons_of_mem _ hz))
    exact this c.subs 0 hend
  rw [settleSubs.eq_2]
  simp [hp, hr, hj, GangCore.loopDue, he]

/-- Whether a join completes does not turn on where a sub-gang at no join stands. -/
theorem joinDone_replace (c : GangCore) (before after : List SubGang) {x y : SubGang} (hx : joinMaskOf x = none) (hy : joinMaskOf y = none)
    (hl : y.lanes = x.lanes) :
    ({ c with subs := before ++ y :: after } : GangCore).joinDone = ({ c with subs := before ++ x :: after } : GangCore).joinDone := by
  simp [GangCore.joinDone, GangCore.liveLanes, hx, hy, hl]

/-- Putting each element in its own place changes nothing. -/
theorem flatMap_keeps {α : Type} {f : α → List α} : ∀ {l : List α}, (∀ x ∈ l, f x = [x]) → l.flatMap f = l
  | [], _ => rfl
  | x :: l, h => by
    rw [List.flatMap_cons, h x List.mem_cons_self, flatMap_keeps fun y hy => h y (List.mem_cons_of_mem _ hy)]
    rfl

theorem arriveEnds_elsewhere {c : GangCore} {m : LaneMask}
    (h : c.ldepth ≠ 0 → ∀ y ∈ c.subs, y.lanes &&& m = 0 ∨ y.pc ≠ (c.loop (c.ldepth - 1)).stop) : c.arriveEnds m = c := by
  unfold GangCore.arriveEnds
  split
  · rfl
  · rename_i hd
    refine congrArg (fun l => ({ c with subs := l } : GangCore)) ?_
    refine flatMap_keeps fun y hy => ?_
    rcases h hd y hy with hm | hp
    · simp [hm]
    · simp [hp]

/-- One sub-gang of several goes on by itself, where it reaches no loop end and the others wait for nothing it does. -/
theorem move_among {before after : List SubGang} {x' : SubGang} (hact : e.act = e.x.lanes) (hne : e.x.lanes ≠ 0)
    (hsub : e.core.subs = before ++ e.x :: after) (hw : e.x.wait = .ready) (hf : e.core.fams = []) (hj : e.core.joinDone = none)
    (hoth : ∀ y ∈ before ++ after, y.lanes &&& e.x.lanes = 0 ∧ (y.atMeeting = true → joinMaskOf y ≠ none))
    (hx' : x'.lanes = e.x.lanes ∧ x'.wait = .ready) (hend : e.core.ldepth ≠ 0 → x'.pc ≠ (e.core.loop (e.core.ldepth - 1)).stop) :
    e.move e.core [x'] = { e.core with subs := before ++ x' :: after } := by
  have hkeep : ∀ l : List SubGang, (∀ y ∈ l, y ∈ before ++ after) → l.flatMap (fun y => if y.lanes == e.x.lanes then [x'] else [y]) = l := by
    intro l hl
    refine flatMap_keeps fun y hy => ?_
    have h0 := (hoth y (hl y hy)).1
    rw [if_neg]
    intro he
    rw [beq_iff_eq.mp he, BitVec.and_self] at h0
    exact hne h0
  have hput : e.core.subs.flatMap (fun y => if y.lanes == e.x.lanes then [x'] else [y]) = before ++ x' :: after := by
    rw [hsub, List.flatMap_append, List.flatMap_cons, hkeep before (fun y hy => List.mem_append_left _ hy),
      hkeep after (fun y hy => List.mem_append_right _ hy)]
    simp
  obtain ⟨hl', hw'⟩ := hx'
  have hmem : ∀ y ∈ before ++ x' :: after, y = x' ∨ y ∈ before ++ after := by
    intro y hy
    simp only [List.mem_append, List.mem_cons] at hy ⊢
    rcases hy with hy | hy | hy
    · exact .inr (.inl hy)
    · exact .inl hy
    · exact .inr (.inr hy)
  simp only [Env.move, hput]
  rw [arriveEnds_elsewhere]
  · refine settleSubs_quiet ?_ ?_ ?_ 199
    · exact hf
    · rw [joinDone_replace e.core before after (x := e.x) (by simp [joinMaskOf, hw]) (by simp [joinMaskOf, hw']) hl', ← hsub]
      exact hj
    · intro y hy hm
      rcases hmem y hy with rfl | hy
      · simp [SubGang.atMeeting, hw'] at hm
      · exact (hoth y hy).2 hm
  · intro hd y hy
    rcases hmem y hy with rfl | hy
    · exact .inr (hend hd)
    · exact .inl (by rw [hact]; exact (hoth y hy).1)

/-! ## Where the lanes of a group go: the loop step of a whole gang -/

/-- The lanes of a whole gang at a loop end, gathered, go on as one sub-gang. -/
theorem gather_lone {c : GangCore} {m : LaneMask} {pc : Word64} {n w : Nat} (hs : c.subs = [⟨m, pc, .loopEnd n, w⟩]) (hm : m ≠ 0) (hf : c.fams = [])
    (p : Word64) : c.gather m p = { c with subs := [⟨m, p, .ready, 0⟩] } := by
  have hat : c.atEnd = m := by simp [GangCore.atEnd, hs, SubGang.isEnd]
  have h0 : (m &&& m == 0) = false := by simpa using hm
  simp only [GangCore.gather, hat, h0]
  simp [hs, SubGang.isEnd, GangCore.rejoin, hf]

/-- Where the whole gang waits at the innermost loop's end and the loop goes on, the loop step sends it to the start (R214). -/
theorem settle_loopStep {c : GangCore} {m : LaneMask} {pc : Word64} {n w : Nat} (hs : c.subs = [⟨m, pc, .loopEnd n, w⟩]) (hm : m ≠ 0) (hf : c.fams = [])
    (hd : c.ldepth ≠ 0) (hl : (c.loop (c.ldepth - 1)).lmask = m) (hc : (c.loop (c.ldepth - 1)).lc ≠ 1) :
    c.settle = { c.setLoop (c.ldepth - 1) { c.loop (c.ldepth - 1) with lc := (c.loop (c.ldepth - 1)).lc - 1 } with
      subs := [⟨m, (c.loop (c.ldepth - 1)).start, .ready, 0⟩] } := by
  generalize htop : c.loop (c.ldepth - 1) = top at hl hc ⊢
  have hlc : (top.lc - 1 != 0 && m != 0) = true := by
    simp only [Bool.and_eq_true, bne_iff_ne]
    exact ⟨fun h => hc ((BitVec.sub_eq_iff_eq_add.mp h).trans (BitVec.zero_add 1)), hm⟩
  have hp : c.fusePair = none := by simp [GangCore.fusePair, hf]
  have hr : c.pruneFams.releaseColl = c := by cases c; simp_all [GangCore.pruneFams, GangCore.releaseColl]
  have hj : c.joinDone = none := by simp [GangCore.joinDone, hs, joinMaskOf]
  have hlive : c.liveLanes = m := by simp [GangCore.liveLanes, hs]
  have hdue : c.loopDue = true := by
    have hat : c.atEnd = m := by simp [GangCore.atEnd, hs, SubGang.isEnd]
    simp only [GangCore.loopDue, htop, hlive, hat, hl]
    simpa [hd] using hm
  have hstep : c.loopStep = { c.setLoop (c.ldepth - 1) { top with lc := top.lc - 1 } with subs := [⟨m, top.start, .ready, 0⟩] } := by
    have hmask : ({ top with lc := top.lc - 1, lmask := m } : LoopLevel) = { top with lc := top.lc - 1 } := by rw [← hl]
    simp only [GangCore.loopStep, htop, hlive, hl, BitVec.and_self, hlc, if_true, hmask]
    exact gather_lone (c := c.setLoop (c.ldepth - 1) { top with lc := top.lc - 1 }) hs hm hf top.start
  show settleSubs (199 + 1) c = _
  rw [settleSubs.eq_2]
  simp only [hp, hr, hj, hdue, if_true, hstep]
  refine settleSubs_quiet ?_ ?_ ?_ 198
  · exact hf
  · simp [GangCore.joinDone, joinMaskOf]
  · simp [SubGang.atMeeting]

/-- A whole gang that comes to the innermost loop's end, all of it within LMASK, waits there. -/
theorem arriveEnds_lone {c : GangCore} {y : SubGang} (hs : c.subs = [y]) (hy : y.lanes ≠ 0) (hw : y.wait = .ready) (hd : c.ldepth ≠ 0)
    (hp : y.pc = (c.loop (c.ldepth - 1)).stop) (hl : (c.loop (c.ldepth - 1)).lmask = y.lanes) :
    c.arriveEnds y.lanes = { c with subs := [{ y with wait := .loopEnd c.nextOrder }] } := by
  have h0 : (y.isReady && y.pc == (c.loop (c.ldepth - 1)).stop && y.lanes &&& y.lanes &&& y.lanes != 0) = true := by
    simpa [SubGang.isReady, hw, hp] using hy
  simp only [GangCore.arriveEnds, if_neg hd, hs, hl, List.flatMap_cons, List.flatMap_nil, h0, if_true]
  simp

/-- A whole gang that comes to the innermost loop's end takes the loop step (R214). -/
theorem move_loopStep {x' : SubGang} (hact : e.act = e.x.lanes) (hne : e.x.lanes ≠ 0) (hsub : e.core.subs = [e.x]) (hf : e.core.fams = [])
    (hd : e.core.ldepth ≠ 0) (hx' : x'.lanes = e.x.lanes ∧ x'.wait = .ready) (hp : x'.pc = (e.core.loop (e.core.ldepth - 1)).stop)
    (hl : (e.core.loop (e.core.ldepth - 1)).lmask = e.x.lanes) (hc : (e.core.loop (e.core.ldepth - 1)).lc ≠ 1) :
    let top := e.core.loop (e.core.ldepth - 1)
    e.move e.core [x'] = { e.core.setLoop (e.core.ldepth - 1) { top with lc := top.lc - 1 } with subs := [⟨e.x.lanes, top.start, .ready, 0⟩] } := by
  obtain ⟨hxl, hxw⟩ := hx'
  have hput : e.core.subs.flatMap (fun y => if y.lanes == e.x.lanes then [x'] else [y]) = [x'] := by simp [hsub]
  simp only [Env.move, hput]
  rw [hact, ← hxl, arriveEnds_lone (c := { e.core with subs := [x'] }) rfl (hxl ▸ hne) hxw hd hp (hl.trans hxl.symm)]
  exact settle_loopStep (c := { e.core with subs := [{ x' with wait := .loopEnd _ }] }) rfl (hxl ▸ hne) hf hd (hl.trans hxl.symm) hc

end

/-! ## Every instruction of the table is issued under its guard -/

/-- The meaning of `i` is the issue of an instruction of `n` bytes under the guard `g`, with the checks of `sp`. -/
def IssuedAs (i : Instr) (n : Nat) (g : Guard) (sp : Env → Spec) : Prop := ∃ body, ∀ s, exec i s = issue n g sp body s

/-- The length of an instruction is that of its operation code's form (R133). -/
theorem size_of_opc {i : Instr} {k : Nat} {f : Form} (hesc : ∀ w, i ≠ .escape w) (hk : (toRaw i).opc = k) (hf : formOf k = some f) : i.size = f.bytes := by
  unfold Instr.size
  split
  · rename_i w; exact absurd rfl (hesc w)
  · rw [hk, hf]

theorem issuedAs_size {i : Instr} {k n : Nat} {f : Form} {g : Guard} {sp : Env → Spec} {body : Env → State → Gang → Res} (hesc : ∀ w, i ≠ .escape w)
    (hx : ∀ s, exec i s = issue n g sp body s) (hk : (toRaw i).opc = k) (hf : formOf k = some f) (hn : f.bytes = n) :
    ∃ g sp, IssuedAs i i.size g sp := by
  rw [size_of_opc hesc hk hf, hn]
  exact ⟨g, sp, body, hx⟩

/-- Every instruction of the table but ESCAPE is issued under its guard; a step that no word encodes has no bytes (R29, R131). -/
theorem encoded_issued (i : Instr) (h : encode i ≠ []) (hesc : ∀ w, i ≠ .escape w) : ∃ g sp, IssuedAs i i.size g sp := by
  cases i
  case escape w => exact absurd rfl (hesc w)
  case queuedResultWrite | legacyRequestService | stallRelease | eventDelivery | timerExpiry | loadDataArrival | enginePiece | commandCompletion |
      joinBlockDecrement | matrixGrant | matrixRequestComplete | epilogueCaptureWrite | migrationOwnerRelease | migrationReceive | migrationTimeout |
      engineStopAck | chunkCommit | strokeTokenGrant | issueCycle | retentionTick | allocationExpiry | operandStoreRefresh | hbmRefresh |
      pageWaitRetry | faultRecordEntry | taskQueueAdmission | crewPlacement | quadSteal | crewRelease | podSignalReceive | podBarrierArrivalReceive |
      supplySag | sagRecovery | temperatureChange | packagePowerLimit | thermalTrip | powerOnReset | warmReset | counterStoreWrite | ident |
      portcfg | portstat | counters | devinfo | recover | reset | dbgread | powerLoss | softError | scaleOutLinkChange | tlbInvalidationDone |
      mgmtOtherOp =>
    exact absurd rfl h
  case fpmodeWrite | uevecWrite | fqbaseWrite | fqcapWrite | fqheadWrite | grselWrite | grownWrite | pblkWrite | pliveWrite | pshadWrite |
      puevWrite | ctxtabWrite | migrationGo =>
    rename_i o
    cases o <;> exact issuedAs_size hesc (fun _ => rfl) (by conv => lhs; whnf) rfl rfl
  -- `whnf` brings the operation code down to its number, so that its form is looked up once.
  all_goals exact issuedAs_size hesc (fun _ => rfl) (by conv => lhs; whnf) rfl rfl

/-! ## What every instruction does that is guarded off in every active lane -/

/-- Issued under `g` with the checks of `sp`, and guarded off in every active lane, `i` does what any such instruction does (R29, R155): it waits for the registers its checks read; a check that fails traps, or aborts an explicit chunk; else its group goes on, alone, among others, or by the loop step. -/
def PassesOff (i : Instr) (n : Nat) (g : Guard) (sp : Env → Spec) : Prop := ∀ (s : State) (e : Env), s.env n g = some e →
    (e.awaits (sp e) = true → StallStep i s s e .interlock) ∧
    (∀ t, e.awaits (sp e) = false → e.check (sp e) = some t →
      (e.noExplicit → TrapStep i s e t) ∧
      (∀ c x, e.g.chunk = some c → c.expl = some x → e.on = 0 → AbortStep i s e c x 0 t.cause stFault)) ∧
    (e.awaits (sp e) = false → e.check (sp e) = none → e.on = 0 →
      let x := { e.x with pc := e.nextPc, wait := .ready, waited := 0 }
      let top := e.core.loop (e.core.ldepth - 1)
      let goes (k : GangCore) (l : List SubGang) : Prop := ∃ t, exec i s = .next t ∧ Became s t { e.g with core := { k with subs := l } }
      (e.alone = true → goes e.core [x]) ∧
      (∀ before after, e.core.subs = before ++ e.x :: after → e.x.wait = .ready → e.core.fams = [] → e.core.joinDone = none →
        (∀ y ∈ before ++ after, y.lanes &&& e.x.lanes = 0 ∧ (y.atMeeting = true → joinMaskOf y ≠ none)) → (e.core.ldepth ≠ 0 → e.nextPc ≠ top.stop) →
        goes e.core (before ++ x :: after)) ∧
      (e.core.subs = [e.x] → e.x.wait = .ready → e.core.fams = [] → e.core.ldepth ≠ 0 → e.nextPc = top.stop → top.lmask = e.x.lanes → top.lc ≠ 1 →
        goes (e.core.setLoop (e.core.ldepth - 1) { top with lc := top.lc - 1 }) [{ x with pc := top.start }]))

theorem passesOff_of_issued {i : Instr} {n : Nat} {g : Guard} {sp : Env → Spec} (hi : IssuedAs i n g sp) : PassesOff i n g sp := by
  obtain ⟨body, hi⟩ := hi
  intro s e he
  have hgang := env_gang he
  obtain ⟨hact, hne⟩ := env_group he
  have hx : exec i s = .next (e.issue (sp e) s body) := by rw [hi, issue, he]
  refine ⟨fun hw => ?_, fun t hw hc => ⟨fun hn => ?_, fun c x hch hex ho => ?_⟩, fun hw hc ho => ?_⟩
  · rw [issue_awaits hw] at hx
    exact hx
  · rw [issue_check_trap hw hc (explicit_none hn)] at hx
    exact hx
  · rw [issue_check_aborts hw hc (explicit_some hch hex) ho] at hx
    exact abortStep_of hx
  rw [issue_passes hw hc ho] at hx
  refine ⟨fun ha => ?alone, fun before after hsub hwt hf hj hoth hend => ?among, fun hsub hwt hf hd hend hl hlc => ?loopStep⟩
  case alone =>
    unfold Env.alone at ha
    simp only [Bool.and_eq_true, beq_iff_eq] at ha
    obtain ⟨⟨hsub, hd⟩, hf⟩ := ha
    have hm := move_alone e e.g.core [{ e.x with pc := e.nextPc, wait := .ready, waited := 0 }] hsub hf (by simp [SubGang.still]) hd
    exact ⟨_, hx, pass_became hgang hact hm List.mem_cons_self rfl⟩
  case among =>
    have hm := move_among hact hne hsub hwt hf hj hoth (x' := { e.x with pc := e.nextPc, wait := .ready, waited := 0 }) ⟨rfl, rfl⟩ hend
    exact ⟨_, hx, pass_became hgang hact hm (List.mem_append_right _ List.mem_cons_self) rfl⟩
  case loopStep =>
    have hm := move_loopStep hact hne hsub hf hd (x' := { e.x with pc := e.nextPc, wait := .ready, waited := 0 }) ⟨rfl, rfl⟩ hend hl hlc
    exact ⟨_, hx, pass_became hgang hact hm List.mem_cons_self rfl⟩

/-- Settles O55: whatever an instruction's checks are, its issue decides what becomes of it when it is guarded off (`passesOff_of_issued`). -/
theorem guardedOff : Obligations.GuardedOff := by
  unfold Obligations.GuardedOff
  intro is off
  have hoff : ∀ i n g sp, is i n g sp → off i n g sp := fun i n g sp h => passesOff_of_issued h
  have hrun : ∀ {i n g sp body}, (∀ s, exec i s = issue n g sp body s) → off i n g sp := fun h => hoff _ _ _ _ ⟨_, h⟩
  refine ⟨encoded_issued, hoff, ?_⟩
  and_intros
  rotate_right
  · rintro o i (rfl | rfl) <;> exact hrun fun _ => rfl
  all_goals intros
  all_goals and_intros
  all_goals exact hrun fun _ => rfl

end Sys2Proof.Machine
end

section
/-! PROOFS. Choosing groups, placing crews, stealing ranges, releasing crews (R39, R341 to R349, R372, R373). -/

namespace Sys2Proof.Machine

/-! ## The ranking of ready groups (R347) -/

/-- The ranking, most significant first: a wait of 4,096 cycles, then, of groups that have not waited so long, the higher priority, then the longer wait, then the lower place, then the lower lane. -/
theorem before_iff (a b : Cand) : a.before b = true ↔
    (4096 ≤ a.waited ∧ b.waited < 4096) ∨ ((4096 ≤ a.waited ↔ 4096 ≤ b.waited) ∧
      ((a.waited < 4096 ∧ b.prio < a.prio) ∨ ((4096 ≤ a.waited ∨ a.prio = b.prio) ∧
        (b.waited < a.waited ∨ (a.waited = b.waited ∧ (a.place < b.place ∨ (a.place = b.place ∧ a.lead < b.lead))))))) := by
  unfold Cand.before
  by_cases ha : 4096 ≤ a.waited <;> by_cases hb : 4096 ≤ b.waited <;> simp only [ha, hb] <;> grind

theorem before_irrefl (a : Cand) : ¬ a.before a = true := by
  rw [before_iff]
  omega

theorem before_asymm {a b : Cand} (h : a.before b = true) : ¬ b.before a = true := by
  rw [before_iff] at h ⊢
  omega

/-- What ranks before a group ranks before, or with, each that this one does not rank behind. -/
theorem before_of_before {a b c : Cand} (h : c.before a = true) (hb : ¬ b.before a = true) : c.before b = true := by
  rw [before_iff] at h hb ⊢
  omega

theorem bestCand_spec : ∀ (l : List Cand) (x : Cand), bestCand l = some x → x ∈ l ∧ ∀ y ∈ l, ¬ y.before x = true
  | [], x, h => by cases h
  | a :: l, x, h => by
    cases hb : bestCand l with
    | none =>
      have hl : l = [] := by
        cases l with
        | nil => rfl
        | cons c l => simp only [bestCand] at hb; split at hb <;> cases hb
      simp only [bestCand, hb, Option.some.injEq] at h
      subst h
      rw [hl]
      refine ⟨List.mem_cons_self, fun y hy => ?_⟩
      rw [List.mem_singleton.mp hy]
      exact before_irrefl a
    | some b =>
      obtain ⟨hm, hle⟩ := bestCand_spec l b hb
      simp only [bestCand, hb, Option.some.injEq] at h
      by_cases hab : b.before a = true
      · rw [if_pos hab] at h
        subst h
        refine ⟨List.mem_cons_of_mem _ hm, fun y hy => ?_⟩
        rcases List.mem_cons.mp hy with rfl | hy
        · exact before_asymm hab
        · exact hle y hy
      · rw [if_neg hab] at h
        subst h
        refine ⟨List.mem_cons_self, fun y hy => ?_⟩
        rcases List.mem_cons.mp hy with rfl | hy
        · exact before_irrefl _
        · exact fun hya => hle y hy (before_of_before hya hab)

/-- The first-ranked group of a list that holds a group which has waited 4,096 cycles is one, and has waited longest. -/
theorem bestCand_starved {l : List Cand} {x : Cand} (h : bestCand l = some x) (hs : ∃ y ∈ l, 4096 ≤ y.waited) :
    4096 ≤ x.waited ∧ ∀ y ∈ l, y.waited ≤ x.waited := by
  have hle := (bestCand_spec l x h).2
  have hr : ∀ y ∈ l, 4096 ≤ y.waited → 4096 ≤ x.waited ∧ y.waited ≤ x.waited := by
    intro y hy hw
    have hxy := hle y hy
    rw [before_iff] at hxy
    omega
  obtain ⟨z, hz, hzw⟩ := hs
  have hx := (hr z hz hzw).1
  refine ⟨hx, fun y hy => ?_⟩
  by_cases hw : 4096 ≤ y.waited
  · exact (hr y hy hw).2
  · omega

/-- Where no group has waited so long, the first-ranked has the highest priority, then the longest wait, then the lowest place, then the lowest lane. -/
theorem bestCand_fresh {l : List Cand} {x : Cand} (h : bestCand l = some x) (hs : ∀ y ∈ l, y.waited < 4096) :
    ∀ y ∈ l, y.prio ≤ x.prio ∧ (y.prio = x.prio → y.waited ≤ x.waited ∧
      (y.waited = x.waited → x.place ≤ y.place ∧ (y.place = x.place → x.lead ≤ y.lead))) := by
  obtain ⟨hx, hle⟩ := bestCand_spec l x h
  intro y hy
  have hr := hle y hy
  have hxw := hs x hx
  have hyw := hs y hy
  rw [before_iff] at hr
  omega

/-! ## One cycle of a core (R347 to R349) -/

theorem chooseTwo_length (cs : List Cand) : (chooseTwo cs).length ≤ 2 := by
  unfold chooseTwo
  split
  · simp
  · split
    · split <;> simp
    · simp

theorem chooseTwo_nil : chooseTwo [] = [] := rfl

theorem bestCand_mem_chooseTwo {cs : List Cand} {x : Cand} (h : bestCand cs = some x) : x ∈ chooseTwo cs := by
  simp only [chooseTwo, h]
  split
  · split <;> simp
  · simp

/-- The ready groups of a core are those of its gangs. -/
theorem mem_cands {s : State} {core : Nat} {g : Gang} {y : SubGang} (hg : g ∈ s.coreGangs core) (hy : y ∈ g.core.subs) (hr : s.groupReady g y = true) :
    ∃ c ∈ s.cands core, c.gang = g.id ∧ c.lead = lowestLane y.lanes := by
  refine ⟨_, List.mem_flatMap.mpr ⟨g, hg, List.mem_map.mpr ⟨y, List.mem_filter.mpr ⟨hy, hr⟩, rfl⟩⟩, rfl, rfl⟩

/-- The count of a sub-gang after a cycle in which `cs` were ready. -/
def SubGang.counted (cs : List Cand) (g : Gang) (y : SubGang) : SubGang :=
  { y with waited := if cs.any (fun c => c.gang == g.id && c.lead == lowestLane y.lanes) then y.waited + 1 else 0 }

/-- Lookup by number after every element was changed in a way that keeps numbers. -/
theorem find?_map_key {α : Type} (key : α → Nat) (f : α → α) (hf : ∀ x, key (f x) = key x) (l : List α) (j : Nat) :
    (l.map f).find? (fun x => key x == j) = (l.find? (fun x => key x == j)).map f := by
  rw [List.find?_map]
  exact congrArg (fun p => (l.find? p).map f) (funext fun x => congrArg (· == j) (hf x))

/-- A gang of the core after a cycle: the counts of its sub-gangs. -/
theorem cycle_gang {s : State} {core : Nat} {g : Gang} (hg : g ∈ s.coreGangs core) (hs : s.gang? g.id = some g) :
    (s.cycle core).gang? g.id = some { g with core := { g.core with subs := g.core.subs.map (SubGang.counted (s.cands core) g) } } := by
  have hin : (s.coreGangs core).any (fun c => c.id == g.id) = true := List.any_eq_true.mpr ⟨g, hg, by simp⟩
  simp only [State.cycle, State.gang?]
  rw [find?_map_key Gang.id _ (fun x => by split <;> rfl)]
  rw [show s.gangs.find? (fun x => x.id == g.id) = some g from hs]
  simp only [Option.map_some, hin, if_true]
  rfl

theorem cycle_frame (s : State) (core : Nat) : s.cycle core = { s with
    gangs := (s.cycle core).gangs, issue := s.issue ++ (chooseTwo (s.cands core)).map (fun c => ⟨c.gang, toLane c.lead⟩) } := rfl

/-- A ready group of one sub-gang counts the cycle. -/
theorem counted_ready {s : State} {core : Nat} {g : Gang} {y : SubGang} (hg : g ∈ s.coreGangs core) (hy : y ∈ g.core.subs) (hr : s.groupReady g y = true) :
    y.counted (s.cands core) g = { y with waited := y.waited + 1 } := by
  obtain ⟨c, hc, hid, hl⟩ := mem_cands hg hy hr
  have : (s.cands core).any (fun c => c.gang == g.id && c.lead == lowestLane y.lanes) = true := List.any_eq_true.mpr ⟨c, hc, by simp [hid, hl]⟩
  simp [SubGang.counted, this]

theorem counted_unready {cs : List Cand} {g : Gang} (h : ∀ c ∈ cs, c.gang ≠ g.id) (y : SubGang) : y.counted cs g = { y with waited := 0 } := by
  have : cs.any (fun c => c.gang == g.id && c.lead == lowestLane y.lanes) = false :=
    List.any_eq_false.mpr fun c hc => by simp [h c hc]
  simp [SubGang.counted, this]

/-- The sub-gangs that a group becomes count from 0 (R347). -/
theorem split_waited (e : Env) (a : After) {x : SubGang} (hx : x ∈ e.split a) : x.waited = 0 := by
  simp only [Env.split] at hx
  split at hx
  · split at hx
    · cases hx
    · obtain rfl := List.mem_singleton.mp hx; rfl
  · split at hx
    · obtain ⟨p, _, rfl⟩ := List.mem_map.mp hx; rfl
    · split at hx
      · obtain ⟨p, _, rfl⟩ := List.mem_map.mp hx; rfl
      · rcases List.mem_append.mp hx with hx | hx
        · obtain ⟨p, _, rfl⟩ := List.mem_map.mp hx; rfl
        · obtain rfl := List.mem_singleton.mp hx; rfl

/-! ## The quad that a quad steals from (R342) -/

/-- What `largest` finds is among the numbers looked at, is as large as any, and comes before its equals. -/
theorem largest_spec (f : Nat → Nat) (l : List Nat) : ∀ b : Nat, (b :: l).Pairwise (· ≤ ·) →
    largest f b l ∈ b :: l ∧ ∀ q ∈ b :: l, f q ≤ f (largest f b l) ∧ (f q = f (largest f b l) → largest f b l ≤ q) := by
  induction l with
  | nil =>
    intro b _
    simp [largest]
  | cons x l ih =>
    intro b hs
    obtain ⟨hb, hxl⟩ := List.pairwise_cons.mp hs
    have hstep : largest f b (x :: l) = largest f (if f b < f x then x else b) l := rfl
    rw [hstep]
    split
    · rename_i hlt
      obtain ⟨hm, hle⟩ := ih x hxl
      refine ⟨List.mem_cons_of_mem _ hm, fun q hq => ?_⟩
      rcases List.mem_cons.mp hq with rfl | hq
      · have := (hle x List.mem_cons_self).1
        exact ⟨by omega, fun h => by omega⟩
      · exact hle q hq
    · rename_i hge
      obtain ⟨hm, hle⟩ := ih b (List.pairwise_cons.mpr ⟨fun q hq => hb q (List.mem_cons_of_mem _ hq), hxl.of_cons⟩)
      have hbq := hle b List.mem_cons_self
      refine ⟨(List.mem_cons.mp hm).elim (fun h => List.mem_cons.mpr (.inl h)) (fun h => List.mem_cons_of_mem _ (List.mem_cons_of_mem _ h)), fun q hq => ?_⟩
      rcases List.mem_cons.mp hq with rfl | hq
      · exact hbq
      · rcases List.mem_cons.mp hq with rfl | hq
        · have := hb q List.mem_cons_self
          have := hbq.1
          exact ⟨by omega, fun h => by have := hbq.2 (by omega); omega⟩
        · exact hle q (List.mem_cons_of_mem _ hq)

theorem mem_dieQuads (die q : Nat) : q ∈ rangeFrom (64 * die) 64 ↔ q / 64 = die := by
  simp only [rangeFrom, List.mem_map, List.mem_range]
  constructor
  · rintro ⟨a, ha, rfl⟩; omega
  · intro h; exact ⟨q - 64 * die, by omega, by omega⟩

/-- The quad of the largest remainder of a die, ties to the lowest. -/
theorem largestQuad_spec (l : List QRange) (die : Nat) : largestQuad l die / 64 = die ∧
    ∀ q, q / 64 = die → quadLeft l q ≤ quadLeft l (largestQuad l die) ∧ (quadLeft l q = quadLeft l (largestQuad l die) → largestQuad l die ≤ q) := by
  have hs : (64 * die :: rangeFrom (64 * die) 64).Pairwise (· ≤ ·) := by
    refine List.pairwise_cons.mpr ⟨fun q hq => ?_, ?_⟩
    · have := (mem_dieQuads die q).mp hq; omega
    · exact List.Pairwise.map _ (fun a b h => by omega) (List.pairwise_le_range (n := 64))
  obtain ⟨hm, hle⟩ := largest_spec (quadLeft l) (rangeFrom (64 * die) 64) (64 * die) hs
  refine ⟨?_, fun q hq => hle q (List.mem_cons_of_mem _ ((mem_dieQuads die q).mpr hq))⟩
  rcases List.mem_cons.mp hm with h | h
  · have : largestQuad l die = 64 * die := h
    omega
  · exact (mem_dieQuads die _).mp h

/-- A quad steals where something is left: from the quad of its own die that holds the most while one there holds anything. -/
theorem victimQuad_spec {l : List QRange} {quad v : Nat} (h : victimQuad l quad = some v) : 0 < quadLeft l v ∧
    (v / 64 = quad / 64 → ∀ q, q / 64 = quad / 64 → quadLeft l q ≤ quadLeft l v ∧ (quadLeft l q = quadLeft l v → v ≤ q)) ∧
    (v / 64 ≠ quad / 64 → ∀ q, q / 64 = quad / 64 → quadLeft l q = 0) := by
  obtain ⟨hown, hle⟩ := largestQuad_spec l (quad / 64)
  have hpos : 0 < quadLeft l v := by
    have := List.find?_some h
    simp only [bne_iff_ne] at this
    omega
  by_cases h0 : quadLeft l (largestQuad l (quad / 64)) = 0
  · have hnone : ∀ q, q / 64 = quad / 64 → quadLeft l q = 0 := fun q hq => by have := (hle q hq).1; omega
    refine ⟨hpos, fun hv => ?_, fun _ => hnone⟩
    have := hnone v hv
    omega
  · have hv : v = largestQuad l (quad / 64) := by simpa [victimQuad, h0] using h.symm
    subst hv
    exact ⟨hpos, fun _ => hle, fun hv => absurd hown hv⟩

/-! ## What a quad takes (R342) -/

/-- One of some numbers is at most their sum. -/
theorem le_sum_of_mem {n : Nat} : ∀ {l : List Nat}, n ∈ l → n ≤ l.sum
  | m :: l, h => by
    rw [List.sum_cons]
    rcases List.mem_cons.mp h with rfl | h
    · exact Nat.le_add_right _ _
    · exact Nat.le_trans (le_sum_of_mem h) (Nat.le_add_left _ _)

/-- The crews that ranges hold. -/
def crewsLeft (l : List QRange) : Nat := (l.map QRange.left).sum

theorem crewsLeft_cons (r : QRange) (l : List QRange) : crewsLeft (r :: l) = r.left + crewsLeft l := by simp [crewsLeft]

theorem crewsLeft_perm {l m : List QRange} (h : l.Perm m) : crewsLeft l = crewsLeft m := (h.map _).sum_nat

theorem quadLeft_eq (l : List QRange) (q : Nat) : quadLeft l q = crewsLeft (l.filter (fun r => r.quad == q)) := List.sum_eq_foldl.symm

theorem quadLeft_append (l m : List QRange) (q : Nat) : quadLeft (l ++ m) q = quadLeft l q + quadLeft m q := by
  simp [quadLeft_eq, crewsLeft, List.filter_append]

theorem quadLeft_all {l : List QRange} {q : Nat} (h : ∀ r ∈ l, r.quad = q) : quadLeft l q = crewsLeft l := by
  rw [quadLeft_eq, List.filter_eq_self.mpr fun r hr => by simp [h r hr]]

theorem quadLeft_none {l : List QRange} {q : Nat} (h : ∀ r ∈ l, r.quad ≠ q) : quadLeft l q = 0 := by
  rw [quadLeft_eq, List.filter_eq_nil_iff.mpr fun r hr => by simp [h r hr]]
  rfl

/-- Ranges with no crew count for nothing. -/
theorem crewsLeft_nonempty (l : List QRange) : crewsLeft (l.filter (fun r => r.lo < r.hi)) = crewsLeft l := by
  induction l with
  | nil => rfl
  | cons r l ih =>
    rw [crewsLeft_cons, List.filter_cons]
    split
    · rw [crewsLeft_cons, ih]
    · rename_i h
      have : r.left = 0 := by simp only [decide_eq_true_eq] at h; simp only [QRange.left]; omega
      omega

theorem quadLeft_nonempty (l : List QRange) (q : Nat) : quadLeft (l.filter (fun r => r.lo < r.hi)) q = quadLeft l q := by
  rw [quadLeft_eq, quadLeft_eq, ← crewsLeft_nonempty (l.filter (fun r => r.quad == q)), List.filter_filter, List.filter_filter]
  exact congrArg crewsLeft (List.filter_congr fun r _ => Bool.and_comm _ _)

theorem left_le_quadLeft {l : List QRange} {r : QRange} (h : r ∈ l) : r.left ≤ quadLeft l r.quad := by
  rw [quadLeft_eq]
  exact le_sum_of_mem (List.mem_map.mpr ⟨r, List.mem_filter.mpr ⟨h, by simp⟩, rfl⟩)

/-- What is taken of ranges, and what stays. -/
theorem takeUpper_left : ∀ (l : List QRange) (k : Nat),
    crewsLeft (takeUpper k l).1 = min k (crewsLeft l) ∧ crewsLeft (takeUpper k l).2 = crewsLeft l - k
  | [], k => by simp [takeUpper, crewsLeft]
  | r :: l, k => by
    obtain ⟨h1, h2⟩ := takeUpper_left l (k - min k r.left)
    simp only [takeUpper, crewsLeft_cons, h1, h2]
    simp only [QRange.left]
    omega

theorem takeUpper_quad {q : Nat} : ∀ (l : List QRange) (k : Nat), (∀ r ∈ l, r.quad = q) →
    (∀ r ∈ (takeUpper k l).1, r.quad = q) ∧ ∀ r ∈ (takeUpper k l).2, r.quad = q
  | [], k, _ => by simp [takeUpper]
  | r :: l, k, h => by
    obtain ⟨h1, h2⟩ := takeUpper_quad l (k - min k r.left) (fun x hx => h x (List.mem_cons_of_mem _ hx))
    have hr := h r List.mem_cons_self
    simp only [takeUpper, List.mem_cons]
    exact ⟨fun x hx => hx.elim (fun h => h ▸ hr) (h1 x), fun x hx => hx.elim (fun h => h ▸ hr) (h2 x)⟩

theorem into_perm (r : QRange) : ∀ l : List QRange, (r.into l).Perm (r :: l)
  | [] => List.Perm.refl _
  | x :: l => by
    unfold QRange.into
    split
    · exact List.Perm.refl _
    · exact ((into_perm r l).cons x).trans (List.Perm.swap r x l)

theorem foldr_into_perm (l : List QRange) : (l.foldr QRange.into []).Perm l := by
  induction l with
  | nil => exact List.Perm.refl _
  | cons r l ih => exact (into_perm r _).trans (ih.cons r)

/-- The ranges of a quad, those of higher crews first. -/
def quadFalling (l : List QRange) (v : Nat) : List QRange := (l.filter (fun r => r.quad == v)).foldr QRange.into []

theorem quadFalling_perm (l : List QRange) (v : Nat) : (quadFalling l v).Perm (l.filter (fun r => r.quad == v)) := foldr_into_perm _

theorem quadFalling_quad (l : List QRange) (v : Nat) : ∀ r ∈ quadFalling l v, r.quad = v := fun r hr => by
  have := (quadFalling_perm l v).mem_iff.mp hr
  simpa using (List.mem_filter.mp this).2

/-- A quad that steals gains the larger half of what the other holds. -/
theorem stolen_left {l : List QRange} {quad v : Nat} (hv : v ≠ quad) :
    quadLeft (stolen l quad v) quad = quadLeft l quad + (quadLeft l v + 1) / 2 ∧ quadLeft (stolen l quad v) v = quadLeft l v / 2 := by
  have hk : ceilDiv (quadLeft l v) 2 = (quadLeft l v + 1) / 2 := rfl
  have hall : crewsLeft (quadFalling l v) = quadLeft l v := by rw [quadLeft_eq, crewsLeft_perm (quadFalling_perm l v)]
  obtain ⟨t1, t2⟩ := takeUpper_left (quadFalling l v) (ceilDiv (quadLeft l v) 2)
  obtain ⟨q1, q2⟩ := takeUpper_quad (quadFalling l v) (ceilDiv (quadLeft l v) 2) (quadFalling_quad l v)
  rw [hall] at t1 t2
  have hst : stolen l quad v = (l.filter (fun r => r.quad != v) ++ (takeUpper (ceilDiv (quadLeft l v) 2) (quadFalling l v)).2 ++
      (takeUpper (ceilDiv (quadLeft l v) 2) (quadFalling l v)).1.map (fun r => (⟨quad, r.lo, r.hi⟩ : QRange))).filter (fun r => r.lo < r.hi) := rfl
  generalize takeUpper (ceilDiv (quadLeft l v) 2) (quadFalling l v) = x at t1 t2 q1 q2 hst
  have hmv : crewsLeft (x.1.map (fun r => (⟨quad, r.lo, r.hi⟩ : QRange))) = crewsLeft x.1 := by
    rw [crewsLeft, List.map_map]; rfl
  have hoth : quadLeft (l.filter (fun r => r.quad != v)) quad = quadLeft l quad := by
    rw [quadLeft_eq, quadLeft_eq, List.filter_filter]
    refine congrArg crewsLeft (List.filter_congr fun r _ => ?_)
    by_cases hr : r.quad = quad
    · simp [hr, hv.symm]
    · simp [hr]
  rw [hst, quadLeft_nonempty, quadLeft_nonempty, quadLeft_append, quadLeft_append, quadLeft_append, quadLeft_append, hoth,
    quadLeft_none (l := x.2) (fun r hr => by rw [q2 r hr]; exact hv), quadLeft_all (q := quad) (l := x.1.map _) (by simp),
    quadLeft_none (l := l.filter _) (q := v) (by simp), quadLeft_all q2, quadLeft_none (q := v) (l := x.1.map _) (by simp [hv.symm]), hmv, t1, t2, hk]
  omega

/-! ## The taken crews lie above those that stay -/

theorem into_falling (r : QRange) : ∀ l : List QRange, l.Pairwise (fun x y => y.lo ≤ x.lo) → (r.into l).Pairwise (fun x y => y.lo ≤ x.lo)
  | [], _ => by simp [QRange.into]
  | x :: l, h => by
    obtain ⟨hx, hl⟩ := List.pairwise_cons.mp h
    unfold QRange.into
    split
    · rename_i hlt
      refine List.pairwise_cons.mpr ⟨fun y hy => ?_, h⟩
      rcases List.mem_cons.mp hy with rfl | hy
      · exact Nat.le_of_lt hlt
      · exact Nat.le_trans (hx y hy) (Nat.le_of_lt hlt)
    · rename_i hge
      refine List.pairwise_cons.mpr ⟨fun y hy => ?_, into_falling r l hl⟩
      rcases List.mem_cons.mp ((into_perm r l).mem_iff.mp hy) with rfl | hy
      · omega
      · exact hx y hy

theorem foldr_into_falling (l : List QRange) : (l.foldr QRange.into []).Pairwise (fun x y => y.lo ≤ x.lo) := by
  induction l with
  | nil => exact List.Pairwise.nil
  | cons r l ih => exact into_falling r _ ih

/-- Two ranges share no crew. -/
def QRange.apart (x y : QRange) : Prop := x.hi ≤ y.lo ∨ y.hi ≤ x.lo

/-- In a falling list, a range that holds crews lies above every later one. -/
theorem quadFalling_above {l : List QRange} (h : l.Pairwise QRange.apart) (v : Nat) :
    (quadFalling l v).Pairwise (fun x y => x.lo < x.hi → y.hi ≤ x.lo) := by
  have hsym : ∀ {x y : QRange}, x.apart y → y.apart x := fun h => h.symm
  have hap : (quadFalling l v).Pairwise QRange.apart := (quadFalling_perm l v).symm.pairwise (h.filter _) hsym
  refine (hap.and (foldr_into_falling _)).imp ?_
  rintro x y ⟨h1 | h1, h2⟩ h3
  · omega
  · exact h1

theorem takeUpper_zero : ∀ (l : List QRange), ∀ x ∈ (takeUpper 0 l).1, ¬ x.lo < x.hi
  | [], x, h => by cases h
  | r :: l, x, h => by
    rcases List.mem_cons.mp h with rfl | h
    · simp
    · exact takeUpper_zero l x (by simpa using h)

/-- What stays of a range does not reach above it. -/
theorem takeUpper_stays : ∀ (l : List QRange) (k : Nat), ∀ y ∈ (takeUpper k l).2, ∃ r ∈ l, y.hi ≤ r.hi
  | [], k, y, h => by cases h
  | r :: l, k, y, h => by
    rcases List.mem_cons.mp h with rfl | h
    · exact ⟨r, List.mem_cons_self, Nat.sub_le _ _⟩
    · obtain ⟨z, hz, hy⟩ := takeUpper_stays l _ y h
      exact ⟨z, List.mem_cons_of_mem _ hz, hy⟩

/-- Of ranges that fall, what is taken lies above what stays. -/
theorem takeUpper_above : ∀ (l : List QRange) (k : Nat), l.Pairwise (fun x y => x.lo < x.hi → y.hi ≤ x.lo) →
    ∀ x ∈ (takeUpper k l).1, ∀ y ∈ (takeUpper k l).2, x.lo < x.hi → y.lo < y.hi → y.hi ≤ x.lo
  | [], k, _, x, hx, y, hy, _, _ => by cases hx
  | r :: l, k, h, x, hx, y, hy, hxl, hyl => by
    obtain ⟨hr, hl⟩ := List.pairwise_cons.mp h
    simp only [takeUpper] at hx hy
    rcases List.mem_cons.mp hx with rfl | hx
    · rcases List.mem_cons.mp hy with rfl | hy
      · exact Nat.le_refl _
      · obtain ⟨z, hz, hyz⟩ := takeUpper_stays l _ y hy
        have hn : min k r.left ≤ r.hi - r.lo := Nat.min_le_right _ _
        have hlt : r.lo < r.hi := by dsimp only at hxl; omega
        have hz := hr z hz hlt
        dsimp only
        omega
    · rcases List.mem_cons.mp hy with rfl | hy
      · have hk : k - min k r.left = 0 := by simp only [QRange.left] at hyl ⊢; omega
        rw [hk] at hx
        exact absurd hxl (takeUpper_zero l x hx)
      · exact takeUpper_above l _ hl x hx y hy hxl hyl

/-- The crews that a quad with none takes lie above those that stay with the other. -/
theorem stolen_above {l : List QRange} {quad v : Nat} (hv : v ≠ quad) (h0 : quadLeft l quad = 0) (h : l.Pairwise QRange.apart) :
    ∀ x ∈ stolen l quad v, ∀ y ∈ stolen l quad v, x.quad = quad → y.quad = v → y.hi ≤ x.lo := by
  obtain ⟨q1, q2⟩ := takeUpper_quad (quadFalling l v) (ceilDiv (quadLeft l v) 2) (quadFalling_quad l v)
  have hab := takeUpper_above (quadFalling l v) (ceilDiv (quadLeft l v) 2) (quadFalling_above h v)
  have hmem : ∀ z ∈ stolen l quad v, z.lo < z.hi ∧ ((z ∈ l ∧ z.quad ≠ v) ∨ z ∈ (takeUpper (ceilDiv (quadLeft l v) 2) (quadFalling l v)).2 ∨
      ∃ r ∈ (takeUpper (ceilDiv (quadLeft l v) 2) (quadFalling l v)).1, ⟨quad, r.lo, r.hi⟩ = z) := by
    intro z hz
    obtain ⟨hm, hlt⟩ := List.mem_filter.mp hz
    refine ⟨by simpa using hlt, ?_⟩
    rcases List.mem_append.mp hm with hm | hm
    · rcases List.mem_append.mp hm with hm | hm
      · exact .inl ⟨(List.mem_filter.mp hm).1, by simpa using (List.mem_filter.mp hm).2⟩
      · exact .inr (.inl hm)
    · exact .inr (.inr (List.mem_map.mp hm))
  intro x hx y hy hxq hyq
  obtain ⟨hxl, hx⟩ := hmem x hx
  obtain ⟨hyl, hy⟩ := hmem y hy
  have hyk : y ∈ (takeUpper (ceilDiv (quadLeft l v) 2) (quadFalling l v)).2 := by
    rcases hy with ⟨_, hne⟩ | hk | ⟨r, _, rfl⟩
    · exact absurd hyq hne
    · exact hk
    · exact absurd hyq hv.symm
  rcases hx with ⟨hm, _⟩ | hk | ⟨r, hr, rfl⟩
  · have := left_le_quadLeft hm
    rw [hxq, h0, QRange.left] at this
    omega
  · exact absurd ((q2 x hk).symm.trans hxq) hv
  · exact hab r hr y hyk hxl hyl

/-! ## Where a crew may be put (R341, R343) -/

theorem baseRuns_pos {crews : List Crew} {core n : Nat} {cor : Bool} : ∀ f ∈ baseRuns crews core n cor, 0 < f.2 := by
  intro f hf
  obtain ⟨b, _, rfl⟩ := List.mem_map.mp hf
  dsimp only
  split <;> omega

/-- A fold that keeps what it has or takes the element at hand ends with an element, or with what it began with. -/
theorem foldl_picks {α : Type} {f : Option α → α → Option α} (hf : ∀ b x y, f b x = some y → b = some y ∨ x = y) :
    ∀ (l : List α) (b : Option α) (y : α), l.foldl f b = some y → b = some y ∨ y ∈ l
  | [], _, _, h => .inl h
  | a :: l, b, y, h => by
    rcases foldl_picks hf l (f b a) y h with h | h
    · exact (hf b a y h).imp id (fun h => List.mem_cons.mpr (.inl h.symm))
    · exact .inr (List.mem_cons_of_mem _ h)

/-- A spot names at least one base. -/
theorem fitOn_bases {s : State} {crews : List Crew} {own : Nat → Nat} {ctx quad : Nat} {d : Desc} {x : Spot} (h : fitOn s crews own ctx d quad = some x) :
    x.bases ≠ [] ∧ ∀ f ∈ x.bases, 0 < f.2 := by
  unfold fitOn at h
  split at h
  · dsimp only at h
    refine (foldl_picks (fun b z y hb => ?_) _ none x h).elim (fun h => by cases h) (fun h => ?_)
    · split at hb
      · exact .inr (Option.some.inj hb)
      · split at hb
        · exact .inr (Option.some.inj hb)
        · exact .inl hb
    · obtain ⟨k, _, hk⟩ := List.mem_filterMap.mp h
      split at hk
      · split at hk
        · rename_i hok
          cases hk
          simp only [Bool.and_eq_true, Bool.not_eq_true', List.isEmpty_eq_false_iff] at hok
          exact ⟨hok.2, baseRuns_pos⟩
        · cases hk
      · cases hk
  · cases h

/-- The base picked is one that a run holds. -/
theorem pickBase_mem : ∀ (l : List (Nat × Nat)) (k : Nat), k < sumOf (·.2) l → ∃ f ∈ l, ∃ j, j < f.2 ∧ pickBase l k = f.1 + 256 * j
  | [], k, h => by simp [sumOf] at h
  | r :: l, k, h => by
    unfold pickBase
    split
    · exact ⟨r, List.mem_cons_self, k, ‹_›, rfl⟩
    · have hl : k - r.2 < sumOf (·.2) l := by
        simp only [sumOf, ← List.sum_eq_foldl, List.map_cons, List.sum_cons] at h ⊢
        omega
      obtain ⟨f, hf, hj⟩ := pickBase_mem l (k - r.2) hl
      exact ⟨f, List.mem_cons_of_mem _ hf, hj⟩

theorem choose_lt (s : State) {n : Nat} (h : 0 < n) : (s.choose n).1 < n := by
  unfold State.choose
  split
  · exact h
  · exact Nat.mod_lt _ h

theorem choose_frame (s : State) (n : Nat) : (s.choose n).2 = { s with freeCtr := (s.choose n).2.freeCtr } := by
  unfold State.choose
  split <;> rfl

/-- The base chosen among some runs that hold bases is one of theirs. -/
theorem base_picked {t : State} {l : List (Nat × Nat)} (h : l ≠ [] ∧ ∀ f ∈ l, 0 < f.2) :
    ∃ f ∈ l, ∃ j, j < f.2 ∧ pickBase l (t.choose (sumOf (·.2) l)).1 = f.1 + 256 * j := by
  obtain ⟨hne, hpos⟩ := h
  refine pickBase_mem l _ (choose_lt t ?_)
  obtain ⟨f, hf⟩ := List.exists_mem_of_ne_nil _ hne
  rw [sumOf, ← List.sum_eq_foldl]
  exact Nat.lt_of_lt_of_le (hpos f hf) (le_sum_of_mem (List.mem_map_of_mem (f := fun r : Nat × Nat => r.2) hf))

/-! ## The gangs of a new crew (R60, R63, R312) -/

/-- What a new gang of crew `crew` holds: one ready sub-gang of all lanes at the entry, PUEV, and LIVE zeros that expire by the crew's register code. -/
def NewGang (s : State) (crew : Nat) (d : Desc) (die : Nat) (uevec : Word64) (h : Gang) : Prop :=
  h.crew = some crew ∧ h.chunk = none ∧ h.core.subs = [⟨allLanes d.width, BitVec.ofNat 64 d.entry, .ready, 0⟩] ∧ h.core.uevec = uevec ∧
    ∀ a l, h.core.reg a l = ⟨0, .live, expiryTick (s.codeApplied die (d.ret0 % 16)) s.tick⟩

theorem newGang_new (s : State) (id crew num place : Nat) (d : Desc) (core : Nat) (uevec : Word64) :
    NewGang s crew d (coreDie core) uevec (s.newGang id crew num place d (coreDie core) core uevec) :=
  ⟨rfl, rfl, rfl, rfl, fun _ _ => rfl⟩

/-- Gangs join the list in the order of their numbers, named from the crew's name on. -/
theorem addGangs_spec (crew : Nat) (d : Desc) (core : Nat) (uevec : Word64) : ∀ (l : List (Nat × Nat)) (s : State),
    ∃ (n : List Gang), s.addGangs crew d core uevec l = { s with gangs := s.gangs ++ n, halves := (s.addGangs crew d core uevec l).halves } ∧
      n.map (fun h => h.id) = l.map (fun p => crew + 1 + p.1) ∧ ∀ h ∈ n, NewGang s crew d (coreDie core) uevec h
  | [], s => ⟨[], by simp [State.addGangs], rfl, fun _ h => by cases h⟩
  | (num, place) :: l, s => by
    obtain ⟨n, h1, h2, h3⟩ := addGangs_spec crew d core uevec l { s with
      gangs := s.gangs ++ [s.newGang (crew + 1 + num) crew num place d (coreDie core) core uevec],
      halves := if d.width = 32 then spPut 0 core (1 - (s.newGang (crew + 1 + num) crew num place d (coreDie core) core uevec).half) s.halves else s.halves }
    refine ⟨s.newGang (crew + 1 + num) crew num place d (coreDie core) core uevec :: n, ?_, ?_, ?_⟩
    · simp only [State.addGangs]
      rw [h1]
      simp
    · rw [List.map_cons, List.map_cons, h2]
      rfl
    · intro h hh
      rcases List.mem_cons.mp hh with rfl | hh
      · exact newGang_new s _ _ _ _ _ _ _
      · exact h3 h hh

/-! ## A crew put at a spot (R341) -/

/-- Crew `c` of item `i`, numbered `num`, as it stands at spot `x` of state `s`, its gangs apart. -/
def CrewAt (s : State) (i : Item) (num : Nat) (x : Spot) (c : Crew) : Prop :=
  c.id = s.nextId ∧ c.item = i.id ∧ c.ctx = i.ctx ∧ c.coreIx = x.core ∧ c.live = true ∧ c.num = num ∧ c.desc = i.desc ∧ c.sems = x.sems ∧
  (∃ f ∈ x.bases, ∃ j, j < f.2 ∧ c.base = f.1 + 256 * j) ∧ c.accbase = c.rb ∧ c.acclim = c.rb ∧ c.rb = x.rb ∧
  let k := s.codeApplied (coreDie x.core) (i.desc.ret1 % 16)
  c.allocs = [⟨0, i.desc.staticBytes, k, expiryTick k s.tick, ⟨0, .live⟩, []⟩]

/-- The state with crew `c` of `ng` gangs listed and named, its semaphores reset, and `f` choices taken. -/
def State.enrol (s : State) (c : Crew) (ng f : Nat) : State :=
  { s with freeCtr := f, crews := s.crews ++ [c], nextId := s.nextId + 1 + ng, sems := s.sems.filter (fun n => !c.sems.contains n.1) }

/-- A crew is made by listing it, then its gangs. -/
theorem makeCrew_eq (s : State) (i : Item) (num p : Nat) {x : Spot} (hb : x.bases ≠ [] ∧ ∀ f ∈ x.bases, 0 < f.2) :
    ∃ c f, s.makeCrew i num x p = (s.enrol c i.desc.ng f).addGangs s.nextId i.desc x.core (s.part p).puev ((List.range i.desc.ng).zip x.gangs) ∧
      CrewAt s i num x c ∧ c.gangs = rangeFrom (s.nextId + 1) i.desc.ng := by
  have hbase := base_picked (t := s) hb
  have hfr := choose_frame s (sumOf (·.2) x.bases)
  unfold State.makeCrew
  generalize s.choose (sumOf (·.2) x.bases) = k at hfr hbase ⊢
  obtain ⟨k, u⟩ := k
  dsimp only at hfr hbase ⊢
  generalize u.freeCtr = f at hfr
  subst hfr
  exact ⟨_, f, rfl, ⟨rfl, rfl, rfl, rfl, rfl, rfl, rfl, rfl, hbase, rfl, rfl, rfl, rfl⟩, rfl⟩

/-- The gangs of a crew are numbered in the order of their places. -/
theorem zip_names (id ng : Nat) (places : List Nat) (h : places.length = ng) :
    ((List.range ng).zip places).map (fun p => id + 1 + p.1) = rangeFrom (id + 1) ng := by
  rw [show (fun p : Nat × Nat => id + 1 + p.1) = (· + (id + 1)) ∘ Prod.fst from funext fun p => Nat.add_comm _ _, ← List.map_map,
    List.map_fst_zip (by simp [h])]
  rfl

/-- A crew at a spot with a place for each of its gangs: one crew and its gangs join the lists, and nothing else changes but names, choices, semaphores and homes. -/
theorem makeCrew_spec (s : State) (i : Item) (num p : Nat) {x : Spot} (hb : x.bases ≠ [] ∧ ∀ f ∈ x.bases, 0 < f.2) (hg : x.gangs.length = i.desc.ng) :
    ∃ (c : Crew) (n : List Gang), s.makeCrew i num x p = { s with
        crews := s.crews ++ [c], gangs := s.gangs ++ n, nextId := s.nextId + 1 + i.desc.ng,
        freeCtr := (s.makeCrew i num x p).freeCtr, sems := (s.makeCrew i num x p).sems, halves := (s.makeCrew i num x p).halves } ∧
      CrewAt s i num x c ∧ c.gangs = n.map (fun h => h.id) ∧ n.length = i.desc.ng ∧
      ∀ h ∈ n, NewGang s c.id i.desc (coreDie x.core) (s.part p).puev h := by
  obtain ⟨c, f, h0, hc, hgs⟩ := makeCrew_eq s i num p hb
  obtain ⟨n, h1, h2, h3⟩ := addGangs_spec s.nextId i.desc x.core (s.part p).puev ((List.range i.desc.ng).zip x.gangs) (s.enrol c i.desc.ng f)
  have hn := h2.trans (zip_names s.nextId i.desc.ng x.gangs hg)
  have hlen : n.length = i.desc.ng := by
    rw [← List.length_map (f := fun h : Gang => h.id), hn]
    simp [rangeFrom]
  refine ⟨c, n, ?_, hc, hgs.trans hn.symm, hlen, fun h hh => ?_⟩
  · rw [h0, h1]; rfl
  · rw [hc.1]; exact h3 h hh

/-! ## The next crew of a quad's range (R341, R345) -/

/-- An item after its next crew on the range `r` was placed. -/
def Item.advanced (i : Item) (r : QRange) : Item :=
  { i with placed := i.placed + 1, ranges := i.ranges.map (fun y => if y = r then { y with lo := y.lo + 1 } else y) }

@[simp] theorem advanced_id (i : Item) (r : QRange) : (i.advanced r).id = i.id := rfl

/-- Where every waiting item of a partition is split over its present quads, the split changes nothing. -/
theorem splitAll_split {s : State} {p : Nat} (h : ∀ j ∈ s.items, s.partOfCtx j.ctx = some p → j.split = some (s.partQuads p)) : s.splitAll p = s := by
  simp only [State.splitAll]
  split
  · rfl
  · refine congrArg (fun l => ({ s with items := l } : State)) (map_same fun j hj => ?_ : _ = s.items)
    split
    · rename_i hc
      simp only [Bool.and_eq_true, beq_iff_eq, bne_iff_ne] at hc
      exact absurd (h j hj hc.1) hc.2
    · rfl

/-- What a step of placement does where the order of service and the fit allow the next crew of a lone-crew item. -/
theorem placeStep_next {s : State} {i : Item} {quad p : Nat} {r : QRange} {x : Spot} (hi : s.item? i.id = some i) (hc : i.desc.cor = false)
    (hp : s.partOfCtx i.ctx = some p) (hsp : ∀ j ∈ s.items, s.partOfCtx j.ctx = some p → j.split = some (s.partQuads p)) (hrun : (s.part p).st = .running)
    (hq : (s.partQuads p).contains quad = true) (hlt : i.placed < i.total) (hr : i.rangeAt quad = some r) (hh : s.heldBack p i [quad] = false)
    (hx : s.spotFor i quad = some x) : s.placeStep i.id quad = (s.makeCrew i r.lo x p).putItem (i.advanced r) := by
  have hadv : i.advanced r = { i with placed := i.placed + 1, ranges := mapIf (fun y => y == r) (fun y => { y with lo := y.lo + 1 }) i.ranges } := by
    simp [Item.advanced, mapIf]
  have hq' : quad ∈ s.partQuads p := by simpa using hq
  rw [hadv]
  simp [State.placeStep, hi, hp, hrun, hc, splitAll_split hsp, State.placeItem, hq', hr, hh, hx, State.placeNext, Nat.not_le.mpr hlt]

/-- Lookup by number after the elements with the number of `v` were replaced by it. -/
theorem find?_mapIf_const {α : Type} (key : α → Nat) (v : α) (l : List α) (j : Nat) :
    (mapIf (fun x => key x == key v) (fun _ => v) l).find? (fun x => key x == j) =
      if j = key v then (l.find? (fun x => key x == j)).map (fun _ => v) else l.find? (fun x => key x == j) := by
  have hf : mapIf (fun x => key x == key v) (fun _ => v) l = mapIf (fun x => key x == key v) (fun x => if key x = key v then v else x) l :=
    List.map_congr_left fun x _ => by by_cases h : key x = key v <;> simp [h]
  rw [hf, find?_mapIf key (key v) _ (fun x => by split <;> simp [*])]
  split
  · rename_i hj
    cases hx : l.find? (fun x => key x == j) with
    | none => rfl
    | some x => simp [(find?_key hx).trans hj]
  · rfl

theorem item?_putItem (s : State) (i : Item) (k : Nat) :
    (s.putItem i).item? k = if k = i.id then (s.item? k).map (fun _ => i) else s.item? k := find?_mapIf_const Item.id i s.items k

theorem crewPlacement_next {s : State} {i : Item} {quad p : Nat} {r : QRange} {x : Spot} (hi : s.item? i.id = some i) (hc : i.desc.cor = false)
    (hp : s.partOfCtx i.ctx = some p) (hsp : ∀ j ∈ s.items, s.partOfCtx j.ctx = some p → j.split = some (s.partQuads p)) (hrun : (s.part p).st = .running)
    (hq : (s.partQuads p).contains quad = true) (hlt : i.placed < i.total) (hr : i.rangeAt quad = some r) (hh : s.heldBack p i [quad] = false)
    (hx : s.spotFor i quad = some x) (hg : x.gangs.length = i.desc.ng) :
    ∃ (t : State) (c : Crew) (n : List Gang), exec (.crewPlacement i.id quad) s = .next t ∧
      t = { s with crews := s.crews ++ [c], gangs := s.gangs ++ n, items := t.items, nextId := s.nextId + 1 + i.desc.ng, freeCtr := t.freeCtr, sems := t.sems,
                   halves := t.halves } ∧
      t.item? i.id = some (i.advanced r) ∧ (∀ k, k ≠ i.id → t.item? k = s.item? k) ∧
      CrewAt s i r.lo x c ∧ c.gangs = n.map (fun h => h.id) ∧ n.length = i.desc.ng ∧
      ∀ h ∈ n, NewGang s c.id i.desc (coreDie x.core) (s.part p).puev h := by
  have hb : x.bases ≠ [] ∧ ∀ f ∈ x.bases, 0 < f.2 := by
    unfold State.spotFor at hx
    split at hx
    · exact fitOn_bases hx
    · cases hx
  obtain ⟨c, n, hm, hrest⟩ := makeCrew_spec s i r.lo p hb hg
  have hitem : ∀ k, (s.makeCrew i r.lo x p).item? k = s.item? k := fun k => by rw [hm]; rfl
  refine ⟨(s.makeCrew i r.lo x p).putItem (i.advanced r), c, n, ?_, ?_, ?_, fun k hk => ?_, hrest⟩
  · exact congrArg Host.Outcome.next (placeStep_next hi hc hp hsp hrun hq hlt hr hh hx)
  · generalize s.makeCrew i r.lo x p = u at hm ⊢
    rw [hm]; rfl
  · rw [item?_putItem, advanced_id, if_pos rfl, hitem, hi]; rfl
  · rw [item?_putItem, advanced_id, if_neg hk, hitem]

/-- A quad whose range is empty steals where it may (R342). -/
theorem quadSteal_steals {s : State} {i : Item} {quad p v : Nat} {x : Spot} (hi : s.item? i.id = some i) (hc : i.desc.cor = false)
    (hsp : i.split = some (s.partQuads p)) (hr : i.rangeAt quad = none) (hp : s.partOfCtx i.ctx = some p) (hrun : (s.part p).st = .running)
    (hq : (s.partQuads p).contains quad = true) (hv : victimQuad i.ranges quad = some v) (hx : s.spotFor i quad = some x) :
    exec (.quadSteal i.id quad) s = .next (s.putItem { i with ranges := stolen i.ranges quad v }) := by
  have hq' : quad ∈ s.partQuads p := by simpa using hq
  have hfrom : s.stealFrom p i quad = some v := by simp [State.stealFrom, hc, hsp, hr, hq', hv, hx]
  refine congrArg Host.Outcome.next ?_
  simp [State.stealStep, hi, hp, hrun, hfrom]

/-! ## Records of faulted gangs (R39, R373) -/

/-- The record of a faulted gang of a crew that has exited. -/
def exitRecord (s : State) (c : Crew) (g : Gang) (last : Bool) : List Byte :=
  recordBytes [(0, 1, cOperandRange), (1, 1, 3), (2, 2, if last then 1 else 0), (4, 4, c.ctx % 4096), (8, 8, s.tokenOf g 0), (16, 8, 0),
    (24, 8, g.core.fmask.toNat), (32, 8, c.num % 2 ^ 32 + g.num * 2 ^ 32), (40, 16, 0), (88, 8, s.tick)]

/-- A list whose last element is told apart. -/
def markLast {α β : Type} (f : α → Bool → β) : List α → List β
  | [] => []
  | a :: l => f a l.isEmpty :: markLast f l

theorem markLast_length {α β : Type} (f : α → Bool → β) : ∀ l : List α, (markLast f l).length = l.length
  | [] => rfl
  | a :: l => by simp [markLast, markLast_length f l]

theorem markLast_get {α β : Type} (f : α → Bool → β) : ∀ (l : List α) (k : Nat) (a : α), l[k]? = some a →
    (markLast f l)[k]? = some (f a (k + 1 = l.length))
  | [], _, _, h => by cases h
  | b :: l, 0, a, h => by
    obtain rfl := Option.some.inj h
    cases l <;> simp [markLast]
  | b :: l, k + 1, a, h => by
    simpa [markLast] using markLast_get f l k a h

/-- The records of some faulted gangs, the last marked LAST; their tag names the crew. -/
def exitRecords (s : State) (c : Crew) (l : List Gang) : List (Nat × List Byte) := markLast (fun g last => (c.id + 1, exitRecord s c g last)) l

theorem exitRecordsOf_eq (c : Crew) : ∀ (l : List Gang) (s : State),
    s.exitRecordsOf c l = { s with fq := { s.fq with waiting := s.fq.waiting ++ exitRecords s c l } }
  | [], s => by simp [State.exitRecordsOf, exitRecords, markLast]
  | g :: l, s => by
    unfold State.exitRecordsOf
    rw [exitRecordsOf_eq c l]
    simp only [State.kindRecord, State.addRecord, List.append_assoc]
    rfl

theorem exitRecords_length (s : State) (c : Crew) (l : List Gang) : (exitRecords s c l).length = l.length := markLast_length _ l

theorem exitRecords_get (s : State) (c : Crew) {l : List Gang} {k : Nat} {g : Gang} (h : l[k]? = some g) :
    (exitRecords s c l)[k]? = some (c.id + 1, exitRecord s c g (k + 1 = l.length)) := markLast_get _ l k g h

/-- When the last gang of a crew exits, its records join the hub's order. -/
theorem crewExit_eq {s : State} {c : Crew} (h0 : c.exitRecords = false) (h : s.crewExited c = true) : s.crewExit c = { s with
    fq := { s.fq with waiting := s.fq.waiting ++ exitRecords s c (s.faulted c) },
    crews := mapIf (fun x => x.id == c.id) (fun k => { k with exitRecords := true }) s.crews } := by
  simp only [State.crewExit, h0, h, exitRecordsOf_eq]
  rfl

theorem crewExit_waiting {s : State} {c : Crew} (h0 : c.exitRecords = false) (h : s.crewExited c = true) :
    (s.crewExit c).fq.waiting = s.fq.waiting ++ exitRecords s c (s.faulted c) := by rw [crewExit_eq h0 h]

theorem crewExit_done {s : State} {c : Crew} (h : c.exitRecords = true) : s.crewExit c = s := by simp [State.crewExit, h]

/-- An exit of a gang whose crew holds no barrier slot leaves the hub's order as the crew's exit does. -/
theorem gangExit_fq {s : State} {c : Crew} {g : Gang} (hg : s.gang? g.id = some g) (hc : s.crewOf g = some c) (hb : s.barsOf c = []) :
    (s.gangExit g.id).fq = (s.crewExit c).fq := by
  have hcheck : ∀ (t : State) (n : Nat), (t.checkCrew n).fq = t.fq := by
    intro t n
    unfold State.checkCrew
    split
    · split <;> rfl
    · rfl
  simp only [State.gangExit, hg, hc, hb, hcheck]
  simp

/-! ## The release of a crew (R210, R372) -/

theorem crewDone_exited {s : State} {c : Crew} (h : s.crewDone c = true) : s.crewExited c = true := by
  refine List.all_eq_true.mpr fun i hi => ?_
  have := List.all_eq_true.mp h i hi
  cases hg : s.gang? i with
  | none => rfl
  | some g =>
    simp only [hg, Bool.and_eq_true] at this
    exact this.1

/-- Whether a crew's records wait to enter. -/
def State.recordsWait (s : State) (cid : Nat) : Bool := s.fq.waiting.any (fun r => r.1 == cid + 1)

theorem releaseStep_of {s : State} {c : Crew} (h : s.crew? c.id = some c) : s.releaseStep c.id =
    if s.crewDone c then (if (s.crewExit c).recordsWait c.id then s.crewExit c else (s.crewExit c).freeCrew c) else s := by
  simp only [State.releaseStep, h, State.recordsWait]
  cases s.crewDone c <;> rfl

/-- While records that have just joined the order wait, the crew stays. -/
theorem releaseStep_records {s : State} {c : Crew} (h : s.crew? c.id = some c) (hd : s.crewDone c = true) (h0 : c.exitRecords = false)
    (hf : s.faulted c ≠ []) : s.releaseStep c.id = s.crewExit c := by
  have hw : (s.crewExit c).recordsWait c.id = true := by
    unfold State.recordsWait
    rw [crewExit_waiting h0 (crewDone_exited hd)]
    obtain ⟨g, l, hl⟩ := List.exists_cons_of_ne_nil hf
    simp [hl, exitRecords, markLast]
  rw [releaseStep_of h, if_pos hd, if_pos hw]

theorem crewExit_crew {s : State} {c : Crew} (h : s.crew? c.id = some c) (h0 : c.exitRecords = false) (he : s.crewExited c = true) :
    (s.crewExit c).crew? c.id = some { c with exitRecords := true } := by
  rw [crewExit_eq h0 he]
  have := crew?_mapCrew s c.id (fun k => { k with exitRecords := true }) (fun _ => rfl) c.id
  rw [if_pos rfl, h] at this
  exact this

/-- Freeing a crew removes it and its gangs; its successor's join block is then to be decremented. -/
theorem freeCrew_eq (s : State) (c : Crew) : ∃ t, s.freeCrew c = t ∧
    t = { s with crews := s.crews.filter (fun y => y.id != c.id), gangs := s.gangs.filter (fun g => g.crew != some c.id),
                 items := t.items, sems := t.sems, tokenReqs := t.tokenReqs, reqs := t.reqs,
                 hub := s.hub ++ (if c.succ = 0 then [] else [.decrement c.succ c.ctx false]) } := by
  refine ⟨_, rfl, ?_⟩
  unfold State.freeCrew
  dsimp only
  by_cases hs : c.succ = 0 <;> simp only [hs, if_true, if_false]
  all_goals
    split
    · simp
    · split
      · simp
      · simp [State.putItem]

/-- Changes of the elements with one number do not show where those are left out. -/
theorem filter_mapIf_ne {α : Type} (key : α → Nat) (k : Nat) (f : α → α) (hf : ∀ x, key (f x) = key x) (l : List α) :
    (mapIf (fun x => key x == k) f l).filter (fun x => key x != k) = l.filter (fun x => key x != k) := by
  induction l with
  | nil => rfl
  | cons x l ih =>
    rw [show mapIf (fun x => key x == k) f (x :: l) = (if key x == k then f x else x) :: mapIf (fun x => key x == k) f l from rfl]
    by_cases h : key x = k <;> simp [h, hf, ih]

/-- A crew's exit that reports nothing new changes at most its own mark. -/
theorem crewExit_silent {s : State} {c : Crew} (hd : s.crewDone c = true) (h : c.exitRecords = true ∨ s.faulted c = []) :
    ∃ l, s.crewExit c = { s with crews := l } ∧ l.filter (fun y => y.id != c.id) = s.crews.filter (fun y => y.id != c.id) := by
  cases h0 : c.exitRecords with
  | true => exact ⟨s.crews, crewExit_done h0, rfl⟩
  | false =>
    have hf := h.resolve_left (by simp [h0])
    refine ⟨_, crewExit_eq h0 (crewDone_exited hd) |>.trans ?_, filter_mapIf_ne Crew.id c.id (fun k => { k with exitRecords := true }) (fun _ => rfl) s.crews⟩
    simp [hf, exitRecords, markLast]

/-- A crew with nothing outstanding and no record waiting goes away (R210). -/
theorem releaseStep_frees {s : State} {c : Crew} (h : s.crew? c.id = some c) (hd : s.crewDone c = true)
    (hq : c.exitRecords = true ∨ s.faulted c = []) (hw : s.recordsWait c.id = false) : ∃ t, s.releaseStep c.id = t ∧
    t = { s with crews := s.crews.filter (fun y => y.id != c.id), gangs := s.gangs.filter (fun g => g.crew != some c.id),
                 items := t.items, sems := t.sems, tokenReqs := t.tokenReqs, reqs := t.reqs,
                 hub := s.hub ++ (if c.succ = 0 then [] else [.decrement c.succ c.ctx false]) } := by
  obtain ⟨l, he, hl⟩ := crewExit_silent hd hq
  have hw' : ({ s with crews := l } : State).recordsWait c.id = false := hw
  rw [releaseStep_of h, if_pos hd, he, hw', if_neg Bool.false_ne_true, ← hl]
  exact freeCrew_eq { s with crews := l } c

/-! ## The statement, part by part -/

/-- A core's cycle (R347 to R349). -/
theorem issueCycle_counts (s : State) (core : Nat) :
    ∃ (t : State) (r : List GroupRef), exec (.issueCycle core) s = .next t ∧ t = { s with gangs := t.gangs, issue := s.issue ++ r } ∧ r.length ≤ 2 ∧
      (s.cands core = [] → r = []) ∧ (∀ x, bestCand (s.cands core) = some x → ⟨x.gang, toLane x.lead⟩ ∈ r) ∧
      ∀ (g : Gang) (y : SubGang), g ∈ s.coreGangs core → s.gang? g.id = some g → g.core.subs = [y] →
        (s.groupReady g y = true → t.gang? g.id = some { g with core := { g.core with subs := [{ y with waited := y.waited + 1 }] } }) ∧
        ((∀ x ∈ s.cands core, x.gang ≠ g.id) → t.gang? g.id = some { g with core := { g.core with subs := [{ y with waited := 0 }] } }) := by
  refine ⟨s.cycle core, (chooseTwo (s.cands core)).map (fun c => ⟨c.gang, toLane c.lead⟩), rfl, cycle_frame s core, ?_, fun h => ?_, fun x hx => ?_,
    fun g y hg hs hy => ?_⟩
  · rw [List.length_map]; exact chooseTwo_length _
  · rw [h]; rfl
  · exact List.mem_map.mpr ⟨x, bestCand_mem_chooseTwo hx, rfl⟩
  · rw [cycle_gang hg hs, hy, List.map_singleton]
    exact ⟨fun hr => by rw [counted_ready hg (hy ▸ List.mem_singleton_self y) hr], fun hn => by rw [counted_unready hn]⟩

/-- The exit of a crew's last gang (R39, R373). -/
theorem crewExit_records {s : State} {c : Crew} (h0 : c.exitRecords = false) (h : s.crewExited c = true) :
    (∀ k g, (s.faulted c)[k]? = some g → (s.crewExit c).fq.waiting[s.fq.waiting.length + k]? =
      some (c.id + 1, exitRecord s c g (k + 1 = (s.faulted c).length))) ∧
    (s.crewExit c).fq.waiting.length = s.fq.waiting.length + (s.faulted c).length := by
  rw [crewExit_waiting h0 h]
  refine ⟨fun k g hk => ?_, by rw [List.length_append, exitRecords_length]⟩
  rw [List.getElem?_append_right (Nat.le_add_right _ _), Nat.add_sub_cancel_left]
  exact exitRecords_get s c hk

/-- Settles O49: the ranking compares in turn what R347 names (`before_iff`), placement adds one crew and its gangs (`makeCrew_spec`), what is taken of a falling list of ranges lies above what stays (`takeUpper_above`), and a crew's release is its exit, then its removal (`releaseStep_of`). -/
theorem issueSelection : Obligations.IssueSelection := by
  unfold Obligations.IssueSelection
  refine ⟨⟨issueCycle_counts, fun e a x => split_waited e a, fun l x h => ⟨(bestCand_spec l x h).1, bestCand_starved h, bestCand_fresh h⟩⟩,
    ?place, ?steal, fun l quad v => victimQuad_spec, fun l quad v hv => ?taken, fun s c h0 h => ?exits, fun s c hc => ?release⟩
  case place =>
    intro s i quad p r x hi hc hp hsp hrun hq hlt hr hh hx hg
    obtain ⟨t, c, n, hstep, hframe, hadv, hothers, hcrew, hgangs, hlen, hnew⟩ := crewPlacement_next hi hc hp hsp hrun hq hlt hr hh hx hg
    obtain ⟨hid, hitem, hctx, hcore, hlive, hnum, hdesc, hsems, hbase, hacc, hlim, hrb, hallocs⟩ := hcrew
    exact ⟨t, c, n, hstep, hframe, hadv, hothers, hid, hitem, hctx, hcore, hlive, hnum, hdesc, hsems, hbase, hacc, hlim, hrb, hgangs, hlen, hallocs, hnew⟩
  case steal =>
    intro s i quad p v x hi hc hsp hr hp hrun hq hv hx
    exact quadSteal_steals hi hc hsp hr hp hrun hq hv hx
  case taken =>
    exact ⟨(stolen_left hv).1, (stolen_left hv).2, stolen_above hv⟩
  case exits =>
    obtain ⟨hrec, hlen⟩ := crewExit_records h0 h
    exact ⟨fun k g hk => by simpa [exitRecord] using hrec k g hk, hlen, fun g hg hgc hb => gangExit_fq hg hgc hb⟩
  case release =>
    refine ⟨fun hd => ?_, fun hd h0 hf => ?_, fun hd hq hw => ?_⟩
    · have hstay : s.releaseStep c.id = s := by rw [releaseStep_of hc, hd, if_neg Bool.false_ne_true]
      exact congrArg Host.Outcome.next hstay
    · have he := crewDone_exited hd
      refine ⟨s.crewExit c, congrArg Host.Outcome.next (releaseStep_records hc hd h0 hf), (crewExit_records h0 he).2, crewExit_crew hc h0 he, ?_, ?_⟩
      · rw [crewExit_eq h0 he]
      · rw [crewExit_eq h0 he]
    · obtain ⟨t, h1, h2⟩ := releaseStep_frees hc hd hq hw
      exact ⟨t, congrArg Host.Outcome.next h1, h2⟩

end Sys2Proof.Machine
end

section
/-! PROOFS. redux and scan (R201, R202): what a body does that writes the lanes' results at once and raises flags, and that the two reductions have such bodies, over the nodes of the tree of R105 and R106. -/

namespace Sys2Proof.Machine

/-! ## The checks that a group passes which executes -/

theorem executes_check {e : Env} {sp : Spec} (h : e.executes sp = true) : e.check sp = none := by
  simp only [Env.executes, Bool.and_eq_true, beq_iff_eq] at h
  obtain ⟨⟨⟨⟨⟨⟨hc, _⟩, _⟩, _⟩, _⟩, _⟩, _⟩ := h
  exact hc

/-- Where no check traps, every slot passes step 8 of R154. -/
theorem check_useOk {e : Env} {sp : Spec} (h : e.check sp = none) : ∀ u ∈ sp.uses, e.useOk (sp.uses.any Use.scalarDst) u = true := by
  unfold Env.check at h
  split at h
  · cases h
  · split at h
    · cases h
    · split at h
      · cases h
      · dsimp only at h
        split at h
        · cases h
        · rename_i hfind
          intro u hu
          have hok := List.find?_eq_none.mp hfind u hu
          rwa [Bool.not_eq_true, Bool.not_eq_false'] at hok

/-- A destination that must be a vector register is one, where the instruction executes (R58, R202). -/
theorem executes_dstV {e : Env} {sp : Spec} {d : Dst} {w : Nat} (h : e.executes sp = true) (hd : .dstV d w ∈ sp.uses) : ∃ n, d = .v n := by
  have hok := check_useOk (executes_check h) _ hd
  cases d with
  | v n => exact ⟨n, rfl⟩
  | s n => cases hok

/-! ## Bodies that write the lanes' results at once and raise flags -/

/-- A body that writes the results `f` of the lanes, raises the flags `x` and touches no chunk completes with both and nothing else. -/
theorem writeStep_of_flags {i : Instr} {s : State} {n : Nat} {g : Guard} {sp : Env → Spec} {body : Env → State → Gang → Res} {e : Env}
    {d : Dst} {w : Nat} {f : Nat → LaneRes} {x : Flags}
    (hi : exec i s = issue n g sp body s) (he : s.env n g = some e) (hx : e.executes (sp e) = true)
    (hk : (sp e).chunk = .plain ∧ (sp e).ctr = .none) (hd : ∀ r, r ∈ (sp e).uses.flatMap Use.dregs ↔ dstHas d w r = true)
    (hb : body e.opened s e.opened.g =
      .ok s { e.opened.g with core := (e.core.writeDst (s.regCode e.g) s.tick d w (e.results d f)).orFlags x } e.through) :
    WriteStep i s s e (sp e) { e.core with fpflags := e.core.fpflags ||| x } d w f e.OneMore := by
  obtain ⟨hplain, hctr⟩ := hk
  have hroom := executes_room hx
  have hw := writeDst_same e.core (s.regCode e.g) s.tick d w (e.results d f)
  have hplace : let c := (e.core.writeDst (s.regCode e.g) s.tick d w (e.results d f)).orFlags x
      c.subs = e.core.subs ∧ c.fams = e.core.fams ∧ c.ldepth = e.core.ldepth := by
    rw [hw]
    exact ⟨rfl, rfl, rfl⟩
  refine writeStep_of hi he hx (by rw [hplain]; decide) hb (room_same hroom) rfl (room_implicit hroom) (through_plain e) hplace
    (.inr hd) rfl rfl ?core rfl ⟨rfl, rfl⟩ (fun _ _ => rfl)
  case core =>
    rw [hctr, GangCore.ctrUp, GangCore.orFlags, hw]

/-! ## redux and scan -/

/-- A destination that must be a vector register names the registers that one of either kind names. -/
theorem dstV_dregs (d : Dst) (w : Nat) : (Use.dstV d w).dregs = (Use.dst d w).dregs := by
  cases d <;> rfl

/-- The destination is the only slot of a reduction that it writes. -/
theorem redSpec_dregs {u : Use} {d : Dst} {w : Nat} (hu : u.dregs = (Use.dst d w).dregs) (g : Guard) (a : MSrc) (e : Env) (r : Nat) :
    r ∈ (redSpec g u a w e).uses.flatMap Use.dregs ↔ dstHas d w r = true := by
  have hsrc : (Use.red 1 a.src w).dregs = [] := rfl
  rw [← aluSpec_dregs g d w [] [] e r]
  simp [redSpec, aluSpec, hu, hsrc]

/-- Opening a chunk changes no source that a reduction reads, so none of its traps. -/
theorem redTrap_opened (k : RedKind) (e : Env) (a : MSrc) : redTrap k e.opened a = redTrap k e a := rfl

/-- Settles O12: each body writes the lanes' results at once, redux the root of the tree and scan the fold of the covering nodes, and raises their flags (`writeStep_of_flags`); the lanes in which scan computes are all that execute, its destination being a vector register (`executes_dstV`). -/
theorem reductions : Obligations.Reductions := by
  unfold Obligations.Reductions
  refine ⟨?redux, ?scan⟩
  case redux =>
    intro o s e k w root he hx ht
    refine writeStep_of_flags (sp := redSpec o.g (.dst o.d w) o.a w) rfl he hx ⟨rfl, rfl⟩ (redSpec_dregs rfl o.g o.a e) ?_
    dsimp only
    rw [redTrap_opened, ht]
    rfl
  case scan =>
    intro o s e k w op node f he hx ht
    obtain ⟨n, hn⟩ := executes_dstV (d := o.d) (w := w) hx List.mem_cons_self
    have hlanes : e.computing o.d = e.lanes := by rw [hn]; rfl
    refine writeStep_of_flags (sp := redSpec o.g (.dstV o.d w) o.a w) rfl he hx ⟨rfl, rfl⟩ (redSpec_dregs (dstV_dregs o.d w) o.g o.a e) ?_
    dsimp only
    rw [redTrap_opened, ht, Env.results, hlanes]
    simp only [List.map_map]
    rfl

end Sys2Proof.Machine
end
